-- ==== Sys2Proof/Word.lean ====
section
/-! DEFINITION. The data units of the MC68000: byte, word and long word, and the three operation sizes (R8, R23). -/

namespace Sys2Proof

/-- A byte, 8 bits (R8). -/
abbrev Byte := BitVec 8

/-- A word, 16 bits: also the instruction unit (R8, R110). -/
abbrev Word := BitVec 16

/-- A long word, 32 bits: the width of a register and of an address (R8, R30, R32, R71). -/
abbrev Long := BitVec 32

/-- The operation sizes `B`, `W` and `L` (R8). -/
inductive Size
  | b | w | l
  deriving DecidableEq, Repr

/-- `sz`, the operation size in bits (R8). -/
abbrev Size.bits : Size → Nat
  | .b => 8
  | .w => 16
  | .l => 32

/-- `bytes(sz)`, the operation size in bytes (R8). -/
def Size.bytes : Size → Nat
  | .b => 1
  | .w => 2
  | .l => 4

end Sys2Proof
end

