-- ==== Sys2Proof/Syntax.lean ====
section
/-! DEFINITION. The instructions as syntax: one constructor of `Instr` per row of spec/opcode_table.json, with the operands
the row's fields and extension words carry (R24, R113 to R126). -/

namespace Sys2Proof

/-- A register number, 0 to 7 (R30, R32). -/
abbrev RegNum := Fin 8

/-- The index extension word of the indexed modes: the index register's kind and number, its size and the signed 8-bit
displacement (R119). -/
structure IndexWord where
  isAddr : Bool
  reg : RegNum
  isLong : Bool
  disp : Byte
  deriving DecidableEq, Repr

/-- An effective address with its extension words: the twelve encodable modes of R114. -/
inductive Ea
  | dn (n : RegNum)
  | an (n : RegNum)
  | ind (n : RegNum)
  | postinc (n : RegNum)
  | predec (n : RegNum)
  | disp (n : RegNum) (d16 : Word)
  | index (n : RegNum) (x : IndexWord)
  | absW (a : Word)
  | absL (a : Long)
  | pcDisp (d16 : Word)
  | pcIndex (x : IndexWord)
  | imm (v : Long)
  deriving DecidableEq, Repr

/-- The sixteen conditions, in the order of their codes (R123, R291). -/
inductive Cond
  | t | f | hi | ls | cc | cs | ne | eq | vc | vs | pl | mi | ge | lt | gt | le
  deriving DecidableEq, Repr

/-- A branch displacement: 8 bits inside the operation word, or one extension word (R290). -/
inductive BranchDisp
  | short (d8 : Byte)
  | word (d16 : Word)
  deriving DecidableEq, Repr

/-- The count of a register shift: the 3-bit quick field, or a data register (R260). -/
inductive ShiftCount
  | quick (q : BitVec 3)
  | reg (m : RegNum)
  deriving DecidableEq, Repr

/-- The two forms of the register-pair instructions: `Dy,Dx` and `-(Ay),-(Ax)` (R204, R230). -/
inductive PairForm
  | regs | predec
  deriving DecidableEq, Repr

/-- The four forms of `MOVEP`, the opmode field of R185. -/
inductive MovepForm
  | wordToReg | longToReg | wordToMem | longToMem
  deriving DecidableEq, Repr

/-- One constructor per row of spec/opcode_table.json, in the table's order; LAWS.json maps each to its row. -/
inductive Instr
  | oriToCcr (imm : Byte)
  | oriToSr (imm : Word)
  | ori (sz : Size) (imm : Long) (ea : Ea)
  | andiToCcr (imm : Byte)
  | andiToSr (imm : Word)
  | andi (sz : Size) (imm : Long) (ea : Ea)
  | subi (sz : Size) (imm : Long) (ea : Ea)
  | addi (sz : Size) (imm : Long) (ea : Ea)
  | eoriToCcr (imm : Byte)
  | eoriToSr (imm : Word)
  | eori (sz : Size) (imm : Long) (ea : Ea)
  | cmpi (sz : Size) (imm : Long) (ea : Ea)
  | btstImm (n : Byte) (ea : Ea)
  | btstDn (dn : RegNum) (ea : Ea)
  | bchgImm (n : Byte) (ea : Ea)
  | bchgDn (dn : RegNum) (ea : Ea)
  | bclrImm (n : Byte) (ea : Ea)
  | bclrDn (dn : RegNum) (ea : Ea)
  | bsetImm (n : Byte) (ea : Ea)
  | bsetDn (dn : RegNum) (ea : Ea)
  | movep (dn : RegNum) (form : MovepForm) (an : RegNum) (d16 : Word)
  | moveB (src dst : Ea)
  | moveL (src dst : Ea)
  | moveW (src dst : Ea)
  | moveaL (an : RegNum) (src : Ea)
  | moveaW (an : RegNum) (src : Ea)
  | negx (sz : Size) (ea : Ea)
  | moveFromSr (ea : Ea)
  | chk (dn : RegNum) (ea : Ea)
  | lea (an : RegNum) (ea : Ea)
  | clr (sz : Size) (ea : Ea)
  | neg (sz : Size) (ea : Ea)
  | moveToCcr (ea : Ea)
  | notEa (sz : Size) (ea : Ea)
  | moveToSr (ea : Ea)
  | nbcd (ea : Ea)
  | swap (dn : RegNum)
  | pea (ea : Ea)
  | extW (dn : RegNum)
  | extL (dn : RegNum)
  | movemStore (sz : Size) (mask : Word) (ea : Ea)
  | tst (sz : Size) (ea : Ea)
  | tas (ea : Ea)
  | illegal
  | movemLoad (sz : Size) (mask : Word) (ea : Ea)
  | trap (v : BitVec 4)
  | link (an : RegNum) (d16 : Word)
  | unlk (an : RegNum)
  | moveAnUsp (an : RegNum)
  | moveUspAn (an : RegNum)
  | reset
  | nop
  | stop (imm : Word)
  | rte
  | rts
  | trapv
  | rtr
  | jsr (ea : Ea)
  | jmp (ea : Ea)
  | addq (q : BitVec 3) (sz : Size) (ea : Ea)
  | subq (q : BitVec 3) (sz : Size) (ea : Ea)
  | scc (cond : Cond) (ea : Ea)
  | dbcc (cond : Cond) (dn : RegNum) (d16 : Word)
  | bra (d : BranchDisp)
  | bsr (d : BranchDisp)
  | bcc (cond : Cond) (d : BranchDisp)
  | moveq (dn : RegNum) (d8 : Byte)
  | orBEaDn (dn : RegNum) (ea : Ea)
  | orWEaDn (dn : RegNum) (ea : Ea)
  | orLEaDn (dn : RegNum) (ea : Ea)
  | orBDnEa (dn : RegNum) (ea : Ea)
  | orWDnEa (dn : RegNum) (ea : Ea)
  | orLDnEa (dn : RegNum) (ea : Ea)
  | divu (dn : RegNum) (ea : Ea)
  | divs (dn : RegNum) (ea : Ea)
  | sbcd (rx : RegNum) (form : PairForm) (ry : RegNum)
  | subBEaDn (dn : RegNum) (ea : Ea)
  | subWEaDn (dn : RegNum) (ea : Ea)
  | subLEaDn (dn : RegNum) (ea : Ea)
  | subBDnEa (dn : RegNum) (ea : Ea)
  | subWDnEa (dn : RegNum) (ea : Ea)
  | subLDnEa (dn : RegNum) (ea : Ea)
  | subaW (an : RegNum) (ea : Ea)
  | subaL (an : RegNum) (ea : Ea)
  | subx (rx : RegNum) (sz : Size) (form : PairForm) (ry : RegNum)
  | lineA (z : BitVec 12)
  | cmpBEaDn (dn : RegNum) (ea : Ea)
  | cmpWEaDn (dn : RegNum) (ea : Ea)
  | cmpLEaDn (dn : RegNum) (ea : Ea)
  | cmpaW (an : RegNum) (ea : Ea)
  | cmpaL (an : RegNum) (ea : Ea)
  | eorBDnEa (dn : RegNum) (ea : Ea)
  | eorWDnEa (dn : RegNum) (ea : Ea)
  | eorLDnEa (dn : RegNum) (ea : Ea)
  | cmpm (rx : RegNum) (sz : Size) (ry : RegNum)
  | andBEaDn (dn : RegNum) (ea : Ea)
  | andWEaDn (dn : RegNum) (ea : Ea)
  | andLEaDn (dn : RegNum) (ea : Ea)
  | andBDnEa (dn : RegNum) (ea : Ea)
  | andWDnEa (dn : RegNum) (ea : Ea)
  | andLDnEa (dn : RegNum) (ea : Ea)
  | mulu (dn : RegNum) (ea : Ea)
  | muls (dn : RegNum) (ea : Ea)
  | abcd (rx : RegNum) (form : PairForm) (ry : RegNum)
  | exgDxDy (rx ry : RegNum)
  | exgAxAy (rx ry : RegNum)
  | exgDxAy (rx ry : RegNum)
  | addBEaDn (dn : RegNum) (ea : Ea)
  | addWEaDn (dn : RegNum) (ea : Ea)
  | addLEaDn (dn : RegNum) (ea : Ea)
  | addBDnEa (dn : RegNum) (ea : Ea)
  | addWDnEa (dn : RegNum) (ea : Ea)
  | addLDnEa (dn : RegNum) (ea : Ea)
  | addaW (an : RegNum) (ea : Ea)
  | addaL (an : RegNum) (ea : Ea)
  | addx (rx : RegNum) (sz : Size) (form : PairForm) (ry : RegNum)
  | aslReg (c : ShiftCount) (sz : Size) (dn : RegNum)
  | aslEa (ea : Ea)
  | asrReg (c : ShiftCount) (sz : Size) (dn : RegNum)
  | asrEa (ea : Ea)
  | lslReg (c : ShiftCount) (sz : Size) (dn : RegNum)
  | lslEa (ea : Ea)
  | lsrReg (c : ShiftCount) (sz : Size) (dn : RegNum)
  | lsrEa (ea : Ea)
  | roxlReg (c : ShiftCount) (sz : Size) (dn : RegNum)
  | roxlEa (ea : Ea)
  | roxrReg (c : ShiftCount) (sz : Size) (dn : RegNum)
  | roxrEa (ea : Ea)
  | rolReg (c : ShiftCount) (sz : Size) (dn : RegNum)
  | rolEa (ea : Ea)
  | rorReg (c : ShiftCount) (sz : Size) (dn : RegNum)
  | rorEa (ea : Ea)
  | lineF (z : BitVec 12)
  deriving DecidableEq, Repr

end Sys2Proof
end

