-- ==== Sys2Proof/WellFormed.lean ====
section
/-! DEFINITION. Which instruction terms some word encodes: the addressing-mode classes of R165 and R124, the immediates that
fit their size (R120), and the restrictions of the rows of spec/opcode_table.json. -/

namespace Sys2Proof

/-- Data modes: every mode but address register direct (R165). -/
def Ea.isData : Ea → Bool
  | .an _ => false
  | _ => true

/-- Memory modes: every mode but the two register direct ones (R165). -/
def Ea.isMemory : Ea → Bool
  | .dn _ | .an _ => false
  | _ => true

/-- Alterable modes: not PC relative and not immediate (R165). -/
def Ea.isAlterable : Ea → Bool
  | .pcDisp _ | .pcIndex _ | .imm _ => false
  | _ => true

/-- Control modes: those that give an address without regard to the operand's size (R165). -/
def Ea.isControl : Ea → Bool
  | .ind _ | .disp _ _ | .index _ _ | .absW _ | .absL _ | .pcDisp _ | .pcIndex _ => true
  | _ => false

/-- `DA`, data alterable (R124). -/
def Ea.isDataAlterable (ea : Ea) : Bool := ea.isData && ea.isAlterable

/-- `MA`, memory alterable (R124). -/
def Ea.isMemoryAlterable (ea : Ea) : Bool := ea.isMemory && ea.isAlterable

/-- `CA`, control alterable (R124). -/
def Ea.isControlAlterable (ea : Ea) : Bool := ea.isControl && ea.isAlterable

/-- An immediate value that its extension words hold at the size (R120). -/
def Size.holds (sz : Size) (v : Long) : Bool := decide (v.toNat < 2 ^ sz.bits)

/-- A mode usable at a size: no address register at byte size (R124), and an immediate that fits (R120). -/
def Ea.fits (sz : Size) : Ea → Bool
  | .an _ => sz != .b
  | .imm v => sz.holds v
  | _ => true

/-- A branch displacement that can be encoded: the 8-bit form is never zero (R290). -/
def BranchDisp.wf : BranchDisp → Bool
  | .short d => d != 0
  | .word _ => true

/-- A condition `Bcc` admits: not `T`, not `F` (R291). -/
def Cond.branches : Cond → Bool
  | .t | .f => false
  | _ => true

/-- The source of `op <ea>,Dn` where the class is `*` or `–` (R124). -/
def wfAnySrc (sz : Size) (ea : Ea) : Bool := ea.fits sz

/-- The source of `op <ea>,Dn` where the class is `D` (R124). -/
def wfDataSrc (sz : Size) (ea : Ea) : Bool := ea.isData && ea.fits sz

/-- The instruction terms that some words encode (R124, R126 and the constraints of spec/opcode_table.json). -/
def Instr.wf : Instr → Bool
  | .oriToCcr _ | .oriToSr _ | .andiToCcr _ | .andiToSr _ | .eoriToCcr _ | .eoriToSr _ => true
  | .ori sz v ea | .andi sz v ea | .subi sz v ea | .addi sz v ea | .eori sz v ea | .cmpi sz v ea =>
      sz.holds v && ea.isDataAlterable
  | .btstImm _ ea | .bchgImm _ ea | .bclrImm _ ea | .bsetImm _ ea => ea.isDataAlterable
  | .btstDn _ ea | .bchgDn _ ea | .bclrDn _ ea | .bsetDn _ ea => ea.isDataAlterable
  | .movep _ _ _ _ => true
  | .moveB src dst => src.fits .b && dst.isDataAlterable
  | .moveL src dst => src.fits .l && dst.isDataAlterable
  | .moveW src dst => src.fits .w && dst.isDataAlterable
  | .moveaL _ src => src.fits .l
  | .moveaW _ src => src.fits .w
  | .negx _ ea | .clr _ ea | .neg _ ea | .notEa _ ea | .tst _ ea => ea.isDataAlterable
  | .moveFromSr ea | .nbcd ea | .tas ea | .scc _ ea => ea.isDataAlterable
  | .chk _ ea | .moveToCcr ea | .moveToSr ea => wfDataSrc .w ea
  | .lea _ ea | .pea ea | .jsr ea | .jmp ea => ea.isControl
  | .swap _ | .extW _ | .extL _ => true
  | .movemStore sz _ ea =>
      sz != .b && (ea.isControlAlterable || match ea with | .predec _ => true | _ => false)
  | .movemLoad sz _ ea =>
      sz != .b && (ea.isControl || match ea with | .postinc _ => true | _ => false)
  | .illegal | .trap _ | .link _ _ | .unlk _ | .moveAnUsp _ | .moveUspAn _ => true
  | .reset | .nop | .stop _ | .rte | .rts | .trapv | .rtr => true
  | .addq _ sz ea | .subq _ sz ea => ea.isAlterable && ea.fits sz
  | .dbcc _ _ _ => true
  | .bra d | .bsr d => d.wf
  | .bcc cond d => cond.branches && d.wf
  | .moveq _ _ => true
  | .orBEaDn _ ea | .andBEaDn _ ea => wfDataSrc .b ea
  | .orWEaDn _ ea | .andWEaDn _ ea => wfDataSrc .w ea
  | .orLEaDn _ ea | .andLEaDn _ ea => wfDataSrc .l ea
  | .orBDnEa _ ea | .orWDnEa _ ea | .orLDnEa _ ea => ea.isMemoryAlterable
  | .andBDnEa _ ea | .andWDnEa _ ea | .andLDnEa _ ea => ea.isMemoryAlterable
  | .subBDnEa _ ea | .subWDnEa _ ea | .subLDnEa _ ea => ea.isMemoryAlterable
  | .addBDnEa _ ea | .addWDnEa _ ea | .addLDnEa _ ea => ea.isMemoryAlterable
  | .divu _ ea | .divs _ ea | .mulu _ ea | .muls _ ea => wfDataSrc .w ea
  | .sbcd _ _ _ | .abcd _ _ _ | .subx _ _ _ _ | .addx _ _ _ _ | .cmpm _ _ _ => true
  | .subBEaDn _ ea | .cmpBEaDn _ ea | .addBEaDn _ ea => wfAnySrc .b ea
  | .subWEaDn _ ea | .cmpWEaDn _ ea | .addWEaDn _ ea => wfAnySrc .w ea
  | .subLEaDn _ ea | .cmpLEaDn _ ea | .addLEaDn _ ea => wfAnySrc .l ea
  | .subaW _ ea | .cmpaW _ ea | .addaW _ ea => wfAnySrc .w ea
  | .subaL _ ea | .cmpaL _ ea | .addaL _ ea => wfAnySrc .l ea
  | .eorBDnEa _ ea | .eorWDnEa _ ea | .eorLDnEa _ ea => ea.isDataAlterable
  | .exgDxDy _ _ | .exgAxAy _ _ | .exgDxAy _ _ => true
  | .aslReg _ _ _ | .asrReg _ _ _ | .lslReg _ _ _ | .lsrReg _ _ _ => true
  | .roxlReg _ _ _ | .roxrReg _ _ _ | .rolReg _ _ _ | .rorReg _ _ _ => true
  | .aslEa ea | .asrEa ea | .lslEa ea | .lsrEa ea => ea.isMemoryAlterable
  | .roxlEa ea | .roxrEa ea | .rolEa ea | .rorEa ea => ea.isMemoryAlterable
  | .lineA _ | .lineF _ => true

end Sys2Proof
end

