-- ==== Sys2Proof/Decode.lean ====
section
/-! DEFINITION. The decoder, total on any words, and the encoder, both written from the encoding tables of
spec/30_encoding.md (R113 to R129). An operation word is cut into the five fields every format of R125 is made of:
bits 15..12, 11..9, 8..6, 5..3 and 2..0. -/

namespace Sys2Proof

/-- Why a list of words is no instruction. -/
inductive DecodeError
  /-- The operation word matches no row of the map (R128): the machine takes the illegal-instruction exception. -/
  | illegal
  /-- The list ends before the instruction does: the machine never sees it, it always hands over five words. -/
  | truncated
  deriving DecidableEq, Repr

/-- A parser's answer: what was read and the words that follow. -/
abbrev Parsed (α : Type) := Except DecodeError (α × List Word)

/-! ### Fields -/

/-- An operation word from its five fields (R112). -/
def opWord (g a b c d : Nat) : Word := BitVec.ofNat 16 ((((g * 8 + a) * 8 + b) * 8 + c) * 8 + d)

/-- A register field (R114). -/
def regField (n : Nat) : RegNum := Fin.ofNat 8 n

/-- The standard size field: `00` byte, `01` word, `10` long (R115). -/
def Size.code : Size → Nat
  | .b => 0
  | .w => 1
  | .l => 2

/-- The size a standard field names; `11` is none (R115). -/
def sizeField : Nat → Option Size
  | 0 => some .b
  | 1 => some .w
  | 2 => some .l
  | _ => none

/-- The code of a condition (R123). -/
def Cond.code : Cond → Nat
  | .t => 0 | .f => 1 | .hi => 2 | .ls => 3 | .cc => 4 | .cs => 5 | .ne => 6 | .eq => 7
  | .vc => 8 | .vs => 9 | .pl => 10 | .mi => 11 | .ge => 12 | .lt => 13 | .gt => 14 | .le => 15

/-- The condition a code names (R123). -/
def condField : Nat → Cond
  | 0 => .t | 1 => .f | 2 => .hi | 3 => .ls | 4 => .cc | 5 => .cs | 6 => .ne | 7 => .eq
  | 8 => .vc | 9 => .vs | 10 => .pl | 11 => .mi | 12 => .ge | 13 => .lt | 14 => .gt | _ => .le

/-- The mode field of an effective address (R114). -/
def Ea.mode : Ea → Nat
  | .dn _ => 0 | .an _ => 1 | .ind _ => 2 | .postinc _ => 3 | .predec _ => 4 | .disp _ _ => 5 | .index _ _ => 6
  | .absW _ | .absL _ | .pcDisp _ | .pcIndex _ | .imm _ => 7

/-- The register field of an effective address (R114). -/
def Ea.reg : Ea → Nat
  | .dn n | .an n | .ind n | .postinc n | .predec n | .disp n _ | .index n _ => n.val
  | .absW _ => 0 | .absL _ => 1 | .pcDisp _ => 2 | .pcIndex _ => 3 | .imm _ => 4

/-- The twelve modes numbered in the order of R114, from the two fields; 12 and above is no mode (R128). -/
def modeIndex (c d : Nat) : Nat := if c < 7 then c else 7 + d

/-! The mode sets of R124 on that number; the constraint `ea_allowed` of spec/opcode_table.json. -/

def anyMode (i : Nat) : Bool := decide (i < 12)
def dataMode (i : Nat) : Bool := decide (i < 12 ∧ i ≠ 1)
def alterableMode (i : Nat) : Bool := decide (i < 9)
def dataAlterableMode (i : Nat) : Bool := decide (i < 9 ∧ i ≠ 1)
def memoryAlterableMode (i : Nat) : Bool := decide (2 ≤ i ∧ i < 9)
def controlMode (i : Nat) : Bool := decide (i = 2 ∨ (5 ≤ i ∧ i < 11))
def movemStoreMode (i : Nat) : Bool := decide (i = 2 ∨ (4 ≤ i ∧ i < 9))
def movemLoadMode (i : Nat) : Bool := decide (i = 2 ∨ i = 3 ∨ (5 ≤ i ∧ i < 11))

/-- Every mode, but no address register at byte size (R124). -/
def sizedMode (sz : Size) (i : Nat) : Bool := if sz = .b then dataMode i else anyMode i

/-- Every alterable mode, but no address register at byte size (R124). -/
def sizedAlterableMode (sz : Size) (i : Nat) : Bool := if sz = .b then dataAlterableMode i else alterableMode i

/-! ### Extension words -/

def readWord : List Word → Parsed Word
  | [] => .error .truncated
  | w :: ws => .ok (w, ws)

/-- Two words, the high half first (R120, R121). -/
def readLong : List Word → Parsed Long
  | hi :: lo :: ws => .ok (hi ++ lo, ws)
  | _ => .error .truncated

/-- An index extension word; bits 10..8 are ignored (R119, log entry 22). -/
def IndexWord.ofWord (w : Word) : IndexWord where
  isAddr := w.getLsbD 15
  reg := regField (w.toNat / 4096)
  isLong := w.getLsbD 11
  disp := w.setWidth 8

/-- The word an index extension is encoded as, bits 10..8 zero (R119). -/
def IndexWord.toWord (x : IndexWord) : Word :=
  BitVec.ofBool x.isAddr ++ BitVec.ofNat 3 x.reg.val ++ BitVec.ofBool x.isLong ++ 0#3 ++ x.disp

/-- An immediate operand: one word at byte size (its high byte ignored) and word size, two at long size (R120). -/
def readImm (sz : Size) (ws : List Word) : Parsed Long :=
  match sz with
  | .b => (readWord ws).map fun p => ((p.1.setWidth 8).setWidth 32, p.2)
  | .w => (readWord ws).map fun p => (p.1.setWidth 32, p.2)
  | .l => readLong ws

/-- The extension words of an immediate operand (R120). -/
def encodeImm (sz : Size) (v : Long) : List Word :=
  match sz with
  | .b => [(v.setWidth 8).setWidth 16]
  | .w => [v.setWidth 16]
  | .l => [v.extractLsb' 16 16, v.setWidth 16]

/-- An effective address of mode `c`, register `d`, at a size, with its extension words (R114, R119 to R121). -/
def readEa (sz : Size) (c d : Nat) (ws : List Word) : Parsed Ea :=
  match c with
  | 0 => .ok (.dn (regField d), ws)
  | 1 => .ok (.an (regField d), ws)
  | 2 => .ok (.ind (regField d), ws)
  | 3 => .ok (.postinc (regField d), ws)
  | 4 => .ok (.predec (regField d), ws)
  | 5 => (readWord ws).map fun p => (.disp (regField d) p.1, p.2)
  | 6 => (readWord ws).map fun p => (.index (regField d) (IndexWord.ofWord p.1), p.2)
  | _ =>
    match d with
    | 0 => (readWord ws).map fun p => (.absW p.1, p.2)
    | 1 => (readLong ws).map fun p => (.absL p.1, p.2)
    | 2 => (readWord ws).map fun p => (.pcDisp p.1, p.2)
    | 3 => (readWord ws).map fun p => (.pcIndex (IndexWord.ofWord p.1), p.2)
    | 4 => (readImm sz ws).map fun p => (.imm p.1, p.2)
    | _ => .error .illegal

/-- The extension words of an effective address at a size (R114, R119 to R121). -/
def Ea.ext (sz : Size) : Ea → List Word
  | .dn _ | .an _ | .ind _ | .postinc _ | .predec _ => []
  | .disp _ d => [d]
  | .index _ x => [x.toWord]
  | .absW a => [a]
  | .absL a => [a.extractLsb' 16 16, a.setWidth 16]
  | .pcDisp d => [d]
  | .pcIndex x => [x.toWord]
  | .imm v => encodeImm sz v

/-! ### Shapes of instruction -/

/-- An instruction with one effective address whose mode must lie in a set (R124). -/
def oneEa (ok : Nat → Bool) (sz : Size) (c d : Nat) (mk : Ea → Instr) (ws : List Word) : Parsed Instr :=
  if ok (modeIndex c d) then (readEa sz c d ws).map fun p => (mk p.1, p.2) else .error .illegal

/-- `oneEa` at the size a standard field names (R115). -/
def sizedEa (ok : Nat → Bool) (ss c d : Nat) (mk : Size → Ea → Instr) (ws : List Word) : Parsed Instr :=
  match sizeField ss with
  | some sz => oneEa ok sz c d (mk sz) ws
  | none => .error .illegal

/-- An instruction's own word, then one effective address (R111). -/
def wordThenEa (ok : Nat → Bool) (sz : Size) (c d : Nat) (mk : Word → Ea → Instr) (ws : List Word) : Parsed Instr :=
  if ok (modeIndex c d) then
    (readWord ws).bind fun p => (readEa sz c d p.2).map fun q => (mk p.1 q.1, q.2)
  else .error .illegal

/-- An immediate operand, then one data-alterable effective address (R111, format `IMM_EA`). -/
def immThenEa (ss c d : Nat) (mk : Size → Long → Ea → Instr) (ws : List Word) : Parsed Instr :=
  match sizeField ss with
  | some sz =>
    if dataAlterableMode (modeIndex c d) then
      (readImm sz ws).bind fun p => (readEa sz c d p.2).map fun q => (mk sz p.1 q.1, q.2)
    else .error .illegal
  | none => .error .illegal

/-- An instruction of one extension word. -/
def oneWord (mk : Word → Instr) (ws : List Word) : Parsed Instr := (readWord ws).map fun p => (mk p.1, p.2)

/-- `IMM_EA`, or with mode 111 register 100 the forms `to CCR` and `to SR` (R126, group 0000). -/
def immOrStatus (b c d : Nat) (mk : Size → Long → Ea → Instr) (ccr : Byte → Instr) (sr : Word → Instr)
    (ws : List Word) : Parsed Instr :=
  if c = 7 ∧ d = 4 then
    match b with
    | 0 => oneWord (fun w => ccr (w.setWidth 8)) ws
    | 1 => oneWord sr ws
    | _ => .error .illegal
  else immThenEa b c d mk ws

/-- A branch displacement from the low byte of the operation word and, where that is zero, one word (R290). -/
def readDisp (b c d : Nat) (mk : BranchDisp → Instr) (ws : List Word) : Parsed Instr :=
  let low := (b % 4) * 64 + c * 8 + d
  if low = 0 then oneWord (fun w => mk (.word w)) ws else .ok (mk (.short (BitVec.ofNat 8 low)), ws)

/-- `MOVE` of one size, or its `MOVEA` where the destination mode is 001 (R126, groups 0001 to 0011). -/
def moveRow (sz : Size) (a b c d : Nat) (mk : Ea → Ea → Instr) (mkA : Option (RegNum → Ea → Instr))
    (ws : List Word) : Parsed Instr :=
  if b = 1 then
    match mkA with
    | some f => oneEa (sizedMode sz) sz c d (f (regField a)) ws
    | none => .error .illegal
  else if sizedMode sz (modeIndex c d) && dataAlterableMode (modeIndex b a) then
    (readEa sz c d ws).bind fun p => (readEa sz b a p.2).map fun q => (mk p.1 q.1, q.2)
  else .error .illegal

/-- The two forms of a register pair, the bit `g` of R125. -/
def pairField : Nat → PairForm
  | 0 => .regs
  | _ => .predec

def PairForm.code : PairForm → Nat
  | .regs => 0
  | .predec => 1

/-- The count field of a register shift: bit 5 of the operation word chooses register or quick (R260). -/
def countField (c a : Nat) : ShiftCount :=
  if c < 4 then .quick (BitVec.ofNat 3 a) else .reg (regField a)

/-- The count's three bits, and the bit `i` that says which kind it is, worth 4 in the field of bits 5..3 (R260). -/
def ShiftCount.code : ShiftCount → Nat
  | .quick q => q.toNat
  | .reg m => m.val

def ShiftCount.kind : ShiftCount → Nat
  | .quick _ => 0
  | .reg _ => 4

def movepField : Nat → MovepForm
  | 0 => .wordToReg
  | 1 => .longToReg
  | 2 => .wordToMem
  | _ => .longToMem

def MovepForm.code : MovepForm → Nat
  | .wordToReg => 0
  | .longToReg => 1
  | .wordToMem => 2
  | .longToMem => 3

/-! ### The operation-code map, R126 -/

/-- Group 0000: immediate, bit and `MOVEP` instructions. -/
def group0 (a b c d : Nat) (ws : List Word) : Parsed Instr :=
  if b < 4 then
    match a with
    | 0 => immOrStatus b c d .ori .oriToCcr .oriToSr ws
    | 1 => immOrStatus b c d .andi .andiToCcr .andiToSr ws
    | 2 => immThenEa b c d .subi ws
    | 3 => immThenEa b c d .addi ws
    | 4 =>
      match b with
      | 0 => wordThenEa dataAlterableMode .b c d (fun w => .btstImm (w.setWidth 8)) ws
      | 1 => wordThenEa dataAlterableMode .b c d (fun w => .bchgImm (w.setWidth 8)) ws
      | 2 => wordThenEa dataAlterableMode .b c d (fun w => .bclrImm (w.setWidth 8)) ws
      | _ => wordThenEa dataAlterableMode .b c d (fun w => .bsetImm (w.setWidth 8)) ws
    | 5 => immOrStatus b c d .eori .eoriToCcr .eoriToSr ws
    | 6 => immThenEa b c d .cmpi ws
    | _ => .error .illegal
  else if c = 1 then oneWord (.movep (regField a) (movepField (b - 4)) (regField d)) ws
  else
    match b with
    | 4 => oneEa dataAlterableMode .b c d (.btstDn (regField a)) ws
    | 5 => oneEa dataAlterableMode .b c d (.bchgDn (regField a)) ws
    | 6 => oneEa dataAlterableMode .b c d (.bclrDn (regField a)) ws
    | _ => oneEa dataAlterableMode .b c d (.bsetDn (regField a)) ws

/-- Group 0100, bits 11..9 = 100 and bit 8 = 0: `NBCD`, `SWAP`, `PEA`, `EXT`, `MOVEM` to memory. -/
def group48 (b c d : Nat) (ws : List Word) : Parsed Instr :=
  match b with
  | 0 => oneEa dataAlterableMode .b c d .nbcd ws
  | 1 => if c = 0 then .ok (.swap (regField d), ws) else oneEa controlMode .l c d .pea ws
  | 2 =>
    if c = 0 then .ok (.extW (regField d), ws)
    else wordThenEa movemStoreMode .w c d (fun m ea => .movemStore .w m ea) ws
  | 3 =>
    if c = 0 then .ok (.extL (regField d), ws)
    else wordThenEa movemStoreMode .l c d (fun m ea => .movemStore .l m ea) ws
  | _ => .error .illegal

/-- Group 0100, bits 11..9 = 111 and bits 8..6 = 001: `TRAP`, `LINK`, `UNLK`, `MOVE USP` and the fixed words. -/
def group4E4 (c d : Nat) (ws : List Word) : Parsed Instr :=
  match c with
  | 0 => .ok (.trap (BitVec.ofNat 4 d), ws)
  | 1 => .ok (.trap (BitVec.ofNat 4 (8 + d)), ws)
  | 2 => oneWord (.link (regField d)) ws
  | 3 => .ok (.unlk (regField d), ws)
  | 4 => .ok (.moveAnUsp (regField d), ws)
  | 5 => .ok (.moveUspAn (regField d), ws)
  | 6 =>
    match d with
    | 0 => .ok (.reset, ws)
    | 1 => .ok (.nop, ws)
    | 2 => oneWord .stop ws
    | 3 => .ok (.rte, ws)
    | 5 => .ok (.rts, ws)
    | 6 => .ok (.trapv, ws)
    | 7 => .ok (.rtr, ws)
    | _ => .error .illegal
  | _ => .error .illegal

/-- Group 0100: miscellaneous. -/
def group4 (a b c d : Nat) (ws : List Word) : Parsed Instr :=
  if b = 6 then oneEa dataMode .w c d (.chk (regField a)) ws
  else if b = 7 then oneEa controlMode .l c d (.lea (regField a)) ws
  else
    match a with
    | 0 => if b = 3 then oneEa dataAlterableMode .w c d .moveFromSr ws else sizedEa dataAlterableMode b c d .negx ws
    | 1 => sizedEa dataAlterableMode b c d .clr ws
    | 2 => if b = 3 then oneEa dataMode .w c d .moveToCcr ws else sizedEa dataAlterableMode b c d .neg ws
    | 3 => if b = 3 then oneEa dataMode .w c d .moveToSr ws else sizedEa dataAlterableMode b c d .notEa ws
    | 4 => group48 b c d ws
    | 5 =>
      if b = 3 then
        if c = 7 ∧ d = 4 then .ok (.illegal, ws) else oneEa dataAlterableMode .b c d .tas ws
      else sizedEa dataAlterableMode b c d .tst ws
    | 6 =>
      match b with
      | 2 => wordThenEa movemLoadMode .w c d (fun m ea => .movemLoad .w m ea) ws
      | 3 => wordThenEa movemLoadMode .l c d (fun m ea => .movemLoad .l m ea) ws
      | _ => .error .illegal
    | _ =>
      match b with
      | 1 => group4E4 c d ws
      | 2 => oneEa controlMode .l c d .jsr ws
      | 3 => oneEa controlMode .l c d .jmp ws
      | _ => .error .illegal

/-- Group 0101: `ADDQ`, `SUBQ`, `Scc`, `DBcc`. -/
def group5 (a b c d : Nat) (ws : List Word) : Parsed Instr :=
  if b % 4 = 3 then
    if c = 1 then oneWord (.dbcc (condField (a * 2 + b / 4)) (regField d)) ws
    else oneEa dataAlterableMode .b c d (.scc (condField (a * 2 + b / 4))) ws
  else
    match sizeField (b % 4) with
    | some sz =>
      if b < 4 then oneEa (sizedAlterableMode sz) sz c d (.addq (BitVec.ofNat 3 a) sz) ws
      else oneEa (sizedAlterableMode sz) sz c d (.subq (BitVec.ofNat 3 a) sz) ws
    | none => .error .illegal

/-- Group 0110: `BRA`, `BSR`, `Bcc`. -/
def group6 (a b c d : Nat) (ws : List Word) : Parsed Instr :=
  match a * 2 + b / 4 with
  | 0 => readDisp b c d .bra ws
  | 1 => readDisp b c d .bsr ws
  | n => readDisp b c d (.bcc (condField n)) ws

/-- Group 0111: `MOVEQ`; bit 8 = 1 is illegal. -/
def group7 (a b c d : Nat) (ws : List Word) : Parsed Instr :=
  if b < 4 then .ok (.moveq (regField a) (BitVec.ofNat 8 (b * 64 + c * 8 + d)), ws) else .error .illegal

/-- Group 1000: `OR`, `DIVU`, `DIVS`, `SBCD`. -/
def group8 (a b c d : Nat) (ws : List Word) : Parsed Instr :=
  match b with
  | 0 => oneEa dataMode .b c d (.orBEaDn (regField a)) ws
  | 1 => oneEa dataMode .w c d (.orWEaDn (regField a)) ws
  | 2 => oneEa dataMode .l c d (.orLEaDn (regField a)) ws
  | 3 => oneEa dataMode .w c d (.divu (regField a)) ws
  | 4 =>
    if c < 2 then .ok (.sbcd (regField a) (pairField c) (regField d), ws)
    else oneEa memoryAlterableMode .b c d (.orBDnEa (regField a)) ws
  | 5 => oneEa memoryAlterableMode .w c d (.orWDnEa (regField a)) ws
  | 6 => oneEa memoryAlterableMode .l c d (.orLDnEa (regField a)) ws
  | _ => oneEa dataMode .w c d (.divs (regField a)) ws

/-- Group 1001: `SUB`, `SUBA`, `SUBX`. -/
def group9 (a b c d : Nat) (ws : List Word) : Parsed Instr :=
  match b with
  | 0 => oneEa dataMode .b c d (.subBEaDn (regField a)) ws
  | 1 => oneEa anyMode .w c d (.subWEaDn (regField a)) ws
  | 2 => oneEa anyMode .l c d (.subLEaDn (regField a)) ws
  | 3 => oneEa anyMode .w c d (.subaW (regField a)) ws
  | 4 =>
    if c < 2 then .ok (.subx (regField a) .b (pairField c) (regField d), ws)
    else oneEa memoryAlterableMode .b c d (.subBDnEa (regField a)) ws
  | 5 =>
    if c < 2 then .ok (.subx (regField a) .w (pairField c) (regField d), ws)
    else oneEa memoryAlterableMode .w c d (.subWDnEa (regField a)) ws
  | 6 =>
    if c < 2 then .ok (.subx (regField a) .l (pairField c) (regField d), ws)
    else oneEa memoryAlterableMode .l c d (.subLDnEa (regField a)) ws
  | _ => oneEa anyMode .l c d (.subaL (regField a)) ws

/-- Group 1011: `CMP`, `CMPA`, `EOR`, `CMPM`. -/
def groupB (a b c d : Nat) (ws : List Word) : Parsed Instr :=
  match b with
  | 0 => oneEa dataMode .b c d (.cmpBEaDn (regField a)) ws
  | 1 => oneEa anyMode .w c d (.cmpWEaDn (regField a)) ws
  | 2 => oneEa anyMode .l c d (.cmpLEaDn (regField a)) ws
  | 3 => oneEa anyMode .w c d (.cmpaW (regField a)) ws
  | 4 =>
    if c = 1 then .ok (.cmpm (regField a) .b (regField d), ws)
    else oneEa dataAlterableMode .b c d (.eorBDnEa (regField a)) ws
  | 5 =>
    if c = 1 then .ok (.cmpm (regField a) .w (regField d), ws)
    else oneEa dataAlterableMode .w c d (.eorWDnEa (regField a)) ws
  | 6 =>
    if c = 1 then .ok (.cmpm (regField a) .l (regField d), ws)
    else oneEa dataAlterableMode .l c d (.eorLDnEa (regField a)) ws
  | _ => oneEa anyMode .l c d (.cmpaL (regField a)) ws

/-- Group 1100: `AND`, `MULU`, `MULS`, `ABCD`, `EXG`. -/
def groupC (a b c d : Nat) (ws : List Word) : Parsed Instr :=
  match b with
  | 0 => oneEa dataMode .b c d (.andBEaDn (regField a)) ws
  | 1 => oneEa dataMode .w c d (.andWEaDn (regField a)) ws
  | 2 => oneEa dataMode .l c d (.andLEaDn (regField a)) ws
  | 3 => oneEa dataMode .w c d (.mulu (regField a)) ws
  | 4 =>
    if c < 2 then .ok (.abcd (regField a) (pairField c) (regField d), ws)
    else oneEa memoryAlterableMode .b c d (.andBDnEa (regField a)) ws
  | 5 =>
    if c = 0 then .ok (.exgDxDy (regField a) (regField d), ws)
    else if c = 1 then .ok (.exgAxAy (regField a) (regField d), ws)
    else oneEa memoryAlterableMode .w c d (.andWDnEa (regField a)) ws
  | 6 =>
    if c = 1 then .ok (.exgDxAy (regField a) (regField d), ws)
    else oneEa memoryAlterableMode .l c d (.andLDnEa (regField a)) ws
  | _ => oneEa dataMode .w c d (.muls (regField a)) ws

/-- Group 1101: `ADD`, `ADDA`, `ADDX`. -/
def groupD (a b c d : Nat) (ws : List Word) : Parsed Instr :=
  match b with
  | 0 => oneEa dataMode .b c d (.addBEaDn (regField a)) ws
  | 1 => oneEa anyMode .w c d (.addWEaDn (regField a)) ws
  | 2 => oneEa anyMode .l c d (.addLEaDn (regField a)) ws
  | 3 => oneEa anyMode .w c d (.addaW (regField a)) ws
  | 4 =>
    if c < 2 then .ok (.addx (regField a) .b (pairField c) (regField d), ws)
    else oneEa memoryAlterableMode .b c d (.addBDnEa (regField a)) ws
  | 5 =>
    if c < 2 then .ok (.addx (regField a) .w (pairField c) (regField d), ws)
    else oneEa memoryAlterableMode .w c d (.addWDnEa (regField a)) ws
  | 6 =>
    if c < 2 then .ok (.addx (regField a) .l (pairField c) (regField d), ws)
    else oneEa memoryAlterableMode .l c d (.addLDnEa (regField a)) ws
  | _ => oneEa anyMode .l c d (.addaL (regField a)) ws

/-- Group 1110: shifts and rotates, memory forms where the size field is `11`. -/
def groupE (a b c d : Nat) (ws : List Word) : Parsed Instr :=
  match sizeField (b % 4) with
  | some sz =>
    let n := countField c a
    let r := regField d
    .ok (match b / 4, c % 4 with
      | 0, 0 => .asrReg n sz r
      | 0, 1 => .lsrReg n sz r
      | 0, 2 => .roxrReg n sz r
      | 0, _ => .rorReg n sz r
      | _, 0 => .aslReg n sz r
      | _, 1 => .lslReg n sz r
      | _, 2 => .roxlReg n sz r
      | _, _ => .rolReg n sz r, ws)
  | none =>
    match b / 4, a with
    | 0, 0 => oneEa memoryAlterableMode .w c d .asrEa ws
    | 0, 1 => oneEa memoryAlterableMode .w c d .lsrEa ws
    | 0, 2 => oneEa memoryAlterableMode .w c d .roxrEa ws
    | 0, 3 => oneEa memoryAlterableMode .w c d .rorEa ws
    | 1, 0 => oneEa memoryAlterableMode .w c d .aslEa ws
    | 1, 1 => oneEa memoryAlterableMode .w c d .lslEa ws
    | 1, 2 => oneEa memoryAlterableMode .w c d .roxlEa ws
    | 1, 3 => oneEa memoryAlterableMode .w c d .rolEa ws
    | _, _ => .error .illegal

/-- The map of R126, by the five fields of the operation word. -/
def decodeFields (g a b c d : Nat) (ws : List Word) : Parsed Instr :=
  match g with
  | 0 => group0 a b c d ws
  | 1 => moveRow .b a b c d .moveB none ws
  | 2 => moveRow .l a b c d .moveL (some .moveaL) ws
  | 3 => moveRow .w a b c d .moveW (some .moveaW) ws
  | 4 => group4 a b c d ws
  | 5 => group5 a b c d ws
  | 6 => group6 a b c d ws
  | 7 => group7 a b c d ws
  | 8 => group8 a b c d ws
  | 9 => group9 a b c d ws
  | 10 => .ok (.lineA (BitVec.ofNat 12 (a * 512 + b * 64 + c * 8 + d)), ws)
  | 11 => groupB a b c d ws
  | 12 => groupC a b c d ws
  | 13 => groupD a b c d ws
  | 14 => groupE a b c d ws
  | _ => .ok (.lineF (BitVec.ofNat 12 (a * 512 + b * 64 + c * 8 + d)), ws)

/-- The decoder (R127): the instruction a list of words begins with, and the words that follow it. -/
def decode : List Word → Parsed Instr
  | [] => .error .truncated
  | w :: ws =>
    decodeFields (w.toNat / 4096) (w.toNat / 512 % 8) (w.toNat / 64 % 8) (w.toNat / 8 % 8) (w.toNat % 8) ws

/-! ### The encoder -/

/-- An operation word whose low six bits name an effective address (R113). -/
def eaWord (g a b : Nat) (ea : Ea) : Word := opWord g a b ea.mode ea.reg

/-- One effective address after the operation word. -/
def encEa (g a b : Nat) (sz : Size) (ea : Ea) : List Word := eaWord g a b ea :: ea.ext sz

/-- Immediate, then effective address (R111). -/
def encImmEa (a : Nat) (sz : Size) (v : Long) (ea : Ea) : List Word :=
  eaWord 0 a sz.code ea :: (encodeImm sz v ++ ea.ext sz)

/-- `MOVE`: the destination field has its halves swapped (R113). -/
def encMove (g : Nat) (sz : Size) (src dst : Ea) : List Word :=
  opWord g dst.reg dst.mode src.mode src.reg :: (src.ext sz ++ dst.ext sz)

/-- A branch: condition in bits 11..8, displacement in bits 7..0 or in one word (R290). -/
def encBranch (cc : Nat) : BranchDisp → List Word
  | .short d => [opWord 6 (cc / 2) (cc % 2 * 4 + d.toNat / 64) (d.toNat / 8 % 8) (d.toNat % 8)]
  | .word w => [opWord 6 (cc / 2) (cc % 2 * 4) 0 0, w]

/-- A register shift: direction, type, count, size and register (R260). -/
def encShift (dir ty : Nat) (c : ShiftCount) (sz : Size) (r : RegNum) : List Word :=
  [opWord 14 c.code (dir * 4 + sz.code) (c.kind + ty) r.val]

/-- The words of an instruction, its well-formed terms' encodings by R126. -/
def encode : Instr → List Word
  | .oriToCcr v => [opWord 0 0 0 7 4, v.setWidth 16]
  | .oriToSr v => [opWord 0 0 1 7 4, v]
  | .ori sz v ea => encImmEa 0 sz v ea
  | .andiToCcr v => [opWord 0 1 0 7 4, v.setWidth 16]
  | .andiToSr v => [opWord 0 1 1 7 4, v]
  | .andi sz v ea => encImmEa 1 sz v ea
  | .subi sz v ea => encImmEa 2 sz v ea
  | .addi sz v ea => encImmEa 3 sz v ea
  | .eoriToCcr v => [opWord 0 5 0 7 4, v.setWidth 16]
  | .eoriToSr v => [opWord 0 5 1 7 4, v]
  | .eori sz v ea => encImmEa 5 sz v ea
  | .cmpi sz v ea => encImmEa 6 sz v ea
  | .btstImm n ea => eaWord 0 4 0 ea :: n.setWidth 16 :: ea.ext .b
  | .btstDn r ea => encEa 0 r.val 4 .b ea
  | .bchgImm n ea => eaWord 0 4 1 ea :: n.setWidth 16 :: ea.ext .b
  | .bchgDn r ea => encEa 0 r.val 5 .b ea
  | .bclrImm n ea => eaWord 0 4 2 ea :: n.setWidth 16 :: ea.ext .b
  | .bclrDn r ea => encEa 0 r.val 6 .b ea
  | .bsetImm n ea => eaWord 0 4 3 ea :: n.setWidth 16 :: ea.ext .b
  | .bsetDn r ea => encEa 0 r.val 7 .b ea
  | .movep r form an d => [opWord 0 r.val (4 + form.code) 1 an.val, d]
  | .moveB src dst => encMove 1 .b src dst
  | .moveL src dst => encMove 2 .l src dst
  | .moveW src dst => encMove 3 .w src dst
  | .moveaL an src => encEa 2 an.val 1 .l src
  | .moveaW an src => encEa 3 an.val 1 .w src
  | .negx sz ea => encEa 4 0 sz.code sz ea
  | .moveFromSr ea => encEa 4 0 3 .w ea
  | .chk r ea => encEa 4 r.val 6 .w ea
  | .lea an ea => encEa 4 an.val 7 .l ea
  | .clr sz ea => encEa 4 1 sz.code sz ea
  | .neg sz ea => encEa 4 2 sz.code sz ea
  | .moveToCcr ea => encEa 4 2 3 .w ea
  | .notEa sz ea => encEa 4 3 sz.code sz ea
  | .moveToSr ea => encEa 4 3 3 .w ea
  | .nbcd ea => encEa 4 4 0 .b ea
  | .swap r => [opWord 4 4 1 0 r.val]
  | .pea ea => encEa 4 4 1 .l ea
  | .extW r => [opWord 4 4 2 0 r.val]
  | .extL r => [opWord 4 4 3 0 r.val]
  | .movemStore sz m ea => eaWord 4 4 (1 + sz.code) ea :: m :: ea.ext sz
  | .tst sz ea => encEa 4 5 sz.code sz ea
  | .tas ea => encEa 4 5 3 .b ea
  | .illegal => [opWord 4 5 3 7 4]
  | .movemLoad sz m ea => eaWord 4 6 (1 + sz.code) ea :: m :: ea.ext sz
  | .trap v => [opWord 4 7 1 (v.toNat / 8) (v.toNat % 8)]
  | .link an d => [opWord 4 7 1 2 an.val, d]
  | .unlk an => [opWord 4 7 1 3 an.val]
  | .moveAnUsp an => [opWord 4 7 1 4 an.val]
  | .moveUspAn an => [opWord 4 7 1 5 an.val]
  | .reset => [opWord 4 7 1 6 0]
  | .nop => [opWord 4 7 1 6 1]
  | .stop v => [opWord 4 7 1 6 2, v]
  | .rte => [opWord 4 7 1 6 3]
  | .rts => [opWord 4 7 1 6 5]
  | .trapv => [opWord 4 7 1 6 6]
  | .rtr => [opWord 4 7 1 6 7]
  | .jsr ea => encEa 4 7 2 .l ea
  | .jmp ea => encEa 4 7 3 .l ea
  | .addq q sz ea => encEa 5 q.toNat sz.code sz ea
  | .subq q sz ea => encEa 5 q.toNat (4 + sz.code) sz ea
  | .scc cond ea => encEa 5 (cond.code / 2) (cond.code % 2 * 4 + 3) .b ea
  | .dbcc cond r d => [opWord 5 (cond.code / 2) (cond.code % 2 * 4 + 3) 1 r.val, d]
  | .bra d => encBranch 0 d
  | .bsr d => encBranch 1 d
  | .bcc cond d => encBranch cond.code d
  | .moveq r d => [opWord 7 r.val (d.toNat / 64) (d.toNat / 8 % 8) (d.toNat % 8)]
  | .orBEaDn r ea => encEa 8 r.val 0 .b ea
  | .orWEaDn r ea => encEa 8 r.val 1 .w ea
  | .orLEaDn r ea => encEa 8 r.val 2 .l ea
  | .orBDnEa r ea => encEa 8 r.val 4 .b ea
  | .orWDnEa r ea => encEa 8 r.val 5 .w ea
  | .orLDnEa r ea => encEa 8 r.val 6 .l ea
  | .divu r ea => encEa 8 r.val 3 .w ea
  | .divs r ea => encEa 8 r.val 7 .w ea
  | .sbcd rx form ry => [opWord 8 rx.val 4 form.code ry.val]
  | .subBEaDn r ea => encEa 9 r.val 0 .b ea
  | .subWEaDn r ea => encEa 9 r.val 1 .w ea
  | .subLEaDn r ea => encEa 9 r.val 2 .l ea
  | .subBDnEa r ea => encEa 9 r.val 4 .b ea
  | .subWDnEa r ea => encEa 9 r.val 5 .w ea
  | .subLDnEa r ea => encEa 9 r.val 6 .l ea
  | .subaW an ea => encEa 9 an.val 3 .w ea
  | .subaL an ea => encEa 9 an.val 7 .l ea
  | .subx rx sz form ry => [opWord 9 rx.val (4 + sz.code) form.code ry.val]
  | .lineA z => [opWord 10 (z.toNat / 512) (z.toNat / 64 % 8) (z.toNat / 8 % 8) (z.toNat % 8)]
  | .cmpBEaDn r ea => encEa 11 r.val 0 .b ea
  | .cmpWEaDn r ea => encEa 11 r.val 1 .w ea
  | .cmpLEaDn r ea => encEa 11 r.val 2 .l ea
  | .cmpaW an ea => encEa 11 an.val 3 .w ea
  | .cmpaL an ea => encEa 11 an.val 7 .l ea
  | .eorBDnEa r ea => encEa 11 r.val 4 .b ea
  | .eorWDnEa r ea => encEa 11 r.val 5 .w ea
  | .eorLDnEa r ea => encEa 11 r.val 6 .l ea
  | .cmpm rx sz ry => [opWord 11 rx.val (4 + sz.code) 1 ry.val]
  | .andBEaDn r ea => encEa 12 r.val 0 .b ea
  | .andWEaDn r ea => encEa 12 r.val 1 .w ea
  | .andLEaDn r ea => encEa 12 r.val 2 .l ea
  | .andBDnEa r ea => encEa 12 r.val 4 .b ea
  | .andWDnEa r ea => encEa 12 r.val 5 .w ea
  | .andLDnEa r ea => encEa 12 r.val 6 .l ea
  | .mulu r ea => encEa 12 r.val 3 .w ea
  | .muls r ea => encEa 12 r.val 7 .w ea
  | .abcd rx form ry => [opWord 12 rx.val 4 form.code ry.val]
  | .exgDxDy rx ry => [opWord 12 rx.val 5 0 ry.val]
  | .exgAxAy rx ry => [opWord 12 rx.val 5 1 ry.val]
  | .exgDxAy rx ry => [opWord 12 rx.val 6 1 ry.val]
  | .addBEaDn r ea => encEa 13 r.val 0 .b ea
  | .addWEaDn r ea => encEa 13 r.val 1 .w ea
  | .addLEaDn r ea => encEa 13 r.val 2 .l ea
  | .addBDnEa r ea => encEa 13 r.val 4 .b ea
  | .addWDnEa r ea => encEa 13 r.val 5 .w ea
  | .addLDnEa r ea => encEa 13 r.val 6 .l ea
  | .addaW an ea => encEa 13 an.val 3 .w ea
  | .addaL an ea => encEa 13 an.val 7 .l ea
  | .addx rx sz form ry => [opWord 13 rx.val (4 + sz.code) form.code ry.val]
  | .aslReg c sz r => encShift 1 0 c sz r
  | .aslEa ea => encEa 14 0 7 .w ea
  | .asrReg c sz r => encShift 0 0 c sz r
  | .asrEa ea => encEa 14 0 3 .w ea
  | .lslReg c sz r => encShift 1 1 c sz r
  | .lslEa ea => encEa 14 1 7 .w ea
  | .lsrReg c sz r => encShift 0 1 c sz r
  | .lsrEa ea => encEa 14 1 3 .w ea
  | .roxlReg c sz r => encShift 1 2 c sz r
  | .roxlEa ea => encEa 14 2 7 .w ea
  | .roxrReg c sz r => encShift 0 2 c sz r
  | .roxrEa ea => encEa 14 2 3 .w ea
  | .rolReg c sz r => encShift 1 3 c sz r
  | .rolEa ea => encEa 14 3 7 .w ea
  | .rorReg c sz r => encShift 0 3 c sz r
  | .rorEa ea => encEa 14 3 3 .w ea
  | .lineF z => [opWord 15 (z.toNat / 512) (z.toNat / 64 % 8) (z.toNat / 8 % 8) (z.toNat % 8)]

/-! ### Bytes -/

/-- A word as the two bytes memory holds, the most significant at the lower address (R73). -/
def Word.bytes (w : Word) : List Byte := [w.extractLsb' 8 8, w.setWidth 8]

/-- The words a list of bytes holds, big-endian (R73). -/
def wordsOfBytes : List Byte → List Word
  | hi :: lo :: bs => (hi ++ lo) :: wordsOfBytes bs
  | _ => []

/-- The longest instruction, in words (R110). -/
def maxWords : Nat := 5

/-- The words of an instruction given as one number whose bit 0 is the least significant bit of the first word and whose
bits count on into the later words; bits from `nbits` up are zero, up to the longest instruction. -/
def tableWords (nbits w : Nat) : List Word :=
  (List.range maxWords).map fun k => BitVec.ofNat 16 (w % 2 ^ nbits / 65536 ^ k)

/-- The same instruction as the bytes memory holds, the first word at the lowest address (R80). -/
def tableBytes (nbits w : Nat) : List Byte := (tableWords nbits w).flatMap Word.bytes

/-- The instruction the decoder reads from a table row's word. -/
def decodeTableWord (nbits w : Nat) : Option Instr :=
  match decode (wordsOfBytes (tableBytes nbits w)) with
  | .ok p => some p.1
  | .error _ => none

end Sys2Proof
end

