-- ==== Sys2Proof/Config.lean ====
section
/-! DEFINITION. The free values: what the spec leaves open, as constants without a body, so that nothing can be proved of
them (R6, R13, log entries 9, 10, 12, 13, 14, 19). A draw is one of these applied to the counter `State.draws`. -/

namespace Sys2Proof

/-- The three decimal instructions, as `BcdInvalid` tells them apart (R6, R234). -/
inductive BcdOp
  | abcd | sbcd | nbcd
  deriving DecidableEq, Repr

/-- What `BcdInvalid` gives: the result byte and the flags `X`, `Z`, `C` (R234). -/
structure BcdAnswer where
  r : Byte
  x : Bool
  z : Bool
  c : Bool
  deriving DecidableEq, Repr, Inhabited

/-- A drawn bit: a flag marked `U` (R13), or an either-or choice. -/
opaque Config.freeBit : Nat → Bool

/-- A drawn byte: what a device answers to a read (R81, log entry 3). -/
opaque Config.freeByte : Nat → Byte

/-- A drawn word: the undefined bits of the special status word (R355). -/
opaque Config.freeWord : Nat → Word

/-- A drawn long word: the imprecise PC of a group 0 frame (R355). -/
opaque Config.freeLong : Nat → Long

/-- The open parameter `BcdInvalid(op, s, d, X)`: decimal arithmetic on a digit above 9 (R6, R234, U2). -/
opaque Config.bcdInvalid : BcdOp → Byte → Byte → Bool → BcdAnswer

end Sys2Proof
end

