-- ==== Sys2Proof/Machine/State.lean ====
section
/-! DEFINITION. The state of the machine as plain data: every register spec/10_state.md names, the platform's inputs, and the
few fields of the model's own that INVENTORY.md lists. -/

namespace Sys2Proof.Machine

/-- The five condition flags (R37, R38). -/
structure Ccr where
  x : Bool
  n : Bool
  z : Bool
  v : Bool
  c : Bool
  deriving DecidableEq, Repr

/-- The status register by its fields; the bits without a field have no cell (R37, R40, D3). -/
structure StatusReg where
  t : Bool
  s : Bool
  i : BitVec 3
  ccr : Ccr
  deriving DecidableEq, Repr

/-- The run state (R43). -/
inductive RunState
  | running | stopped | halted
  deriving DecidableEq, Repr

/-- What the platform does with a read of an address: the stored byte, a device's data, or a bus error (R81, R91). -/
inductive ReadAnswer
  | stored | device | busError
  deriving DecidableEq, Repr

/-- What the platform does with a write: it stores it, takes it without storing, or answers a bus error (R81, R91). -/
inductive WriteAnswer
  | stored | taken | busError
  deriving DecidableEq, Repr

/-- A range of physical byte addresses and its answers, one entry of `MemMap` (R6, R82). -/
structure Region where
  base : Nat
  size : Nat
  onRead : ReadAnswer
  onWrite : WriteAnswer
  deriving DecidableEq, Repr

/-- What a device answers to an interrupt acknowledge, `IntAck` (R365). -/
inductive AckAnswer
  | vector (n : Byte) | autovector | busError
  deriving DecidableEq, Repr

/-- The bytes memory holds, by 24-bit physical address, in one canonical form (`Memory.wf`). -/
structure Memory where
  cells : List Host.Cell
  deriving DecidableEq, Repr

/-- The whole machine. -/
structure State where
  /-- `D0`..`D7` (R30). -/
  d : Vector Long 8
  /-- `A0`..`A6` (R32); `A7` is `usp` or `ssp` (R34). -/
  a : Vector Long 7
  /-- The user stack pointer (R34). -/
  usp : Long
  /-- The supervisor stack pointer (R34). -/
  ssp : Long
  /-- The program counter (R35). -/
  pc : Long
  /-- The status register (R37). -/
  sr : StatusReg
  /-- The instruction register: the operation word of the instruction in progress (R355). -/
  ir : Word
  /-- The run state (R43). -/
  run : RunState
  /-- Memory (R70). -/
  mem : Memory
  /-- Words the prefetch may still hold as they were before a store, by physical address (R45, R89). -/
  stale : List (Nat × Word)
  /-- Platform input: the memory map (R6, R46). -/
  memMap : List Region
  /-- Platform input: the reset line (R340, R400). -/
  resetLine : Bool
  /-- Platform input: the interrupt request level (R44, R361). -/
  ipl : BitVec 3
  /-- The request level at the last instruction boundary (R44, R363). -/
  prevIpl : BitVec 3
  /-- Platform input: the answer to an interrupt acknowledge at each level; entry 0 is never asked for (R365). -/
  intAck : Vector AckAnswer 8
  /-- How many pulses the `RESET` instruction has sent to the platform (R316); the model's own. -/
  resetPulses : Nat
  /-- The instruction just executed transferred control or took an exception (R89); the model's own. -/
  refilled : Bool
  /-- `traced` of R340, between an instruction and the trace stage of its step; the model's own. -/
  traceDue : Bool
  /-- How many free values have been drawn (R13, D36); the model's own. -/
  draws : Nat
  deriving DecidableEq, Repr

/-- Why the machine stops with a fault. -/
inductive Fault
  /-- Raised by a meaning whose operand is no operand of the instruction (a write to an immediate, the address of a
  register): only an instruction term that `Instr.wf` rejects, which no word decodes to. Safe (log entry 30). -/
  | illFormedOperand
  deriving DecidableEq, Repr

/-- Why the machine refuses an instruction. -/
inductive Refusal
  /-- An instruction whose meaning is not written; raised by no arm. Safe. -/
  | notModelled (mnemonic : String)
  /-- `UNLK A7`, to which the spec gives no meaning: "a model refuses it" (R190, U9). Safe (log entry 24). -/
  | unlkStackPointer
  deriving DecidableEq, Repr

/-- The whole 16-Mbyte space as RAM: the platform of the spec's own test vectors (R420, log entry 2). -/
def ramEverywhere : List Region := [⟨0, 2 ^ 24, .stored, .stored⟩]

/-- The machine right after the external reset, nothing placed in memory (R47, R400). `SSP` and `PC` are the long words read
at addresses 0 and 4 of that memory; the registers R47 leaves unspecified hold the values log entry 4 names. -/
def State.reset : State where
  d := Vector.replicate 8 0
  a := Vector.replicate 7 0
  usp := 0
  ssp := 0
  pc := 0
  sr := ⟨false, true, 7, ⟨false, false, false, false, false⟩⟩
  ir := 0
  run := .running
  mem := ⟨[]⟩
  stale := []
  memMap := ramEverywhere
  resetLine := false
  ipl := 0
  prevIpl := 0
  intAck := Vector.replicate 8 .autovector
  resetPulses := 0
  refilled := false
  traceDue := false
  draws := 0

end Sys2Proof.Machine
end

