-- ==== Sys2Proof/Machine/Flags.lean ====
section
/-! DEFINITION. The status register's layout and every result and flag computation of the spec: arithmetic and logical
flags (R16 to R19), shifts and rotates (R260 to R269), multiply and divide (R216 to R219), decimal (R233, R234), bits
(R280), conditions (R291). All are functions of values alone. -/

namespace Sys2Proof.Machine

/-! ### The status register as a word, R37 and R40 -/

/-- The condition code register as a byte: `X N Z V C` in bits 4..0 (R37). -/
def Ccr.toByte (f : Ccr) : Byte :=
  0#3 ++ BitVec.ofBool f.x ++ BitVec.ofBool f.n ++ BitVec.ofBool f.z ++ BitVec.ofBool f.v ++ BitVec.ofBool f.c

/-- The flags a byte loads; bits 7..5 are ignored (R40, D53). -/
def Ccr.ofByte (b : Byte) : Ccr :=
  ⟨b.getLsbD 4, b.getLsbD 3, b.getLsbD 2, b.getLsbD 1, b.getLsbD 0⟩

/-- The status register as a word, zero where it has no field (R37, R40). -/
def StatusReg.toWord (r : StatusReg) : Word :=
  BitVec.ofBool r.t ++ 0#1 ++ BitVec.ofBool r.s ++ 0#2 ++ r.i ++ r.ccr.toByte

/-- The status register a word loads: `SR <- v & 0xA71F` (R40, R310). -/
def StatusReg.ofWord (w : Word) : StatusReg :=
  ⟨w.getLsbD 15, w.getLsbD 13, w.extractLsb' 8 3, Ccr.ofByte (w.setWidth 8)⟩

/-! ### Arithmetic and logic, R16 to R19 -/

/-- `logic_flags(r)`: `N`, `Z` from the result, `V` and `C` cleared, `X` unchanged (R16). -/
def logicFlags {w : Nat} (r : BitVec w) (f : Ccr) : Ccr :=
  { f with n := r.msb, z := r == 0, v := false, c := false }

/-- The carry out of an addition, from the three top bits (R17). -/
def addCarry (sm dm rm : Bool) : Bool := (sm && dm) || (!rm && dm) || (sm && !rm)

/-- The signed overflow of an addition (R17). -/
def addOverflow (sm dm rm : Bool) : Bool := (sm && dm && !rm) || (!sm && !dm && rm)

/-- The borrow of a subtraction `d - s` (R18). -/
def subBorrow (sm dm rm : Bool) : Bool := (sm && !dm) || (rm && !dm) || (sm && rm)

/-- The signed overflow of a subtraction `d - s` (R18). -/
def subOverflow (sm dm rm : Bool) : Bool := (!sm && dm && !rm) || (sm && !dm && rm)

/-- `add_flags(s, d, r)` (R17). -/
def addFlags {w : Nat} (s d r : BitVec w) : Ccr where
  x := addCarry s.msb d.msb r.msb
  n := r.msb
  z := r == 0
  v := addOverflow s.msb d.msb r.msb
  c := addCarry s.msb d.msb r.msb

/-- `sub_flags(s, d, r)` (R18). -/
def subFlags {w : Nat} (s d r : BitVec w) : Ccr where
  x := subBorrow s.msb d.msb r.msb
  n := r.msb
  z := r == 0
  v := subOverflow s.msb d.msb r.msb
  c := subBorrow s.msb d.msb r.msb

/-- `Z` of the extended operations: cleared by a non-zero result, else unchanged (R204). -/
def stickyZ {w : Nat} (r : BitVec w) (z : Bool) : Bool := if r = 0 then z else false

/-- The carry flag as a number at a width. -/
def carryIn (w : Nat) (x : Bool) : BitVec w := if x then 1 else 0

/-- The result and the flags of a two-operand operation, from source, destination and the flags before. -/
abbrev Alu (w : Nat) := BitVec w → BitVec w → Ccr → BitVec w × Ccr

/-- `ADD` (R200). -/
def aluAdd {w : Nat} : Alu w := fun s d _ => (d + s, addFlags s d (d + s))

/-- `SUB` (R205). -/
def aluSub {w : Nat} : Alu w := fun s d _ => (d - s, subFlags s d (d - s))

/-- `CMP`: the flags of a subtraction, `X` unchanged (R212). -/
def cmpFlags {w : Nat} (s d : BitVec w) (f : Ccr) : Ccr := { subFlags s d (d - s) with x := f.x }

/-- `ADDX` (R204). -/
def aluAddx {w : Nat} : Alu w := fun s d f =>
  let r := d + s + carryIn w f.x
  (r, { addFlags s d r with z := stickyZ r f.z })

/-- `SUBX` (R209). -/
def aluSubx {w : Nat} : Alu w := fun s d f =>
  let r := d - s - carryIn w f.x
  (r, { subFlags s d r with z := stickyZ r f.z })

/-- `AND` (R241). -/
def aluAnd {w : Nat} : Alu w := fun s d f => (s &&& d, logicFlags (s &&& d) f)

/-- `OR` (R245). -/
def aluOr {w : Nat} : Alu w := fun s d f => (s ||| d, logicFlags (s ||| d) f)

/-- `EOR` (R248). -/
def aluEor {w : Nat} : Alu w := fun s d f => (s ^^^ d, logicFlags (s ^^^ d) f)

/-- The result and the flags of a one-operand operation, from the operand and the flags before. -/
abbrev Unary (w : Nat) := BitVec w → Ccr → BitVec w × Ccr

/-- `NEG`: `0 - d` with `sub_flags(d, 0, r)` (R210). -/
def unaryNeg {w : Nat} : Unary w := fun d f => aluSub d 0 f

/-- `NEGX`: `0 - d - X` (R211). -/
def unaryNegx {w : Nat} : Unary w := fun d f => aluSubx d 0 f

/-- `NOT` (R250). -/
def unaryNot {w : Nat} : Unary w := fun d f => (~~~d, logicFlags (~~~d) f)

/-- `CLR`: flags `- 0 1 0 0` (R221). -/
def clrFlags (f : Ccr) : Ccr := { f with n := false, z := true, v := false, c := false }

/-! ### Conditions, R291 -/

/-- `cond(cc)`: the test on the flags (R291). -/
def condHolds (cond : Cond) (f : Ccr) : Bool :=
  match cond with
  | .t => true
  | .f => false
  | .hi => !f.c && !f.z
  | .ls => f.c || f.z
  | .cc => !f.c
  | .cs => f.c
  | .ne => !f.z
  | .eq => f.z
  | .vc => !f.v
  | .vs => f.v
  | .pl => !f.n
  | .mi => f.n
  | .ge => f.n == f.v
  | .lt => f.n != f.v
  | .gt => f.n == f.v && !f.z
  | .le => f.n != f.v || f.z

/-! ### Multiply and divide, R216 to R219 -/

/-- `MULU`: the exact unsigned product (R216). -/
def mulUnsigned (s d : Word) : Long := BitVec.ofNat 32 (s.toNat * d.toNat)

/-- `MULS`: the exact signed product (R217). -/
def mulSigned (s d : Word) : Long := BitVec.ofInt 32 (s.toInt * d.toInt)

/-- The three outcomes of a divide (R218, R219). -/
inductive DivOut
  | byZero
  | overflow
  | fits (quotient remainder : Word)
  deriving DecidableEq, Repr

/-- `DIVU` (R218). -/
def divUnsigned (s : Word) (d : Long) : DivOut :=
  if s = 0 then .byZero
  else if 0xFFFF < d.toNat / s.toNat then .overflow
  else .fits (BitVec.ofNat 16 (d.toNat / s.toNat)) (BitVec.ofNat 16 (d.toNat % s.toNat))

/-- `DIVS`: the quotient rounds toward zero, the remainder is `d - q * s` (R219). -/
def divSigned (s : Word) (d : Long) : DivOut :=
  let q := d.toInt.tdiv s.toInt
  if s = 0 then .byZero
  else if q < -32768 ∨ 32767 < q then .overflow
  else .fits (BitVec.ofInt 16 q) (BitVec.ofInt 16 (d.toInt - q * s.toInt))

/-- The flags of a divide that fits: `N` and `Z` from the quotient, `V` and `C` cleared (R218). -/
def divFlags (q : Word) (f : Ccr) : Ccr := logicFlags q f

/-! ### Decimal arithmetic, R233 and R234 -/

/-- Both digits lie in 0..9. -/
def isBcd (b : Byte) : Bool := decide (b.toNat / 16 ≤ 9 ∧ b.toNat % 16 ≤ 9)

/-- `dec(b)`, the number two decimal digits stand for (R233). -/
def dec (b : Byte) : Nat := 10 * (b.toNat / 16) + b.toNat % 16

/-- `bcd(n)`, a number 0..99 as two decimal digits (R233). -/
def bcd (n : Nat) : Byte := BitVec.ofNat 8 (16 * (n / 10) + n % 10)

/-- The exact decimal result on valid operands: the digits and the carry or borrow (R233). -/
def bcdExact (op : BcdOp) (s d : Byte) (x : Bool) : Byte × Bool :=
  match op with
  | .abcd =>
    let t := dec s + dec d + x.toNat
    (bcd (t % 100), decide (100 ≤ t))
  | .sbcd => (bcd ((dec d + 200 - dec s - x.toNat) % 100), decide (dec d < dec s + x.toNat))
  | .nbcd => (bcd ((200 - dec d - x.toNat) % 100), decide (0 < dec d + x.toNat))

/-- The operands a decimal instruction reads are all decimal; `NBCD` reads only the destination (R234). -/
def bcdValid (op : BcdOp) (s d : Byte) : Bool :=
  match op with
  | .nbcd => isBcd d
  | _ => isBcd s && isBcd d

/-- Result byte and flags of a decimal instruction; `N` and `V`, marked `U`, are the drawn `n` and `v` (R233, R234). -/
def bcdResult (op : BcdOp) (s d : Byte) (f : Ccr) (n v : Bool) : Byte × Ccr :=
  if bcdValid op s d then
    let o := bcdExact op s d f.x
    (o.1, ⟨o.2, n, stickyZ o.1 f.z, v, o.2⟩)
  else
    let o := Config.bcdInvalid op s d f.x
    (o.r, ⟨o.x, n, o.z, v, o.c⟩)

/-! ### Shifts and rotates, R260 to R269 -/

/-- Whether `LSL` and `LSR` write `X`; false as the source says (R264, R265, D31, U14, log entry 11). -/
def lsxWritesX : Bool := false

/-- The eight shifts and rotates. -/
inductive ShiftKind
  | asl | asr | lsl | lsr | rol | ror | roxl | roxr
  deriving DecidableEq, Repr

/-- What one step of a shift works on: the operand, `X`, `C`, and whether the top bit has changed. -/
structure ShiftRun (w : Nat) where
  v : BitVec w
  x : Bool
  c : Bool
  moved : Bool
  deriving DecidableEq, Repr

/-- One step of a shift or rotate (R262 to R269). -/
def shiftStep {w : Nat} (k : ShiftKind) (s : ShiftRun w) : ShiftRun w :=
  let top := s.v.msb
  let low := s.v.getLsbD 0
  match k with
  | .asl => ⟨s.v <<< 1, top, top, s.moved || (s.v <<< 1).msb != top⟩
  | .asr => ⟨s.v.sshiftRight 1, low, low, s.moved⟩
  | .lsl => ⟨s.v <<< 1, if lsxWritesX then top else s.x, top, s.moved⟩
  | .lsr => ⟨s.v >>> 1, if lsxWritesX then low else s.x, low, s.moved⟩
  | .rol => ⟨(s.v <<< 1) ||| carryIn w top, s.x, top, s.moved⟩
  | .ror => ⟨(s.v >>> 1) ||| (carryIn w low <<< (w - 1)), s.x, low, s.moved⟩
  | .roxl => ⟨(s.v <<< 1) ||| carryIn w s.x, top, top, s.moved⟩
  | .roxr => ⟨(s.v >>> 1) ||| (carryIn w s.x <<< (w - 1)), low, low, s.moved⟩

/-- `n` steps of a shift or rotate (R260). -/
def shiftSteps {w : Nat} (k : ShiftKind) : Nat → ShiftRun w → ShiftRun w
  | 0, s => s
  | n + 1, s => shiftSteps k n (shiftStep k s)

/-- The carry a count of zero leaves: `X` for the rotates through `X`, else 0 (R261). -/
def shiftZeroCarry (k : ShiftKind) (x : Bool) : Bool :=
  match k with
  | .roxl | .roxr => x
  | _ => false

/-- `V` of a shift: only `ASL` can set it (R262 to R269). -/
def shiftOverflow (k : ShiftKind) (moved : Bool) : Bool :=
  match k with
  | .asl => moved
  | _ => false

/-- The result and flags of `n` steps (R260 to R269); with no step, R261. -/
def shiftResult {w : Nat} (k : ShiftKind) (n : Nat) (v : BitVec w) (f : Ccr) : BitVec w × Ccr :=
  let o := shiftSteps k n ⟨v, f.x, shiftZeroCarry k f.x, false⟩
  (o.v, ⟨o.x, o.v.msb, o.v == 0, shiftOverflow k o.moved, o.c⟩)

/-! ### Bits, R280 to R284 -/

/-- What a bit instruction does to the bit it tests. -/
inductive BitOp
  | tst | chg | clr | set
  deriving DecidableEq, Repr

/-- The operand after a bit instruction on bit `i` (R281 to R284). -/
def bitWrite {w : Nat} (op : BitOp) (i : Nat) (v : BitVec w) : BitVec w :=
  match op with
  | .tst => v
  | .chg => v ^^^ BitVec.twoPow w i
  | .clr => v &&& ~~~BitVec.twoPow w i
  | .set => v ||| BitVec.twoPow w i

/-- `Z` is 1 when the tested bit was 0; no other flag changes (R280). -/
def bitFlags {w : Nat} (i : Nat) (v : BitVec w) (f : Ccr) : Ccr := { f with z := !v.getLsbD i }

end Sys2Proof.Machine
end

