-- ==== Sys2Proof/Machine/Ops.lean ====
section
/-! DEFINITION. The named operations over memory and registers, the bus, the pushes and pops, taking an exception (R350,
R355) and returning from one (R318). Every meaning is built from these. -/

namespace Sys2Proof.Machine

/-! ### Memory as bytes, R70, R71, R73 -/

/-- What an unlisted address reads as (DESIGN CHOICE, unsafe: log entry 1). -/
def unlistedByte : Byte := 0

/-- The byte a list of cells gives an address. -/
def lookupCell : List Host.Cell → Nat → Byte
  | [], _ => unlistedByte
  | c :: cs, p => if c.1 = p then c.2 else lookupCell cs p

/-- A list of cells with one more entry, addresses kept rising. -/
def insertCell (p : Nat) (v : Byte) : List Host.Cell → List Host.Cell
  | [] => [(p, v)]
  | c :: cs =>
    if c.1 < p then c :: insertCell p v cs
    else if c.1 = p then (p, v) :: cs
    else (p, v) :: c :: cs

/-- The byte at a physical address. -/
def Memory.read (m : Memory) (p : Nat) : Byte := lookupCell m.cells p

/-- Memory with one byte written; a byte equal to what an unlisted address reads as is not listed. -/
def Memory.write (m : Memory) (p : Nat) (v : Byte) : Memory :=
  if v = unlistedByte then ⟨m.cells.filter fun c => c.1 != p⟩ else ⟨insertCell p v m.cells⟩

/-- The canonical form: addresses strictly rising and inside the 24-bit space, nothing listed that an unlisted address
would read as. -/
abbrev Memory.wf (m : Memory) : Prop :=
  m.cells.Pairwise (fun c c' => c.1 < c'.1) ∧ ∀ c ∈ m.cells, c.2 ≠ unlistedByte ∧ c.1 < 2 ^ 24

/-- `PA(addr)`: the low 24 bits (R71). -/
def physAddr (a : Long) : Nat := a.toNat % 2 ^ 24

/-- Word, long word and byte accesses: the alignment rule (R76). -/
def aligned (sz : Size) (a : Long) : Bool := sz == .b || !a.getLsbD 0

/-! ### Fields of the state -/

def State.setPc (s : State) (v : Long) : State := { s with pc := v }
def State.setSr (s : State) (v : StatusReg) : State := { s with sr := v }
def State.setCcr (s : State) (f : Ccr) : State := { s with sr := { s.sr with ccr := f } }
def State.setUsp (s : State) (v : Long) : State := { s with usp := v }
def State.setSsp (s : State) (v : Long) : State := { s with ssp := v }
def State.setRun (s : State) (r : RunState) : State := { s with run := r }
def State.setMem (s : State) (m : Memory) : State := { s with mem := m }
def State.setIr (s : State) (w : Word) : State := { s with ir := w }
def State.setTraceDue (s : State) (b : Bool) : State := { s with traceDue := b }
def State.setStale (s : State) (ws : List (Nat × Word)) : State := { s with stale := ws }
def State.setIpl (s : State) (l : BitVec 3) : State := { s with ipl := l }
def State.setPrevIpl (s : State) (l : BitVec 3) : State := { s with prevIpl := l }
def State.nextDraw (s : State) : State := { s with draws := s.draws + 1 }
def State.pulse (s : State) : State := { s with resetPulses := s.resetPulses + 1 }

/-- `D[n]` (R9). -/
def State.getD (s : State) (n : RegNum) : Long := s.d[n]

/-- `D[n] <- v`, all 32 bits. -/
def State.putD (s : State) (n : RegNum) (v : Long) : State := { s with d := s.d.set n v }

/-- The active stack pointer: `SSP` in supervisor mode, else `USP` (R34). -/
def State.sp (s : State) : Long := if s.sr.s then s.ssp else s.usp

/-- A write to the active stack pointer (R34). -/
def State.putSp (s : State) (v : Long) : State := if s.sr.s then s.setSsp v else s.setUsp v

/-- `A[n]`; `A[7]` is the active stack pointer (R9, R34). -/
def State.getA (s : State) (n : RegNum) : Long := if h : n.val < 7 then s.a[n.val] else s.sp

/-- `A[n] <- v` (R9, R34). -/
def State.putA (s : State) (n : RegNum) (v : Long) : State :=
  if h : n.val < 7 then { s with a := s.a.set n.val v } else s.putSp v

/-- `Reg(i)`: `D0`..`D7`, then `A0`..`A7` (R183). -/
def State.getReg (s : State) (i : Nat) : Long :=
  if i < 8 then s.getD (Fin.ofNat 8 i) else s.getA (Fin.ofNat 8 i)

/-- `Reg(i) <- v` (R184). -/
def State.putReg (s : State) (i : Nat) (v : Long) : State :=
  if i < 8 then s.putD (Fin.ofNat 8 i) v else s.putA (Fin.ofNat 8 i) v

/-- The low part of a register (R31). -/
def low (sz : Size) (v : Long) : BitVec sz.bits := v.setWidth sz.bits

/-- A register with its low part replaced, the bits above the size unchanged (R31, D4). -/
def mergeLow : (sz : Size) → Long → BitVec sz.bits → Long
  | .b, old, v => old.extractLsb' 8 24 ++ v
  | .w, old, v => old.extractLsb' 16 16 ++ v
  | .l, _, v => v

/-- `D[n][sz-1:0] <- v` (R31). -/
def State.putLow (s : State) (sz : Size) (n : RegNum) (v : BitVec sz.bits) : State :=
  s.putD n (mergeLow sz (s.getD n) v)

/-- `pc <- target` by a transfer of control, which refills the prefetch (R89, R299). -/
def State.jumpTo (s : State) (target : Long) : State := { s with pc := target, stale := [], refilled := true }

/-! ### What a meaning can do -/

/-- What kind of access the function code tells the platform (R83); a PC-relative operand may be either, the spec does not
say which (log entry 13). -/
inductive Space
  | data | program | pcRelative
  deriving DecidableEq, Repr

/-- An access, as a group 0 frame reports it (R355). -/
structure Access where
  addr : Long
  write : Bool
  space : Space
  deriving DecidableEq, Repr

/-- The two group 0 errors an access can raise (R341). -/
inductive MemError
  | address | bus
  deriving DecidableEq, Repr

/-- An access that did not take place. -/
structure MemFault where
  error : MemError
  access : Access
  deriving DecidableEq, Repr

/-- The exceptions of groups 1 and 2 an instruction can raise (R341). -/
inductive Exc
  | illegalInstruction | lineA | lineF | privilegeViolation
  | zeroDivide | chkInstruction | trapV | trap (n : BitVec 4)
  deriving DecidableEq, Repr

/-- Why a meaning stops before its end. -/
inductive Raise
  /-- A group 0 error on an access. -/
  | mem (f : MemFault)
  /-- An exception of group 1 or 2. -/
  | exc (e : Exc)
  /-- An operand that is none of the instruction's; no word decodes to it (log entry 30). -/
  | illFormed
  deriving DecidableEq, Repr

/-- A computation over the state that may raise; the writes made before the raise stand (R12). -/
abbrev Exec (α : Type) : Type := EStateM Raise State α

/-- The state, read through a function. -/
def look {α : Type} (f : State → α) : Exec α := fun s => .ok (f s) s

/-- The state, changed. -/
def update (f : State → State) : Exec Unit := fun s => .ok () (f s)

/-- Abandon the computation here (R12). -/
def fail {α : Type} (r : Raise) : Exec α := fun s => .error r s

/-- A free value: the next one of its kind (R13, D36). -/
def draw {α : Type} (f : Nat → α) : Exec α := fun s => .ok (f s.draws) s.nextDraw

/-- Do `m`, then write the flags `f`; if `m` raises, whether they were already written is a free choice (U5). -/
def thenFlags (f : Ccr) (m : Exec Unit) : Exec Unit := fun s =>
  match m s with
  | .ok _ t => .ok () (t.setCcr f)
  | .error r t => .error r (if Config.freeBit t.draws then t.nextDraw.setCcr f else t.nextDraw)

/-! ### The bus, R74, R75, R79, R91 -/

/-- Whether a region holds an address. -/
def Region.covers (r : Region) (p : Nat) : Bool := decide (r.base ≤ p ∧ p < r.base + r.size)

/-- The platform's answer to a read: the first region that holds the address, a bus error where none does (R91, U12). -/
def State.readAnswer (s : State) (p : Nat) : ReadAnswer :=
  match s.memMap.find? fun r => r.covers p with
  | some r => r.onRead
  | none => .busError

/-- The platform's answer to a write (R91, U12). -/
def State.writeAnswer (s : State) (p : Nat) : WriteAnswer :=
  match s.memMap.find? fun r => r.covers p with
  | some r => r.onWrite
  | none => .busError

/-- Whether a bus cycle at these byte addresses is answered: it is where each of its bytes is; that a word cycle fails as a whole
where the platform answers one of its bytes and not the other is the model's choice (R91, log entry 37). -/
def State.answersRead (s : State) (as : List Long) : Bool := as.all fun a => s.readAnswer (physAddr a) != .busError
def State.answersWrite (s : State) (as : List Long) : Bool := as.all fun a => s.writeAnswer (physAddr a) != .busError

/-- One byte of a read cycle that is answered: the stored byte, or a device's free one (R81, log entry 3). -/
def busByte (a : Long) : Exec Byte := fun s =>
  match s.readAnswer (physAddr a) with
  | .device => draw Config.freeByte s
  | _ => .ok (s.mem.read (physAddr a)) s

/-- One byte of a write cycle that is answered: stored, or taken without being stored. -/
def storeByte (a : Long) (v : Byte) : Exec Unit := update fun s =>
  match s.writeAnswer (physAddr a) with
  | .stored => s.setMem (s.mem.write (physAddr a) v)
  | _ => s

/-- A read cycle that moves one byte (R74). -/
def cycleReadByte (acc : Access) (a : Long) : Exec Byte := do
  if ← look (·.answersRead [a]) then busByte a else fail (.mem ⟨.bus, acc⟩)

/-- A read cycle that moves a word, the byte at the even address on top (R73, R74). -/
def cycleReadWord (acc : Access) (a : Long) : Exec Word := do
  if ← look (·.answersRead [a, a + 1]) then
    let hi ← busByte a
    let lo ← busByte (a + 1)
    return hi ++ lo
  else fail (.mem ⟨.bus, acc⟩)

/-- A write cycle that moves one byte (R74). -/
def cycleWriteByte (acc : Access) (a : Long) (v : Byte) : Exec Unit := do
  if ← look (·.answersWrite [a]) then storeByte a v else fail (.mem ⟨.bus, acc⟩)

/-- A write cycle that moves a word (R73, R74). -/
def cycleWriteWord (acc : Access) (a : Long) (v : Word) : Exec Unit := do
  if ← look (·.answersWrite [a, a + 1]) then
    storeByte a (v.extractLsb' 8 8)
    storeByte (a + 1) (v.setWidth 8)
  else fail (.mem ⟨.bus, acc⟩)

/-- A misaligned word or long access does not take place (R77). -/
def checkAligned (sz : Size) (acc : Access) : Exec Unit :=
  if aligned sz acc.addr then pure () else fail (.mem ⟨.address, acc⟩)

/-- The cycles of a read: one, or two word cycles, the high half first (R74, R75). -/
def readCycles : (sz : Size) → Access → Exec (BitVec sz.bits)
  | .b, acc => cycleReadByte acc acc.addr
  | .w, acc => cycleReadWord acc acc.addr
  | .l, acc => do
    let hi ← cycleReadWord acc acc.addr
    let lo ← cycleReadWord acc (acc.addr + 2)
    return (hi ++ lo : Long)

/-- The cycles of a write; a long write through predecrement or a push moves the low half first (R75). -/
def writeCycles : (sz : Size) → Bool → Access → BitVec sz.bits → Exec Unit
  | .b, _, acc, v => cycleWriteByte acc acc.addr v
  | .w, _, acc, v => cycleWriteWord acc acc.addr v
  | .l, true, acc, v => do
    cycleWriteWord acc (acc.addr + 2) (v.setWidth 16)
    cycleWriteWord acc acc.addr (v.extractLsb' 16 16)
  | .l, false, acc, v => do
    cycleWriteWord acc acc.addr (v.extractLsb' 16 16)
    cycleWriteWord acc (acc.addr + 2) (v.setWidth 16)

/-- `MemRead(addr, n)` (R79). -/
def memRead (sz : Size) (space : Space) (a : Long) : Exec (BitVec sz.bits) := do
  checkAligned sz ⟨a, false, space⟩
  readCycles sz ⟨a, false, space⟩

/-- `MemWrite(addr, n, v)` (R79). -/
def memWrite (sz : Size) (lowFirst : Bool) (a : Long) (v : BitVec sz.bits) : Exec Unit := do
  checkAligned sz ⟨a, true, .data⟩
  writeCycles sz lowFirst ⟨a, true, .data⟩ v

/-- Whether reads of an address are those of a device and not of memory (R81): it answers them itself, or it takes writes and
answers no read. -/
def State.isDevice (s : State) (p : Nat) : Bool :=
  match s.readAnswer p with
  | .stored => false
  | .device => true
  | .busError => s.writeAnswer p != .busError

/-- Whether an access reaches a device. -/
def State.reachesDevice (s : State) (sz : Size) (a : Long) : Bool :=
  (List.range sz.bytes).any fun k => s.isDevice (physAddr (a + BitVec.ofNat 32 k))

/-- A read the rules do not list but the real part makes, its value dropped (R92, D44): made on the addresses of devices, where
it may raise a bus error like any read; memory could not tell it, and nothing is read where nothing is mapped. At an odd address a
word or long read is left out, so that no address error comes of it: the model's choice, like the rest (log entry 27). -/
def unlistedRead (sz : Size) (space : Space) (a : Long) : Exec Unit := do
  if ← look fun s => aligned sz a && s.reachesDevice sz a then
    let _ ← memRead sz space a
    return ()
  else return ()

/-- `Push16(v)`, on the active stack (R10). -/
def push16 (v : Word) : Exec Unit := do
  update fun s => s.putSp (s.sp - 2)
  memWrite .w true (← look State.sp) v

/-- `Push32(v)`, on the active stack (R10). -/
def push32 (v : Long) : Exec Unit := do
  update fun s => s.putSp (s.sp - 4)
  memWrite .l true (← look State.sp) v

/-- `Pop16()`, from the active stack (R10). -/
def pop16 : Exec Word := do
  let v ← memRead .w .data (← look State.sp)
  update fun s => s.putSp (s.sp + 2)
  return v

/-- `Pop32()`, from the active stack (R10). -/
def pop32 : Exec Long := do
  let v ← memRead .l .data (← look State.sp)
  update fun s => s.putSp (s.sp + 4)
  return v

/-- `Fetch16()` of an extension word whose value the instruction already carries: the checks of the fetch, and the
advance of `pc` (R80, log entry 20). -/
def fetchExt : Exec Unit := do
  let a ← look State.pc
  let acc : Access := ⟨a, false, .program⟩
  checkAligned .w acc
  if ← look (·.answersRead [a, a + 1]) then update fun s => s.setPc (s.pc + 2) else fail (.mem ⟨.bus, acc⟩)

/-- `n` extension words. -/
def fetchExts : Nat → Exec Unit
  | 0 => pure ()
  | n + 1 => do
    fetchExt
    fetchExts n

/-- `require_supervisor()` (R12, R310). -/
def requireSupervisor : Exec Unit := do
  if ← look (·.sr.s) then pure () else fail (.exc .privilegeViolation)

/-! ### Exception processing -/

/-- The vector number of an exception (R341). -/
def Exc.vector : Exc → Nat
  | .illegalInstruction => 4
  | .zeroDivide => 5
  | .chkInstruction => 6
  | .trapV => 7
  | .privilegeViolation => 8
  | .lineA => 10
  | .lineF => 11
  | .trap n => 32 + n.toNat

/-- Group 2: the instruction counts as completed, and the saved PC is the next instruction's (R343, R352, R353). -/
def Exc.isGroup2 : Exc → Bool
  | .zeroDivide | .chkInstruction | .trapV | .trap _ => true
  | .illegalInstruction | .lineA | .lineF | .privilegeViolation => false

/-- The vector number of a group 0 error (R341). -/
def MemError.vector : MemError → Nat
  | .bus => 2
  | .address => 3

/-- The address of a vector (R342). -/
def vectorAddr (v : Nat) : Long := BitVec.ofNat 32 (4 * v)

/-- `pc <- MemRead(4 * v, 4)` (R350). -/
def loadVector (v : Nat) : Exec Unit := do
  let target ← memRead .l .data (vectorAddr v)
  update (·.jumpTo target)

/-- Supervisor mode with tracing off (R350). -/
def StatusReg.forHandler (r : StatusReg) : StatusReg := { r with s := true, t := false }

/-- `Exception(e)` for groups 1 and 2: the three-word frame and the vector (R350, R351). -/
def processException (v : Nat) (savedPc : Long) : Exec Unit := do
  let sr0 ← look fun s => s.sr.toWord
  update fun s => s.setSr s.sr.forHandler
  push32 savedPc
  push16 sr0
  loadVector v

/-- The function code of an access: bit 2 the mode, then program or data (R355). -/
def functionCode (supervisor program : Bool) : BitVec 3 :=
  BitVec.ofBool supervisor ++ BitVec.ofBool program ++ BitVec.ofBool (!program)

/-- Whether an access goes to program space; not stated for a PC-relative operand, so free (log entry 13). -/
def inProgramSpace : Space → Exec Bool
  | .data => pure false
  | .program => pure true
  | .pcRelative => draw Config.freeBit

/-- `pcx`: 2 to 10 bytes past the operation word of the instruction in progress; any value where no instruction is in
progress (R355, U5, log entry 12). -/
def drawPcx (ipc : Option Long) : Exec Long := do
  let v ← draw Config.freeLong
  match ipc with
  | some a => return a + 2 + BitVec.ofNat 32 (v.toNat % 9)
  | none => return v

/-- The instruction word of the frame: the last operation word fetched, that of the instruction in progress where one is; for an
access made while a trace or an interrupt is processed none is, the spec names no word, and any may be saved (R355, log
entry 6). -/
def savedIr (ipc : Option Long) (inEntry : Bool) : Exec Word :=
  match ipc, inEntry with
  | none, true => draw Config.freeWord
  | _, _ => look State.ir

/-- Exception processing of a group 0 error: the seven-word frame and the vector (R355). `ipc` is the address of the
instruction in progress, if one is; `inEntry` says that the access was made while a group 1 exception, a trace or an interrupt was
processed. -/
def processMemFault (ipc : Option Long) (inEntry : Bool) (f : MemFault) : Exec Unit := do
  let sr0 ← look fun s => s.sr
  let ir ← savedIr ipc inEntry
  let pcx ← drawPcx ipc
  let program ← inProgramSpace f.access.space
  let undefined ← draw Config.freeWord
  let ssw : Word := undefined.extractLsb' 5 11 ++ BitVec.ofBool (!f.access.write) ++ BitVec.ofBool inEntry ++
    functionCode sr0.s program
  update fun s => s.setSr s.sr.forHandler
  push32 pcx
  push16 sr0.toWord
  push16 ir
  push32 f.access.addr
  push16 ssw
  loadVector f.error.vector

/-- The state after a group 0 error: its processing, or `halted` where that processing faults in turn (R358). -/
def takeMemFault (ipc : Option Long) (inEntry : Bool) (f : MemFault) (s : State) : State :=
  match processMemFault ipc inEntry f s with
  | .ok _ t => t
  | .error _ t => t.setRun .halted

/-- The state after a processing of group 1 or 2; an access of it that faults is a group 0 error on top of what was
already pushed (R350, R358). -/
def takeEntry (ipc : Option Long) (inEntry : Bool) (entry : Exec Unit) (s : State) : State :=
  match entry s with
  | .ok _ t => t
  | .error (.mem f) t => takeMemFault ipc inEntry f t
  | .error _ t => t

/-- TAKING AN EXCEPTION of group 1 or 2 that the instruction at `ipc` raised (R340, R350 to R353): the saved PC is the next
instruction's for group 2, after which a due trace stays due, and the instruction's own for group 1, which no trace
follows. -/
def takeException (ipc : Long) (e : Exc) (s : State) : State :=
  if e.isGroup2 then takeEntry (some ipc) false (processException e.vector s.pc) s
  else (takeEntry (some ipc) true (processException e.vector ipc) s).setTraceDue false

/-- The return from an exception: `SR` and `PC` from the three-word frame on the supervisor stack (R318, R359). -/
def returnFromException : Exec Unit := do
  requireSupervisor
  let w ← pop16
  let target ← pop32
  update fun s => (s.setSr (StatusReg.ofWord w)).jumpTo target

/-! ### One instruction -/

/-- What a step answers. -/
abbrev Out : Type := Host.Outcome State Fault Refusal

/-- The state an instruction's operation starts from: `pc` past the operation word (R35), and a trace due if `T` is set as
the instruction begins (R340, R372). -/
def State.startInstr (s : State) : State := { s with pc := s.pc + 2, refilled := false, traceDue := s.sr.t }

/-- One instruction at `s.pc`, whose operation word has been fetched: its operation, then the exception it raised, if any
(R340). `traceDue` is left at `traced`. -/
def runInstr (body : Exec Unit) (s : State) : Out :=
  match body s.startInstr with
  | .ok _ t => .next t
  | .error (.exc e) t => .next (takeException s.pc e t)
  | .error (.mem f) t => .next ((takeMemFault (some s.pc) false f t).setTraceDue false)
  | .error .illFormed _ => .fault .illFormedOperand

end Sys2Proof.Machine
end

