-- ==== Sys2Proof/Machine/Operands.lean ====
section
/-! DEFINITION. Effective addresses (spec/40_addressing_modes.md) and the shared operation of each instruction form. -/

namespace Sys2Proof.Machine

/-! ### Effective addresses, R150 to R169 -/

/-- Where an operand is (R150); a memory operand also says how the platform sees the access and whether a long write moves
its low half first (R75). -/
inductive Loc
  | dreg (n : RegNum)
  | areg (n : RegNum)
  | mem (a : Long) (space : Space) (lowFirst : Bool)
  | imm (v : Long)
  deriving DecidableEq, Repr

/-- The step of `(An)+` and `-(An)`: the operand size, but 2 for a byte through `A7` (R154, R155, R167). -/
def stepSize (n : RegNum) (sz : Size) : Long :=
  if n = 7 ∧ sz = .b then 2 else BitVec.ofNat 32 sz.bytes

/-- How many extension words a mode takes (R114). -/
def eaWords (sz : Size) : Ea → Nat
  | .dn _ | .an _ | .ind _ | .postinc _ | .predec _ => 0
  | .disp _ _ | .index _ _ | .absW _ | .pcDisp _ | .pcIndex _ => 1
  | .absL _ => 2
  | .imm _ => if sz = .l then 2 else 1

/-- The index of the indexed modes: a word index is sign-extended (R157). -/
def State.indexValue (s : State) (x : IndexWord) : Long :=
  let r := if x.isAddr then s.getA x.reg else s.getD x.reg
  if x.isLong then r else (r.setWidth 16).signExtend 32

/-- The place an effective address names; `base` is the address of its first extension word (R151 to R162). -/
def eaLoc (s : State) (base : Long) (sz : Size) : Ea → Loc
  | .dn n => .dreg n
  | .an n => .areg n
  | .ind n => .mem (s.getA n) .data false
  | .postinc n => .mem (s.getA n) .data false
  | .predec n => .mem (s.getA n - stepSize n sz) .data true
  | .disp n d => .mem (s.getA n + d.signExtend 32) .data false
  | .index n x => .mem (s.getA n + s.indexValue x + x.disp.signExtend 32) .data false
  | .absW a => .mem (a.signExtend 32) .data false
  | .absL a => .mem a .data false
  | .pcDisp d => .mem (base + d.signExtend 32) .pcRelative false
  | .pcIndex x => .mem (base + s.indexValue x + x.disp.signExtend 32) .pcRelative false
  | .imm v => .imm v

/-- The register side effect of a mode (R154, R155). -/
def eaTouch (sz : Size) (ea : Ea) (s : State) : State :=
  match ea with
  | .postinc n => s.putA n (s.getA n + stepSize n sz)
  | .predec n => s.putA n (s.getA n - stepSize n sz)
  | _ => s

/-- `DecodeEA(mode, reg, sz)`: the extension words, the side effect and the place (R166). -/
def decodeEa (sz : Size) (ea : Ea) : Exec Loc := do
  let loc ← look fun s => eaLoc s s.pc sz ea
  fetchExts (eaWords sz ea)
  update (eaTouch sz ea)
  return loc

/-- `ReadLoc(loc, sz)` (R166). -/
def readLoc (sz : Size) : Loc → Exec (BitVec sz.bits)
  | .dreg n => look fun s => low sz (s.getD n)
  | .areg n => look fun s => low sz (s.getA n)
  | .mem a space _ => memRead sz space a
  | .imm v => pure (low sz v)

/-- `WriteLoc(loc, sz, v)`; a word written to an address register is sign-extended (R33, R166). -/
def writeLoc (sz : Size) (loc : Loc) (v : BitVec sz.bits) : Exec Unit :=
  match loc with
  | .dreg n => update fun s => s.putLow sz n v
  | .areg n => update fun s => s.putA n (v.signExtend 32)
  | .mem a _ lowFirst => memWrite sz lowFirst a v
  | .imm _ => fail .illFormed

/-- `AddrOf(loc)` (R166). -/
def addrOf : Loc → Exec Long
  | .mem a _ _ => pure a
  | _ => fail .illFormed

/-- Decode and read an operand. -/
def readEa (sz : Size) (ea : Ea) : Exec (BitVec sz.bits) := do
  let loc ← decodeEa sz ea
  readLoc sz loc

/-- The address a control mode gives. -/
def addrOfEa (ea : Ea) : Exec Long := do
  let loc ← decodeEa .l ea
  addrOf loc

/-- How many extension words an immediate takes (R120). -/
def immWords (sz : Size) : Nat := if sz = .l then 2 else 1

/-! ### Shared operations of the instruction forms -/

/-- Read an operand, compute, write it back at the same place and set the flags (R166). -/
def modifyLoc (sz : Size) (f : Unary sz.bits) (loc : Loc) : Exec Unit := do
  let d ← readLoc sz loc
  let o := f d (← look (·.sr.ccr))
  thenFlags o.2 (writeLoc sz loc o.1)

/-- `op <ea>`: one operand, read and written. -/
def opEa (sz : Size) (f : Unary sz.bits) (ea : Ea) : Exec Unit := do
  let loc ← decodeEa sz ea
  modifyLoc sz f loc

/-- `op <ea>,Dn` (R200, R205, R241, R245). -/
def opEaDn (sz : Size) (f : Alu sz.bits) (dn : RegNum) (ea : Ea) : Exec Unit := do
  let src ← readEa sz ea
  let o := f src (low sz (← look (·.getD dn))) (← look (·.sr.ccr))
  update fun s => (s.putLow sz dn o.1).setCcr o.2

/-- `op Dn,<ea>` (R200, R205, R241, R245, R248). -/
def opDnEa (sz : Size) (f : Alu sz.bits) (dn : RegNum) (ea : Ea) : Exec Unit := do
  let loc ← decodeEa sz ea
  let src := low sz (← look (·.getD dn))
  modifyLoc sz (f src) loc

/-- `op #imm,<ea>`: the immediate is fetched first (R168, R202). -/
def opImmEa (sz : Size) (f : Alu sz.bits) (imm : Long) (ea : Ea) : Exec Unit := do
  fetchExts (immWords sz)
  let loc ← decodeEa sz ea
  modifyLoc sz (f (low sz imm)) loc

/-- Quick data: the field, with 0 standing for 8 (R122). -/
def quickData (q : BitVec 3) : Nat := if q = 0 then 8 else q.toNat

/-- `ADDQ` and `SUBQ`: an address register changes over all 32 bits and sets no flag (R203, R208, D39). -/
def opQuick (sz : Size) (f : Alu sz.bits) (g : Long → Long → Long) (q : BitVec 3) (ea : Ea) : Exec Unit :=
  match ea with
  | .an n => update fun s => s.putA n (g (s.getA n) (BitVec.ofNat 32 (quickData q)))
  | ea => do
    let loc ← decodeEa sz ea
    modifyLoc sz (f (BitVec.ofNat sz.bits (quickData q))) loc

/-- Arithmetic on an address register: always 32 bits, the source sign-extended, no flag (R201, R206). -/
def opEaAn (sz : Size) (g : Long → Long → Long) (an : RegNum) (ea : Ea) : Exec Unit := do
  let src ← readEa sz ea
  update fun s => s.putA an (g (s.getA an) (src.signExtend 32))

/-- Read an operand and set flags from it, the flags before and a data register (R212, R214, R251). -/
def opFlags (sz : Size) (f : BitVec sz.bits → State → Ccr) (ea : Ea) : Exec Unit := do
  let v ← readEa sz ea
  update fun s => s.setCcr (f v s)

/-- `MOVE`: the source read before the destination is decoded (R168, R180). -/
def opMove (sz : Size) (src dst : Ea) : Exec Unit := do
  let v ← readEa sz src
  let f ← look (·.sr.ccr)
  thenFlags (logicFlags v f) do
    let loc ← decodeEa sz dst
    writeLoc sz loc v

/-- The read of a destination that is only written: not listed by the rules, made on devices alone (R92). -/
def unlistedReadLoc (sz : Size) : Loc → Exec Unit
  | .mem a space _ => unlistedRead sz space a
  | _ => pure ()

/-- Write a value, no flag changed (R294, R320). -/
def opWrite (sz : Size) (v : State → BitVec sz.bits) (ea : Ea) : Exec Unit := do
  let loc ← decodeEa sz ea
  unlistedReadLoc sz loc
  writeLoc sz loc (v (← look id))

/-- The pair forms `Dy,Dx` and `-(Ay),-(Ax)`: the source is decremented and read first (R168, R204, R230). `f` gives the
result and the flags, and may draw. -/
def opPair (sz : Size) (f : BitVec sz.bits → BitVec sz.bits → Ccr → Exec (BitVec sz.bits × Ccr))
    (form : PairForm) (ry rx : RegNum) : Exec Unit := do
  let operand := fun n => match form with
    | .regs => Ea.dn n
    | .predec => Ea.predec n
  let src ← readEa sz (operand ry)
  let loc ← decodeEa sz (operand rx)
  let dst ← readLoc sz loc
  let o ← f src dst (← look (·.sr.ccr))
  thenFlags o.2 (writeLoc sz loc o.1)

/-- A two-operand operation that draws nothing, in the form `opPair` takes. -/
def drawsNothing {w : Nat} (f : Alu w) (s d : BitVec w) (c : Ccr) : Exec (BitVec w × Ccr) := pure (f s d c)

/-- A decimal operation: `N` and `V` are drawn (R233, U1). -/
def decimal (op : BcdOp) (s d : Byte) (c : Ccr) : Exec (Byte × Ccr) := do
  let n ← draw Config.freeBit
  let v ← draw Config.freeBit
  return bcdResult op s d c n v

/-- The count of a register shift: the quick field, or a data register modulo 64 (R260). -/
def shiftCount (s : State) : ShiftCount → Nat
  | .quick q => quickData q
  | .reg m => (s.getD m).toNat % 64

/-- A register shift or rotate (R260). -/
def opShiftReg (k : ShiftKind) (c : ShiftCount) (sz : Size) (dn : RegNum) : Exec Unit := update fun s =>
  let o := shiftResult k (shiftCount s c) (low sz (s.getD dn)) s.sr.ccr
  (s.putLow sz dn o.1).setCcr o.2

/-- A memory shift or rotate: a word, by one (R270). -/
def opShiftEa (k : ShiftKind) (ea : Ea) : Exec Unit := opEa .w (shiftResult k 1) ea

/-- A bit instruction on the bit number `b`: 32 bits of a data register, or a byte of memory (R280). -/
def opBitAt (op : BitOp) (b : Nat) : Loc → Exec Unit
  | .dreg n => modifyLoc .l (fun v f => (bitWrite op (b % 32) v, bitFlags (b % 32) v f)) (.dreg n)
  | loc => modifyLoc .b (fun v f => (bitWrite op (b % 8) v, bitFlags (b % 8) v f)) loc

/-- `BTST` on the bit number `b`: nothing is written but `Z` (R281). -/
def opBitTestAt (b : Nat) : Loc → Exec Unit
  | .dreg n => update fun s => s.setCcr (bitFlags (b % 32) (s.getD n) s.sr.ccr)
  | loc => do
    let v ← readLoc .b loc
    update fun s => s.setCcr (bitFlags (b % 8) v s.sr.ccr)

/-- A bit instruction with the bit number in an extension word (R280). -/
def opBitImm (f : Nat → Loc → Exec Unit) (n : Byte) (ea : Ea) : Exec Unit := do
  fetchExt
  let loc ← decodeEa .b ea
  f n.toNat loc

/-- A bit instruction with the bit number in a data register, read first (R280). -/
def opBitDn (f : Nat → Loc → Exec Unit) (dn : RegNum) (ea : Ea) : Exec Unit := do
  let n ← look (·.getD dn)
  let loc ← decodeEa .b ea
  f n.toNat loc

/-- A multiply: 16 by 16 bits, all 32 bits of the register written (R216, R217). -/
def opMul (f : Word → Word → Long) (dn : RegNum) (ea : Ea) : Exec Unit := do
  let src : Word ← readEa .w ea
  update fun s =>
    let r := f src ((s.getD dn).setWidth 16)
    (s.putD dn r).setCcr (logicFlags r s.sr.ccr)

/-- A divide (R218, R219): on overflow `V` is set, `C` cleared, `N` and `Z` drawn; on a zero divisor `N`, `Z` and `V` are
drawn and `C` cleared before the exception (U3). -/
def opDiv (f : Word → Long → DivOut) (dn : RegNum) (ea : Ea) : Exec Unit := do
  let src : Word ← readEa .w ea
  let dividend ← look (·.getD dn)
  let c ← look (·.sr.ccr)
  match f src dividend with
  | .fits q r => update fun s => (s.putD dn (r ++ q)).setCcr (divFlags q c)
  | .overflow =>
    let n ← draw Config.freeBit
    let z ← draw Config.freeBit
    update fun s => s.setCcr ⟨c.x, n, z, true, false⟩
  | .byZero =>
    let n ← draw Config.freeBit
    let z ← draw Config.freeBit
    let v ← draw Config.freeBit
    update fun s => s.setCcr ⟨c.x, n, z, v, false⟩
    fail (.exc .zeroDivide)

/-- Store registers upward from an address (R183). -/
def storeUp (sz : Size) : List Nat → Long → Exec Unit
  | [], _ => pure ()
  | i :: is, a => do
    memWrite sz false a (low sz (← look (·.getReg i)))
    storeUp sz is (a + BitVec.ofNat 32 sz.bytes)

/-- Store registers downward from an address; gives the last address (R183). -/
def storeDown (sz : Size) : List Nat → Long → Exec Long
  | [], a => pure a
  | i :: is, a => do
    let a' := a - BitVec.ofNat 32 sz.bytes
    memWrite sz true a' (low sz (← look (·.getReg i)))
    storeDown sz is a'

/-- Load registers upward from an address, each word sign-extended; gives the address after the last (R184). -/
def loadUp (sz : Size) (space : Space) : List Nat → Long → Exec Long
  | [], a => pure a
  | i :: is, a => do
    let v ← memRead sz space a
    update fun s => s.putReg i (v.signExtend 32)
    loadUp sz space is (a + BitVec.ofNat 32 sz.bytes)

/-- The registers a mask selects, `D0` first (R183, R184). -/
def maskRegs (mask : Word) : List Nat := (List.range 16).filter fun i => mask.getLsbD i

/-- The registers a reversed mask selects, `A7` first (R183). -/
def maskRegsDown (mask : Word) : List Nat :=
  ((List.range 16).filter fun i => mask.getLsbD i).map fun i => 15 - i

/-- Store bytes two apart (R185). -/
def storeAlternate : List Byte → Long → Exec Unit
  | [], _ => pure ()
  | v :: vs, a => do
    memWrite .b false a v
    storeAlternate vs (a + 2)

/-- Load bytes two apart into the low end of a value, the first the most significant (R185). -/
def loadAlternate : Nat → Long → Long → Exec Long
  | 0, _, acc => pure acc
  | n + 1, a, acc => do
    let v : Byte ← memRead .b .data a
    loadAlternate n (a + 2) (acc <<< 8 ||| v.setWidth 32)

/-- The target of a branch, from the address of the operation word plus 2 (R290). -/
def branchTarget (base : Long) : BranchDisp → Long
  | .short d => base + d.signExtend 32
  | .word d => base + d.signExtend 32

/-- How many extension words a branch takes (R290). -/
def branchWords : BranchDisp → Nat
  | .short _ => 0
  | .word _ => 1

end Sys2Proof.Machine
end

