-- ==== Sys2Proof/Machine/Bcd.lean ====
section
/-! DEFINITION. The decimal instructions (spec/43_bcd_arithmetic.md). -/

namespace Sys2Proof.Machine

/-- `ABCD` (R230). -/
def execAbcd (rx : RegNum) (form : PairForm) (ry : RegNum) : State → Out :=
  runInstr (opPair .b (decimal .abcd) form ry rx)

/-- `SBCD` (R231). -/
def execSbcd (rx : RegNum) (form : PairForm) (ry : RegNum) : State → Out :=
  runInstr (opPair .b (decimal .sbcd) form ry rx)

/-- `NBCD`; it has no source operand (R232). -/
def execNbcd (ea : Ea) : State → Out :=
  runInstr (do
    let loc ← decodeEa .b ea
    let v : Byte ← readLoc .b loc
    let o ← decimal .nbcd 0 v (← look (·.sr.ccr))
    thenFlags o.2 (writeLoc .b loc o.1))

end Sys2Proof.Machine
end

