-- ==== Sys2Proof/Machine/Bit.lean ====
section
/-! DEFINITION. The bit manipulation instructions (spec/46_bit_manipulation.md). -/

namespace Sys2Proof.Machine

/-- `BTST #d,<ea>` (R281). -/
def execBtstImm (n : Byte) (ea : Ea) : State → Out :=
  runInstr (opBitImm opBitTestAt n ea)

/-- `BTST Dn,<ea>` (R281). -/
def execBtstDn (dn : RegNum) (ea : Ea) : State → Out :=
  runInstr (opBitDn opBitTestAt dn ea)

/-- `BCHG #d,<ea>` (R284). -/
def execBchgImm (n : Byte) (ea : Ea) : State → Out :=
  runInstr (opBitImm (opBitAt .chg) n ea)

/-- `BCHG Dn,<ea>` (R284). -/
def execBchgDn (dn : RegNum) (ea : Ea) : State → Out :=
  runInstr (opBitDn (opBitAt .chg) dn ea)

/-- `BCLR #d,<ea>` (R283). -/
def execBclrImm (n : Byte) (ea : Ea) : State → Out :=
  runInstr (opBitImm (opBitAt .clr) n ea)

/-- `BCLR Dn,<ea>` (R283). -/
def execBclrDn (dn : RegNum) (ea : Ea) : State → Out :=
  runInstr (opBitDn (opBitAt .clr) dn ea)

/-- `BSET #d,<ea>` (R282). -/
def execBsetImm (n : Byte) (ea : Ea) : State → Out :=
  runInstr (opBitImm (opBitAt .set) n ea)

/-- `BSET Dn,<ea>` (R282). -/
def execBsetDn (dn : RegNum) (ea : Ea) : State → Out :=
  runInstr (opBitDn (opBitAt .set) dn ea)

end Sys2Proof.Machine
end

