-- ==== Sys2Proof/Machine/DataMovement.lean ====
section
/-! DEFINITION. The data movement instructions (spec/41_data_movement.md). -/

namespace Sys2Proof.Machine

/-- `MOVE.B` (R180). -/
def execMoveB (src dst : Ea) : State → Out :=
  runInstr (opMove .b src dst)

/-- `MOVE.L` (R180). -/
def execMoveL (src dst : Ea) : State → Out :=
  runInstr (opMove .l src dst)

/-- `MOVE.W` (R180). -/
def execMoveW (src dst : Ea) : State → Out :=
  runInstr (opMove .w src dst)

/-- `MOVEA.L` (R181). -/
def execMoveaL (an : RegNum) (src : Ea) : State → Out :=
  runInstr (opEaAn .l (fun _ v => v) an src)

/-- `MOVEA.W`: the word is sign-extended over the whole register (R33, R181). -/
def execMoveaW (an : RegNum) (src : Ea) : State → Out :=
  runInstr (opEaAn .w (fun _ v => v) an src)

/-- `MOVEQ` (R182). -/
def execMoveq (dn : RegNum) (d8 : Byte) : State → Out :=
  runInstr (update fun s =>
    let v : Long := d8.signExtend 32
    (s.putD dn v).setCcr (logicFlags v s.sr.ccr))

/-- `MOVEM regs,<ea>`; with `-(An)` the register moves after the last transfer (R183). -/
def execMovemStore (sz : Size) (mask : Word) (ea : Ea) : State → Out :=
  runInstr (do
    fetchExt
    match ea with
    | .predec n =>
      let a ← look (·.getA n)
      let last ← storeDown sz (maskRegsDown mask) a
      update (·.putA n last)
    | ea =>
      let loc ← decodeEa sz ea
      let a ← addrOf loc
      storeUp sz (maskRegs mask) a)

/-- `MOVEM <ea>,regs`; with `(An)+` the register ends as the final address, whatever was loaded into it; a device just past the
last operand would see one more read (R92, R184). With no register in the mask that read is of the word at the address itself, the
model's choice (log entry 27). -/
def execMovemLoad (sz : Size) (mask : Word) (ea : Ea) : State → Out :=
  runInstr (do
    fetchExt
    match ea with
    | .postinc n =>
      let a ← look (·.getA n)
      let last ← loadUp sz .data (maskRegs mask) a
      unlistedRead .w .data last
      update (·.putA n last)
    | ea => do
      let loc ← decodeEa sz ea
      match loc with
      | .mem a space _ =>
        let last ← loadUp sz space (maskRegs mask) a
        unlistedRead .w space last
      | _ => fail .illFormed)

/-- `MOVEP`: bytes two apart, the most significant at the lowest address (R185). -/
def execMovep (dn : RegNum) (form : MovepForm) (an : RegNum) (d16 : Word) : State → Out :=
  runInstr (do
    fetchExt
    let a ← look fun s => s.getA an + d16.signExtend 32
    let v ← look (·.getD dn)
    match form with
    | .wordToReg => do
      let r ← loadAlternate 2 a 0
      update fun s => s.putLow .w dn (r.setWidth 16)
    | .longToReg => do
      let r ← loadAlternate 4 a 0
      update fun s => s.putD dn r
    | .wordToMem => storeAlternate [v.extractLsb' 8 8, v.extractLsb' 0 8] a
    | .longToMem =>
      storeAlternate [v.extractLsb' 24 8, v.extractLsb' 16 8, v.extractLsb' 8 8, v.extractLsb' 0 8] a)

/-- `LEA`: the address only, no access (R186). -/
def execLea (an : RegNum) (ea : Ea) : State → Out :=
  runInstr (do
    let a ← addrOfEa ea
    update fun s => s.putA an a)

/-- `PEA`: the address is computed before the stack pointer moves (R187). -/
def execPea (ea : Ea) : State → Out :=
  runInstr (do
    let a ← addrOfEa ea
    push32 a)

/-- `EXG Dx,Dy` (R188). -/
def execExgDxDy (rx ry : RegNum) : State → Out :=
  runInstr (update fun s => (s.putD rx (s.getD ry)).putD ry (s.getD rx))

/-- `EXG Ax,Ay` (R188). -/
def execExgAxAy (rx ry : RegNum) : State → Out :=
  runInstr (update fun s => (s.putA rx (s.getA ry)).putA ry (s.getA rx))

/-- `EXG Dx,Ay` (R188). -/
def execExgDxAy (rx ry : RegNum) : State → Out :=
  runInstr (update fun s => (s.putD rx (s.getA ry)).putA ry (s.getD rx))

/-- `LINK`: the four steps as written, so `LINK A7` pushes the decremented `A7` (R189). -/
def execLink (an : RegNum) (d16 : Word) : State → Out :=
  runInstr (do
    fetchExt
    update fun s => s.putSp (s.sp - 4)
    memWrite .l true (← look State.sp) (← look (·.getA an))
    update fun s => s.putA an s.sp
    update fun s => s.putSp (s.sp + d16.signExtend 32))

/-- `UNLK` (R190); `UNLK A7` is refused, as the spec asks (U9, log entry 24). -/
def execUnlk (an : RegNum) (s : State) : Out :=
  if an = 7 then .refused .unlkStackPointer
  else runInstr (do
    update fun s => s.putSp (s.getA an)
    let v : Long ← memRead .l .data (← look State.sp)
    update fun s => s.putA an v
    update fun s => s.putSp (s.sp + 4)) s

end Sys2Proof.Machine
end

