-- ==== Sys2Proof/Machine/IntegerArithmetic.lean ====
section
/-! DEFINITION. The integer arithmetic instructions (spec/42_integer_arithmetic.md). -/

namespace Sys2Proof.Machine

/-- `ADD.B <ea>,Dn` (R200). -/
def execAddBEaDn (dn : RegNum) (ea : Ea) : State → Out :=
  runInstr (opEaDn .b aluAdd dn ea)

/-- `ADD.W <ea>,Dn` (R200). -/
def execAddWEaDn (dn : RegNum) (ea : Ea) : State → Out :=
  runInstr (opEaDn .w aluAdd dn ea)

/-- `ADD.L <ea>,Dn` (R200). -/
def execAddLEaDn (dn : RegNum) (ea : Ea) : State → Out :=
  runInstr (opEaDn .l aluAdd dn ea)

/-- `ADD.B Dn,<ea>` (R200). -/
def execAddBDnEa (dn : RegNum) (ea : Ea) : State → Out :=
  runInstr (opDnEa .b aluAdd dn ea)

/-- `ADD.W Dn,<ea>` (R200). -/
def execAddWDnEa (dn : RegNum) (ea : Ea) : State → Out :=
  runInstr (opDnEa .w aluAdd dn ea)

/-- `ADD.L Dn,<ea>` (R200). -/
def execAddLDnEa (dn : RegNum) (ea : Ea) : State → Out :=
  runInstr (opDnEa .l aluAdd dn ea)

/-- `SUB.B <ea>,Dn` (R205). -/
def execSubBEaDn (dn : RegNum) (ea : Ea) : State → Out :=
  runInstr (opEaDn .b aluSub dn ea)

/-- `SUB.W <ea>,Dn` (R205). -/
def execSubWEaDn (dn : RegNum) (ea : Ea) : State → Out :=
  runInstr (opEaDn .w aluSub dn ea)

/-- `SUB.L <ea>,Dn` (R205). -/
def execSubLEaDn (dn : RegNum) (ea : Ea) : State → Out :=
  runInstr (opEaDn .l aluSub dn ea)

/-- `SUB.B Dn,<ea>` (R205). -/
def execSubBDnEa (dn : RegNum) (ea : Ea) : State → Out :=
  runInstr (opDnEa .b aluSub dn ea)

/-- `SUB.W Dn,<ea>` (R205). -/
def execSubWDnEa (dn : RegNum) (ea : Ea) : State → Out :=
  runInstr (opDnEa .w aluSub dn ea)

/-- `SUB.L Dn,<ea>` (R205). -/
def execSubLDnEa (dn : RegNum) (ea : Ea) : State → Out :=
  runInstr (opDnEa .l aluSub dn ea)

/-- `ADDA.W` (R201). -/
def execAddaW (an : RegNum) (ea : Ea) : State → Out :=
  runInstr (opEaAn .w (fun d v => d + v) an ea)

/-- `ADDA.L` (R201). -/
def execAddaL (an : RegNum) (ea : Ea) : State → Out :=
  runInstr (opEaAn .l (fun d v => d + v) an ea)

/-- `SUBA.W` (R206). -/
def execSubaW (an : RegNum) (ea : Ea) : State → Out :=
  runInstr (opEaAn .w (fun d v => d - v) an ea)

/-- `SUBA.L` (R206). -/
def execSubaL (an : RegNum) (ea : Ea) : State → Out :=
  runInstr (opEaAn .l (fun d v => d - v) an ea)

/-- `ADDI` (R202). -/
def execAddi (sz : Size) (imm : Long) (ea : Ea) : State → Out :=
  runInstr (opImmEa sz aluAdd imm ea)

/-- `SUBI` (R207). -/
def execSubi (sz : Size) (imm : Long) (ea : Ea) : State → Out :=
  runInstr (opImmEa sz aluSub imm ea)

/-- `ADDQ` (R203). -/
def execAddq (q : BitVec 3) (sz : Size) (ea : Ea) : State → Out :=
  runInstr (opQuick sz aluAdd (fun d v => d + v) q ea)

/-- `SUBQ` (R208). -/
def execSubq (q : BitVec 3) (sz : Size) (ea : Ea) : State → Out :=
  runInstr (opQuick sz aluSub (fun d v => d - v) q ea)

/-- `ADDX` (R204). -/
def execAddx (rx : RegNum) (sz : Size) (form : PairForm) (ry : RegNum) : State → Out :=
  runInstr (opPair sz (drawsNothing aluAddx) form ry rx)

/-- `SUBX` (R209). -/
def execSubx (rx : RegNum) (sz : Size) (form : PairForm) (ry : RegNum) : State → Out :=
  runInstr (opPair sz (drawsNothing aluSubx) form ry rx)

/-- `NEG` (R210). -/
def execNeg (sz : Size) (ea : Ea) : State → Out :=
  runInstr (opEa sz unaryNeg ea)

/-- `NEGX` (R211). -/
def execNegx (sz : Size) (ea : Ea) : State → Out :=
  runInstr (opEa sz unaryNegx ea)

/-- `CMP.B` (R212). -/
def execCmpBEaDn (dn : RegNum) (ea : Ea) : State → Out :=
  runInstr (opFlags .b (fun v s => cmpFlags v (low .b (s.getD dn)) s.sr.ccr) ea)

/-- `CMP.W` (R212). -/
def execCmpWEaDn (dn : RegNum) (ea : Ea) : State → Out :=
  runInstr (opFlags .w (fun v s => cmpFlags v (low .w (s.getD dn)) s.sr.ccr) ea)

/-- `CMP.L` (R212). -/
def execCmpLEaDn (dn : RegNum) (ea : Ea) : State → Out :=
  runInstr (opFlags .l (fun v s => cmpFlags v (low .l (s.getD dn)) s.sr.ccr) ea)

/-- `CMPA.W`: always a 32-bit comparison (R213). -/
def execCmpaW (an : RegNum) (ea : Ea) : State → Out :=
  runInstr (opFlags .w (fun v s => cmpFlags (v.signExtend 32) (s.getA an) s.sr.ccr) ea)

/-- `CMPA.L`: always a 32-bit comparison (R213). -/
def execCmpaL (an : RegNum) (ea : Ea) : State → Out :=
  runInstr (opFlags .l (fun v s => cmpFlags (v.signExtend 32) (s.getA an) s.sr.ccr) ea)

/-- `CMPI`: nothing is written but the flags (R214). -/
def execCmpi (sz : Size) (imm : Long) (ea : Ea) : State → Out :=
  runInstr (do
    fetchExts (immWords sz)
    opFlags sz (fun v s => cmpFlags (low sz imm) v s.sr.ccr) ea)

/-- `CMPM`: the source `(Ay)+`, and after it the destination `(Ax)+` (R154, R168, R215). Each register steps when its address is
formed, so the step stands where the read faults (log entry 35). -/
def execCmpm (rx : RegNum) (sz : Size) (ry : RegNum) : State → Out :=
  runInstr (do
    let src ← readEa sz (.postinc ry)
    let dst ← readEa sz (.postinc rx)
    update fun s => s.setCcr (cmpFlags src dst s.sr.ccr))

/-- `MULU` (R216). -/
def execMulu (dn : RegNum) (ea : Ea) : State → Out :=
  runInstr (opMul mulUnsigned dn ea)

/-- `MULS` (R217). -/
def execMuls (dn : RegNum) (ea : Ea) : State → Out :=
  runInstr (opMul mulSigned dn ea)

/-- `DIVU` (R218). -/
def execDivu (dn : RegNum) (ea : Ea) : State → Out :=
  runInstr (opDiv divUnsigned dn ea)

/-- `DIVS` (R219). -/
def execDivs (dn : RegNum) (ea : Ea) : State → Out :=
  runInstr (opDiv divSigned dn ea)

/-- `EXT.W`: bits 31..16 unchanged (R220). -/
def execExtW (dn : RegNum) : State → Out :=
  runInstr (update fun s =>
    let v : Word := ((s.getD dn).setWidth 8).signExtend 16
    (s.putLow .w dn v).setCcr (logicFlags v s.sr.ccr))

/-- `EXT.L` (R220). -/
def execExtL (dn : RegNum) : State → Out :=
  runInstr (update fun s =>
    let v : Long := ((s.getD dn).setWidth 16).signExtend 32
    (s.putD dn v).setCcr (logicFlags v s.sr.ccr))

/-- `CLR`: a write, but for what a device would see (R92, R221). Where either access faults, whether the flags were already written
is a free choice (U5, log entries 14 and 27). -/
def execClr (sz : Size) (ea : Ea) : State → Out :=
  runInstr (do
    let loc ← decodeEa sz ea
    let f ← look (·.sr.ccr)
    thenFlags (clrFlags f) do
      unlistedReadLoc sz loc
      writeLoc sz loc 0)

end Sys2Proof.Machine
end

