-- ==== Sys2Proof/Machine/Logical.lean ====
section
/-! DEFINITION. The logical instructions (spec/44_logical.md). -/

namespace Sys2Proof.Machine

/-- `AND.B <ea>,Dn` (R241). -/
def execAndBEaDn (dn : RegNum) (ea : Ea) : State → Out :=
  runInstr (opEaDn .b aluAnd dn ea)

/-- `AND.W <ea>,Dn` (R241). -/
def execAndWEaDn (dn : RegNum) (ea : Ea) : State → Out :=
  runInstr (opEaDn .w aluAnd dn ea)

/-- `AND.L <ea>,Dn` (R241). -/
def execAndLEaDn (dn : RegNum) (ea : Ea) : State → Out :=
  runInstr (opEaDn .l aluAnd dn ea)

/-- `AND.B Dn,<ea>` (R241). -/
def execAndBDnEa (dn : RegNum) (ea : Ea) : State → Out :=
  runInstr (opDnEa .b aluAnd dn ea)

/-- `AND.W Dn,<ea>` (R241). -/
def execAndWDnEa (dn : RegNum) (ea : Ea) : State → Out :=
  runInstr (opDnEa .w aluAnd dn ea)

/-- `AND.L Dn,<ea>` (R241). -/
def execAndLDnEa (dn : RegNum) (ea : Ea) : State → Out :=
  runInstr (opDnEa .l aluAnd dn ea)

/-- `OR.B <ea>,Dn` (R245). -/
def execOrBEaDn (dn : RegNum) (ea : Ea) : State → Out :=
  runInstr (opEaDn .b aluOr dn ea)

/-- `OR.W <ea>,Dn` (R245). -/
def execOrWEaDn (dn : RegNum) (ea : Ea) : State → Out :=
  runInstr (opEaDn .w aluOr dn ea)

/-- `OR.L <ea>,Dn` (R245). -/
def execOrLEaDn (dn : RegNum) (ea : Ea) : State → Out :=
  runInstr (opEaDn .l aluOr dn ea)

/-- `OR.B Dn,<ea>` (R245). -/
def execOrBDnEa (dn : RegNum) (ea : Ea) : State → Out :=
  runInstr (opDnEa .b aluOr dn ea)

/-- `OR.W Dn,<ea>` (R245). -/
def execOrWDnEa (dn : RegNum) (ea : Ea) : State → Out :=
  runInstr (opDnEa .w aluOr dn ea)

/-- `OR.L Dn,<ea>` (R245). -/
def execOrLDnEa (dn : RegNum) (ea : Ea) : State → Out :=
  runInstr (opDnEa .l aluOr dn ea)

/-- `EOR.B Dn,<ea>` (R248). -/
def execEorBDnEa (dn : RegNum) (ea : Ea) : State → Out :=
  runInstr (opDnEa .b aluEor dn ea)

/-- `EOR.W Dn,<ea>` (R248). -/
def execEorWDnEa (dn : RegNum) (ea : Ea) : State → Out :=
  runInstr (opDnEa .w aluEor dn ea)

/-- `EOR.L Dn,<ea>` (R248). -/
def execEorLDnEa (dn : RegNum) (ea : Ea) : State → Out :=
  runInstr (opDnEa .l aluEor dn ea)

/-- `ANDI` (R242). -/
def execAndi (sz : Size) (imm : Long) (ea : Ea) : State → Out :=
  runInstr (opImmEa sz aluAnd imm ea)

/-- `ORI` (R246). -/
def execOri (sz : Size) (imm : Long) (ea : Ea) : State → Out :=
  runInstr (opImmEa sz aluOr imm ea)

/-- `EORI` (R249). -/
def execEori (sz : Size) (imm : Long) (ea : Ea) : State → Out :=
  runInstr (opImmEa sz aluEor imm ea)

/-- `NOT` (R250). -/
def execNot (sz : Size) (ea : Ea) : State → Out :=
  runInstr (opEa sz unaryNot ea)

/-- `TST`: a read only (R251, D48). -/
def execTst (sz : Size) (ea : Ea) : State → Out :=
  runInstr (opFlags sz (fun v s => logicFlags v s.sr.ccr) ea)

end Sys2Proof.Machine
end

