-- ==== Sys2Proof/Machine/ProgramControl.lean ====
section
/-! DEFINITION. The program control instructions (spec/47_program_control.md). -/

namespace Sys2Proof.Machine

/-- `Bcc`: the displacement word is fetched whether or not the branch is taken (R292). -/
def execBcc (cond : Cond) (d : BranchDisp) : State → Out :=
  runInstr (do
    let base ← look State.pc
    fetchExts (branchWords d)
    if ← look (condHolds cond ·.sr.ccr) then update (·.jumpTo (branchTarget base d)) else pure ())

/-- `DBcc`: the counter is the low word (R293). -/
def execDbcc (cond : Cond) (dn : RegNum) (d16 : Word) : State → Out :=
  runInstr (do
    let base ← look State.pc
    fetchExt
    if ← look (condHolds cond ·.sr.ccr) then pure ()
    else
      let count : Word := (← look fun s => (s.getD dn).setWidth 16) - 1
      update fun s => s.putLow .w dn count
      if count = 0xFFFF then pure () else update (·.jumpTo (base + d16.signExtend 32)))

/-- `Scc`: a write, but for what a device would see (R92, R294). -/
def execScc (cond : Cond) (ea : Ea) : State → Out :=
  runInstr (opWrite .b (fun s => if condHolds cond s.sr.ccr then 0xFF else 0) ea)

/-- `BRA` (R295). -/
def execBra (d : BranchDisp) : State → Out :=
  runInstr (do
    let base ← look State.pc
    fetchExts (branchWords d)
    update (·.jumpTo (branchTarget base d)))

/-- `BSR`: the address pushed is the next instruction's (R290, R296). -/
def execBsr (d : BranchDisp) : State → Out :=
  runInstr (do
    let base ← look State.pc
    fetchExts (branchWords d)
    push32 (← look State.pc)
    update (·.jumpTo (branchTarget base d)))

/-- `JMP` (R297). -/
def execJmp (ea : Ea) : State → Out :=
  runInstr (do
    let target ← addrOfEa ea
    update (·.jumpTo target))

/-- `JSR`: the target is computed before the push (R298). -/
def execJsr (ea : Ea) : State → Out :=
  runInstr (do
    let target ← addrOfEa ea
    push32 (← look State.pc)
    update (·.jumpTo target))

/-- `NOP` (R300). -/
def execNop : State → Out :=
  runInstr (pure ())

/-- `RTS` (R301). -/
def execRts : State → Out :=
  runInstr (do
    let target ← pop32
    update (·.jumpTo target))

/-- `RTR`: the flags, then the address (R303). -/
def execRtr : State → Out :=
  runInstr (do
    let w ← pop16
    thenFlags (Ccr.ofByte (w.setWidth 8)) do
      let target ← pop32
      update (·.jumpTo target))

end Sys2Proof.Machine
end

