-- ==== Sys2Proof/Machine/Shift.lean ====
section
/-! DEFINITION. The shift and rotate instructions and `SWAP` (spec/45_shift_rotate.md). -/

namespace Sys2Proof.Machine

/-- `ASL` on a register (R260, R262). -/
def execAslReg (c : ShiftCount) (sz : Size) (dn : RegNum) : State → Out :=
  runInstr (opShiftReg .asl c sz dn)

/-- `ASL` on a memory word (R270, R262). -/
def execAslEa (ea : Ea) : State → Out :=
  runInstr (opShiftEa .asl ea)

/-- `ASR` on a register (R260, R263). -/
def execAsrReg (c : ShiftCount) (sz : Size) (dn : RegNum) : State → Out :=
  runInstr (opShiftReg .asr c sz dn)

/-- `ASR` on a memory word (R270, R263). -/
def execAsrEa (ea : Ea) : State → Out :=
  runInstr (opShiftEa .asr ea)

/-- `LSL` on a register (R260, R264). -/
def execLslReg (c : ShiftCount) (sz : Size) (dn : RegNum) : State → Out :=
  runInstr (opShiftReg .lsl c sz dn)

/-- `LSL` on a memory word (R270, R264). -/
def execLslEa (ea : Ea) : State → Out :=
  runInstr (opShiftEa .lsl ea)

/-- `LSR` on a register (R260, R265). -/
def execLsrReg (c : ShiftCount) (sz : Size) (dn : RegNum) : State → Out :=
  runInstr (opShiftReg .lsr c sz dn)

/-- `LSR` on a memory word (R270, R265). -/
def execLsrEa (ea : Ea) : State → Out :=
  runInstr (opShiftEa .lsr ea)

/-- `ROL` on a register (R260, R266). -/
def execRolReg (c : ShiftCount) (sz : Size) (dn : RegNum) : State → Out :=
  runInstr (opShiftReg .rol c sz dn)

/-- `ROL` on a memory word (R270, R266). -/
def execRolEa (ea : Ea) : State → Out :=
  runInstr (opShiftEa .rol ea)

/-- `ROR` on a register (R260, R267). -/
def execRorReg (c : ShiftCount) (sz : Size) (dn : RegNum) : State → Out :=
  runInstr (opShiftReg .ror c sz dn)

/-- `ROR` on a memory word (R270, R267). -/
def execRorEa (ea : Ea) : State → Out :=
  runInstr (opShiftEa .ror ea)

/-- `ROXL` on a register (R260, R268). -/
def execRoxlReg (c : ShiftCount) (sz : Size) (dn : RegNum) : State → Out :=
  runInstr (opShiftReg .roxl c sz dn)

/-- `ROXL` on a memory word (R270, R268). -/
def execRoxlEa (ea : Ea) : State → Out :=
  runInstr (opShiftEa .roxl ea)

/-- `ROXR` on a register (R260, R269). -/
def execRoxrReg (c : ShiftCount) (sz : Size) (dn : RegNum) : State → Out :=
  runInstr (opShiftReg .roxr c sz dn)

/-- `ROXR` on a memory word (R270, R269). -/
def execRoxrEa (ea : Ea) : State → Out :=
  runInstr (opShiftEa .roxr ea)

/-- `SWAP` (R271). -/
def execSwap (dn : RegNum) : State → Out :=
  runInstr (update fun s =>
    let v : Long := (s.getD dn).extractLsb' 0 16 ++ (s.getD dn).extractLsb' 16 16
    (s.putD dn v).setCcr (logicFlags v s.sr.ccr))

end Sys2Proof.Machine
end

