-- ==== Sys2Proof/Machine/SystemControl.lean ====
section
/-! DEFINITION. The system control instructions, and the words that are no instruction (spec/48_system_control.md, R128 to R130). -/

namespace Sys2Proof.Machine

/-- `MOVE <ea>,SR`, privileged (R311). -/
def execMoveToSr (ea : Ea) : State → Out :=
  runInstr (do
    requireSupervisor
    let v : Word ← readEa .w ea
    update (·.setSr (StatusReg.ofWord v)))

/-- `ANDI #imm,SR`, privileged (R312). -/
def execAndiToSr (imm : Word) : State → Out :=
  runInstr (do
    requireSupervisor
    fetchExt
    update fun s => s.setSr (StatusReg.ofWord (s.sr.toWord &&& imm)))

/-- `ORI #imm,SR`, privileged (R313). -/
def execOriToSr (imm : Word) : State → Out :=
  runInstr (do
    requireSupervisor
    fetchExt
    update fun s => s.setSr (StatusReg.ofWord (s.sr.toWord ||| imm)))

/-- `EORI #imm,SR`, privileged (R314). -/
def execEoriToSr (imm : Word) : State → Out :=
  runInstr (do
    requireSupervisor
    fetchExt
    update fun s => s.setSr (StatusReg.ofWord (s.sr.toWord ^^^ imm)))

/-- `MOVE USP,An`, privileged (R315). -/
def execMoveUspAn (an : RegNum) : State → Out :=
  runInstr (do
    requireSupervisor
    update fun s => s.putA an s.usp)

/-- `MOVE An,USP`, privileged (R315). -/
def execMoveAnUsp (an : RegNum) : State → Out :=
  runInstr (do
    requireSupervisor
    update fun s => s.setUsp (s.getA an))

/-- `RESET`, privileged: an event sent to the platform, no state of the processor changes (R316, R401, log entry 25). -/
def execReset : State → Out :=
  runInstr (do
    requireSupervisor
    update State.pulse)

/-- `STOP`, privileged (R317). -/
def execStop (imm : Word) : State → Out :=
  runInstr (do
    requireSupervisor
    fetchExt
    update fun s => (s.setSr (StatusReg.ofWord imm)).setRun .stopped)

/-- `RTE`, privileged (R318). -/
def execRte : State → Out :=
  runInstr returnFromException

/-- `MOVE <ea>,CCR`: a word is read, its low byte kept (R319). -/
def execMoveToCcr (ea : Ea) : State → Out :=
  runInstr (do
    let v : Word ← readEa .w ea
    update (·.setCcr (Ccr.ofByte (v.setWidth 8))))

/-- `MOVE SR,<ea>`: not privileged, a write, but for what a device would see (R92, R320). -/
def execMoveFromSr (ea : Ea) : State → Out :=
  runInstr (opWrite .w (fun s => s.sr.toWord) ea)

/-- `ANDI #imm,CCR` (R321). -/
def execAndiToCcr (imm : Byte) : State → Out :=
  runInstr (do
    fetchExt
    update fun s => s.setCcr (Ccr.ofByte (s.sr.ccr.toByte &&& imm)))

/-- `ORI #imm,CCR` (R322). -/
def execOriToCcr (imm : Byte) : State → Out :=
  runInstr (do
    fetchExt
    update fun s => s.setCcr (Ccr.ofByte (s.sr.ccr.toByte ||| imm)))

/-- `EORI #imm,CCR` (R323). -/
def execEoriToCcr (imm : Byte) : State → Out :=
  runInstr (do
    fetchExt
    update fun s => s.setCcr (Ccr.ofByte (s.sr.ccr.toByte ^^^ imm)))

/-- `TRAP` (R324). -/
def execTrap (v : BitVec 4) : State → Out :=
  runInstr (fail (.exc (.trap v)))

/-- `TRAPV` (R325). -/
def execTrapv : State → Out :=
  runInstr (do
    if ← look (·.sr.ccr.v) then fail (.exc .trapV) else pure ())

/-- `CHK`: signed, on 16 bits; `Z`, `V`, `C` drawn, and `N` where it does not trap (R326, U1, U4). -/
def execChk (dn : RegNum) (ea : Ea) : State → Out :=
  runInstr (do
    let bound : Word ← readEa .w ea
    let v : Word ← look fun s => (s.getD dn).setWidth 16
    let x ← look (·.sr.ccr.x)
    let z ← draw Config.freeBit
    let o ← draw Config.freeBit
    let c ← draw Config.freeBit
    if v.toInt < 0 then
      update (·.setCcr ⟨x, true, z, o, c⟩)
      fail (.exc .chkInstruction)
    else if bound.toInt < v.toInt then
      update (·.setCcr ⟨x, false, z, o, c⟩)
      fail (.exc .chkInstruction)
    else
      let n ← draw Config.freeBit
      update (·.setCcr ⟨x, n, z, o, c⟩))

/-- `TAS`: the flags describe the old value (R327). -/
def execTas (ea : Ea) : State → Out :=
  runInstr (opEa .b (fun v f => (v ||| 0x80, logicFlags v f)) ea)

/-- `ILLEGAL`, and every operation word without a row (R128, R130). -/
def execIllegal : State → Out :=
  runInstr (fail (.exc .illegalInstruction))

/-- An operation word of line A (R129). -/
def execLineA (_z : BitVec 12) : State → Out :=
  runInstr (fail (.exc .lineA))

/-- An operation word of line F (R129). -/
def execLineF (_z : BitVec 12) : State → Out :=
  runInstr (fail (.exc .lineF))

end Sys2Proof.Machine
end

