-- ==== Sys2Proof/Machine/Dispatch.lean ====
section
/-! DEFINITION. One arm per instruction, each a direct call of its meaning. -/

namespace Sys2Proof.Machine

def exec (i : Instr) (s : State) : Host.Outcome State Fault Refusal :=
  match i with
  | .oriToCcr imm => Sys2Proof.Machine.execOriToCcr imm s
  | .oriToSr imm => Sys2Proof.Machine.execOriToSr imm s
  | .ori sz imm ea => Sys2Proof.Machine.execOri sz imm ea s
  | .andiToCcr imm => Sys2Proof.Machine.execAndiToCcr imm s
  | .andiToSr imm => Sys2Proof.Machine.execAndiToSr imm s
  | .andi sz imm ea => Sys2Proof.Machine.execAndi sz imm ea s
  | .subi sz imm ea => Sys2Proof.Machine.execSubi sz imm ea s
  | .addi sz imm ea => Sys2Proof.Machine.execAddi sz imm ea s
  | .eoriToCcr imm => Sys2Proof.Machine.execEoriToCcr imm s
  | .eoriToSr imm => Sys2Proof.Machine.execEoriToSr imm s
  | .eori sz imm ea => Sys2Proof.Machine.execEori sz imm ea s
  | .cmpi sz imm ea => Sys2Proof.Machine.execCmpi sz imm ea s
  | .btstImm n ea => Sys2Proof.Machine.execBtstImm n ea s
  | .btstDn dn ea => Sys2Proof.Machine.execBtstDn dn ea s
  | .bchgImm n ea => Sys2Proof.Machine.execBchgImm n ea s
  | .bchgDn dn ea => Sys2Proof.Machine.execBchgDn dn ea s
  | .bclrImm n ea => Sys2Proof.Machine.execBclrImm n ea s
  | .bclrDn dn ea => Sys2Proof.Machine.execBclrDn dn ea s
  | .bsetImm n ea => Sys2Proof.Machine.execBsetImm n ea s
  | .bsetDn dn ea => Sys2Proof.Machine.execBsetDn dn ea s
  | .movep dn form an d16 => Sys2Proof.Machine.execMovep dn form an d16 s
  | .moveB src dst => Sys2Proof.Machine.execMoveB src dst s
  | .moveL src dst => Sys2Proof.Machine.execMoveL src dst s
  | .moveW src dst => Sys2Proof.Machine.execMoveW src dst s
  | .moveaL an src => Sys2Proof.Machine.execMoveaL an src s
  | .moveaW an src => Sys2Proof.Machine.execMoveaW an src s
  | .negx sz ea => Sys2Proof.Machine.execNegx sz ea s
  | .moveFromSr ea => Sys2Proof.Machine.execMoveFromSr ea s
  | .chk dn ea => Sys2Proof.Machine.execChk dn ea s
  | .lea an ea => Sys2Proof.Machine.execLea an ea s
  | .clr sz ea => Sys2Proof.Machine.execClr sz ea s
  | .neg sz ea => Sys2Proof.Machine.execNeg sz ea s
  | .moveToCcr ea => Sys2Proof.Machine.execMoveToCcr ea s
  | .notEa sz ea => Sys2Proof.Machine.execNot sz ea s
  | .moveToSr ea => Sys2Proof.Machine.execMoveToSr ea s
  | .nbcd ea => Sys2Proof.Machine.execNbcd ea s
  | .swap dn => Sys2Proof.Machine.execSwap dn s
  | .pea ea => Sys2Proof.Machine.execPea ea s
  | .extW dn => Sys2Proof.Machine.execExtW dn s
  | .extL dn => Sys2Proof.Machine.execExtL dn s
  | .movemStore sz mask ea => Sys2Proof.Machine.execMovemStore sz mask ea s
  | .tst sz ea => Sys2Proof.Machine.execTst sz ea s
  | .tas ea => Sys2Proof.Machine.execTas ea s
  | .illegal => Sys2Proof.Machine.execIllegal s
  | .movemLoad sz mask ea => Sys2Proof.Machine.execMovemLoad sz mask ea s
  | .trap v => Sys2Proof.Machine.execTrap v s
  | .link an d16 => Sys2Proof.Machine.execLink an d16 s
  | .unlk an => Sys2Proof.Machine.execUnlk an s
  | .moveAnUsp an => Sys2Proof.Machine.execMoveAnUsp an s
  | .moveUspAn an => Sys2Proof.Machine.execMoveUspAn an s
  | .reset => Sys2Proof.Machine.execReset s
  | .nop => Sys2Proof.Machine.execNop s
  | .stop imm => Sys2Proof.Machine.execStop imm s
  | .rte => Sys2Proof.Machine.execRte s
  | .rts => Sys2Proof.Machine.execRts s
  | .trapv => Sys2Proof.Machine.execTrapv s
  | .rtr => Sys2Proof.Machine.execRtr s
  | .jsr ea => Sys2Proof.Machine.execJsr ea s
  | .jmp ea => Sys2Proof.Machine.execJmp ea s
  | .addq q sz ea => Sys2Proof.Machine.execAddq q sz ea s
  | .subq q sz ea => Sys2Proof.Machine.execSubq q sz ea s
  | .scc cond ea => Sys2Proof.Machine.execScc cond ea s
  | .dbcc cond dn d16 => Sys2Proof.Machine.execDbcc cond dn d16 s
  | .bra d => Sys2Proof.Machine.execBra d s
  | .bsr d => Sys2Proof.Machine.execBsr d s
  | .bcc cond d => Sys2Proof.Machine.execBcc cond d s
  | .moveq dn d8 => Sys2Proof.Machine.execMoveq dn d8 s
  | .orBEaDn dn ea => Sys2Proof.Machine.execOrBEaDn dn ea s
  | .orWEaDn dn ea => Sys2Proof.Machine.execOrWEaDn dn ea s
  | .orLEaDn dn ea => Sys2Proof.Machine.execOrLEaDn dn ea s
  | .orBDnEa dn ea => Sys2Proof.Machine.execOrBDnEa dn ea s
  | .orWDnEa dn ea => Sys2Proof.Machine.execOrWDnEa dn ea s
  | .orLDnEa dn ea => Sys2Proof.Machine.execOrLDnEa dn ea s
  | .divu dn ea => Sys2Proof.Machine.execDivu dn ea s
  | .divs dn ea => Sys2Proof.Machine.execDivs dn ea s
  | .sbcd rx form ry => Sys2Proof.Machine.execSbcd rx form ry s
  | .subBEaDn dn ea => Sys2Proof.Machine.execSubBEaDn dn ea s
  | .subWEaDn dn ea => Sys2Proof.Machine.execSubWEaDn dn ea s
  | .subLEaDn dn ea => Sys2Proof.Machine.execSubLEaDn dn ea s
  | .subBDnEa dn ea => Sys2Proof.Machine.execSubBDnEa dn ea s
  | .subWDnEa dn ea => Sys2Proof.Machine.execSubWDnEa dn ea s
  | .subLDnEa dn ea => Sys2Proof.Machine.execSubLDnEa dn ea s
  | .subaW an ea => Sys2Proof.Machine.execSubaW an ea s
  | .subaL an ea => Sys2Proof.Machine.execSubaL an ea s
  | .subx rx sz form ry => Sys2Proof.Machine.execSubx rx sz form ry s
  | .lineA z => Sys2Proof.Machine.execLineA z s
  | .cmpBEaDn dn ea => Sys2Proof.Machine.execCmpBEaDn dn ea s
  | .cmpWEaDn dn ea => Sys2Proof.Machine.execCmpWEaDn dn ea s
  | .cmpLEaDn dn ea => Sys2Proof.Machine.execCmpLEaDn dn ea s
  | .cmpaW an ea => Sys2Proof.Machine.execCmpaW an ea s
  | .cmpaL an ea => Sys2Proof.Machine.execCmpaL an ea s
  | .eorBDnEa dn ea => Sys2Proof.Machine.execEorBDnEa dn ea s
  | .eorWDnEa dn ea => Sys2Proof.Machine.execEorWDnEa dn ea s
  | .eorLDnEa dn ea => Sys2Proof.Machine.execEorLDnEa dn ea s
  | .cmpm rx sz ry => Sys2Proof.Machine.execCmpm rx sz ry s
  | .andBEaDn dn ea => Sys2Proof.Machine.execAndBEaDn dn ea s
  | .andWEaDn dn ea => Sys2Proof.Machine.execAndWEaDn dn ea s
  | .andLEaDn dn ea => Sys2Proof.Machine.execAndLEaDn dn ea s
  | .andBDnEa dn ea => Sys2Proof.Machine.execAndBDnEa dn ea s
  | .andWDnEa dn ea => Sys2Proof.Machine.execAndWDnEa dn ea s
  | .andLDnEa dn ea => Sys2Proof.Machine.execAndLDnEa dn ea s
  | .mulu dn ea => Sys2Proof.Machine.execMulu dn ea s
  | .muls dn ea => Sys2Proof.Machine.execMuls dn ea s
  | .abcd rx form ry => Sys2Proof.Machine.execAbcd rx form ry s
  | .exgDxDy rx ry => Sys2Proof.Machine.execExgDxDy rx ry s
  | .exgAxAy rx ry => Sys2Proof.Machine.execExgAxAy rx ry s
  | .exgDxAy rx ry => Sys2Proof.Machine.execExgDxAy rx ry s
  | .addBEaDn dn ea => Sys2Proof.Machine.execAddBEaDn dn ea s
  | .addWEaDn dn ea => Sys2Proof.Machine.execAddWEaDn dn ea s
  | .addLEaDn dn ea => Sys2Proof.Machine.execAddLEaDn dn ea s
  | .addBDnEa dn ea => Sys2Proof.Machine.execAddBDnEa dn ea s
  | .addWDnEa dn ea => Sys2Proof.Machine.execAddWDnEa dn ea s
  | .addLDnEa dn ea => Sys2Proof.Machine.execAddLDnEa dn ea s
  | .addaW an ea => Sys2Proof.Machine.execAddaW an ea s
  | .addaL an ea => Sys2Proof.Machine.execAddaL an ea s
  | .addx rx sz form ry => Sys2Proof.Machine.execAddx rx sz form ry s
  | .aslReg c sz dn => Sys2Proof.Machine.execAslReg c sz dn s
  | .aslEa ea => Sys2Proof.Machine.execAslEa ea s
  | .asrReg c sz dn => Sys2Proof.Machine.execAsrReg c sz dn s
  | .asrEa ea => Sys2Proof.Machine.execAsrEa ea s
  | .lslReg c sz dn => Sys2Proof.Machine.execLslReg c sz dn s
  | .lslEa ea => Sys2Proof.Machine.execLslEa ea s
  | .lsrReg c sz dn => Sys2Proof.Machine.execLsrReg c sz dn s
  | .lsrEa ea => Sys2Proof.Machine.execLsrEa ea s
  | .roxlReg c sz dn => Sys2Proof.Machine.execRoxlReg c sz dn s
  | .roxlEa ea => Sys2Proof.Machine.execRoxlEa ea s
  | .roxrReg c sz dn => Sys2Proof.Machine.execRoxrReg c sz dn s
  | .roxrEa ea => Sys2Proof.Machine.execRoxrEa ea s
  | .rolReg c sz dn => Sys2Proof.Machine.execRolReg c sz dn s
  | .rolEa ea => Sys2Proof.Machine.execRolEa ea s
  | .rorReg c sz dn => Sys2Proof.Machine.execRorReg c sz dn s
  | .rorEa ea => Sys2Proof.Machine.execRorEa ea s
  | .lineF z => Sys2Proof.Machine.execLineF z s

end Sys2Proof.Machine
end

