-- ==== Sys2Proof/Machine/Events.lean ====
section
/-! DEFINITION. What a step does around an instruction: the fetch (R80, R89), the decoding (R127, R128), the trace and
interrupt stages (R340, R361 to R367, R372), and the external reset (R400). -/

namespace Sys2Proof.Machine

/-! ### Fetch -/

/-- The word a fetch finds: the word in memory, or a word the prefetch still holds from before a store, a free choice
(R89, U8, log entry 19). -/
def staleChoice : List (Nat × Word) → Nat → Word → Exec Word
  | [], _, w => pure w
  | e :: es, p, w => do
    let w' ← staleChoice es p w
    if e.1 = p then
      if ← draw Config.freeBit then pure e.2 else pure w'
    else pure w'

/-- The instruction word at an address that answers. -/
def codeWord (a : Long) : Exec Word := do
  let hi ← busByte a
  let lo ← busByte (a + 1)
  staleChoice (← look State.stale) (physAddr a) (hi ++ lo)

/-- The fetch of the operation word (R80, R344). -/
def fetchOpWord : Exec Word := do
  let a ← look State.pc
  let acc : Access := ⟨a, false, .program⟩
  checkAligned .w acc
  if ← look (·.answersRead [a, a + 1]) then codeWord a else fail (.mem ⟨.bus, acc⟩)

/-- The words after the operation word, as they are when the instruction starts (R89); whether the platform answers is
checked when the instruction fetches them (`fetchExt`, log entry 20). Nothing is fetched past the instruction: that code next to
unmapped memory runs without a bus error from the prefetch is the model's choice (R92, R412, U17, log entry 38). -/
def peekWords : Nat → Long → Exec (List Word)
  | 0, _ => pure []
  | n + 1, a => do
    let w ← if ← look (·.answersRead [a, a + 1]) then codeWord a else pure 0
    let ws ← peekWords n (a + 2)
    return w :: ws

/-- The operation word, kept as the instruction in progress, and the four words after it. -/
def fetchWords : Exec (List Word) := do
  let op ← fetchOpWord
  update (·.setIr op)
  let ws ← peekWords (maxWords - 1) ((← look State.pc) + 2)
  return op :: ws

/-- The state after a group 0 error on the fetch of the operation word: no trace follows (R340, R372). -/
def takeFetchFault (r : Raise) (s : State) : State :=
  match r with
  | .mem f => (takeMemFault none false f s).setTraceDue false
  | _ => s

/-- An operation word without a row: the illegal instruction exception, before any extension word is fetched (R128, R344). -/
def execIllegalWord : State → Out :=
  runInstr (fail (.exc .illegalInstruction))

/-- The instruction the fetched words begin with. -/
def execWords (ws : List Word) (s : State) : Out :=
  match decode ws with
  | .ok p => exec p.1 s
  | .error _ => execIllegalWord s

/-! ### After the instruction -/

/-- The word two bytes of memory hold. -/
def Memory.word (m : Memory) (p : Nat) : Word := m.read p ++ m.read ((p + 1) % 2 ^ 24)

/-- The two words the prefetch may hold (R89). -/
def prefetchWindow (pc : Long) : List Nat := [physAddr pc, physAddr (pc + 2)]

/-- Note which of the two words ahead the instruction changed; a transfer of control refills the prefetch (R89). -/
def noteStale (before : Memory) (s : State) : State :=
  let ahead := prefetchWindow s.pc
  let changed := (ahead.filter fun p => before.word p != s.mem.word p).map fun p => (p, before.word p)
  s.setStale (if s.refilled then [] else changed ++ s.stale.filter fun e => ahead.contains e.1)

/-- The trace stage of a step: the trace exception, which also ends a `STOP` just executed (R340, R372). -/
def traceStage (s : State) : State :=
  if s.traceDue && s.run != .halted then
    (takeEntry none true (processException 9 s.pc) (s.setRun .running)).setTraceDue false
  else s.setTraceDue false

/-- `IntAcceptable(level)`: above the mask, or a change from the previous level to level 7 (R362, R363). -/
def intAcceptable (mask previous level : BitVec 3) : Bool := mask.ult level || (level == 7 && previous != 7)

/-- Whether the boundary takes the interrupt requested; never in the halted state (R358, log entry 17). -/
def State.interruptAcceptable (s : State) : Bool := s.run != .halted && intAcceptable s.sr.i s.prevIpl s.ipl

/-- The vector number of an acknowledged interrupt (R365, R366). -/
def ackVector (level : BitVec 3) : AckAnswer → Nat
  | .vector n => n.toNat
  | .autovector => 24 + level.toNat
  | .busError => 24

/-- `Exception(Interrupt(level))`: as any entry, and the mask takes the level (R350, R365). -/
def processInterrupt (level : BitVec 3) : Exec Unit := do
  let sr0 ← look fun s => s.sr.toWord
  update fun s => s.setSr { s.sr.forHandler with i := level }
  let v ← look fun s => ackVector level s.intAck[level.toFin]
  push32 (← look State.pc)
  push16 sr0
  loadVector v

/-- The boundary stage of a step: an acceptable interrupt is taken, and the level is remembered (R340, R363, R367). -/
def interruptStage (s : State) : State :=
  let t := if s.interruptAcceptable then takeEntry none true (processInterrupt s.ipl) (s.setRun .running) else s
  t.setPrevIpl s.ipl

/-- What follows an instruction in its step. -/
def afterInstr (before : Memory) (s : State) : State := interruptStage (traceStage (noteStale before s))

/-! ### The external reset, R400 -/

/-- The registers reset sets, then the two vectors. -/
def processReset : Exec Unit := do
  update fun s => (s.setSr { s.sr.forHandler with i := 7 }).setRun .running
  let v : Long ← memRead .l .program 0
  update (·.setSsp v)
  let target : Long ← memRead .l .program 4
  update (·.jumpTo target)

/-- `Reset()`; an error on one of its two reads halts the processor (R358, R400). -/
def externalReset (s : State) : State :=
  match processReset s with
  | .ok _ t => t
  | .error _ t => t.setRun .halted

/-! ### Placing an instruction -/

/-- The physical addresses of `n` bytes from an address. -/
def byteRange (a : Long) (n : Nat) : List Nat := (List.range n).map fun k => physAddr (a + BitVec.ofNat 32 k)

/-- Bytes put into memory from outside. -/
def Memory.place (m : Memory) : List Nat → List Byte → Memory
  | p :: ps, v :: vs => (m.write p v).place ps vs
  | _, _ => m

/-- Whether an address is plain memory for reads. -/
def State.isStored (s : State) (p : Nat) : Bool := s.readAnswer p == .stored

/-- A state made ready to run the instruction whose words are given by their bytes: they lie at `pc`, which is even and in
readable memory, and the processor is running with nothing prefetched. -/
def State.placeInstr (s : State) (bytes : List Byte) : State :=
  let a : Long := s.pc.extractLsb' 1 31 ++ 0#1
  let ps := byteRange a bytes.length
  let extra : List Region := (ps.filter fun p => !s.isStored p).map fun p => ⟨p, 1, .stored, .stored⟩
  { s with
    pc := a
    mem := s.mem.place ps bytes
    memMap := extra ++ s.memMap
    run := .running
    resetLine := false
    stale := [] }

end Sys2Proof.Machine
end

