-- ==== Sys2Proof/Machine/Step.lean ====
section
/-! DEFINITION. One step of the machine, R340. -/

namespace Sys2Proof.Machine

/-- `Step()` (R340): the external reset first, nothing in the halted state, the boundary alone in the stopped state, else
one instruction and what follows it. -/
def step (s : State) : Host.Outcome State Fault Refusal :=
  if s.resetLine then .next (externalReset s)
  else
    match s.run with
    | .halted => .next s
    | .stopped => .next (interruptStage s)
    | .running =>
      match fetchWords s with
      | .error r t => .next (interruptStage (takeFetchFault r t))
      | .ok ws t =>
        match execWords ws t with
        | .next u => .next (afterInstr t.mem u)
        | .fault r => .fault r
        | .refused r => .refused r

/-- The state with an instruction where the next step fetches: its bytes at `pc`, the platform and the run state such that
the fetch happens (log entry 5). -/
def State.withFetchWord (s : State) (nbits w : Nat) : State := s.placeInstr (tableBytes nbits w)

end Sys2Proof.Machine
end

