-- ==== Sys2Proof/Machine/Run.lean ====
section
/-! DEFINITION. Runs: the request levels the platform presents step by step (R361), and when a run ends (R421). -/

namespace Sys2Proof.Machine

/-- The steps of a run, one for each request level the platform presents (R361, log entry 28). -/
def stepsUnder : List (BitVec 3) → State → Out
  | [], s => .next s
  | l :: ls, s =>
    match step (s.setIpl l) with
    | .next t => stepsUnder ls t
    | .fault f => .fault f
    | .refused r => .refused r

/-- None of the levels to come will be acceptable under the mask, each following the one before it (R362, R363). -/
def noneAcceptable (mask : BitVec 3) : BitVec 3 → List (BitVec 3) → Bool
  | _, [] => true
  | previous, l :: ls => !intAcceptable mask previous l && noneAcceptable mask l ls

/-- The instruction the processor executes next is the branch to itself: `BRA.S` with displacement -2, 0x60FE (R421). -/
def State.atBranchToSelf (s : State) : Bool :=
  !s.resetLine && s.run == .running &&
    match fetchOpWord s with
    | .ok w _ => w == 0x60FE
    | .error _ _ => false

/-- The end of a run (R421, D45): `pc` at the stop address the harness names, if it names one; a branch to itself; the halted
state; or the stopped state with no interrupt to come, `coming` being the levels the platform still presents after the one it
presents now (log entry 36). -/
def State.runEnded (stop : Option Long) (coming : List (BitVec 3)) (s : State) : Bool :=
  stop == some s.pc || s.atBranchToSelf || s.run == .halted ||
    (s.run == .stopped && noneAcceptable s.sr.i s.prevIpl (s.ipl :: coming))

end Sys2Proof.Machine
end

