-- ==== Sys2Proof/Safety.lean ====
section
/-! DEFINITION. The terms the statements use: what memory holds, which accesses succeed, what an operand is worth, what a
write leaves, what taking an exception leaves, and the invariant every step keeps. -/

namespace Sys2Proof.Machine

/-! ### What memory holds -/

/-- The byte at a 32-bit address (R71). -/
def Memory.byteAt (m : Memory) (a : Long) : Byte := m.read (physAddr a)

/-- The word at an address, big-endian (R73). -/
def Memory.wordAt (m : Memory) (a : Long) : Word := m.byteAt a ++ m.byteAt (a + 1)

/-- The long word at an address, big-endian (R73). -/
def Memory.longAt (m : Memory) (a : Long) : Long := m.wordAt a ++ m.wordAt (a + 2)

/-- The value of a size at an address. -/
def Memory.valueAt (m : Memory) : (sz : Size) → Long → BitVec sz.bits
  | .b, a => m.byteAt a
  | .w, a => m.wordAt a
  | .l, a => m.longAt a

/-- A physical address is one of the `n` bytes from an address. -/
def spans (a : Long) (n : Nat) (p : Nat) : Prop := ∃ k < n, p = physAddr (a + BitVec.ofNat 32 k)

/-- What a store leaves: the value where it was stored, every other byte as before. -/
structure Stored (before after : Memory) (sz : Size) (a : Long) (v : BitVec sz.bits) : Prop where
  value : after.valueAt sz a = v
  frame : ∀ p, ¬ spans a sz.bytes p → after.read p = before.read p

/-! ### Which accesses succeed -/

/-- A read of plain memory that raises nothing: aligned, and every byte stored. -/
def State.canRead (s : State) (sz : Size) (a : Long) : Prop :=
  aligned sz a = true ∧ ∀ k < sz.bytes, s.readAnswer (physAddr (a + BitVec.ofNat 32 k)) = .stored

/-- A write of plain memory that raises nothing. -/
def State.canWrite (s : State) (sz : Size) (a : Long) : Prop :=
  aligned sz a = true ∧ ∀ k < sz.bytes, s.writeAnswer (physAddr (a + BitVec.ofNat 32 k)) = .stored

/-- `n` instruction words from an address can be fetched. -/
def State.canFetch (s : State) (a : Long) (n : Nat) : Prop := ∀ k < n, s.canRead .w (a + BitVec.ofNat 32 (2 * k))

/-- The address `n` extension words past the operation word. -/
def State.afterWords (s : State) (n : Nat) : Long := s.pc + BitVec.ofNat 32 (2 + 2 * n)

/-- The extension words of the instruction at `pc` can be fetched. -/
def State.extReady (s : State) (n : Nat) : Prop := s.canFetch (s.afterWords 0) n

/-! ### Operands -/

/-- What an operand is worth. -/
def locValue (s : State) (sz : Size) : Loc → BitVec sz.bits
  | .dreg n => low sz (s.getD n)
  | .areg n => low sz (s.getA n)
  | .mem a _ _ => s.mem.valueAt sz a
  | .imm v => low sz v

/-- An operand that can be read. -/
def LocReadable (s : State) (sz : Size) : Loc → Prop
  | .mem a _ _ => s.canRead sz a
  | _ => True

/-- An operand that can be written. -/
def LocWritable (s : State) (sz : Size) : Loc → Prop
  | .mem a _ _ => s.canWrite sz a
  | .imm _ => False
  | _ => True

/-- What a write to an operand leaves: one register, or the bytes stored, and nothing else. -/
def LocWritten (s : State) (sz : Size) (loc : Loc) (v : BitVec sz.bits) (t : State) : Prop :=
  match loc with
  | .dreg n => t = s.putLow sz n v
  | .areg n => t = s.putA n (v.signExtend 32)
  | .mem a _ _ => ∃ m, t = s.setMem m ∧ Stored s.mem m sz a v
  | .imm _ => False

/-- The operand of an effective address whose extension words come after `k` others of the instruction at `pc`. -/
def State.operand (s : State) (k : Nat) (sz : Size) (ea : Ea) : Loc := eaLoc s (s.afterWords k) sz ea

/-- The state an instruction completes in before its own effects: `pc` past its `n` extension words, and a trace due if `T`
was set. -/
def State.completed (s : State) (n : Nat) : State :=
  { s with pc := s.afterWords n, refilled := false, traceDue := s.sr.t }

/-! ### Exceptions -/

/-- The six bytes of a frame can be written on the supervisor stack, and the vector can be read. -/
def State.entryReady (s : State) (v : Nat) : Prop :=
  s.canWrite .l (s.ssp - 4) ∧ s.canWrite .w (s.ssp - 6) ∧ s.canRead .l (vectorAddr v)

/-- What an exception entry leaves: the saved `PC` and status word on the supervisor stack, the status register `r`, `pc` from
the vector, and nothing else changed (R350, R351, R354). -/
def EnteredAs (s : State) (r : StatusReg) (v : Nat) (savedPc : Long) (t : State) : Prop :=
  ∃ m, t = (((s.setSr r).setSsp (s.ssp - 6)).setMem m).jumpTo (m.longAt (vectorAddr v)) ∧
    m.longAt (s.ssp - 4) = savedPc ∧ m.wordAt (s.ssp - 6) = s.sr.toWord ∧
    ∀ p, ¬ spans (s.ssp - 6) 6 p → m.read p = s.mem.read p

/-- What taking an exception of group 1 or 2 leaves: supervisor mode without trace, the rest of the status as it was. -/
def Entered (s : State) (v : Nat) (savedPc : Long) (t : State) : Prop := EnteredAs s s.sr.forHandler v savedPc t

/-! ### What the instruction forms leave -/

/-- `i` reads the operand `ea`, whose extension words come after `k` others, and then does `g` with its value. -/
def Reads (i : Instr) (s : State) (k : Nat) (sz : Size) (ea : Ea) (g : BitVec sz.bits → State → State) : Prop :=
  s.extReady (k + eaWords sz ea) → LocReadable s sz (s.operand k sz ea) →
    exec i s = .next (g (locValue s sz (s.operand k sz ea)) (eaTouch sz ea (s.completed (k + eaWords sz ea))))

/-- `i` reads the operand `ea`, writes the result of `f` at the same place, and sets the flags `f` gives. -/
def Modifies (i : Instr) (s : State) (k : Nat) (sz : Size) (ea : Ea) (f : Unary sz.bits) : Prop :=
  s.extReady (k + eaWords sz ea) → LocReadable s sz (s.operand k sz ea) → LocWritable s sz (s.operand k sz ea) →
    let o := f (locValue s sz (s.operand k sz ea)) s.sr.ccr
    ∃ t, exec i s = .next (t.setCcr o.2) ∧
      LocWritten (eaTouch sz ea (s.completed (k + eaWords sz ea))) sz (s.operand k sz ea) o.1 t

/-- Whether an access reads from a device. -/
def State.readsDevice (s : State) (sz : Size) (a : Long) : Bool :=
  (List.range sz.bytes).any fun k => s.readAnswer (physAddr (a + BitVec.ofNat 32 k)) == .device

/-- How many bytes of an access a device answers. -/
def State.deviceBytes (s : State) (sz : Size) (a : Long) : Nat :=
  (List.range sz.bytes).countP fun k => s.readAnswer (physAddr (a + BitVec.ofNat 32 k)) == .device

/-- An operand whose read the platform answers, with memory or a device. -/
def LocAnswered (s : State) (sz : Size) : Loc → Prop
  | .mem a _ _ => ∀ k < sz.bytes, s.readAnswer (physAddr (a + BitVec.ofNat 32 k)) ≠ .busError
  | _ => True

/-- The state after `n` draws. -/
def State.drawn (s : State) (n : Nat) : State := { s with draws := s.draws + n }

/-- The state after the read that R92 tells of: a free value drawn for each byte of the operand that a device answers. -/
def State.afterUnlistedRead (s : State) (sz : Size) : Loc → State
  | .mem a _ _ => if aligned sz a then s.drawn (s.deviceBytes sz a) else s
  | _ => s

/-- `i` writes `v` to the operand `ea`, which also answers the read of R92, and sets the flags `f`. -/
def Writes (i : Instr) (s : State) (sz : Size) (ea : Ea) (v : BitVec sz.bits) (f : Ccr) : Prop :=
  s.extReady (eaWords sz ea) → LocAnswered s sz (s.operand 0 sz ea) → LocWritable s sz (s.operand 0 sz ea) →
    ∃ t, exec i s = .next (t.setCcr f) ∧
      LocWritten ((eaTouch sz ea (s.completed (eaWords sz ea))).afterUnlistedRead sz (s.operand 0 sz ea)) sz
        (s.operand 0 sz ea) v t

/-- The address that a control mode gives. -/
def State.target (s : State) (ea : Ea) (a : Long) : Prop := ∃ space lf, s.operand 0 .l ea = .mem a space lf

/-- The registers a list names after they were loaded upward from an address, each value sign-extended (R184). -/
def loadedRegs (m : Memory) (sz : Size) : List Nat → Long → State → State
  | [], _, t => t
  | i :: is, a, t =>
    loadedRegs m sz is (a + BitVec.ofNat 32 sz.bytes) (t.putReg i ((m.valueAt sz a).signExtend 32))

/-- What storing the registers of a list upward from an address leaves in memory (R183). -/
structure StoredRegs (s : State) (sz : Size) (regs : List Nat) (a : Long) (m : Memory) : Prop where
  value : ∀ j (h : j < regs.length), m.valueAt sz (a + BitVec.ofNat 32 (sz.bytes * j)) = low sz (s.getReg regs[j])
  frame : ∀ p, ¬ spans a (sz.bytes * regs.length) p → m.read p = s.mem.read p

/-- What storing bytes two apart leaves in memory (R185). -/
structure StoredApart (s : State) (vs : List Byte) (a : Long) (m : Memory) : Prop where
  value : ∀ j (h : j < vs.length), m.byteAt (a + BitVec.ofNat 32 (2 * j)) = vs[j]
  frame : ∀ p, (∀ j < vs.length, p ≠ physAddr (a + BitVec.ofNat 32 (2 * j))) → m.read p = s.mem.read p

/-- The five words of memory from the program counter. -/
def State.codeWords (s : State) : List Word :=
  [s.mem.wordAt s.pc, s.mem.wordAt (s.pc + 2), s.mem.wordAt (s.pc + 4), s.mem.wordAt (s.pc + 6), s.mem.wordAt (s.pc + 8)]

/-- What a step makes of the answer of the instruction it ran, memory being `before` when it began. -/
def afterExec (before : Memory) : Out → Out
  | .next u => .next (afterInstr before u)
  | .fault r => .fault r
  | .refused r => .refused r

/-- The fourteen bytes a group 0 error leaves on the supervisor stack can be written, and its vector read (R355). -/
def State.faultEntryReady (s : State) (e : MemError) : Prop :=
  s.canWrite .l (s.ssp - 4) ∧ s.canWrite .w (s.ssp - 6) ∧ s.canWrite .w (s.ssp - 8) ∧ s.canWrite .l (s.ssp - 12) ∧
    s.canWrite .w (s.ssp - 14) ∧ s.canRead .l (vectorAddr e.vector)

/-- How many extension words an instruction takes before those of its effective addresses (R133). -/
def ownWords : Instr → Nat
  | .ori sz _ _ | .andi sz _ _ | .subi sz _ _ | .addi sz _ _ | .eori sz _ _ | .cmpi sz _ _ => immWords sz
  | .oriToCcr _ | .oriToSr _ | .andiToCcr _ | .andiToSr _ | .eoriToCcr _ | .eoriToSr _ | .stop _ => 1
  | .btstImm _ _ | .bchgImm _ _ | .bclrImm _ _ | .bsetImm _ _ => 1
  | .movemStore _ _ _ | .movemLoad _ _ _ | .movep _ _ _ _ | .link _ _ | .dbcc _ _ _ => 1
  | .bra d | .bsr d | .bcc _ d => branchWords d
  | _ => 0

/-- The effective addresses of an instruction, each with the size that counts for its extension words (R133). -/
def operandsOf : Instr → List (Size × Ea)
  | .moveB src dst => [(.b, src), (.b, dst)]
  | .moveW src dst => [(.w, src), (.w, dst)]
  | .moveL src dst => [(.l, src), (.l, dst)]
  | .moveaL _ ea | .lea _ ea | .pea ea | .jsr ea | .jmp ea => [(.l, ea)]
  | .orLEaDn _ ea | .orLDnEa _ ea | .andLEaDn _ ea | .andLDnEa _ ea | .eorLDnEa _ ea => [(.l, ea)]
  | .subLEaDn _ ea | .subLDnEa _ ea | .subaL _ ea | .addLEaDn _ ea | .addLDnEa _ ea | .addaL _ ea => [(.l, ea)]
  | .cmpLEaDn _ ea | .cmpaL _ ea => [(.l, ea)]
  | .moveaW _ ea | .moveFromSr ea | .moveToCcr ea | .moveToSr ea | .chk _ ea => [(.w, ea)]
  | .orWEaDn _ ea | .orWDnEa _ ea | .andWEaDn _ ea | .andWDnEa _ ea | .eorWDnEa _ ea => [(.w, ea)]
  | .subWEaDn _ ea | .subWDnEa _ ea | .subaW _ ea | .addWEaDn _ ea | .addWDnEa _ ea | .addaW _ ea => [(.w, ea)]
  | .cmpWEaDn _ ea | .cmpaW _ ea | .divu _ ea | .divs _ ea | .mulu _ ea | .muls _ ea => [(.w, ea)]
  | .aslEa ea | .asrEa ea | .lslEa ea | .lsrEa ea | .roxlEa ea | .roxrEa ea | .rolEa ea | .rorEa ea => [(.w, ea)]
  | .btstImm _ ea | .btstDn _ ea | .bchgImm _ ea | .bchgDn _ ea => [(.b, ea)]
  | .bclrImm _ ea | .bclrDn _ ea | .bsetImm _ ea | .bsetDn _ ea => [(.b, ea)]
  | .nbcd ea | .tas ea | .scc _ ea => [(.b, ea)]
  | .orBEaDn _ ea | .orBDnEa _ ea | .andBEaDn _ ea | .andBDnEa _ ea | .eorBDnEa _ ea => [(.b, ea)]
  | .subBEaDn _ ea | .subBDnEa _ ea | .addBEaDn _ ea | .addBDnEa _ ea | .cmpBEaDn _ ea => [(.b, ea)]
  | .ori sz _ ea | .andi sz _ ea | .subi sz _ ea | .addi sz _ ea | .eori sz _ ea | .cmpi sz _ ea => [(sz, ea)]
  | .negx sz ea | .clr sz ea | .neg sz ea | .notEa sz ea | .tst sz ea => [(sz, ea)]
  | .addq _ sz ea | .subq _ sz ea | .movemStore sz _ ea | .movemLoad sz _ ea => [(sz, ea)]
  | .oriToCcr _ | .oriToSr _ | .andiToCcr _ | .andiToSr _ | .eoriToCcr _ | .eoriToSr _ | .movep _ _ _ _ => []
  | .swap _ | .extW _ | .extL _ | .illegal | .trap _ | .link _ _ | .unlk _ | .moveAnUsp _ | .moveUspAn _ => []
  | .reset | .nop | .stop _ | .rte | .rts | .trapv | .rtr | .dbcc _ _ _ | .bra _ | .bsr _ | .bcc _ _ | .moveq _ _ => []
  | .sbcd _ _ _ | .subx _ _ _ _ | .lineA _ | .cmpm _ _ _ | .abcd _ _ _ | .exgDxDy _ _ | .exgAxAy _ _ => []
  | .exgDxAy _ _ | .addx _ _ _ _ | .aslReg _ _ _ | .asrReg _ _ _ | .lslReg _ _ _ | .lsrReg _ _ _ => []
  | .roxlReg _ _ _ | .roxrReg _ _ _ | .rolReg _ _ _ | .rorReg _ _ _ | .lineF _ => []

/-- The length of an instruction in bytes by the formula of R133. -/
def lengthBytes (i : Instr) : Nat :=
  2 + 2 * ownWords i + 2 * ((operandsOf i).map fun p => eaWords p.1 p.2).sum

/-! ### Safe runs -/

/-- The invariant of the machine: memory in its canonical form, no trace left over from an earlier step, and only words of
the prefetch window held as stale (R89). -/
structure Inv (s : State) : Prop where
  mem : s.mem.wf
  trace : s.traceDue = false
  stale : ∀ e ∈ s.stale, e.1 ∈ prefetchWindow s.pc

end Sys2Proof.Machine
end

