-- ==== Sys2Proof/Certificates/Slice0/Obligations.lean ====
section
/-! DEFINITION. The statements for the provers. A statement about an instruction gives its whole next state by an equation over
`State.completed`, so that it also says what the instruction leaves unchanged; `Stored` says the same of memory, byte by
byte. -/

open Sys2Proof Sys2Proof.Machine

/-! ### Reset and the step -/

/-- What reset leaves (R47, R400): supervisor mode, no trace, mask 7, the unimplemented bits zero, running, and `SSP` and `PC` the
long words memory holds at addresses 0 and 4. -/
def Obligations.ResetState : Prop :=
  State.reset.sr.t = false ∧ State.reset.sr.s = true ∧ State.reset.sr.i = 7 ∧
  State.reset.sr.toWord &&& 0xFFE0 = 0x2700 ∧ State.reset.run = .running ∧
  State.reset.ssp = State.reset.mem.longAt 0 ∧ State.reset.pc = State.reset.mem.longAt 4

/-- The invariant holds right after reset. -/
def Obligations.ResetInvariant : Prop := Inv State.reset

/-- The external reset (R400): the mode bits, the two vectors and the run state are set, and nothing else; where the first of
the two reads is not answered, the processor halts. -/
def Obligations.ExternalResetLoadsVectors : Prop :=
  ∀ s : State, s.resetLine = true →
    (s.canRead .l 0 → s.canRead .l 4 →
      step s = .next
        ((((s.setSr { s.sr with t := false, s := true, i := 7 }).setRun .running).setSsp (s.mem.longAt 0)).jumpTo
          (s.mem.longAt 4))) ∧
    (s.readAnswer 0 = .busError → ∃ t, step s = .next t ∧ t.run = .halted)

/-- A step runs the decoded instruction: with the line quiet and the processor running, where the five words at `pc` are plain
memory and hold the words of `i`, the step is `exec` of `i` in that state with the operation word kept in `ir`, then the stages
that follow an instruction. -/
def Obligations.StepRunsDecodedInstruction : Prop :=
  ∀ (s : State) (i : Instr) (rest : List Word), s.resetLine = false → s.run = .running → s.stale = [] →
    s.canFetch s.pc 5 → decode s.codeWords = .ok (i, rest) →
    step s = afterExec s.mem (exec i (s.setIr (s.mem.wordAt s.pc)))

/-- An operation word without a row raises the illegal instruction exception, vector 4, and the saved PC is its own address
(R128, R353). -/
def Obligations.UndecodedWordIsIllegal : Prop :=
  ∀ s : State, s.resetLine = false → s.run = .running → s.stale = [] → s.canFetch s.pc 5 → s.entryReady 4 →
    decode s.codeWords = .error .illegal →
    ∃ t, step s = .next (afterInstr s.mem (t.setTraceDue false)) ∧
      Entered ((s.setIr (s.mem.wordAt s.pc)).completed 0) 4 s.pc t

/-- In the halted state only the external reset does anything (R358, R389); in the stopped state nothing happens but the noting
of the level, as long as no interrupt is acceptable (R317, R367). The end of a run (R421): one that ends in a waiting state stays
there with nothing changed, whatever of the levels to come the platform presents; one that ends in a branch to itself, untraced
and without an interrupt, comes back to that branch with nothing changed. (How `runEnded` reads the levels to come is log entry
36.) -/
def Obligations.HaltedAndStoppedWait : Prop :=
  ∀ s : State, s.resetLine = false →
    (s.run = .halted → step s = .next s) ∧
    (s.run = .stopped → ¬ s.sr.i.ult s.ipl = true → ¬ (s.ipl = 7 ∧ s.prevIpl ≠ 7) →
      step s = .next (s.setPrevIpl s.ipl)) ∧
    ∀ (stop : Option Long) (coming : List (BitVec 3)), s.runEnded stop coming = true → stop ≠ some s.pc →
      (s.run ≠ .running → ∃ l p, stepsUnder (s.ipl :: coming) s = .next ((s.setIpl l).setPrevIpl p)) ∧
      (s.run = .running → s.stale = [] → s.canFetch s.pc 5 → s.sr.t = false → s.interruptAcceptable = false →
        step s = .next ((((s.setIr 0x60FE).jumpTo s.pc).setTraceDue false).setPrevIpl s.ipl))

/-- An acceptable interrupt (R350, R361, R362, R363, R365): at the boundary of any state that is not halted the frame saves the
status and the address of the next instruction, the mask takes the level, tracing is off, the processor runs, and `pc` comes from
the vector the acknowledge gives; a level that is not acceptable stays pending, and is only noted. So after an instruction that a
step ran and that no trace follows, and in the stopped state, which it ends (R367). (`noteStale` is the model's form of R89, log
entry 19.) -/
def Obligations.InterruptEntersHandler : Prop :=
  let requested := fun (s : State) => s.sr.i.ult s.ipl = true ∨ (s.ipl = 7 ∧ s.prevIpl ≠ 7)
  let vector := fun (s : State) => match s.intAck[s.ipl.toFin] with
    | .vector n => n.toNat
    | .autovector => 24 + s.ipl.toNat
    | .busError => 24
  let entered := fun (s t : State) =>
    ∃ u, t = u.setPrevIpl s.ipl ∧
      EnteredAs (s.setRun .running) { s.sr with t := false, s := true, i := s.ipl } (vector s) s.pc u
  (∀ s : State, s.run ≠ .halted →
    (requested s → s.entryReady (vector s) → entered s (interruptStage s)) ∧
    (¬ requested s → interruptStage s = s.setPrevIpl s.ipl)) ∧
  (∀ (s u : State) (i : Instr) (rest : List Word), s.resetLine = false → s.run = .running → s.stale = [] →
    s.canFetch s.pc 5 → decode s.codeWords = .ok (i, rest) → exec i (s.setIr (s.mem.wordAt s.pc)) = .next u →
    u.traceDue = false → u.run ≠ .halted → requested u → u.entryReady (vector u) →
    ∃ t, step s = .next t ∧ entered (noteStale s.mem u) t) ∧
  ∀ s : State, s.resetLine = false → s.run = .stopped → requested s → s.entryReady (vector s) →
    ∃ t, step s = .next t ∧ entered s t

/-- The trace exception (R340, R372): where the instruction run by a step leaves a trace due and has not halted, the trace entry
through vector 9 follows, with the next instruction's address saved; then the boundary stage. (`noteStale` is the model's form of
R89, log entry 19.) -/
def Obligations.TraceFollowsInstruction : Prop :=
  ∀ (s u : State) (i : Instr) (rest : List Word), s.resetLine = false → s.run = .running → s.stale = [] →
    s.canFetch s.pc 5 → decode s.codeWords = .ok (i, rest) → exec i (s.setIr (s.mem.wordAt s.pc)) = .next u →
    u.traceDue = true → u.run ≠ .halted → u.entryReady 9 →
    ∃ t, step s = .next (interruptStage (t.setTraceDue false)) ∧
      Entered ((noteStale s.mem u).setRun .running) 9 u.pc t

/-! ### Decoding -/

/-- Six words written from the encoding tables, one of each kind of format, decode to the instructions they stand for (R126):
`CLR.W (A3)`, `ADDQ.L #1,D0`, `MOVE.W D1,(A2)`, `LEA 8(A0,D1.W),A2`, `DBF D1,-4` and `TRAP #15`. -/
def Obligations.WordsDecode : Prop :=
  decode [0x4253] = .ok (.clr .w (.ind 3), []) ∧ decode [0x5280] = .ok (.addq 1 .l (.dn 0), []) ∧
  decode [0x3481] = .ok (.moveW (.dn 1) (.ind 2), []) ∧
  decode [0x45F0, 0x1008] = .ok (.lea 2 (.index 0 ⟨false, 1, false, 8⟩), []) ∧
  decode [0x51C9, 0xFFFC] = .ok (.dbcc .f 1 0xFFFC, []) ∧ decode [0x4E4F] = .ok (.trap 15, [])

/-- Decode and encode agree: every well-formed instruction is read back from its own words, with every operand at every value,
whatever words follow. -/
def Obligations.DecodeEncodeRoundTrip : Prop :=
  ∀ (i : Instr) (rest : List Word), i.wf = true → decode (encode i ++ rest) = .ok (i, rest)

/-- The decoder is sound and total (R110, R124, R127): it gives well-formed instructions only, no mode outside its instruction's
set and no address register at byte size, and five words are enough for it to answer an instruction or `illegal`. -/
def Obligations.DecoderSoundAndTotal : Prop :=
  (∀ (ws rest : List Word) (i : Instr), decode ws = .ok (i, rest) → i.wf = true) ∧
  ∀ w a b c d : Word, decode [w, a, b, c, d] ≠ .error .truncated

/-- The length of a well-formed instruction is the formula of R133. -/
def Obligations.EncodedLengthFormula : Prop := ∀ i : Instr, i.wf = true → 2 * (encode i).length = lengthBytes i

/-! ### Memory -/

/-- A write to plain memory, then a read at the same address: the value comes back, and every byte outside the ones written
reads as before (R73, R79). -/
def Obligations.WriteThenReadBack : Prop :=
  ∀ (s : State) (sz : Size) (lowFirst : Bool) (space : Space) (a : Long) (v : BitVec sz.bits),
    s.canWrite sz a → s.canRead sz a →
    ∃ m, memWrite sz lowFirst a v s = .ok () (s.setMem m) ∧
      memRead sz space a (s.setMem m) = .ok v (s.setMem m) ∧
      ∀ p, (∀ k < sz.bytes, p ≠ physAddr (a + BitVec.ofNat 32 k)) → m.read p = s.mem.read p

/-- Only the low 24 bits of an address reach memory (R71): two addresses that agree there read and store alike. -/
def Obligations.UpperAddressBitsIgnored : Prop :=
  ∀ (s t : State) (sz : Size) (lowFirst : Bool) (space : Space) (a b : Long) (v : BitVec sz.bits),
    a.extractLsb' 0 24 = b.extractLsb' 0 24 →
    (memRead sz space a s = .ok v t ↔ memRead sz space b s = .ok v t) ∧
    (memWrite sz lowFirst a v s = .ok () t ↔ memWrite sz lowFirst b v s = .ok () t)

/-- Memories in canonical form that read alike are the same data: the model's form has one value per memory (the model's
choice, log entry 1). -/
def Obligations.MemoryFormCanonical : Prop :=
  ∀ m m' : Memory, m.wf → m'.wf → (∀ p < 2 ^ 24, m.read p = m'.read p) → m = m'

/-! ### Flags and results -/

/-- `add_flags` (R17): the formulas over the top bits are the carry and the overflow of the exact sum, with the carry in
`x`; `N`, `Z` from the result and `X` the carry. -/
def Obligations.AddFlagsAreExact : Prop :=
  ∀ (sz : Size) (s d : BitVec sz.bits) (x : Bool),
    let r := d + s + carryIn sz.bits x
    let f := addFlags s d r
    (f.c = ((s.msb && d.msb) || (!r.msb && d.msb) || (s.msb && !r.msb))) ∧
    (f.c = decide (2 ^ sz.bits ≤ s.toNat + d.toNat + x.toNat)) ∧
    (f.v = ((s.msb && d.msb && !r.msb) || (!s.msb && !d.msb && r.msb))) ∧
    (f.v = decide (s.toInt + d.toInt + x.toNat < -2 ^ (sz.bits - 1) ∨ 2 ^ (sz.bits - 1) ≤ s.toInt + d.toInt + x.toNat)) ∧
    f.n = r.msb ∧ f.z = (r == 0) ∧ f.x = f.c

/-- `sub_flags` (R18): the formulas over the top bits are the borrow and the overflow of the exact difference, with the borrow
in `x`; `X` is the borrow, but a compare keeps it. -/
def Obligations.SubFlagsAreExact : Prop :=
  ∀ (sz : Size) (s d : BitVec sz.bits) (x : Bool) (before : Ccr),
    let r := d - s - carryIn sz.bits x
    let f := subFlags s d r
    (f.c = ((s.msb && !d.msb) || (r.msb && !d.msb) || (s.msb && r.msb))) ∧
    (f.c = decide (d.toNat < s.toNat + x.toNat)) ∧
    (f.v = ((!s.msb && d.msb && !r.msb) || (s.msb && !d.msb && r.msb))) ∧
    (f.v = decide (d.toInt - s.toInt - x.toNat < -2 ^ (sz.bits - 1) ∨ 2 ^ (sz.bits - 1) ≤ d.toInt - s.toInt - x.toNat)) ∧
    f.n = r.msb ∧ f.z = (r == 0) ∧ f.x = f.c ∧
    (cmpFlags s d before = { subFlags s d (d - s) with x := before.x })

/-- The sixteen conditions (R291): the field of each, shown on `Scc`, and its test on the flags; and what it says after a compare
of destination with source (R212). -/
def Obligations.ConditionsCompare : Prop :=
  (∀ p ∈ ([.t, .f, .hi, .ls, .cc, .cs, .ne, .eq, .vc, .vs, .pl, .mi, .ge, .lt, .gt, .le] : List Cond).zipIdx,
    decode [0x5#4 ++ BitVec.ofNat 4 p.2 ++ 0xC0#8] = .ok (.scc p.1 (.dn 0), [])) ∧
  (∀ f : Ccr,
    (condHolds .t f ∧ ¬ condHolds .f f) ∧ (condHolds .ne f ↔ f.z = false) ∧ (condHolds .eq f ↔ f.z = true) ∧
    (condHolds .cc f ↔ f.c = false) ∧ (condHolds .cs f ↔ f.c = true) ∧
    (condHolds .hi f ↔ f.c = false ∧ f.z = false) ∧ (condHolds .ls f ↔ f.c = true ∨ f.z = true) ∧
    (condHolds .vc f ↔ f.v = false) ∧ (condHolds .vs f ↔ f.v = true) ∧
    (condHolds .pl f ↔ f.n = false) ∧ (condHolds .mi f ↔ f.n = true) ∧
    (condHolds .ge f ↔ f.n = f.v) ∧ (condHolds .lt f ↔ f.n ≠ f.v) ∧
    (condHolds .gt f ↔ f.z = false ∧ f.n = f.v) ∧ (condHolds .le f ↔ f.z = true ∨ f.n ≠ f.v)) ∧
  ∀ (sz : Size) (s d : BitVec sz.bits) (before : Ccr),
    let f := cmpFlags s d before
    let exact := d.toInt - s.toInt
    let fits := -2 ^ (sz.bits - 1) ≤ exact ∧ exact < 2 ^ (sz.bits - 1)
    (condHolds .eq f = decide (d = s)) ∧ (condHolds .ne f = decide (d ≠ s)) ∧
    (condHolds .hi f = decide (s.toNat < d.toNat)) ∧ (condHolds .ls f = decide (d.toNat ≤ s.toNat)) ∧
    (condHolds .cc f = decide (s.toNat ≤ d.toNat)) ∧ (condHolds .cs f = decide (d.toNat < s.toNat)) ∧
    (condHolds .ge f = decide (s.toInt ≤ d.toInt)) ∧ (condHolds .lt f = decide (d.toInt < s.toInt)) ∧
    (condHolds .gt f = decide (s.toInt < d.toInt)) ∧ (condHolds .le f = decide (d.toInt ≤ s.toInt)) ∧
    (condHolds .vc f = decide fits) ∧ (condHolds .vs f = decide (¬ fits)) ∧
    (condHolds .pl f = !(d - s).msb) ∧ (condHolds .mi f = (d - s).msb)

/-- The eight shifts and rotates in closed form (R262 to R269), for a count `n` of at least one: the result and every flag. The
rotates through `X` turn the ring of size + 1 bits that `X` and the operand make. (That `LSL` and `LSR` keep `X` is the value of
the parameter of R264 the model takes, log entry 11.) -/
def Obligations.ShiftClosedForms : Prop :=
  ∀ (sz : Size) (n : Nat) (v : BitVec sz.bits) (f : Ccr), 1 ≤ n →
    let out := fun k => shiftResult k n v f
    let lastUp := decide (n ≤ sz.bits) && v.getLsbD (sz.bits - n)
    let lastDown := v.getLsbD (n - 1)
    let signDown := if n ≤ sz.bits then lastDown else v.msb
    let ring := BitVec.cons f.x v
    let up := ring.rotateLeft n
    let down := ring.rotateRight n
    ((out .asl).1 = v <<< n ∧ (out .asl).2.c = lastUp ∧ (out .asl).2.x = lastUp) ∧
    ((out .asr).1 = v.sshiftRight n ∧ (out .asr).2.c = signDown ∧ (out .asr).2.x = signDown) ∧
    ((out .lsl).1 = v <<< n ∧ (out .lsl).2.c = lastUp ∧ (out .lsl).2.x = f.x) ∧
    ((out .lsr).1 = v >>> n ∧ (out .lsr).2.c = lastDown ∧ (out .lsr).2.x = f.x) ∧
    ((out .rol).1 = v.rotateLeft n ∧ (out .rol).2.c = (v.rotateLeft n).getLsbD 0 ∧ (out .rol).2.x = f.x) ∧
    ((out .ror).1 = v.rotateRight n ∧ (out .ror).2.c = (v.rotateRight n).msb ∧ (out .ror).2.x = f.x) ∧
    ((out .roxl).1 = up.setWidth sz.bits ∧ (out .roxl).2.c = up.msb ∧ (out .roxl).2.x = up.msb) ∧
    ((out .roxr).1 = down.setWidth sz.bits ∧ (out .roxr).2.c = down.msb ∧ (out .roxr).2.x = down.msb) ∧
    ((out .asl).2.v = false ↔ (if n < sz.bits then ∀ k ≤ n, v.getLsbD (sz.bits - 1 - k) = v.msb else v = 0)) ∧
    ∀ k, (out k).2.n = (out k).1.msb ∧ (out k).2.z = ((out k).1 == 0) ∧ (k ≠ .asl → (out k).2.v = false)

/-- A count of zero (R261), for each of the eight shifts and rotates. -/
def Obligations.ZeroShiftCount : Prop :=
  ∀ (k : ShiftKind) (s : State) (m dn : RegNum) (sz : Size), (s.getD m).toNat % 64 = 0 →
    let v := low sz (s.getD dn)
    let c := if k = .roxl ∨ k = .roxr then s.sr.ccr.x else false
    opShiftReg k (.reg m) sz dn s = .ok () (s.setCcr ⟨s.sr.ccr.x, v.msb, v == 0, false, c⟩)

/-- The multiplies are exact (R224). The divides (R225): quotient and remainder where they fit, the remainder smaller than the divisor and signed as the
dividend; overflow exactly where the quotient does not fit. -/
def Obligations.ProductsAndQuotientsAreExact : Prop :=
  (∀ a b : Word, (mulUnsigned a b).toNat = a.toNat * b.toNat ∧ (mulSigned a b).toInt = a.toInt * b.toInt) ∧
  ∀ (s : Word) (d : Long), s ≠ 0 →
    (∀ q r, divUnsigned s d = .fits q r → d.toNat = q.toNat * s.toNat + r.toNat ∧ r.toNat < s.toNat) ∧
    (divUnsigned s d = .overflow ↔ 0xFFFF < d.toNat / s.toNat) ∧
    (∀ q r, divSigned s d = .fits q r →
      d.toInt = q.toInt * s.toInt + r.toInt ∧ r.toInt.natAbs < s.toInt.natAbs ∧ (r = 0 ∨ r.msb = d.msb)) ∧
    (divSigned s d = .overflow ↔ (d.toInt.tdiv s.toInt < -32768 ∨ 32767 < d.toInt.tdiv s.toInt)) ∧
    divUnsigned s d ≠ .byZero ∧ divSigned s d ≠ .byZero

/-- The decimal operations on decimal operands (R233): the result is decimal and stands for the exact sum or difference modulo
100; `C` and `X` are the decimal carry or borrow; `Z` is only ever cleared; `N` and `V` may be anything. -/
def Obligations.DecimalArithmetic : Prop :=
  ∀ (s d : Byte) (f : Ccr) (n v : Bool), isBcd s = true → isBcd d = true →
    let a := bcdResult .abcd s d f n v
    let b := bcdResult .sbcd s d f n v
    let c := bcdResult .nbcd 0 d f n v
    let x : Nat := f.x.toNat
    (isBcd a.1 = true ∧ dec a.1 = (dec s + dec d + x) % 100 ∧ a.2.c = decide (100 ≤ dec s + dec d + x)) ∧
    (isBcd b.1 = true ∧ (dec b.1 : Int) = ((dec d : Int) - dec s - x) % 100 ∧ b.2.c = decide (dec d < dec s + x)) ∧
    (isBcd c.1 = true ∧ (dec c.1 : Int) = (0 - (dec d : Int) - x) % 100 ∧ c.2.c = decide (0 < dec d + x)) ∧
    (∀ o ∈ [a, b, c], o.2.x = o.2.c ∧ o.2.z = (if o.1 = 0 then f.z else false))

/-- What a write of the status register keeps (R40): a word written and read back is the word with the bits without a field
cleared; likewise a byte for the flags. -/
def Obligations.StatusWordRoundTrip : Prop :=
  (∀ w : Word, (StatusReg.ofWord w).toWord = w &&& 0xA71F) ∧ (∀ r : StatusReg, StatusReg.ofWord r.toWord = r) ∧
  (∀ b : Byte, (Ccr.ofByte b).toByte = b &&& 0x1F)

/-! ### Data movement -/

/-- `MOVE.B`, `MOVE.W` and `MOVE.L` (R180) between any two operands: the source is read with its side effect, the destination is
found after it and written with that value, and the flags are those of the value. -/
def Obligations.MoveCopiesOperand : Prop :=
  ∀ (i : Ea → Ea → Instr) (sz : Size), (i = .moveB ∧ sz = .b ∨ i = .moveW ∧ sz = .w ∨ i = .moveL ∧ sz = .l) →
  ∀ (s : State) (src dst : Ea),
    let n := eaWords sz src
    let loc := eaLoc (eaTouch sz src s) (s.afterWords n) sz dst
    let v := locValue s sz (s.operand 0 sz src)
    s.extReady (n + eaWords sz dst) → LocReadable s sz (s.operand 0 sz src) → LocWritable s sz loc →
    ∃ t, exec (i src dst) s =
        .next (t.setCcr ⟨s.sr.ccr.x, v.msb, v == 0, false, false⟩) ∧
      LocWritten (eaTouch sz dst (eaTouch sz src (s.completed (n + eaWords sz dst)))) sz loc v t

/-- `MOVEA`, `ADDA` and `SUBA` at both sizes (R181, R201, R206): the source sign-extended to 32 bits, the whole register written,
no flag changed; the register is read after the source's side effect. -/
def Obligations.AddressArithmetic : Prop :=
  ∀ (s : State) (an : RegNum) (ea : Ea),
    Reads (.moveaW an ea) s 0 .w ea (fun v t => t.putA an (v.signExtend 32)) ∧
    Reads (.moveaL an ea) s 0 .l ea (fun v t => t.putA an v) ∧
    Reads (.addaW an ea) s 0 .w ea (fun v t => t.putA an (t.getA an + v.signExtend 32)) ∧
    Reads (.addaL an ea) s 0 .l ea (fun v t => t.putA an (t.getA an + v)) ∧
    Reads (.subaW an ea) s 0 .w ea (fun v t => t.putA an (t.getA an - v.signExtend 32)) ∧
    Reads (.subaL an ea) s 0 .l ea (fun v t => t.putA an (t.getA an - v))

/-- `MOVEQ`, `EXT`, `SWAP` and `EXG` (R182, R188, R220, R271), in every state: their words, their results, and their flags (`EXG`
changes none; exchanging a register with itself changes nothing). -/
def Obligations.RegisterInstructions : Prop :=
  ∀ (s : State) (x y : RegNum) (q : Byte),
    let flags := fun (w : Nat) (r : BitVec w) => (⟨s.sr.ccr.x, r.msb, r == 0, false, false⟩ : Ccr)
    let ext8 : Word := ((s.getD x).setWidth 8).signExtend 16
    let ext16 : Long := ((s.getD x).setWidth 16).signExtend 32
    let swapped : Long := (s.getD x).extractLsb' 0 16 ++ (s.getD x).extractLsb' 16 16
    let nx := BitVec.ofNat 3 x.val
    let ny := BitVec.ofNat 3 y.val
    (decode [7#4 ++ nx ++ 0#1 ++ q] = .ok (.moveq x q, []) ∧
      exec (.moveq x q) s = .next (((s.completed 0).putD x (q.signExtend 32)).setCcr (flags 8 q))) ∧
    (decode [0x488#12 ++ 0#1 ++ nx] = .ok (.extW x, []) ∧
      exec (.extW x) s =
        .next (((s.completed 0).putD x ((s.getD x).extractLsb' 16 16 ++ ext8)).setCcr (flags 16 ext8))) ∧
    (decode [0x48C#12 ++ 0#1 ++ nx] = .ok (.extL x, []) ∧
      exec (.extL x) s = .next (((s.completed 0).putD x ext16).setCcr (flags 32 ext16))) ∧
    (decode [0x484#12 ++ 0#1 ++ nx] = .ok (.swap x, []) ∧
      exec (.swap x) s = .next (((s.completed 0).putD x swapped).setCcr (flags 32 swapped))) ∧
    (decode [12#4 ++ nx ++ 1#1 ++ 8#5 ++ ny] = .ok (.exgDxDy x y, []) ∧
      exec (.exgDxDy x y) s = .next (((s.completed 0).putD x (s.getD y)).putD y (s.getD x)) ∧
      exec (.exgDxDy x x) s = .next (s.completed 0)) ∧
    (decode [12#4 ++ nx ++ 1#1 ++ 9#5 ++ ny] = .ok (.exgAxAy x y, []) ∧
      exec (.exgAxAy x y) s = .next (((s.completed 0).putA x (s.getA y)).putA y (s.getA x)) ∧
      exec (.exgAxAy x x) s = .next (s.completed 0)) ∧
    (decode [12#4 ++ nx ++ 1#1 ++ 17#5 ++ ny] = .ok (.exgDxAy x y, []) ∧
      exec (.exgDxAy x y) s = .next (((s.completed 0).putD x (s.getA y)).putA y (s.getD x)))

/-- The place each mode names, `k` extension words into the instruction, and its side effect on the register (R151 to R162,
R167): the addresses written out, the base of the PC-relative modes being the address of their extension word, and the step of a
byte through `A7` being 2; `A7` is the active stack pointer (R34). `LEA` and `PEA` (R186, R187) in the control modes: `LEA` makes
no access; `PEA` pushes the address found before the stack pointer moves. (The tags of a `Loc` in memory are the model's: what
a fault reports, log entry 13, and the order of a long write, log entry 16.) -/
def Obligations.EffectiveAddressLoads : Prop :=
  (∀ (s : State) (k : Nat) (sz : Size) (n : RegNum) (d : Word) (x : IndexWord) (v : Long) (ea : Ea),
    let place := s.operand k sz
    let base := s.pc + 2 + BitVec.ofNat 32 (2 * k)
    let reg := if x.isAddr then s.getA x.reg else s.getD x.reg
    let index := if x.isLong then reg else (reg.extractLsb' 0 16).signExtend 32
    let step : Long := match sz with
      | .b => if n = 7 then 2 else 1
      | .w => 2
      | .l => 4
    place (.dn n) = .dreg n ∧ place (.an n) = .areg n ∧ place (.imm v) = .imm v ∧
    place (.ind n) = .mem (s.getA n) .data false ∧
    (place (.postinc n) = .mem (s.getA n) .data false ∧ eaTouch sz (.postinc n) s = s.putA n (s.getA n + step)) ∧
    (place (.predec n) = .mem (s.getA n - step) .data true ∧ eaTouch sz (.predec n) s = s.putA n (s.getA n - step)) ∧
    place (.disp n d) = .mem (s.getA n + d.signExtend 32) .data false ∧
    place (.index n x) = .mem (s.getA n + index + x.disp.signExtend 32) .data false ∧
    place (.absW d) = .mem (d.signExtend 32) .data false ∧ place (.absL v) = .mem v .data false ∧
    place (.pcDisp d) = .mem (base + d.signExtend 32) .pcRelative false ∧
    place (.pcIndex x) = .mem (base + index + x.disp.signExtend 32) .pcRelative false ∧
    ((∀ m, ea ≠ .postinc m ∧ ea ≠ .predec m) → eaTouch sz ea s = s) ∧
    s.getA 7 = if s.sr.s then s.ssp else s.usp) ∧
  ∀ (s : State) (an : RegNum) (ea : Ea) (a : Long), ea.isControl = true → s.target ea a → s.extReady (eaWords .l ea) →
    exec (.lea an ea) s = .next ((s.completed (eaWords .l ea)).putA an a) ∧
    (s.canWrite .l (s.sp - 4) →
      ∃ m, exec (.pea ea) s = .next (((s.completed (eaWords .l ea)).putSp (s.sp - 4)).setMem m) ∧
        Stored s.mem m .l (s.sp - 4) a)

/-- `MOVEM regs,<ea>` (R183) for both sizes and both kinds of mode: the registers lie in memory from the lowest address up in
the order `D0` to `A7`, each as it was before the instruction; `-(An)` ends at that lowest address. -/
def Obligations.MovemStoresRegisters : Prop :=
  ∀ (s : State) (sz : Size) (mask : Word), sz ≠ .b →
    (∀ (n : RegNum),
      let regs := (List.range 16).filter fun i => mask.getLsbD (15 - i)
      let a := s.getA n - BitVec.ofNat 32 (sz.bytes * regs.length)
      s.extReady 1 → (∀ j < regs.length, s.canWrite sz (a + BitVec.ofNat 32 (sz.bytes * j))) →
      ∃ m, exec (.movemStore sz mask (.predec n)) s = .next (((s.completed 1).setMem m).putA n a) ∧
        StoredRegs s sz regs a m) ∧
    (∀ (ea : Ea) (a : Long) (space : Space) (lf : Bool), ea.isControl = true → s.operand 1 sz ea = .mem a space lf →
      let regs := (List.range 16).filter fun i => mask.getLsbD i
      s.extReady (1 + eaWords sz ea) → (∀ j < regs.length, s.canWrite sz (a + BitVec.ofNat 32 (sz.bytes * j))) →
      ∃ m, exec (.movemStore sz mask ea) s = .next ((s.completed (1 + eaWords sz ea)).setMem m) ∧
        StoredRegs s sz regs a m)

/-- `MOVEM <ea>,regs` (R184) for both sizes and both kinds of mode: each selected register is loaded with its sign-extended
value; `(An)+` ends as the address past the last one, whatever was loaded into it. The word past the last operand, which R92
tells of, is no device or is answered; a device's answer draws values that are dropped (log entry 27). -/
def Obligations.MovemLoadsRegisters : Prop :=
  ∀ (s : State) (sz : Size) (mask : Word), sz ≠ .b →
    let regs := (List.range 16).filter fun i => mask.getLsbD i
    let past := fun (a : Long) => a + BitVec.ofNat 32 (sz.bytes * regs.length)
    let answered := fun (a : Long) (space : Space) => s.reachesDevice .w a = false ∨ LocAnswered s .w (.mem a space false)
    let loaded := fun (a : Long) (space : Space) (t : State) =>
      (loadedRegs s.mem sz regs a t).afterUnlistedRead .w (.mem (past a) space false)
    (∀ (n : RegNum), s.extReady 1 → (∀ j < regs.length, s.canRead sz (s.getA n + BitVec.ofNat 32 (sz.bytes * j))) →
      answered (past (s.getA n)) .data →
      exec (.movemLoad sz mask (.postinc n)) s =
        .next ((loaded (s.getA n) .data (s.completed 1)).putA n (past (s.getA n)))) ∧
    (∀ (ea : Ea) (a : Long) (space : Space) (lf : Bool), ea.isControl = true → s.operand 1 sz ea = .mem a space lf →
      s.extReady (1 + eaWords sz ea) → (∀ j < regs.length, s.canRead sz (a + BitVec.ofNat 32 (sz.bytes * j))) →
      answered (past a) space →
      exec (.movemLoad sz mask ea) s = .next (loaded a space (s.completed (1 + eaWords sz ea))))

/-- `MOVEP` in its four forms (R185): bytes two apart, the most significant first, at any address. -/
def Obligations.MovepMovesAlternateBytes : Prop :=
  ∀ (s : State) (dn an : RegNum) (d16 : Word),
    let a := s.getA an + d16.signExtend 32
    let v := s.getD dn
    s.extReady 1 →
    ((∀ j < 2, s.canRead .b (a + BitVec.ofNat 32 (2 * j))) →
      exec (.movep dn .wordToReg an d16) s =
        .next ((s.completed 1).putD dn (v.extractLsb' 16 16 ++ (s.mem.byteAt a ++ s.mem.byteAt (a + 2) : Word)))) ∧
    ((∀ j < 4, s.canRead .b (a + BitVec.ofNat 32 (2 * j))) →
      exec (.movep dn .longToReg an d16) s =
        .next ((s.completed 1).putD dn
          (s.mem.byteAt a ++ s.mem.byteAt (a + 2) ++ s.mem.byteAt (a + 4) ++ s.mem.byteAt (a + 6)))) ∧
    ((∀ j < 2, s.canWrite .b (a + BitVec.ofNat 32 (2 * j))) →
      ∃ m, exec (.movep dn .wordToMem an d16) s = .next ((s.completed 1).setMem m) ∧
        StoredApart s [v.extractLsb' 8 8, v.extractLsb' 0 8] a m) ∧
    ((∀ j < 4, s.canWrite .b (a + BitVec.ofNat 32 (2 * j))) →
      ∃ m, exec (.movep dn .longToMem an d16) s = .next ((s.completed 1).setMem m) ∧
        StoredApart s [v.extractLsb' 24 8, v.extractLsb' 16 8, v.extractLsb' 8 8, v.extractLsb' 0 8] a m)

/-- `LINK` (R189) and `UNLK` (R190): the frame built and released; `LINK A7` pushes the stack pointer already decremented, and
`UNLK A7`, to which the spec gives no meaning, is refused (U9). -/
def Obligations.LinkAndUnlk : Prop :=
  ∀ (s : State) (an : RegNum) (d16 : Word),
    (s.extReady 1 → s.canWrite .l (s.sp - 4) →
      ∃ m, exec (.link an d16) s =
          .next ((((s.completed 1).setMem m).putA an (s.sp - 4)).putSp (s.sp - 4 + d16.signExtend 32)) ∧
        Stored s.mem m .l (s.sp - 4) (if an = 7 then s.sp - 4 else s.getA an)) ∧
    (an ≠ 7 → s.canRead .l (s.getA an) →
      exec (.unlk an) s =
        .next (((s.completed 0).putA an (s.mem.longAt (s.getA an))).putSp (s.getA an + 4))) ∧
    exec (.unlk 7) s = .refused .unlkStackPointer

/-! ### Arithmetic and logic -/

/-- `ADD`, `SUB`, `AND` and `OR` from an operand to a data register, at the three sizes (R200, R205, R241, R245): the low part of
the register written, its upper bits unchanged, the flags those of the operation. -/
def Obligations.OperandToDataRegister : Prop :=
  ∀ (s : State) (dn : RegNum) (ea : Ea),
    let add := fun (sz : Size) (v : BitVec sz.bits) (t : State) =>
      let d := low sz (s.getD dn)
      (t.putLow sz dn (d + v)).setCcr (addFlags v d (d + v))
    let sub := fun (sz : Size) (v : BitVec sz.bits) (t : State) =>
      let d := low sz (s.getD dn)
      (t.putLow sz dn (d - v)).setCcr (subFlags v d (d - v))
    let logic := fun (sz : Size) (f : BitVec sz.bits → BitVec sz.bits → BitVec sz.bits) (v : BitVec sz.bits) (t : State) =>
      let r := f v (low sz (s.getD dn))
      (t.putLow sz dn r).setCcr ⟨s.sr.ccr.x, r.msb, r == 0, false, false⟩
    (Reads (.addBEaDn dn ea) s 0 .b ea (add .b) ∧ Reads (.addWEaDn dn ea) s 0 .w ea (add .w) ∧
      Reads (.addLEaDn dn ea) s 0 .l ea (add .l)) ∧
    (Reads (.subBEaDn dn ea) s 0 .b ea (sub .b) ∧ Reads (.subWEaDn dn ea) s 0 .w ea (sub .w) ∧
      Reads (.subLEaDn dn ea) s 0 .l ea (sub .l)) ∧
    (Reads (.andBEaDn dn ea) s 0 .b ea (logic .b (· &&& ·)) ∧ Reads (.andWEaDn dn ea) s 0 .w ea (logic .w (· &&& ·)) ∧
      Reads (.andLEaDn dn ea) s 0 .l ea (logic .l (· &&& ·))) ∧
    (Reads (.orBEaDn dn ea) s 0 .b ea (logic .b (· ||| ·)) ∧ Reads (.orWEaDn dn ea) s 0 .w ea (logic .w (· ||| ·)) ∧
      Reads (.orLEaDn dn ea) s 0 .l ea (logic .l (· ||| ·)))

/-- `ADD`, `SUB`, `AND`, `OR` and `EOR` from a data register to an operand, at the three sizes (R200, R205, R241, R245, R248). -/
def Obligations.DataRegisterToOperand : Prop :=
  ∀ (s : State) (dn : RegNum) (ea : Ea),
    let add := fun (sz : Size) (d : BitVec sz.bits) (_ : Ccr) =>
      let v := low sz (s.getD dn)
      (d + v, addFlags v d (d + v))
    let sub := fun (sz : Size) (d : BitVec sz.bits) (_ : Ccr) =>
      let v := low sz (s.getD dn)
      (d - v, subFlags v d (d - v))
    let logic := fun (sz : Size) (f : BitVec sz.bits → BitVec sz.bits → BitVec sz.bits) (d : BitVec sz.bits) (c : Ccr) =>
      let r := f (low sz (s.getD dn)) d
      (r, (⟨c.x, r.msb, r == 0, false, false⟩ : Ccr))
    (Modifies (.addBDnEa dn ea) s 0 .b ea (add .b) ∧ Modifies (.addWDnEa dn ea) s 0 .w ea (add .w) ∧
      Modifies (.addLDnEa dn ea) s 0 .l ea (add .l)) ∧
    (Modifies (.subBDnEa dn ea) s 0 .b ea (sub .b) ∧ Modifies (.subWDnEa dn ea) s 0 .w ea (sub .w) ∧
      Modifies (.subLDnEa dn ea) s 0 .l ea (sub .l)) ∧
    (Modifies (.andBDnEa dn ea) s 0 .b ea (logic .b (· &&& ·)) ∧
      Modifies (.andWDnEa dn ea) s 0 .w ea (logic .w (· &&& ·)) ∧
      Modifies (.andLDnEa dn ea) s 0 .l ea (logic .l (· &&& ·))) ∧
    (Modifies (.orBDnEa dn ea) s 0 .b ea (logic .b (· ||| ·)) ∧
      Modifies (.orWDnEa dn ea) s 0 .w ea (logic .w (· ||| ·)) ∧
      Modifies (.orLDnEa dn ea) s 0 .l ea (logic .l (· ||| ·))) ∧
    (Modifies (.eorBDnEa dn ea) s 0 .b ea (logic .b (· ^^^ ·)) ∧
      Modifies (.eorWDnEa dn ea) s 0 .w ea (logic .w (· ^^^ ·)) ∧
      Modifies (.eorLDnEa dn ea) s 0 .l ea (logic .l (· ^^^ ·)))

/-- `ADDI`, `SUBI`, `ANDI`, `ORI` and `EORI` (R202, R207, R242, R246, R249), whose immediate comes before the operand's words, and
`ADDQ` and `SUBQ` (R203, R208), whose field 0 stands for 8: with an address register these change all 32 bits and no flag. -/
def Obligations.ConstantsToOperand : Prop :=
  ∀ (s : State) (sz : Size) (imm : Long) (q : BitVec 3) (n : RegNum) (ea : Ea),
    let add := fun (v d : BitVec sz.bits) (_ : Ccr) => (d + v, addFlags v d (d + v))
    let sub := fun (v d : BitVec sz.bits) (_ : Ccr) => (d - v, subFlags v d (d - v))
    let logic := fun (f : BitVec sz.bits → BitVec sz.bits → BitVec sz.bits) (d : BitVec sz.bits) (c : Ccr) =>
      let r := f (low sz imm) d
      (r, (⟨c.x, r.msb, r == 0, false, false⟩ : Ccr))
    let k : Nat := if q = 0 then 8 else q.toNat
    Modifies (.addi sz imm ea) s (immWords sz) sz ea (add (low sz imm)) ∧
    Modifies (.subi sz imm ea) s (immWords sz) sz ea (sub (low sz imm)) ∧
    Modifies (.andi sz imm ea) s (immWords sz) sz ea (logic (· &&& ·)) ∧
    Modifies (.ori sz imm ea) s (immWords sz) sz ea (logic (· ||| ·)) ∧
    Modifies (.eori sz imm ea) s (immWords sz) sz ea (logic (· ^^^ ·)) ∧
    exec (.addq q sz (.an n)) s = .next ((s.completed 0).putA n (s.getA n + BitVec.ofNat 32 k)) ∧
    exec (.subq q sz (.an n)) s = .next ((s.completed 0).putA n (s.getA n - BitVec.ofNat 32 k)) ∧
    ((∀ r, ea ≠ .an r) →
      Modifies (.addq q sz ea) s 0 sz ea (add (BitVec.ofNat sz.bits k)) ∧
      Modifies (.subq q sz ea) s 0 sz ea (sub (BitVec.ofNat sz.bits k)))

/-- `NEG`, `NEGX`, `NOT` and `TAS` (R210, R211, R250, R327): one operand, read and written; `NEGX` only ever clears `Z`, and the
flags of `TAS` describe the old byte. `CLR`, `Scc` and `MOVE SR,<ea>` (R221, R294, R320): what they write and which flags they set;
the read of R92 is made on a device operand, where each byte a device answers draws a value that is dropped (the model's choice,
log entry 27; where that read is not answered, `MisalignedAccessTakesError`). -/
def Obligations.OneOperandInstructions : Prop :=
  ∀ (s : State) (sz : Size) (cond : Cond) (ea : Ea),
    Modifies (.neg sz ea) s 0 sz ea (fun d _ => (0 - d, subFlags d 0 (0 - d))) ∧
    Modifies (.negx sz ea) s 0 sz ea (fun d f =>
      let r := 0 - d - carryIn sz.bits f.x
      (r, { subFlags d 0 r with z := if r = 0 then f.z else false })) ∧
    Modifies (.notEa sz ea) s 0 sz ea (fun d f => (~~~d, ⟨f.x, (~~~d).msb, ~~~d == 0, false, false⟩)) ∧
    Modifies (.tas ea) s 0 .b ea (fun d f => (d ||| 0x80, ⟨f.x, d.msb, d == 0, false, false⟩)) ∧
    Writes (.clr sz ea) s sz ea 0 ⟨s.sr.ccr.x, false, true, false, false⟩ ∧
    Writes (.scc cond ea) s .b ea (if condHolds cond s.sr.ccr then 0xFF else 0) s.sr.ccr ∧
    Writes (.moveFromSr ea) s .w ea s.sr.toWord s.sr.ccr

/-- `CMP`, `CMPA`, `CMPI`, `CMPM` and `TST` (R212 to R215, R251): only the flags change, and the side effect of the modes; `X` is
kept. `CMPM` takes its source, with the step of `Ay`, before its destination, with the step of `Ax` (its faults stand in
`MisalignedAccessTakesError`). -/
def Obligations.ComparesSetFlagsOnly : Prop :=
  ∀ (s : State) (r ry : RegNum) (sz : Size) (imm : Long) (ea : Ea),
    let cmp := fun (w : Nat) (v d : BitVec w) (t : State) => t.setCcr { subFlags v d (d - v) with x := s.sr.ccr.x }
    Reads (.cmpBEaDn r ea) s 0 .b ea (fun v t => cmp 8 v ((s.getD r).setWidth 8) t) ∧
    Reads (.cmpWEaDn r ea) s 0 .w ea (fun v t => cmp 16 v ((s.getD r).setWidth 16) t) ∧
    Reads (.cmpLEaDn r ea) s 0 .l ea (fun v t => cmp 32 v (s.getD r) t) ∧
    Reads (.cmpaW r ea) s 0 .w ea (fun v t => cmp 32 (v.signExtend 32) (t.getA r) t) ∧
    Reads (.cmpaL r ea) s 0 .l ea (fun v t => cmp 32 v (t.getA r) t) ∧
    Reads (.cmpi sz imm ea) s (immWords sz) sz ea (fun v t => cmp sz.bits (low sz imm) v t) ∧
    Reads (.tst sz ea) s 0 sz ea (fun v t => t.setCcr ⟨s.sr.ccr.x, v.msb, v == 0, false, false⟩) ∧
    (let t := eaTouch sz (.postinc ry) (s.completed 0)
     s.canRead sz (s.getA ry) → s.canRead sz (t.getA r) →
     exec (.cmpm r sz ry) s =
       .next (cmp sz.bits (s.mem.valueAt sz (s.getA ry)) (s.mem.valueAt sz (t.getA r)) (eaTouch sz (.postinc r) t)))

/-- `ADDX` and `SUBX` (R204, R209) in both forms: the carry takes part, `Z` is only ever cleared; in memory the source register is
decremented and read first. -/
def Obligations.ExtendedArithmetic : Prop :=
  ∀ (s : State) (rx ry : RegNum) (sz : Size) (i : RegNum → Size → PairForm → RegNum → Instr)
    (op : BitVec sz.bits → BitVec sz.bits → BitVec sz.bits) (fl : BitVec sz.bits → BitVec sz.bits → BitVec sz.bits → Ccr),
    let x := carryIn sz.bits s.sr.ccr.x
    (i = .addx ∧ op = (fun v d => d + v + x) ∧ fl = addFlags ∨ i = .subx ∧ op = (fun v d => d - v - x) ∧ fl = subFlags) →
    let out := fun (v d : BitVec sz.bits) => { fl v d (op v d) with z := if op v d = 0 then s.sr.ccr.z else false }
    (let v := low sz (s.getD ry)
     let d := low sz (s.getD rx)
     exec (i rx sz .regs ry) s = .next (((s.completed 0).putLow sz rx (op v d)).setCcr (out v d))) ∧
    (let t := eaTouch sz (.predec ry) (s.completed 0)
     let a := s.getA ry - stepSize ry sz
     let b := t.getA rx - stepSize rx sz
     let v := s.mem.valueAt sz a
     let d := s.mem.valueAt sz b
     s.canRead sz a → s.canRead sz b → s.canWrite sz b →
     ∃ m, exec (i rx sz .predec ry) s = .next (((eaTouch sz (.predec rx) t).setMem m).setCcr (out v d)) ∧
       Stored s.mem m sz b (op v d))

/-- `ABCD`, `SBCD` and `NBCD` (R230, R231, R232) in their forms: the decimal result of `bcdResult` at the destination, `N` and `V`
being free values. -/
def Obligations.DecimalInstructions : Prop :=
  ∀ (s : State) (rx ry : RegNum) (ea : Ea) (i : RegNum → PairForm → RegNum → Instr) (op : BcdOp),
    (i = .abcd ∧ op = .abcd ∨ i = .sbcd ∧ op = .sbcd) →
    (∃ n v, let o := bcdResult op ((s.getD ry).setWidth 8) ((s.getD rx).setWidth 8) s.sr.ccr n v
      exec (i rx .regs ry) s = .next (((s.completed 0).nextDraw.nextDraw.putLow .b rx o.1).setCcr o.2)) ∧
    (let t := eaTouch .b (.predec ry) (s.completed 0)
     let a := s.getA ry - stepSize ry .b
     let b := t.getA rx - stepSize rx .b
     s.canRead .b a → s.canRead .b b → s.canWrite .b b →
     ∃ n v m, let o := bcdResult op (s.mem.byteAt a) (s.mem.byteAt b) s.sr.ccr n v
       exec (i rx .predec ry) s = .next (((eaTouch .b (.predec rx) t).nextDraw.nextDraw.setMem m).setCcr o.2) ∧
         Stored s.mem m .b b o.1) ∧
    (s.extReady (eaWords .b ea) → LocReadable s .b (s.operand 0 .b ea) → LocWritable s .b (s.operand 0 .b ea) →
     ∃ n v t, let o := bcdResult .nbcd 0 (locValue s .b (s.operand 0 .b ea)) s.sr.ccr n v
       exec (.nbcd ea) s = .next (t.setCcr o.2) ∧
         LocWritten (eaTouch .b ea (s.completed (eaWords .b ea))).nextDraw.nextDraw .b (s.operand 0 .b ea) o.1 t)

/-- `MULU` and `MULS` (R216, R217): the product over all 32 bits, with its flags. -/
def Obligations.MultiplyInstructions : Prop :=
  ∀ (s : State) (dn : RegNum) (ea : Ea),
    let set := fun (r : Long) (t : State) => (t.putD dn r).setCcr ⟨s.sr.ccr.x, r.msb, r == 0, false, false⟩
    let d := (s.getD dn).setWidth 16
    Reads (.mulu dn ea) s 0 .w ea (fun v t => set (BitVec.ofNat 32 (v.toNat * d.toNat)) t) ∧
    Reads (.muls dn ea) s 0 .w ea (fun v t => set (BitVec.ofInt 32 (v.toInt * d.toInt)) t)

/-- `DIVU` and `DIVS` (R218, R219). By a divisor that is not zero: quotient and remainder with the flags of the quotient where it
fits; otherwise the register is unchanged, `V` set, `C` cleared, and `N` and `Z` free. By zero (R352): the entry through vector 5
with the next instruction's address, the register unchanged, `C` cleared, `X` kept, and `N`, `Z` and `V` free. -/
def Obligations.DivideInstructions : Prop :=
  ∀ (s : State) (dn : RegNum) (ea : Ea),
    let v : Word := locValue s .w (s.operand 0 .w ea)
    let t := eaTouch .w ea (s.completed (eaWords .w ea))
    let d := s.getD dn
    s.extReady (eaWords .w ea) → LocReadable s .w (s.operand 0 .w ea) →
    (v ≠ 0 →
      let q := BitVec.ofNat 16 (d.toNat / v.toNat)
      let r := BitVec.ofNat 16 (d.toNat % v.toNat)
      if d.toNat / v.toNat ≤ 0xFFFF then
        exec (.divu dn ea) s = .next ((t.putD dn (r ++ q)).setCcr ⟨s.sr.ccr.x, q.msb, q == 0, false, false⟩)
      else ∃ n z, exec (.divu dn ea) s = .next (t.nextDraw.nextDraw.setCcr ⟨s.sr.ccr.x, n, z, true, false⟩)) ∧
    (v ≠ 0 →
      let e := d.toInt.tdiv v.toInt
      let q := BitVec.ofInt 16 e
      let r := BitVec.ofInt 16 (d.toInt - e * v.toInt)
      if -32768 ≤ e ∧ e ≤ 32767 then
        exec (.divs dn ea) s = .next ((t.putD dn (r ++ q)).setCcr ⟨s.sr.ccr.x, q.msb, q == 0, false, false⟩)
      else ∃ n z, exec (.divs dn ea) s = .next (t.nextDraw.nextDraw.setCcr ⟨s.sr.ccr.x, n, z, true, false⟩)) ∧
    (v = 0 → t.entryReady 5 →
      ∀ i ∈ [Instr.divu dn ea, Instr.divs dn ea], ∃ n z o u, exec i s = .next u ∧
        Entered (t.nextDraw.nextDraw.nextDraw.setCcr ⟨s.sr.ccr.x, n, z, o, false⟩) 5 (s.afterWords (eaWords .w ea)) u)

/-! ### Shifts and bits -/

/-- The eight shifts and rotates (R260, R270): on a register, the count from the quick field or from a register modulo 64, the low
part replaced, and the flags; on memory, a word by one bit. -/
def Obligations.ShiftInstructions : Prop :=
  ∀ (s : State) (c : ShiftCount) (sz : Size) (dn : RegNum) (ea : Ea),
    let n : Nat := match c with
      | .quick q => if q = 0 then 8 else q.toNat
      | .reg m => (s.getD m).toNat % 64
    let shifted := fun (k : ShiftKind) =>
      let o := shiftResult k n (low sz (s.getD dn)) s.sr.ccr
      ((s.completed 0).putLow sz dn o.1).setCcr o.2
    exec (.aslReg c sz dn) s = .next (shifted .asl) ∧ exec (.asrReg c sz dn) s = .next (shifted .asr) ∧
    exec (.lslReg c sz dn) s = .next (shifted .lsl) ∧ exec (.lsrReg c sz dn) s = .next (shifted .lsr) ∧
    exec (.rolReg c sz dn) s = .next (shifted .rol) ∧ exec (.rorReg c sz dn) s = .next (shifted .ror) ∧
    exec (.roxlReg c sz dn) s = .next (shifted .roxl) ∧ exec (.roxrReg c sz dn) s = .next (shifted .roxr) ∧
    Modifies (.aslEa ea) s 0 .w ea (shiftResult .asl 1) ∧ Modifies (.asrEa ea) s 0 .w ea (shiftResult .asr 1) ∧
    Modifies (.lslEa ea) s 0 .w ea (shiftResult .lsl 1) ∧ Modifies (.lsrEa ea) s 0 .w ea (shiftResult .lsr 1) ∧
    Modifies (.rolEa ea) s 0 .w ea (shiftResult .rol 1) ∧ Modifies (.rorEa ea) s 0 .w ea (shiftResult .ror 1) ∧
    Modifies (.roxlEa ea) s 0 .w ea (shiftResult .roxl 1) ∧ Modifies (.roxrEa ea) s 0 .w ea (shiftResult .roxr 1)

/-- The bit instructions on a data register (R280 to R284): bit number modulo 32, 32 bits; `Z` is the inverse of the old bit and
no other flag changes. -/
def Obligations.BitInstructionsOnRegister : Prop :=
  ∀ (s : State) (dn n : RegNum) (b : Byte),
    let z := fun (i : Nat) => { s.sr.ccr with z := !(s.getD n).getLsbD i }
    let set := fun (v : Long) (i k : Nat) => ((s.completed k).putD n v).setCcr (z i)
    (let i := (s.getD dn).toNat % 32
     let bit := BitVec.twoPow 32 i
     exec (.btstDn dn (.dn n)) s = .next ((s.completed 0).setCcr (z i)) ∧
     exec (.bchgDn dn (.dn n)) s = .next (set (s.getD n ^^^ bit) i 0) ∧
     exec (.bclrDn dn (.dn n)) s = .next (set (s.getD n &&& ~~~bit) i 0) ∧
     exec (.bsetDn dn (.dn n)) s = .next (set (s.getD n ||| bit) i 0)) ∧
    (s.extReady 1 →
     let i := b.toNat % 32
     let bit := BitVec.twoPow 32 i
     exec (.btstImm b (.dn n)) s = .next ((s.completed 1).setCcr (z i)) ∧
     exec (.bchgImm b (.dn n)) s = .next (set (s.getD n ^^^ bit) i 1) ∧
     exec (.bclrImm b (.dn n)) s = .next (set (s.getD n &&& ~~~bit) i 1) ∧
     exec (.bsetImm b (.dn n)) s = .next (set (s.getD n ||| bit) i 1))

/-- The bit instructions on a byte of memory (R280 to R284): bit number modulo 8, one byte read, and written back but for `BTST`. -/
def Obligations.BitInstructionsOnMemory : Prop :=
  ∀ (s : State) (dn : RegNum) (b : Byte) (ea : Ea), ea.isMemory = true →
    let z := fun (i : Nat) (v : Byte) (f : Ccr) => { f with z := !v.getLsbD i }
    let bit := fun (i : Nat) => BitVec.twoPow 8 i
    (let i := (s.getD dn).toNat % 8
     Reads (.btstDn dn ea) s 0 .b ea (fun v t => t.setCcr (z i v s.sr.ccr)) ∧
     Modifies (.bchgDn dn ea) s 0 .b ea (fun v f => (v ^^^ bit i, z i v f)) ∧
     Modifies (.bclrDn dn ea) s 0 .b ea (fun v f => (v &&& ~~~bit i, z i v f)) ∧
     Modifies (.bsetDn dn ea) s 0 .b ea (fun v f => (v ||| bit i, z i v f))) ∧
    (let i := b.toNat % 8
     Reads (.btstImm b ea) s 1 .b ea (fun v t => t.setCcr (z i v s.sr.ccr)) ∧
     Modifies (.bchgImm b ea) s 1 .b ea (fun v f => (v ^^^ bit i, z i v f)) ∧
     Modifies (.bclrImm b ea) s 1 .b ea (fun v f => (v &&& ~~~bit i, z i v f)) ∧
     Modifies (.bsetImm b ea) s 1 .b ea (fun v f => (v ||| bit i, z i v f)))

/-! ### Program control -/

/-- `BRA`, `Bcc` and `DBcc` (R290 to R295): the target from the address of the operation word plus 2; `Bcc` goes on past its
displacement where the condition fails; `DBcc` counts the low word down where it fails, and goes on when the count passes
zero. -/
def Obligations.Branches : Prop :=
  ∀ (s : State) (cond : Cond) (d : BranchDisp) (dn : RegNum) (d16 : Word),
    let target := s.pc + 2 + match d with
      | .short d => d.signExtend 32
      | .word d => d.signExtend 32
    (s.extReady (branchWords d) →
      exec (.bra d) s = .next ((s.completed (branchWords d)).jumpTo target) ∧
      exec (.bcc cond d) s = .next (if condHolds cond s.sr.ccr then (s.completed (branchWords d)).jumpTo target
        else s.completed (branchWords d))) ∧
    (s.extReady 1 →
      let count := (s.getD dn).setWidth 16 - 1
      let counted := (s.completed 1).putD dn ((s.getD dn).extractLsb' 16 16 ++ count)
      exec (.dbcc cond dn d16) s = .next (if condHolds cond s.sr.ccr then s.completed 1
        else if count = 0xFFFF then counted else counted.jumpTo (s.pc + 2 + d16.signExtend 32)))

/-- `BSR`, `JSR` and `JMP` (R296, R297, R298): the address pushed is that of the next instruction, and the target is found before
the stack pointer moves. `RTS` and `RTR` (R301, R303): the address popped, after the flags for `RTR`, which ignores the upper bits
of the word. -/
def Obligations.CallsJumpsReturns : Prop :=
  ∀ (s : State) (d : BranchDisp) (ea : Ea) (a : Long),
    (s.extReady (branchWords d) → s.canWrite .l (s.sp - 4) →
      ∃ m, exec (.bsr d) s =
          .next ((((s.completed (branchWords d)).putSp (s.sp - 4)).setMem m).jumpTo (branchTarget (s.pc + 2) d)) ∧
        Stored s.mem m .l (s.sp - 4) (s.afterWords (branchWords d))) ∧
    (ea.isControl = true → s.target ea a → s.extReady (eaWords .l ea) →
      exec (.jmp ea) s = .next ((s.completed (eaWords .l ea)).jumpTo a) ∧
      (s.canWrite .l (s.sp - 4) →
        ∃ m, exec (.jsr ea) s = .next ((((s.completed (eaWords .l ea)).putSp (s.sp - 4)).setMem m).jumpTo a) ∧
          Stored s.mem m .l (s.sp - 4) (s.afterWords (eaWords .l ea)))) ∧
    (s.canRead .l s.sp → exec .rts s = .next (((s.completed 0).putSp (s.sp + 4)).jumpTo (s.mem.longAt s.sp))) ∧
    (s.canRead .w s.sp → s.canRead .l (s.sp + 2) →
      exec .rtr s = .next ((((s.completed 0).putSp (s.sp + 6)).jumpTo (s.mem.longAt (s.sp + 2))).setCcr
        (Ccr.ofByte ((s.mem.wordAt s.sp).setWidth 8))))


/-! ### System control -/

/-- The privileged instructions but `RTE` in supervisor mode. The writes of the status register (R311 to R314, R317): only the
implemented bits are kept; `STOP` also stops. `MOVE USP` (R315): with `A7` the other operand is `SSP`. `RESET` (R316) sends its
event and changes no register, flag or byte of memory. -/
def Obligations.SupervisorInstructions : Prop :=
  ∀ (s : State) (v : Word) (ea : Ea) (an : RegNum), s.sr.s = true →
    Reads (.moveToSr ea) s 0 .w ea (fun w t => t.setSr (StatusReg.ofWord w)) ∧
    (s.extReady 1 →
      exec (.andiToSr v) s = .next ((s.completed 1).setSr (StatusReg.ofWord (s.sr.toWord &&& v))) ∧
      exec (.oriToSr v) s = .next ((s.completed 1).setSr (StatusReg.ofWord (s.sr.toWord ||| v))) ∧
      exec (.eoriToSr v) s = .next ((s.completed 1).setSr (StatusReg.ofWord (s.sr.toWord ^^^ v))) ∧
      exec (.stop v) s = .next (((s.completed 1).setSr (StatusReg.ofWord v)).setRun .stopped)) ∧
    exec (.moveUspAn an) s = .next ((s.completed 0).putA an s.usp) ∧
    exec (.moveAnUsp an) s = .next ((s.completed 0).setUsp (if an = 7 then s.ssp else s.getA an)) ∧
    exec .reset s = .next (s.completed 0).pulse

/-- The writes of the condition codes (R319, R321, R322, R323), in both modes: the upper byte of the status register is
unchanged. -/
def Obligations.ConditionCodeWrites : Prop :=
  ∀ (s : State) (v : Byte) (ea : Ea),
    Reads (.moveToCcr ea) s 0 .w ea (fun w t => t.setCcr ⟨w.getLsbD 4, w.getLsbD 3, w.getLsbD 2, w.getLsbD 1, w.getLsbD 0⟩) ∧
    (s.extReady 1 →
      exec (.andiToCcr v) s = .next ((s.completed 1).setCcr (Ccr.ofByte (s.sr.ccr.toByte &&& v))) ∧
      exec (.oriToCcr v) s = .next ((s.completed 1).setCcr (Ccr.ofByte (s.sr.ccr.toByte ||| v))) ∧
      exec (.eoriToCcr v) s = .next ((s.completed 1).setCcr (Ccr.ofByte (s.sr.ccr.toByte ^^^ v))))

/-- `RTE` in supervisor mode (R318): status and `PC` from the frame, six bytes popped from `SSP` whatever mode returns. -/
def Obligations.RteRestoresFrame : Prop :=
  ∀ s : State, s.sr.s = true → s.canRead .w s.ssp → s.canRead .l (s.ssp + 2) →
    exec .rte s = .next ((((s.completed 0).setSsp (s.ssp + 6)).setSr (StatusReg.ofWord (s.mem.wordAt s.ssp))).jumpTo
      (s.mem.longAt (s.ssp + 2)))

/-- A system call and its return (R318, R324, R351, R359): after `TRAP #v`, `RTE` in the handler's first state gives back the
status, both stack pointers, every register, and the address after the `TRAP`. -/
def Obligations.RteUndoesTrap : Prop :=
  ∀ (s t u : State) (v : BitVec 4), s.entryReady (32 + v.toNat) → s.canRead .w (s.ssp - 6) → s.canRead .l (s.ssp - 4) →
    exec (.trap v) s = .next t → exec .rte t = .next u →
    t.sr.s = true ∧ u.sr = s.sr ∧ u.ssp = s.ssp ∧ u.usp = s.usp ∧ u.d = s.d ∧ u.a = s.a ∧ u.pc = s.pc + 2

/-- `NOP`, `TRAP` and `TRAPV` (R300, R324, R325), in every state: their words; `NOP`, and `TRAPV` with `V` clear, do nothing but
advance `pc`; `TRAP #v`, and `TRAPV` with `V` set, enter through vectors 32 plus `v` and 7 with the next instruction's address
saved. -/
def Obligations.NopAndTraps : Prop :=
  decode [0x4E71] = .ok (.nop, []) ∧ decode [0x4E76] = .ok (.trapv, []) ∧
  (∀ v : BitVec 4, decode [0x4E4#12 ++ v] = .ok (.trap v, [])) ∧
  ∀ (s : State) (v : BitVec 4),
    exec .nop s = .next (s.completed 0) ∧
    (s.entryReady (32 + v.toNat) →
      ∃ t, exec (.trap v) s = .next t ∧ Entered (s.completed 0) (32 + v.toNat) (s.pc + 2) t) ∧
    (s.sr.ccr.v = false → exec .trapv s = .next (s.completed 0)) ∧
    (s.sr.ccr.v = true → s.entryReady 7 → ∃ t, exec .trapv s = .next t ∧ Entered (s.completed 0) 7 (s.pc + 2) t)

/-- `CHK` (R326): inside the bounds the instruction completes and only flags change, `X` kept; outside them the entry through
vector 6 with `N` telling which bound, the next instruction's address saved. -/
def Obligations.ChkChecksBounds : Prop :=
  ∀ (s : State) (dn : RegNum) (ea : Ea),
    let bound : Word := locValue s .w (s.operand 0 .w ea)
    let v : Word := (s.getD dn).setWidth 16
    let u := (eaTouch .w ea (s.completed (eaWords .w ea))).nextDraw.nextDraw.nextDraw
    s.extReady (eaWords .w ea) → LocReadable s .w (s.operand 0 .w ea) →
    (0 ≤ v.toInt → v.toInt ≤ bound.toInt →
      ∃ f : Ccr, f.x = s.sr.ccr.x ∧ exec (.chk dn ea) s = .next (u.nextDraw.setCcr f)) ∧
    (v.toInt < 0 ∨ bound.toInt < v.toInt → u.entryReady 6 →
      ∃ (f : Ccr) (t : State), f.x = s.sr.ccr.x ∧ f.n = decide (v.toInt < 0) ∧ exec (.chk dn ea) s = .next t ∧
        Entered (u.setCcr f) 6 (s.afterWords (eaWords .w ea)) t)

/-- `ILLEGAL` and the words of lines A and F (R129, R130): their words, and the entries through vectors 4, 10 and 11, with the
address of the word itself saved and no flag changed; no trace follows. -/
def Obligations.UnimplementedWordsTrap : Prop :=
  decode [0x4AFC] = .ok (.illegal, []) ∧
  (∀ z : BitVec 12, decode [0xA#4 ++ z] = .ok (.lineA z, []) ∧ decode [0xF#4 ++ z] = .ok (.lineF z, [])) ∧
  ∀ (s : State) (z : BitVec 12) (i : Instr) (v : Nat),
    (i = .illegal ∧ v = 4 ∨ i = .lineA z ∧ v = 10 ∨ i = .lineF z ∧ v = 11) → s.entryReady v →
    ∃ t, exec i s = .next (t.setTraceDue false) ∧ Entered (s.completed 0) v s.pc t

/-- The privileged instructions in user mode (R310, R353, R380): each takes the privilege violation, vector 8, with its own
address saved, before it fetches a word, reads an operand or changes anything; no trace follows. -/
def Obligations.PrivilegedInstructionsTrap : Prop :=
  ∀ (s : State) (v : Word) (ea : Ea) (an : RegNum) (i : Instr), s.sr.s = false →
    i ∈ [.moveToSr ea, .andiToSr v, .oriToSr v, .eoriToSr v, .moveUspAn an, .moveAnUsp an, .reset, .stop v, .rte] →
    s.entryReady 8 →
    ∃ t, exec i s = .next (t.setTraceDue false) ∧ Entered (s.completed 0) 8 s.pc t

/-! ### Errors -/

/-- The frame of a bus or address error (R355): seven words on the supervisor stack, supervisor mode without trace, `pc` from
vector 2 or 3; the saved PC lies 2 to 10 bytes past the operation word of the instruction in progress, and the status word
tells read from write. That bit 3 is 0 here is read from the rule (log entry 13). -/
def Obligations.ErrorFrame : Prop :=
  ∀ (s : State) (ipc : Long) (f : MemFault), s.faultEntryReady f.error →
    let t := takeMemFault (some ipc) false f s
    t.ssp = s.ssp - 14 ∧ t.sr = { s.sr with s := true, t := false } ∧ t.run = s.run ∧ t.usp = s.usp ∧
    t.d = s.d ∧ t.a = s.a ∧ t.pc = t.mem.longAt (vectorAddr f.error.vector) ∧
    (∃ k ≤ 8, t.mem.longAt (s.ssp - 4) = ipc + 2 + BitVec.ofNat 32 k) ∧
    t.mem.wordAt (s.ssp - 6) = s.sr.toWord ∧ t.mem.wordAt (s.ssp - 8) = s.ir ∧
    t.mem.longAt (s.ssp - 12) = f.access.addr ∧
    (t.mem.wordAt (s.ssp - 14)).getLsbD 4 = !f.access.write ∧ (t.mem.wordAt (s.ssp - 14)).getLsbD 3 = false ∧
    (t.mem.wordAt (s.ssp - 14)).getLsbD 2 = s.sr.s ∧
    ∀ p, ¬ spans (s.ssp - 14) 14 p → t.mem.read p = s.mem.read p

/-- An access that fails (R76, R77, R80, R91, R344, R355). A word or long access at an odd address raises an address error with
that address; an aligned one to an address the platform does not answer raises a bus error with the address of the access, and
moves no byte, but that of a long write one half may have been answered before the other failed. In a step: the fetch of an
operation word at an odd `PC`, then one that is not answered. Inside an instruction, shown on a read by `TST` and a write by
`Scc`, the side effect of the mode stands, the error is taken and no trace follows; so it is for the read that `CLR`, `Scc` and
`MOVE SR` make of a device they write to, where the device takes writes and answers no read (R92). `CMPM` has stepped the
register of the read that fails.

The model's choices among these, where the spec is silent or leaves several: that a word cycle of which the platform answers one
byte only fails whole, for an access and for a fetch (log entry 37); the address a bus error reports (15) and the halves of a long
write (16); what the frame of a failed fetch of an operation word saves as `PC`, status word and instruction word (12, 13, 6);
the reads of R92 (27); that the flags of `CLR` may have been written before its access fails (14); and that the
step of `CMPM` stands where its read fails (35). -/
def Obligations.MisalignedAccessTakesError : Prop :=
  let failed := fun (s : State) (e : MemError) (a : Long) (write : Bool) (space : Space) (t : State) =>
    (takeMemFault (some s.pc) false ⟨e, ⟨a, write, space⟩⟩ t).setTraceDue false
  let unread := fun (s : State) (sz : Size) (a : Long) =>
    aligned sz a = true ∧ s.readsDevice sz a = false ∧
      ∃ k < sz.bytes, s.readAnswer (physAddr (a + BitVec.ofNat 32 k)) = .busError
  (∀ (s : State) (sz : Size) (lowFirst : Bool) (space : Space) (a : Long) (v : BitVec sz.bits),
    (sz ≠ .b → a.getLsbD 0 = true →
      memRead sz space a s = .error (.mem ⟨.address, ⟨a, false, space⟩⟩) s ∧
      memWrite sz lowFirst a v s = .error (.mem ⟨.address, ⟨a, true, .data⟩⟩) s) ∧
    (unread s sz a → memRead sz space a s = .error (.mem ⟨.bus, ⟨a, false, space⟩⟩) s) ∧
    (aligned sz a = true → (∃ k < sz.bytes, s.writeAnswer (physAddr (a + BitVec.ofNat 32 k)) = .busError) →
      ∃ m, memWrite sz lowFirst a v s = .error (.mem ⟨.bus, ⟨a, true, .data⟩⟩) (s.setMem m) ∧
        (sz ≠ .l ∨ (∀ k < sz.bytes, s.writeAnswer (physAddr (a + BitVec.ofNat 32 k)) = .busError) → m = s.mem) ∧
        ∀ p, ¬ spans a sz.bytes p → m.read p = s.mem.read p)) ∧
  (∀ s : State, s.resetLine = false → s.run = .running →
    let faulted := fun (e : MemError) =>
      interruptStage ((takeMemFault none false ⟨e, ⟨s.pc, false, .program⟩⟩ s).setTraceDue false)
    if s.pc.getLsbD 0 then step s = .next (faulted .address)
    else s.readAnswer (physAddr s.pc) = .busError ∨ s.readAnswer (physAddr (s.pc + 1)) = .busError →
      step s = .next (faulted .bus)) ∧
  (∀ (s : State) (sz : Size) (ea : Ea) (a : Long) (space : Space) (lf : Bool), s.extReady (eaWords sz ea) →
    s.operand 0 sz ea = .mem a space lf →
    (sz ≠ .b → a.getLsbD 0 = true →
      exec (.tst sz ea) s = .next (failed s .address a false space (eaTouch sz ea (s.completed (eaWords sz ea))))) ∧
    (unread s sz a →
      exec (.tst sz ea) s = .next (failed s .bus a false space (eaTouch sz ea (s.completed (eaWords sz ea)))))) ∧
  (∀ (s : State) (cond : Cond) (ea : Ea) (a : Long) (space : Space) (lf : Bool), s.extReady (eaWords .b ea) →
    s.operand 0 .b ea = .mem a space lf → s.writeAnswer (physAddr a) = .busError →
    exec (.scc cond ea) s = .next (failed s .bus a true .data
      ((eaTouch .b ea (s.completed (eaWords .b ea))).afterUnlistedRead .b (s.operand 0 .b ea)))) ∧
  (∀ (s : State) (cond : Cond) (sz : Size) (ea : Ea) (i : Instr) (a : Long) (space : Space) (lf : Bool),
    s.extReady (eaWords sz ea) → s.operand 0 sz ea = .mem a space lf → unread s sz a → s.reachesDevice sz a = true →
    let t := eaTouch sz ea (s.completed (eaWords sz ea))
    (i = .scc cond ea ∧ sz = .b ∨ i = .moveFromSr ea ∧ sz = .w → exec i s = .next (failed s .bus a false space t)) ∧
    ∃ u ∈ [t.nextDraw, t.nextDraw.setCcr ⟨s.sr.ccr.x, false, true, false, false⟩],
      exec (.clr sz ea) s = .next (failed s .bus a false space u)) ∧
  ∀ (s : State) (rx ry : RegNum) (sz : Size),
    let a := s.getA ry
    let t := eaTouch sz (.postinc ry) (s.completed 0)
    let b := t.getA rx
    let u := eaTouch sz (.postinc rx) t
    (sz ≠ .b → a.getLsbD 0 = true → exec (.cmpm rx sz ry) s = .next (failed s .address a false .data t)) ∧
    (unread s sz a → exec (.cmpm rx sz ry) s = .next (failed s .bus a false .data t)) ∧
    (s.canRead sz a → (sz ≠ .b → b.getLsbD 0 = true → exec (.cmpm rx sz ry) s = .next (failed s .address b false .data u)) ∧
      (unread s sz b → exec (.cmpm rx sz ry) s = .next (failed s .bus b false .data u)))

/-- A double fault (R358): an error whose frame cannot be pushed, because the supervisor stack pointer is odd, halts the
processor with nothing written to memory. -/
def Obligations.DoubleFaultHalts : Prop :=
  ∀ (s : State) (ipc : Option Long) (inEntry : Bool) (f : MemFault), s.ssp.getLsbD 0 = true →
    (takeMemFault ipc inEntry f s).run = .halted ∧ (takeMemFault ipc inEntry f s).mem = s.mem

/-! ### The whole machine -/

/-- The invariant that every step keeps, about the model's own fields (log entries 1, 8, 19): memory stays in canonical form, no
trace is left over, and only words of the prefetch window are held stale. -/
def Obligations.StepKeepsInvariant : Prop := ∀ s t : State, Inv s → step s = .next t → Inv t

/-- User mode is contained (R34, R41, R380): a step from user mode either ends in supervisor mode, or leaves the supervisor
stack pointer, the trace bit, the interrupt mask and the run state as they were, and sends no pulse to the devices (the count of them
is the model's own, log entry 25). -/
def Obligations.UserModeIsContained : Prop :=
  ∀ s t : State, s.sr.s = false → step s = .next t → t.sr.s = false →
    t.ssp = s.ssp ∧ t.sr.t = s.sr.t ∧ t.sr.i = s.sr.i ∧ t.run = s.run ∧ t.resetPulses = s.resetPulses

/-- The platform's inputs belong to the platform: no step changes the memory map, the request level, the acknowledge answers or
the reset line (R6, R44, R46; the fields are the model's form of these inputs, log entries 2 and 28). -/
def Obligations.PlatformInputsUnchanged : Prop :=
  ∀ s t : State, step s = .next t →
    t.memMap = s.memMap ∧ t.ipl = s.ipl ∧ t.intAck = s.intAck ∧ t.resetLine = s.resetLine

/-- No state is stuck: a step never ends in the model's own fault (log entry 30), and its only refusal is the `UNLK A7` to which the spec gives no meaning
(R190, U9). -/
def Obligations.StepAlwaysAnswers : Prop :=
  ∀ s : State, (∃ t, step s = .next t) ∨ step s = .refused .unlkStackPointer
end

