-- ==== Sys2Proof/Laws/State.lean ====
section
/-! SUPPORT. One lemma per field and update, so that no proof unfolds a record update; then the registers read back. -/

namespace Sys2Proof.Machine

variable (s : State)

/-! ### `setPc` -/

@[simp] theorem State.setPc_d (v : Long) : (s.setPc v).d = s.d := rfl
@[simp] theorem State.setPc_a (v : Long) : (s.setPc v).a = s.a := rfl
@[simp] theorem State.setPc_usp (v : Long) : (s.setPc v).usp = s.usp := rfl
@[simp] theorem State.setPc_ssp (v : Long) : (s.setPc v).ssp = s.ssp := rfl
@[simp] theorem State.setPc_pc (v : Long) : (s.setPc v).pc = v := rfl
@[simp] theorem State.setPc_sr (v : Long) : (s.setPc v).sr = s.sr := rfl
@[simp] theorem State.setPc_ir (v : Long) : (s.setPc v).ir = s.ir := rfl
@[simp] theorem State.setPc_run (v : Long) : (s.setPc v).run = s.run := rfl
@[simp] theorem State.setPc_mem (v : Long) : (s.setPc v).mem = s.mem := rfl
@[simp] theorem State.setPc_stale (v : Long) : (s.setPc v).stale = s.stale := rfl
@[simp] theorem State.setPc_memMap (v : Long) : (s.setPc v).memMap = s.memMap := rfl
@[simp] theorem State.setPc_resetLine (v : Long) : (s.setPc v).resetLine = s.resetLine := rfl
@[simp] theorem State.setPc_ipl (v : Long) : (s.setPc v).ipl = s.ipl := rfl
@[simp] theorem State.setPc_prevIpl (v : Long) : (s.setPc v).prevIpl = s.prevIpl := rfl
@[simp] theorem State.setPc_intAck (v : Long) : (s.setPc v).intAck = s.intAck := rfl
@[simp] theorem State.setPc_resetPulses (v : Long) : (s.setPc v).resetPulses = s.resetPulses := rfl
@[simp] theorem State.setPc_refilled (v : Long) : (s.setPc v).refilled = s.refilled := rfl
@[simp] theorem State.setPc_traceDue (v : Long) : (s.setPc v).traceDue = s.traceDue := rfl
@[simp] theorem State.setPc_draws (v : Long) : (s.setPc v).draws = s.draws := rfl

/-! ### `setSr` -/

@[simp] theorem State.setSr_d (v : StatusReg) : (s.setSr v).d = s.d := rfl
@[simp] theorem State.setSr_a (v : StatusReg) : (s.setSr v).a = s.a := rfl
@[simp] theorem State.setSr_usp (v : StatusReg) : (s.setSr v).usp = s.usp := rfl
@[simp] theorem State.setSr_ssp (v : StatusReg) : (s.setSr v).ssp = s.ssp := rfl
@[simp] theorem State.setSr_pc (v : StatusReg) : (s.setSr v).pc = s.pc := rfl
@[simp] theorem State.setSr_sr (v : StatusReg) : (s.setSr v).sr = v := rfl
@[simp] theorem State.setSr_ir (v : StatusReg) : (s.setSr v).ir = s.ir := rfl
@[simp] theorem State.setSr_run (v : StatusReg) : (s.setSr v).run = s.run := rfl
@[simp] theorem State.setSr_mem (v : StatusReg) : (s.setSr v).mem = s.mem := rfl
@[simp] theorem State.setSr_stale (v : StatusReg) : (s.setSr v).stale = s.stale := rfl
@[simp] theorem State.setSr_memMap (v : StatusReg) : (s.setSr v).memMap = s.memMap := rfl
@[simp] theorem State.setSr_resetLine (v : StatusReg) : (s.setSr v).resetLine = s.resetLine := rfl
@[simp] theorem State.setSr_ipl (v : StatusReg) : (s.setSr v).ipl = s.ipl := rfl
@[simp] theorem State.setSr_prevIpl (v : StatusReg) : (s.setSr v).prevIpl = s.prevIpl := rfl
@[simp] theorem State.setSr_intAck (v : StatusReg) : (s.setSr v).intAck = s.intAck := rfl
@[simp] theorem State.setSr_resetPulses (v : StatusReg) : (s.setSr v).resetPulses = s.resetPulses := rfl
@[simp] theorem State.setSr_refilled (v : StatusReg) : (s.setSr v).refilled = s.refilled := rfl
@[simp] theorem State.setSr_traceDue (v : StatusReg) : (s.setSr v).traceDue = s.traceDue := rfl
@[simp] theorem State.setSr_draws (v : StatusReg) : (s.setSr v).draws = s.draws := rfl

/-! ### `setCcr` -/

@[simp] theorem State.setCcr_d (f : Ccr) : (s.setCcr f).d = s.d := rfl
@[simp] theorem State.setCcr_a (f : Ccr) : (s.setCcr f).a = s.a := rfl
@[simp] theorem State.setCcr_usp (f : Ccr) : (s.setCcr f).usp = s.usp := rfl
@[simp] theorem State.setCcr_ssp (f : Ccr) : (s.setCcr f).ssp = s.ssp := rfl
@[simp] theorem State.setCcr_pc (f : Ccr) : (s.setCcr f).pc = s.pc := rfl
@[simp] theorem State.setCcr_sr (f : Ccr) : (s.setCcr f).sr = { s.sr with ccr := f } := rfl
@[simp] theorem State.setCcr_ir (f : Ccr) : (s.setCcr f).ir = s.ir := rfl
@[simp] theorem State.setCcr_run (f : Ccr) : (s.setCcr f).run = s.run := rfl
@[simp] theorem State.setCcr_mem (f : Ccr) : (s.setCcr f).mem = s.mem := rfl
@[simp] theorem State.setCcr_stale (f : Ccr) : (s.setCcr f).stale = s.stale := rfl
@[simp] theorem State.setCcr_memMap (f : Ccr) : (s.setCcr f).memMap = s.memMap := rfl
@[simp] theorem State.setCcr_resetLine (f : Ccr) : (s.setCcr f).resetLine = s.resetLine := rfl
@[simp] theorem State.setCcr_ipl (f : Ccr) : (s.setCcr f).ipl = s.ipl := rfl
@[simp] theorem State.setCcr_prevIpl (f : Ccr) : (s.setCcr f).prevIpl = s.prevIpl := rfl
@[simp] theorem State.setCcr_intAck (f : Ccr) : (s.setCcr f).intAck = s.intAck := rfl
@[simp] theorem State.setCcr_resetPulses (f : Ccr) : (s.setCcr f).resetPulses = s.resetPulses := rfl
@[simp] theorem State.setCcr_refilled (f : Ccr) : (s.setCcr f).refilled = s.refilled := rfl
@[simp] theorem State.setCcr_traceDue (f : Ccr) : (s.setCcr f).traceDue = s.traceDue := rfl
@[simp] theorem State.setCcr_draws (f : Ccr) : (s.setCcr f).draws = s.draws := rfl

/-! ### `setUsp` -/

@[simp] theorem State.setUsp_d (v : Long) : (s.setUsp v).d = s.d := rfl
@[simp] theorem State.setUsp_a (v : Long) : (s.setUsp v).a = s.a := rfl
@[simp] theorem State.setUsp_usp (v : Long) : (s.setUsp v).usp = v := rfl
@[simp] theorem State.setUsp_ssp (v : Long) : (s.setUsp v).ssp = s.ssp := rfl
@[simp] theorem State.setUsp_pc (v : Long) : (s.setUsp v).pc = s.pc := rfl
@[simp] theorem State.setUsp_sr (v : Long) : (s.setUsp v).sr = s.sr := rfl
@[simp] theorem State.setUsp_ir (v : Long) : (s.setUsp v).ir = s.ir := rfl
@[simp] theorem State.setUsp_run (v : Long) : (s.setUsp v).run = s.run := rfl
@[simp] theorem State.setUsp_mem (v : Long) : (s.setUsp v).mem = s.mem := rfl
@[simp] theorem State.setUsp_stale (v : Long) : (s.setUsp v).stale = s.stale := rfl
@[simp] theorem State.setUsp_memMap (v : Long) : (s.setUsp v).memMap = s.memMap := rfl
@[simp] theorem State.setUsp_resetLine (v : Long) : (s.setUsp v).resetLine = s.resetLine := rfl
@[simp] theorem State.setUsp_ipl (v : Long) : (s.setUsp v).ipl = s.ipl := rfl
@[simp] theorem State.setUsp_prevIpl (v : Long) : (s.setUsp v).prevIpl = s.prevIpl := rfl
@[simp] theorem State.setUsp_intAck (v : Long) : (s.setUsp v).intAck = s.intAck := rfl
@[simp] theorem State.setUsp_resetPulses (v : Long) : (s.setUsp v).resetPulses = s.resetPulses := rfl
@[simp] theorem State.setUsp_refilled (v : Long) : (s.setUsp v).refilled = s.refilled := rfl
@[simp] theorem State.setUsp_traceDue (v : Long) : (s.setUsp v).traceDue = s.traceDue := rfl
@[simp] theorem State.setUsp_draws (v : Long) : (s.setUsp v).draws = s.draws := rfl

/-! ### `setSsp` -/

@[simp] theorem State.setSsp_d (v : Long) : (s.setSsp v).d = s.d := rfl
@[simp] theorem State.setSsp_a (v : Long) : (s.setSsp v).a = s.a := rfl
@[simp] theorem State.setSsp_usp (v : Long) : (s.setSsp v).usp = s.usp := rfl
@[simp] theorem State.setSsp_ssp (v : Long) : (s.setSsp v).ssp = v := rfl
@[simp] theorem State.setSsp_pc (v : Long) : (s.setSsp v).pc = s.pc := rfl
@[simp] theorem State.setSsp_sr (v : Long) : (s.setSsp v).sr = s.sr := rfl
@[simp] theorem State.setSsp_ir (v : Long) : (s.setSsp v).ir = s.ir := rfl
@[simp] theorem State.setSsp_run (v : Long) : (s.setSsp v).run = s.run := rfl
@[simp] theorem State.setSsp_mem (v : Long) : (s.setSsp v).mem = s.mem := rfl
@[simp] theorem State.setSsp_stale (v : Long) : (s.setSsp v).stale = s.stale := rfl
@[simp] theorem State.setSsp_memMap (v : Long) : (s.setSsp v).memMap = s.memMap := rfl
@[simp] theorem State.setSsp_resetLine (v : Long) : (s.setSsp v).resetLine = s.resetLine := rfl
@[simp] theorem State.setSsp_ipl (v : Long) : (s.setSsp v).ipl = s.ipl := rfl
@[simp] theorem State.setSsp_prevIpl (v : Long) : (s.setSsp v).prevIpl = s.prevIpl := rfl
@[simp] theorem State.setSsp_intAck (v : Long) : (s.setSsp v).intAck = s.intAck := rfl
@[simp] theorem State.setSsp_resetPulses (v : Long) : (s.setSsp v).resetPulses = s.resetPulses := rfl
@[simp] theorem State.setSsp_refilled (v : Long) : (s.setSsp v).refilled = s.refilled := rfl
@[simp] theorem State.setSsp_traceDue (v : Long) : (s.setSsp v).traceDue = s.traceDue := rfl
@[simp] theorem State.setSsp_draws (v : Long) : (s.setSsp v).draws = s.draws := rfl

/-! ### `pulse` -/

@[simp] theorem State.pulse_d : (s.pulse).d = s.d := rfl
@[simp] theorem State.pulse_a : (s.pulse).a = s.a := rfl
@[simp] theorem State.pulse_usp : (s.pulse).usp = s.usp := rfl
@[simp] theorem State.pulse_ssp : (s.pulse).ssp = s.ssp := rfl
@[simp] theorem State.pulse_pc : (s.pulse).pc = s.pc := rfl
@[simp] theorem State.pulse_sr : (s.pulse).sr = s.sr := rfl
@[simp] theorem State.pulse_ir : (s.pulse).ir = s.ir := rfl
@[simp] theorem State.pulse_run : (s.pulse).run = s.run := rfl
@[simp] theorem State.pulse_mem : (s.pulse).mem = s.mem := rfl
@[simp] theorem State.pulse_stale : (s.pulse).stale = s.stale := rfl
@[simp] theorem State.pulse_memMap : (s.pulse).memMap = s.memMap := rfl
@[simp] theorem State.pulse_resetLine : (s.pulse).resetLine = s.resetLine := rfl
@[simp] theorem State.pulse_ipl : (s.pulse).ipl = s.ipl := rfl
@[simp] theorem State.pulse_prevIpl : (s.pulse).prevIpl = s.prevIpl := rfl
@[simp] theorem State.pulse_intAck : (s.pulse).intAck = s.intAck := rfl
@[simp] theorem State.pulse_resetPulses : (s.pulse).resetPulses = s.resetPulses + 1 := rfl
@[simp] theorem State.pulse_refilled : (s.pulse).refilled = s.refilled := rfl
@[simp] theorem State.pulse_traceDue : (s.pulse).traceDue = s.traceDue := rfl
@[simp] theorem State.pulse_draws : (s.pulse).draws = s.draws := rfl

/-! ### `setRun` -/

@[simp] theorem State.setRun_d (r : RunState) : (s.setRun r).d = s.d := rfl
@[simp] theorem State.setRun_a (r : RunState) : (s.setRun r).a = s.a := rfl
@[simp] theorem State.setRun_usp (r : RunState) : (s.setRun r).usp = s.usp := rfl
@[simp] theorem State.setRun_ssp (r : RunState) : (s.setRun r).ssp = s.ssp := rfl
@[simp] theorem State.setRun_pc (r : RunState) : (s.setRun r).pc = s.pc := rfl
@[simp] theorem State.setRun_sr (r : RunState) : (s.setRun r).sr = s.sr := rfl
@[simp] theorem State.setRun_ir (r : RunState) : (s.setRun r).ir = s.ir := rfl
@[simp] theorem State.setRun_run (r : RunState) : (s.setRun r).run = r := rfl
@[simp] theorem State.setRun_mem (r : RunState) : (s.setRun r).mem = s.mem := rfl
@[simp] theorem State.setRun_stale (r : RunState) : (s.setRun r).stale = s.stale := rfl
@[simp] theorem State.setRun_memMap (r : RunState) : (s.setRun r).memMap = s.memMap := rfl
@[simp] theorem State.setRun_resetLine (r : RunState) : (s.setRun r).resetLine = s.resetLine := rfl
@[simp] theorem State.setRun_ipl (r : RunState) : (s.setRun r).ipl = s.ipl := rfl
@[simp] theorem State.setRun_prevIpl (r : RunState) : (s.setRun r).prevIpl = s.prevIpl := rfl
@[simp] theorem State.setRun_intAck (r : RunState) : (s.setRun r).intAck = s.intAck := rfl
@[simp] theorem State.setRun_resetPulses (r : RunState) : (s.setRun r).resetPulses = s.resetPulses := rfl
@[simp] theorem State.setRun_refilled (r : RunState) : (s.setRun r).refilled = s.refilled := rfl
@[simp] theorem State.setRun_traceDue (r : RunState) : (s.setRun r).traceDue = s.traceDue := rfl
@[simp] theorem State.setRun_draws (r : RunState) : (s.setRun r).draws = s.draws := rfl

/-! ### `setMem` -/

@[simp] theorem State.setMem_d (m : Memory) : (s.setMem m).d = s.d := rfl
@[simp] theorem State.setMem_a (m : Memory) : (s.setMem m).a = s.a := rfl
@[simp] theorem State.setMem_usp (m : Memory) : (s.setMem m).usp = s.usp := rfl
@[simp] theorem State.setMem_ssp (m : Memory) : (s.setMem m).ssp = s.ssp := rfl
@[simp] theorem State.setMem_pc (m : Memory) : (s.setMem m).pc = s.pc := rfl
@[simp] theorem State.setMem_sr (m : Memory) : (s.setMem m).sr = s.sr := rfl
@[simp] theorem State.setMem_ir (m : Memory) : (s.setMem m).ir = s.ir := rfl
@[simp] theorem State.setMem_run (m : Memory) : (s.setMem m).run = s.run := rfl
@[simp] theorem State.setMem_mem (m : Memory) : (s.setMem m).mem = m := rfl
@[simp] theorem State.setMem_stale (m : Memory) : (s.setMem m).stale = s.stale := rfl
@[simp] theorem State.setMem_memMap (m : Memory) : (s.setMem m).memMap = s.memMap := rfl
@[simp] theorem State.setMem_resetLine (m : Memory) : (s.setMem m).resetLine = s.resetLine := rfl
@[simp] theorem State.setMem_ipl (m : Memory) : (s.setMem m).ipl = s.ipl := rfl
@[simp] theorem State.setMem_prevIpl (m : Memory) : (s.setMem m).prevIpl = s.prevIpl := rfl
@[simp] theorem State.setMem_intAck (m : Memory) : (s.setMem m).intAck = s.intAck := rfl
@[simp] theorem State.setMem_resetPulses (m : Memory) : (s.setMem m).resetPulses = s.resetPulses := rfl
@[simp] theorem State.setMem_refilled (m : Memory) : (s.setMem m).refilled = s.refilled := rfl
@[simp] theorem State.setMem_traceDue (m : Memory) : (s.setMem m).traceDue = s.traceDue := rfl
@[simp] theorem State.setMem_draws (m : Memory) : (s.setMem m).draws = s.draws := rfl

/-! ### `setIr` -/

@[simp] theorem State.setIr_d (w : Word) : (s.setIr w).d = s.d := rfl
@[simp] theorem State.setIr_a (w : Word) : (s.setIr w).a = s.a := rfl
@[simp] theorem State.setIr_usp (w : Word) : (s.setIr w).usp = s.usp := rfl
@[simp] theorem State.setIr_ssp (w : Word) : (s.setIr w).ssp = s.ssp := rfl
@[simp] theorem State.setIr_pc (w : Word) : (s.setIr w).pc = s.pc := rfl
@[simp] theorem State.setIr_sr (w : Word) : (s.setIr w).sr = s.sr := rfl
@[simp] theorem State.setIr_ir (w : Word) : (s.setIr w).ir = w := rfl
@[simp] theorem State.setIr_run (w : Word) : (s.setIr w).run = s.run := rfl
@[simp] theorem State.setIr_mem (w : Word) : (s.setIr w).mem = s.mem := rfl
@[simp] theorem State.setIr_stale (w : Word) : (s.setIr w).stale = s.stale := rfl
@[simp] theorem State.setIr_memMap (w : Word) : (s.setIr w).memMap = s.memMap := rfl
@[simp] theorem State.setIr_resetLine (w : Word) : (s.setIr w).resetLine = s.resetLine := rfl
@[simp] theorem State.setIr_ipl (w : Word) : (s.setIr w).ipl = s.ipl := rfl
@[simp] theorem State.setIr_prevIpl (w : Word) : (s.setIr w).prevIpl = s.prevIpl := rfl
@[simp] theorem State.setIr_intAck (w : Word) : (s.setIr w).intAck = s.intAck := rfl
@[simp] theorem State.setIr_resetPulses (w : Word) : (s.setIr w).resetPulses = s.resetPulses := rfl
@[simp] theorem State.setIr_refilled (w : Word) : (s.setIr w).refilled = s.refilled := rfl
@[simp] theorem State.setIr_traceDue (w : Word) : (s.setIr w).traceDue = s.traceDue := rfl
@[simp] theorem State.setIr_draws (w : Word) : (s.setIr w).draws = s.draws := rfl

/-! ### `setTraceDue` -/

@[simp] theorem State.setTraceDue_d (b : Bool) : (s.setTraceDue b).d = s.d := rfl
@[simp] theorem State.setTraceDue_a (b : Bool) : (s.setTraceDue b).a = s.a := rfl
@[simp] theorem State.setTraceDue_usp (b : Bool) : (s.setTraceDue b).usp = s.usp := rfl
@[simp] theorem State.setTraceDue_ssp (b : Bool) : (s.setTraceDue b).ssp = s.ssp := rfl
@[simp] theorem State.setTraceDue_pc (b : Bool) : (s.setTraceDue b).pc = s.pc := rfl
@[simp] theorem State.setTraceDue_sr (b : Bool) : (s.setTraceDue b).sr = s.sr := rfl
@[simp] theorem State.setTraceDue_ir (b : Bool) : (s.setTraceDue b).ir = s.ir := rfl
@[simp] theorem State.setTraceDue_run (b : Bool) : (s.setTraceDue b).run = s.run := rfl
@[simp] theorem State.setTraceDue_mem (b : Bool) : (s.setTraceDue b).mem = s.mem := rfl
@[simp] theorem State.setTraceDue_stale (b : Bool) : (s.setTraceDue b).stale = s.stale := rfl
@[simp] theorem State.setTraceDue_memMap (b : Bool) : (s.setTraceDue b).memMap = s.memMap := rfl
@[simp] theorem State.setTraceDue_resetLine (b : Bool) : (s.setTraceDue b).resetLine = s.resetLine := rfl
@[simp] theorem State.setTraceDue_ipl (b : Bool) : (s.setTraceDue b).ipl = s.ipl := rfl
@[simp] theorem State.setTraceDue_prevIpl (b : Bool) : (s.setTraceDue b).prevIpl = s.prevIpl := rfl
@[simp] theorem State.setTraceDue_intAck (b : Bool) : (s.setTraceDue b).intAck = s.intAck := rfl
@[simp] theorem State.setTraceDue_resetPulses (b : Bool) : (s.setTraceDue b).resetPulses = s.resetPulses := rfl
@[simp] theorem State.setTraceDue_refilled (b : Bool) : (s.setTraceDue b).refilled = s.refilled := rfl
@[simp] theorem State.setTraceDue_traceDue (b : Bool) : (s.setTraceDue b).traceDue = b := rfl
@[simp] theorem State.setTraceDue_draws (b : Bool) : (s.setTraceDue b).draws = s.draws := rfl

/-! ### `setStale` -/

@[simp] theorem State.setStale_d (l : List (Nat × Word)) : (s.setStale l).d = s.d := rfl
@[simp] theorem State.setStale_a (l : List (Nat × Word)) : (s.setStale l).a = s.a := rfl
@[simp] theorem State.setStale_usp (l : List (Nat × Word)) : (s.setStale l).usp = s.usp := rfl
@[simp] theorem State.setStale_ssp (l : List (Nat × Word)) : (s.setStale l).ssp = s.ssp := rfl
@[simp] theorem State.setStale_pc (l : List (Nat × Word)) : (s.setStale l).pc = s.pc := rfl
@[simp] theorem State.setStale_sr (l : List (Nat × Word)) : (s.setStale l).sr = s.sr := rfl
@[simp] theorem State.setStale_ir (l : List (Nat × Word)) : (s.setStale l).ir = s.ir := rfl
@[simp] theorem State.setStale_run (l : List (Nat × Word)) : (s.setStale l).run = s.run := rfl
@[simp] theorem State.setStale_mem (l : List (Nat × Word)) : (s.setStale l).mem = s.mem := rfl
@[simp] theorem State.setStale_stale (l : List (Nat × Word)) : (s.setStale l).stale = l := rfl
@[simp] theorem State.setStale_memMap (l : List (Nat × Word)) : (s.setStale l).memMap = s.memMap := rfl
@[simp] theorem State.setStale_resetLine (l : List (Nat × Word)) : (s.setStale l).resetLine = s.resetLine := rfl
@[simp] theorem State.setStale_ipl (l : List (Nat × Word)) : (s.setStale l).ipl = s.ipl := rfl
@[simp] theorem State.setStale_prevIpl (l : List (Nat × Word)) : (s.setStale l).prevIpl = s.prevIpl := rfl
@[simp] theorem State.setStale_intAck (l : List (Nat × Word)) : (s.setStale l).intAck = s.intAck := rfl
@[simp] theorem State.setStale_resetPulses (l : List (Nat × Word)) : (s.setStale l).resetPulses = s.resetPulses := rfl
@[simp] theorem State.setStale_refilled (l : List (Nat × Word)) : (s.setStale l).refilled = s.refilled := rfl
@[simp] theorem State.setStale_traceDue (l : List (Nat × Word)) : (s.setStale l).traceDue = s.traceDue := rfl
@[simp] theorem State.setStale_draws (l : List (Nat × Word)) : (s.setStale l).draws = s.draws := rfl

/-! ### `setIpl` -/

@[simp] theorem State.setIpl_d (l : BitVec 3) : (s.setIpl l).d = s.d := rfl
@[simp] theorem State.setIpl_a (l : BitVec 3) : (s.setIpl l).a = s.a := rfl
@[simp] theorem State.setIpl_usp (l : BitVec 3) : (s.setIpl l).usp = s.usp := rfl
@[simp] theorem State.setIpl_ssp (l : BitVec 3) : (s.setIpl l).ssp = s.ssp := rfl
@[simp] theorem State.setIpl_pc (l : BitVec 3) : (s.setIpl l).pc = s.pc := rfl
@[simp] theorem State.setIpl_sr (l : BitVec 3) : (s.setIpl l).sr = s.sr := rfl
@[simp] theorem State.setIpl_ir (l : BitVec 3) : (s.setIpl l).ir = s.ir := rfl
@[simp] theorem State.setIpl_run (l : BitVec 3) : (s.setIpl l).run = s.run := rfl
@[simp] theorem State.setIpl_mem (l : BitVec 3) : (s.setIpl l).mem = s.mem := rfl
@[simp] theorem State.setIpl_stale (l : BitVec 3) : (s.setIpl l).stale = s.stale := rfl
@[simp] theorem State.setIpl_memMap (l : BitVec 3) : (s.setIpl l).memMap = s.memMap := rfl
@[simp] theorem State.setIpl_resetLine (l : BitVec 3) : (s.setIpl l).resetLine = s.resetLine := rfl
@[simp] theorem State.setIpl_ipl (l : BitVec 3) : (s.setIpl l).ipl = l := rfl
@[simp] theorem State.setIpl_prevIpl (l : BitVec 3) : (s.setIpl l).prevIpl = s.prevIpl := rfl
@[simp] theorem State.setIpl_intAck (l : BitVec 3) : (s.setIpl l).intAck = s.intAck := rfl
@[simp] theorem State.setIpl_resetPulses (l : BitVec 3) : (s.setIpl l).resetPulses = s.resetPulses := rfl
@[simp] theorem State.setIpl_refilled (l : BitVec 3) : (s.setIpl l).refilled = s.refilled := rfl
@[simp] theorem State.setIpl_traceDue (l : BitVec 3) : (s.setIpl l).traceDue = s.traceDue := rfl
@[simp] theorem State.setIpl_draws (l : BitVec 3) : (s.setIpl l).draws = s.draws := rfl

/-! ### `setPrevIpl` -/

@[simp] theorem State.setPrevIpl_d (l : BitVec 3) : (s.setPrevIpl l).d = s.d := rfl
@[simp] theorem State.setPrevIpl_a (l : BitVec 3) : (s.setPrevIpl l).a = s.a := rfl
@[simp] theorem State.setPrevIpl_usp (l : BitVec 3) : (s.setPrevIpl l).usp = s.usp := rfl
@[simp] theorem State.setPrevIpl_ssp (l : BitVec 3) : (s.setPrevIpl l).ssp = s.ssp := rfl
@[simp] theorem State.setPrevIpl_pc (l : BitVec 3) : (s.setPrevIpl l).pc = s.pc := rfl
@[simp] theorem State.setPrevIpl_sr (l : BitVec 3) : (s.setPrevIpl l).sr = s.sr := rfl
@[simp] theorem State.setPrevIpl_ir (l : BitVec 3) : (s.setPrevIpl l).ir = s.ir := rfl
@[simp] theorem State.setPrevIpl_run (l : BitVec 3) : (s.setPrevIpl l).run = s.run := rfl
@[simp] theorem State.setPrevIpl_mem (l : BitVec 3) : (s.setPrevIpl l).mem = s.mem := rfl
@[simp] theorem State.setPrevIpl_stale (l : BitVec 3) : (s.setPrevIpl l).stale = s.stale := rfl
@[simp] theorem State.setPrevIpl_memMap (l : BitVec 3) : (s.setPrevIpl l).memMap = s.memMap := rfl
@[simp] theorem State.setPrevIpl_resetLine (l : BitVec 3) : (s.setPrevIpl l).resetLine = s.resetLine := rfl
@[simp] theorem State.setPrevIpl_ipl (l : BitVec 3) : (s.setPrevIpl l).ipl = s.ipl := rfl
@[simp] theorem State.setPrevIpl_prevIpl (l : BitVec 3) : (s.setPrevIpl l).prevIpl = l := rfl
@[simp] theorem State.setPrevIpl_intAck (l : BitVec 3) : (s.setPrevIpl l).intAck = s.intAck := rfl
@[simp] theorem State.setPrevIpl_resetPulses (l : BitVec 3) : (s.setPrevIpl l).resetPulses = s.resetPulses := rfl
@[simp] theorem State.setPrevIpl_refilled (l : BitVec 3) : (s.setPrevIpl l).refilled = s.refilled := rfl
@[simp] theorem State.setPrevIpl_traceDue (l : BitVec 3) : (s.setPrevIpl l).traceDue = s.traceDue := rfl
@[simp] theorem State.setPrevIpl_draws (l : BitVec 3) : (s.setPrevIpl l).draws = s.draws := rfl

/-! ### `nextDraw` -/

@[simp] theorem State.nextDraw_d : (s.nextDraw).d = s.d := rfl
@[simp] theorem State.nextDraw_a : (s.nextDraw).a = s.a := rfl
@[simp] theorem State.nextDraw_usp : (s.nextDraw).usp = s.usp := rfl
@[simp] theorem State.nextDraw_ssp : (s.nextDraw).ssp = s.ssp := rfl
@[simp] theorem State.nextDraw_pc : (s.nextDraw).pc = s.pc := rfl
@[simp] theorem State.nextDraw_sr : (s.nextDraw).sr = s.sr := rfl
@[simp] theorem State.nextDraw_ir : (s.nextDraw).ir = s.ir := rfl
@[simp] theorem State.nextDraw_run : (s.nextDraw).run = s.run := rfl
@[simp] theorem State.nextDraw_mem : (s.nextDraw).mem = s.mem := rfl
@[simp] theorem State.nextDraw_stale : (s.nextDraw).stale = s.stale := rfl
@[simp] theorem State.nextDraw_memMap : (s.nextDraw).memMap = s.memMap := rfl
@[simp] theorem State.nextDraw_resetLine : (s.nextDraw).resetLine = s.resetLine := rfl
@[simp] theorem State.nextDraw_ipl : (s.nextDraw).ipl = s.ipl := rfl
@[simp] theorem State.nextDraw_prevIpl : (s.nextDraw).prevIpl = s.prevIpl := rfl
@[simp] theorem State.nextDraw_intAck : (s.nextDraw).intAck = s.intAck := rfl
@[simp] theorem State.nextDraw_resetPulses : (s.nextDraw).resetPulses = s.resetPulses := rfl
@[simp] theorem State.nextDraw_refilled : (s.nextDraw).refilled = s.refilled := rfl
@[simp] theorem State.nextDraw_traceDue : (s.nextDraw).traceDue = s.traceDue := rfl
@[simp] theorem State.nextDraw_draws : (s.nextDraw).draws = s.draws + 1 := rfl

/-! ### `drawn` -/

@[simp] theorem State.drawn_d (n : Nat) : (s.drawn n).d = s.d := rfl
@[simp] theorem State.drawn_a (n : Nat) : (s.drawn n).a = s.a := rfl
@[simp] theorem State.drawn_usp (n : Nat) : (s.drawn n).usp = s.usp := rfl
@[simp] theorem State.drawn_ssp (n : Nat) : (s.drawn n).ssp = s.ssp := rfl
@[simp] theorem State.drawn_pc (n : Nat) : (s.drawn n).pc = s.pc := rfl
@[simp] theorem State.drawn_sr (n : Nat) : (s.drawn n).sr = s.sr := rfl
@[simp] theorem State.drawn_ir (n : Nat) : (s.drawn n).ir = s.ir := rfl
@[simp] theorem State.drawn_run (n : Nat) : (s.drawn n).run = s.run := rfl
@[simp] theorem State.drawn_mem (n : Nat) : (s.drawn n).mem = s.mem := rfl
@[simp] theorem State.drawn_stale (n : Nat) : (s.drawn n).stale = s.stale := rfl
@[simp] theorem State.drawn_memMap (n : Nat) : (s.drawn n).memMap = s.memMap := rfl
@[simp] theorem State.drawn_resetLine (n : Nat) : (s.drawn n).resetLine = s.resetLine := rfl
@[simp] theorem State.drawn_ipl (n : Nat) : (s.drawn n).ipl = s.ipl := rfl
@[simp] theorem State.drawn_prevIpl (n : Nat) : (s.drawn n).prevIpl = s.prevIpl := rfl
@[simp] theorem State.drawn_intAck (n : Nat) : (s.drawn n).intAck = s.intAck := rfl
@[simp] theorem State.drawn_resetPulses (n : Nat) : (s.drawn n).resetPulses = s.resetPulses := rfl
@[simp] theorem State.drawn_refilled (n : Nat) : (s.drawn n).refilled = s.refilled := rfl
@[simp] theorem State.drawn_traceDue (n : Nat) : (s.drawn n).traceDue = s.traceDue := rfl
@[simp] theorem State.drawn_draws (n : Nat) : (s.drawn n).draws = s.draws + n := rfl

/-! ### `putD` -/

@[simp] theorem State.putD_d (n : RegNum) (v : Long) : (s.putD n v).d = s.d.set n v := rfl
@[simp] theorem State.putD_a (n : RegNum) (v : Long) : (s.putD n v).a = s.a := rfl
@[simp] theorem State.putD_usp (n : RegNum) (v : Long) : (s.putD n v).usp = s.usp := rfl
@[simp] theorem State.putD_ssp (n : RegNum) (v : Long) : (s.putD n v).ssp = s.ssp := rfl
@[simp] theorem State.putD_pc (n : RegNum) (v : Long) : (s.putD n v).pc = s.pc := rfl
@[simp] theorem State.putD_sr (n : RegNum) (v : Long) : (s.putD n v).sr = s.sr := rfl
@[simp] theorem State.putD_ir (n : RegNum) (v : Long) : (s.putD n v).ir = s.ir := rfl
@[simp] theorem State.putD_run (n : RegNum) (v : Long) : (s.putD n v).run = s.run := rfl
@[simp] theorem State.putD_mem (n : RegNum) (v : Long) : (s.putD n v).mem = s.mem := rfl
@[simp] theorem State.putD_stale (n : RegNum) (v : Long) : (s.putD n v).stale = s.stale := rfl
@[simp] theorem State.putD_memMap (n : RegNum) (v : Long) : (s.putD n v).memMap = s.memMap := rfl
@[simp] theorem State.putD_resetLine (n : RegNum) (v : Long) : (s.putD n v).resetLine = s.resetLine := rfl
@[simp] theorem State.putD_ipl (n : RegNum) (v : Long) : (s.putD n v).ipl = s.ipl := rfl
@[simp] theorem State.putD_prevIpl (n : RegNum) (v : Long) : (s.putD n v).prevIpl = s.prevIpl := rfl
@[simp] theorem State.putD_intAck (n : RegNum) (v : Long) : (s.putD n v).intAck = s.intAck := rfl
@[simp] theorem State.putD_resetPulses (n : RegNum) (v : Long) : (s.putD n v).resetPulses = s.resetPulses := rfl
@[simp] theorem State.putD_refilled (n : RegNum) (v : Long) : (s.putD n v).refilled = s.refilled := rfl
@[simp] theorem State.putD_traceDue (n : RegNum) (v : Long) : (s.putD n v).traceDue = s.traceDue := rfl
@[simp] theorem State.putD_draws (n : RegNum) (v : Long) : (s.putD n v).draws = s.draws := rfl

/-! ### `putLow` -/

@[simp] theorem State.putLow_d (sz : Size) (n : RegNum) (v : BitVec sz.bits) : (s.putLow sz n v).d = s.d.set n (mergeLow sz (s.getD n) v) := rfl
@[simp] theorem State.putLow_a (sz : Size) (n : RegNum) (v : BitVec sz.bits) : (s.putLow sz n v).a = s.a := rfl
@[simp] theorem State.putLow_usp (sz : Size) (n : RegNum) (v : BitVec sz.bits) : (s.putLow sz n v).usp = s.usp := rfl
@[simp] theorem State.putLow_ssp (sz : Size) (n : RegNum) (v : BitVec sz.bits) : (s.putLow sz n v).ssp = s.ssp := rfl
@[simp] theorem State.putLow_pc (sz : Size) (n : RegNum) (v : BitVec sz.bits) : (s.putLow sz n v).pc = s.pc := rfl
@[simp] theorem State.putLow_sr (sz : Size) (n : RegNum) (v : BitVec sz.bits) : (s.putLow sz n v).sr = s.sr := rfl
@[simp] theorem State.putLow_ir (sz : Size) (n : RegNum) (v : BitVec sz.bits) : (s.putLow sz n v).ir = s.ir := rfl
@[simp] theorem State.putLow_run (sz : Size) (n : RegNum) (v : BitVec sz.bits) : (s.putLow sz n v).run = s.run := rfl
@[simp] theorem State.putLow_mem (sz : Size) (n : RegNum) (v : BitVec sz.bits) : (s.putLow sz n v).mem = s.mem := rfl
@[simp] theorem State.putLow_stale (sz : Size) (n : RegNum) (v : BitVec sz.bits) : (s.putLow sz n v).stale = s.stale := rfl
@[simp] theorem State.putLow_memMap (sz : Size) (n : RegNum) (v : BitVec sz.bits) : (s.putLow sz n v).memMap = s.memMap := rfl
@[simp] theorem State.putLow_resetLine (sz : Size) (n : RegNum) (v : BitVec sz.bits) : (s.putLow sz n v).resetLine = s.resetLine := rfl
@[simp] theorem State.putLow_ipl (sz : Size) (n : RegNum) (v : BitVec sz.bits) : (s.putLow sz n v).ipl = s.ipl := rfl
@[simp] theorem State.putLow_prevIpl (sz : Size) (n : RegNum) (v : BitVec sz.bits) : (s.putLow sz n v).prevIpl = s.prevIpl := rfl
@[simp] theorem State.putLow_intAck (sz : Size) (n : RegNum) (v : BitVec sz.bits) : (s.putLow sz n v).intAck = s.intAck := rfl
@[simp] theorem State.putLow_resetPulses (sz : Size) (n : RegNum) (v : BitVec sz.bits) : (s.putLow sz n v).resetPulses = s.resetPulses := rfl
@[simp] theorem State.putLow_refilled (sz : Size) (n : RegNum) (v : BitVec sz.bits) : (s.putLow sz n v).refilled = s.refilled := rfl
@[simp] theorem State.putLow_traceDue (sz : Size) (n : RegNum) (v : BitVec sz.bits) : (s.putLow sz n v).traceDue = s.traceDue := rfl
@[simp] theorem State.putLow_draws (sz : Size) (n : RegNum) (v : BitVec sz.bits) : (s.putLow sz n v).draws = s.draws := rfl

/-! ### `jumpTo` -/

@[simp] theorem State.jumpTo_d (v : Long) : (s.jumpTo v).d = s.d := rfl
@[simp] theorem State.jumpTo_a (v : Long) : (s.jumpTo v).a = s.a := rfl
@[simp] theorem State.jumpTo_usp (v : Long) : (s.jumpTo v).usp = s.usp := rfl
@[simp] theorem State.jumpTo_ssp (v : Long) : (s.jumpTo v).ssp = s.ssp := rfl
@[simp] theorem State.jumpTo_pc (v : Long) : (s.jumpTo v).pc = v := rfl
@[simp] theorem State.jumpTo_sr (v : Long) : (s.jumpTo v).sr = s.sr := rfl
@[simp] theorem State.jumpTo_ir (v : Long) : (s.jumpTo v).ir = s.ir := rfl
@[simp] theorem State.jumpTo_run (v : Long) : (s.jumpTo v).run = s.run := rfl
@[simp] theorem State.jumpTo_mem (v : Long) : (s.jumpTo v).mem = s.mem := rfl
@[simp] theorem State.jumpTo_stale (v : Long) : (s.jumpTo v).stale = [] := rfl
@[simp] theorem State.jumpTo_memMap (v : Long) : (s.jumpTo v).memMap = s.memMap := rfl
@[simp] theorem State.jumpTo_resetLine (v : Long) : (s.jumpTo v).resetLine = s.resetLine := rfl
@[simp] theorem State.jumpTo_ipl (v : Long) : (s.jumpTo v).ipl = s.ipl := rfl
@[simp] theorem State.jumpTo_prevIpl (v : Long) : (s.jumpTo v).prevIpl = s.prevIpl := rfl
@[simp] theorem State.jumpTo_intAck (v : Long) : (s.jumpTo v).intAck = s.intAck := rfl
@[simp] theorem State.jumpTo_resetPulses (v : Long) : (s.jumpTo v).resetPulses = s.resetPulses := rfl
@[simp] theorem State.jumpTo_refilled (v : Long) : (s.jumpTo v).refilled = true := rfl
@[simp] theorem State.jumpTo_traceDue (v : Long) : (s.jumpTo v).traceDue = s.traceDue := rfl
@[simp] theorem State.jumpTo_draws (v : Long) : (s.jumpTo v).draws = s.draws := rfl

/-! ### `startInstr` -/

@[simp] theorem State.startInstr_d : (s.startInstr).d = s.d := rfl
@[simp] theorem State.startInstr_a : (s.startInstr).a = s.a := rfl
@[simp] theorem State.startInstr_usp : (s.startInstr).usp = s.usp := rfl
@[simp] theorem State.startInstr_ssp : (s.startInstr).ssp = s.ssp := rfl
@[simp] theorem State.startInstr_pc : (s.startInstr).pc = s.pc + 2 := rfl
@[simp] theorem State.startInstr_sr : (s.startInstr).sr = s.sr := rfl
@[simp] theorem State.startInstr_ir : (s.startInstr).ir = s.ir := rfl
@[simp] theorem State.startInstr_run : (s.startInstr).run = s.run := rfl
@[simp] theorem State.startInstr_mem : (s.startInstr).mem = s.mem := rfl
@[simp] theorem State.startInstr_stale : (s.startInstr).stale = s.stale := rfl
@[simp] theorem State.startInstr_memMap : (s.startInstr).memMap = s.memMap := rfl
@[simp] theorem State.startInstr_resetLine : (s.startInstr).resetLine = s.resetLine := rfl
@[simp] theorem State.startInstr_ipl : (s.startInstr).ipl = s.ipl := rfl
@[simp] theorem State.startInstr_prevIpl : (s.startInstr).prevIpl = s.prevIpl := rfl
@[simp] theorem State.startInstr_intAck : (s.startInstr).intAck = s.intAck := rfl
@[simp] theorem State.startInstr_resetPulses : (s.startInstr).resetPulses = s.resetPulses := rfl
@[simp] theorem State.startInstr_refilled : (s.startInstr).refilled = false := rfl
@[simp] theorem State.startInstr_traceDue : (s.startInstr).traceDue = s.sr.t := rfl
@[simp] theorem State.startInstr_draws : (s.startInstr).draws = s.draws := rfl

/-! ### `completed` -/

@[simp] theorem State.completed_d (n : Nat) : (s.completed n).d = s.d := rfl
@[simp] theorem State.completed_a (n : Nat) : (s.completed n).a = s.a := rfl
@[simp] theorem State.completed_usp (n : Nat) : (s.completed n).usp = s.usp := rfl
@[simp] theorem State.completed_ssp (n : Nat) : (s.completed n).ssp = s.ssp := rfl
@[simp] theorem State.completed_pc (n : Nat) : (s.completed n).pc = s.afterWords n := rfl
@[simp] theorem State.completed_sr (n : Nat) : (s.completed n).sr = s.sr := rfl
@[simp] theorem State.completed_ir (n : Nat) : (s.completed n).ir = s.ir := rfl
@[simp] theorem State.completed_run (n : Nat) : (s.completed n).run = s.run := rfl
@[simp] theorem State.completed_mem (n : Nat) : (s.completed n).mem = s.mem := rfl
@[simp] theorem State.completed_stale (n : Nat) : (s.completed n).stale = s.stale := rfl
@[simp] theorem State.completed_memMap (n : Nat) : (s.completed n).memMap = s.memMap := rfl
@[simp] theorem State.completed_resetLine (n : Nat) : (s.completed n).resetLine = s.resetLine := rfl
@[simp] theorem State.completed_ipl (n : Nat) : (s.completed n).ipl = s.ipl := rfl
@[simp] theorem State.completed_prevIpl (n : Nat) : (s.completed n).prevIpl = s.prevIpl := rfl
@[simp] theorem State.completed_intAck (n : Nat) : (s.completed n).intAck = s.intAck := rfl
@[simp] theorem State.completed_resetPulses (n : Nat) : (s.completed n).resetPulses = s.resetPulses := rfl
@[simp] theorem State.completed_refilled (n : Nat) : (s.completed n).refilled = false := rfl
@[simp] theorem State.completed_traceDue (n : Nat) : (s.completed n).traceDue = s.sr.t := rfl
@[simp] theorem State.completed_draws (n : Nat) : (s.completed n).draws = s.draws := rfl

/-! ### `putSp` -/

@[simp] theorem State.putSp_d (v : Long) : (s.putSp v).d = s.d := by unfold State.putSp; split <;> rfl
@[simp] theorem State.putSp_a (v : Long) : (s.putSp v).a = s.a := by unfold State.putSp; split <;> rfl
@[simp] theorem State.putSp_pc (v : Long) : (s.putSp v).pc = s.pc := by unfold State.putSp; split <;> rfl
@[simp] theorem State.putSp_sr (v : Long) : (s.putSp v).sr = s.sr := by unfold State.putSp; split <;> rfl
@[simp] theorem State.putSp_ir (v : Long) : (s.putSp v).ir = s.ir := by unfold State.putSp; split <;> rfl
@[simp] theorem State.putSp_run (v : Long) : (s.putSp v).run = s.run := by unfold State.putSp; split <;> rfl
@[simp] theorem State.putSp_mem (v : Long) : (s.putSp v).mem = s.mem := by unfold State.putSp; split <;> rfl
@[simp] theorem State.putSp_stale (v : Long) : (s.putSp v).stale = s.stale := by unfold State.putSp; split <;> rfl
@[simp] theorem State.putSp_memMap (v : Long) : (s.putSp v).memMap = s.memMap := by unfold State.putSp; split <;> rfl
@[simp] theorem State.putSp_resetLine (v : Long) : (s.putSp v).resetLine = s.resetLine := by unfold State.putSp; split <;> rfl
@[simp] theorem State.putSp_ipl (v : Long) : (s.putSp v).ipl = s.ipl := by unfold State.putSp; split <;> rfl
@[simp] theorem State.putSp_prevIpl (v : Long) : (s.putSp v).prevIpl = s.prevIpl := by unfold State.putSp; split <;> rfl
@[simp] theorem State.putSp_intAck (v : Long) : (s.putSp v).intAck = s.intAck := by unfold State.putSp; split <;> rfl
@[simp] theorem State.putSp_resetPulses (v : Long) : (s.putSp v).resetPulses = s.resetPulses := by unfold State.putSp; split <;> rfl
@[simp] theorem State.putSp_refilled (v : Long) : (s.putSp v).refilled = s.refilled := by unfold State.putSp; split <;> rfl
@[simp] theorem State.putSp_traceDue (v : Long) : (s.putSp v).traceDue = s.traceDue := by unfold State.putSp; split <;> rfl
@[simp] theorem State.putSp_draws (v : Long) : (s.putSp v).draws = s.draws := by unfold State.putSp; split <;> rfl

/-! ### `putA` -/

@[simp] theorem State.putA_d (n : RegNum) (v : Long) : (s.putA n v).d = s.d := by unfold State.putA; split <;> simp
@[simp] theorem State.putA_pc (n : RegNum) (v : Long) : (s.putA n v).pc = s.pc := by unfold State.putA; split <;> simp
@[simp] theorem State.putA_sr (n : RegNum) (v : Long) : (s.putA n v).sr = s.sr := by unfold State.putA; split <;> simp
@[simp] theorem State.putA_ir (n : RegNum) (v : Long) : (s.putA n v).ir = s.ir := by unfold State.putA; split <;> simp
@[simp] theorem State.putA_run (n : RegNum) (v : Long) : (s.putA n v).run = s.run := by unfold State.putA; split <;> simp
@[simp] theorem State.putA_mem (n : RegNum) (v : Long) : (s.putA n v).mem = s.mem := by unfold State.putA; split <;> simp
@[simp] theorem State.putA_stale (n : RegNum) (v : Long) : (s.putA n v).stale = s.stale := by unfold State.putA; split <;> simp
@[simp] theorem State.putA_memMap (n : RegNum) (v : Long) : (s.putA n v).memMap = s.memMap := by unfold State.putA; split <;> simp
@[simp] theorem State.putA_resetLine (n : RegNum) (v : Long) : (s.putA n v).resetLine = s.resetLine := by unfold State.putA; split <;> simp
@[simp] theorem State.putA_ipl (n : RegNum) (v : Long) : (s.putA n v).ipl = s.ipl := by unfold State.putA; split <;> simp
@[simp] theorem State.putA_prevIpl (n : RegNum) (v : Long) : (s.putA n v).prevIpl = s.prevIpl := by unfold State.putA; split <;> simp
@[simp] theorem State.putA_intAck (n : RegNum) (v : Long) : (s.putA n v).intAck = s.intAck := by unfold State.putA; split <;> simp
@[simp] theorem State.putA_resetPulses (n : RegNum) (v : Long) : (s.putA n v).resetPulses = s.resetPulses := by unfold State.putA; split <;> simp
@[simp] theorem State.putA_refilled (n : RegNum) (v : Long) : (s.putA n v).refilled = s.refilled := by unfold State.putA; split <;> simp
@[simp] theorem State.putA_traceDue (n : RegNum) (v : Long) : (s.putA n v).traceDue = s.traceDue := by unfold State.putA; split <;> simp
@[simp] theorem State.putA_draws (n : RegNum) (v : Long) : (s.putA n v).draws = s.draws := by unfold State.putA; split <;> simp

/-! ### Derived readings -/

@[simp] theorem State.setPc_getD (v : Long) (n' : RegNum) : (s.setPc v).getD n' = s.getD n' := rfl
@[simp] theorem State.setPc_sp (v : Long) : (s.setPc v).sp = s.sp := rfl
@[simp] theorem State.setPc_getA (v : Long) (n' : RegNum) : (s.setPc v).getA n' = s.getA n' := rfl
@[simp] theorem State.setPc_readAnswer (v : Long) (p : Nat) : (s.setPc v).readAnswer p = s.readAnswer p := rfl
@[simp] theorem State.setPc_writeAnswer (v : Long) (p : Nat) : (s.setPc v).writeAnswer p = s.writeAnswer p := rfl
@[simp] theorem State.setSr_getD (v : StatusReg) (n' : RegNum) : (s.setSr v).getD n' = s.getD n' := rfl
@[simp] theorem State.setSr_readAnswer (v : StatusReg) (p : Nat) : (s.setSr v).readAnswer p = s.readAnswer p := rfl
@[simp] theorem State.setSr_writeAnswer (v : StatusReg) (p : Nat) : (s.setSr v).writeAnswer p = s.writeAnswer p := rfl
@[simp] theorem State.setCcr_getD (f : Ccr) (n' : RegNum) : (s.setCcr f).getD n' = s.getD n' := rfl
@[simp] theorem State.setCcr_sp (f : Ccr) : (s.setCcr f).sp = s.sp := rfl
@[simp] theorem State.setCcr_getA (f : Ccr) (n' : RegNum) : (s.setCcr f).getA n' = s.getA n' := rfl
@[simp] theorem State.setCcr_readAnswer (f : Ccr) (p : Nat) : (s.setCcr f).readAnswer p = s.readAnswer p := rfl
@[simp] theorem State.setCcr_writeAnswer (f : Ccr) (p : Nat) : (s.setCcr f).writeAnswer p = s.writeAnswer p := rfl
@[simp] theorem State.setUsp_getD (v : Long) (n' : RegNum) : (s.setUsp v).getD n' = s.getD n' := rfl
@[simp] theorem State.setUsp_readAnswer (v : Long) (p : Nat) : (s.setUsp v).readAnswer p = s.readAnswer p := rfl
@[simp] theorem State.setUsp_writeAnswer (v : Long) (p : Nat) : (s.setUsp v).writeAnswer p = s.writeAnswer p := rfl
@[simp] theorem State.setSsp_getD (v : Long) (n' : RegNum) : (s.setSsp v).getD n' = s.getD n' := rfl
@[simp] theorem State.setSsp_readAnswer (v : Long) (p : Nat) : (s.setSsp v).readAnswer p = s.readAnswer p := rfl
@[simp] theorem State.setSsp_writeAnswer (v : Long) (p : Nat) : (s.setSsp v).writeAnswer p = s.writeAnswer p := rfl
@[simp] theorem State.pulse_getD (n' : RegNum) : (s.pulse).getD n' = s.getD n' := rfl
@[simp] theorem State.pulse_sp : (s.pulse).sp = s.sp := rfl
@[simp] theorem State.pulse_getA (n' : RegNum) : (s.pulse).getA n' = s.getA n' := rfl
@[simp] theorem State.pulse_readAnswer (p : Nat) : (s.pulse).readAnswer p = s.readAnswer p := rfl
@[simp] theorem State.pulse_writeAnswer (p : Nat) : (s.pulse).writeAnswer p = s.writeAnswer p := rfl
@[simp] theorem State.setRun_getD (r : RunState) (n' : RegNum) : (s.setRun r).getD n' = s.getD n' := rfl
@[simp] theorem State.setRun_sp (r : RunState) : (s.setRun r).sp = s.sp := rfl
@[simp] theorem State.setRun_getA (r : RunState) (n' : RegNum) : (s.setRun r).getA n' = s.getA n' := rfl
@[simp] theorem State.setRun_readAnswer (r : RunState) (p : Nat) : (s.setRun r).readAnswer p = s.readAnswer p := rfl
@[simp] theorem State.setRun_writeAnswer (r : RunState) (p : Nat) : (s.setRun r).writeAnswer p = s.writeAnswer p := rfl
@[simp] theorem State.setMem_getD (m : Memory) (n' : RegNum) : (s.setMem m).getD n' = s.getD n' := rfl
@[simp] theorem State.setMem_sp (m : Memory) : (s.setMem m).sp = s.sp := rfl
@[simp] theorem State.setMem_getA (m : Memory) (n' : RegNum) : (s.setMem m).getA n' = s.getA n' := rfl
@[simp] theorem State.setMem_readAnswer (m : Memory) (p : Nat) : (s.setMem m).readAnswer p = s.readAnswer p := rfl
@[simp] theorem State.setMem_writeAnswer (m : Memory) (p : Nat) : (s.setMem m).writeAnswer p = s.writeAnswer p := rfl
@[simp] theorem State.setIr_getD (w : Word) (n' : RegNum) : (s.setIr w).getD n' = s.getD n' := rfl
@[simp] theorem State.setIr_sp (w : Word) : (s.setIr w).sp = s.sp := rfl
@[simp] theorem State.setIr_getA (w : Word) (n' : RegNum) : (s.setIr w).getA n' = s.getA n' := rfl
@[simp] theorem State.setIr_readAnswer (w : Word) (p : Nat) : (s.setIr w).readAnswer p = s.readAnswer p := rfl
@[simp] theorem State.setIr_writeAnswer (w : Word) (p : Nat) : (s.setIr w).writeAnswer p = s.writeAnswer p := rfl
@[simp] theorem State.setTraceDue_getD (b : Bool) (n' : RegNum) : (s.setTraceDue b).getD n' = s.getD n' := rfl
@[simp] theorem State.setTraceDue_sp (b : Bool) : (s.setTraceDue b).sp = s.sp := rfl
@[simp] theorem State.setTraceDue_getA (b : Bool) (n' : RegNum) : (s.setTraceDue b).getA n' = s.getA n' := rfl
@[simp] theorem State.setTraceDue_readAnswer (b : Bool) (p : Nat) : (s.setTraceDue b).readAnswer p = s.readAnswer p := rfl
@[simp] theorem State.setTraceDue_writeAnswer (b : Bool) (p : Nat) : (s.setTraceDue b).writeAnswer p = s.writeAnswer p := rfl
@[simp] theorem State.setStale_getD (l : List (Nat × Word)) (n' : RegNum) : (s.setStale l).getD n' = s.getD n' := rfl
@[simp] theorem State.setStale_sp (l : List (Nat × Word)) : (s.setStale l).sp = s.sp := rfl
@[simp] theorem State.setStale_getA (l : List (Nat × Word)) (n' : RegNum) : (s.setStale l).getA n' = s.getA n' := rfl
@[simp] theorem State.setStale_readAnswer (l : List (Nat × Word)) (p : Nat) : (s.setStale l).readAnswer p = s.readAnswer p := rfl
@[simp] theorem State.setStale_writeAnswer (l : List (Nat × Word)) (p : Nat) : (s.setStale l).writeAnswer p = s.writeAnswer p := rfl
@[simp] theorem State.setIpl_getD (l : BitVec 3) (n' : RegNum) : (s.setIpl l).getD n' = s.getD n' := rfl
@[simp] theorem State.setIpl_sp (l : BitVec 3) : (s.setIpl l).sp = s.sp := rfl
@[simp] theorem State.setIpl_getA (l : BitVec 3) (n' : RegNum) : (s.setIpl l).getA n' = s.getA n' := rfl
@[simp] theorem State.setIpl_readAnswer (l : BitVec 3) (p : Nat) : (s.setIpl l).readAnswer p = s.readAnswer p := rfl
@[simp] theorem State.setIpl_writeAnswer (l : BitVec 3) (p : Nat) : (s.setIpl l).writeAnswer p = s.writeAnswer p := rfl
@[simp] theorem State.setPrevIpl_getD (l : BitVec 3) (n' : RegNum) : (s.setPrevIpl l).getD n' = s.getD n' := rfl
@[simp] theorem State.setPrevIpl_sp (l : BitVec 3) : (s.setPrevIpl l).sp = s.sp := rfl
@[simp] theorem State.setPrevIpl_getA (l : BitVec 3) (n' : RegNum) : (s.setPrevIpl l).getA n' = s.getA n' := rfl
@[simp] theorem State.setPrevIpl_readAnswer (l : BitVec 3) (p : Nat) : (s.setPrevIpl l).readAnswer p = s.readAnswer p := rfl
@[simp] theorem State.setPrevIpl_writeAnswer (l : BitVec 3) (p : Nat) : (s.setPrevIpl l).writeAnswer p = s.writeAnswer p := rfl
@[simp] theorem State.nextDraw_getD (n' : RegNum) : (s.nextDraw).getD n' = s.getD n' := rfl
@[simp] theorem State.nextDraw_sp : (s.nextDraw).sp = s.sp := rfl
@[simp] theorem State.nextDraw_getA (n' : RegNum) : (s.nextDraw).getA n' = s.getA n' := rfl
@[simp] theorem State.nextDraw_readAnswer (p : Nat) : (s.nextDraw).readAnswer p = s.readAnswer p := rfl
@[simp] theorem State.nextDraw_writeAnswer (p : Nat) : (s.nextDraw).writeAnswer p = s.writeAnswer p := rfl
@[simp] theorem State.drawn_getD (n : Nat) (n' : RegNum) : (s.drawn n).getD n' = s.getD n' := rfl
@[simp] theorem State.drawn_sp (n : Nat) : (s.drawn n).sp = s.sp := rfl
@[simp] theorem State.drawn_getA (n : Nat) (n' : RegNum) : (s.drawn n).getA n' = s.getA n' := rfl
@[simp] theorem State.drawn_readAnswer (n : Nat) (p : Nat) : (s.drawn n).readAnswer p = s.readAnswer p := rfl
@[simp] theorem State.drawn_writeAnswer (n : Nat) (p : Nat) : (s.drawn n).writeAnswer p = s.writeAnswer p := rfl
@[simp] theorem State.putD_sp (n : RegNum) (v : Long) : (s.putD n v).sp = s.sp := rfl
@[simp] theorem State.putD_getA (n : RegNum) (v : Long) (n' : RegNum) : (s.putD n v).getA n' = s.getA n' := rfl
@[simp] theorem State.putD_readAnswer (n : RegNum) (v : Long) (p : Nat) : (s.putD n v).readAnswer p = s.readAnswer p := rfl
@[simp] theorem State.putD_writeAnswer (n : RegNum) (v : Long) (p : Nat) : (s.putD n v).writeAnswer p = s.writeAnswer p := rfl
@[simp] theorem State.putLow_sp (sz : Size) (n : RegNum) (v : BitVec sz.bits) : (s.putLow sz n v).sp = s.sp := rfl
@[simp] theorem State.putLow_getA (sz : Size) (n : RegNum) (v : BitVec sz.bits) (n' : RegNum) : (s.putLow sz n v).getA n' = s.getA n' := rfl
@[simp] theorem State.putLow_readAnswer (sz : Size) (n : RegNum) (v : BitVec sz.bits) (p : Nat) : (s.putLow sz n v).readAnswer p = s.readAnswer p := rfl
@[simp] theorem State.putLow_writeAnswer (sz : Size) (n : RegNum) (v : BitVec sz.bits) (p : Nat) : (s.putLow sz n v).writeAnswer p = s.writeAnswer p := rfl
@[simp] theorem State.jumpTo_getD (v : Long) (n' : RegNum) : (s.jumpTo v).getD n' = s.getD n' := rfl
@[simp] theorem State.jumpTo_sp (v : Long) : (s.jumpTo v).sp = s.sp := rfl
@[simp] theorem State.jumpTo_getA (v : Long) (n' : RegNum) : (s.jumpTo v).getA n' = s.getA n' := rfl
@[simp] theorem State.jumpTo_readAnswer (v : Long) (p : Nat) : (s.jumpTo v).readAnswer p = s.readAnswer p := rfl
@[simp] theorem State.jumpTo_writeAnswer (v : Long) (p : Nat) : (s.jumpTo v).writeAnswer p = s.writeAnswer p := rfl
@[simp] theorem State.startInstr_getD (n' : RegNum) : (s.startInstr).getD n' = s.getD n' := rfl
@[simp] theorem State.startInstr_sp : (s.startInstr).sp = s.sp := rfl
@[simp] theorem State.startInstr_getA (n' : RegNum) : (s.startInstr).getA n' = s.getA n' := rfl
@[simp] theorem State.startInstr_readAnswer (p : Nat) : (s.startInstr).readAnswer p = s.readAnswer p := rfl
@[simp] theorem State.startInstr_writeAnswer (p : Nat) : (s.startInstr).writeAnswer p = s.writeAnswer p := rfl
@[simp] theorem State.completed_getD (n : Nat) (n' : RegNum) : (s.completed n).getD n' = s.getD n' := rfl
@[simp] theorem State.completed_sp (n : Nat) : (s.completed n).sp = s.sp := rfl
@[simp] theorem State.completed_getA (n : Nat) (n' : RegNum) : (s.completed n).getA n' = s.getA n' := rfl
@[simp] theorem State.completed_readAnswer (n : Nat) (p : Nat) : (s.completed n).readAnswer p = s.readAnswer p := rfl
@[simp] theorem State.completed_writeAnswer (n : Nat) (p : Nat) : (s.completed n).writeAnswer p = s.writeAnswer p := rfl
@[simp] theorem State.putSp_getD (v : Long) (n' : RegNum) : (s.putSp v).getD n' = s.getD n' := by simp [State.getD]
@[simp] theorem State.putSp_readAnswer (v : Long) (p : Nat) : (s.putSp v).readAnswer p = s.readAnswer p := by simp [State.readAnswer]
@[simp] theorem State.putSp_writeAnswer (v : Long) (p : Nat) : (s.putSp v).writeAnswer p = s.writeAnswer p := by simp [State.writeAnswer]
@[simp] theorem State.putA_getD (n : RegNum) (v : Long) (n' : RegNum) : (s.putA n v).getD n' = s.getD n' := by simp [State.getD]
@[simp] theorem State.putA_readAnswer (n : RegNum) (v : Long) (p : Nat) : (s.putA n v).readAnswer p = s.readAnswer p := by simp [State.readAnswer]
@[simp] theorem State.putA_writeAnswer (n : RegNum) (v : Long) (p : Nat) : (s.putA n v).writeAnswer p = s.writeAnswer p := by simp [State.writeAnswer]

/-! ### Registers read back -/

@[simp] theorem State.getD_putD_same (n : RegNum) (v : Long) : (s.putD n v).getD n = v := by
  simp [State.getD, State.putD]

theorem State.getD_putD (n k : RegNum) (v : Long) : (s.putD n v).getD k = if n = k then v else s.getD k := by
  simp only [State.getD, State.putD, Fin.getElem_fin, Vector.getElem_set, Fin.ext_iff]

@[simp] theorem State.sp_putSp (v : Long) : (s.putSp v).sp = v := by
  unfold State.sp State.putSp
  cases h : s.sr.s <;> simp [h]

@[simp] theorem State.getA_putA_same (n : RegNum) (v : Long) : (s.putA n v).getA n = v := by
  unfold State.putA State.getA
  split
  · simp
  · exact s.sp_putSp v

theorem State.getA_putA (n k : RegNum) (v : Long) : (s.putA n v).getA k = if n = k then v else s.getA k := by
  split
  · subst n; simp
  · rename_i hne
    have hne' : n.val ≠ k.val := fun h => hne (Fin.ext h)
    unfold State.putA State.getA
    by_cases hn : n.val < 7
    · by_cases hk : k.val < 7
      · simp [hn, hk, hne']
      · simp only [hn, dif_pos, hk, dif_neg, not_false_iff]; rfl
    · have hk : k.val < 7 := by omega
      simp [hn, hk]

/-- Which of the three stack-related registers a write of `A7` leaves alone. -/
theorem State.putSp_user (v : Long) (h : s.sr.s = false) : s.putSp v = s.setUsp v := by
  simp [State.putSp, h]

theorem State.putSp_supervisor (v : Long) (h : s.sr.s = true) : s.putSp v = s.setSsp v := by
  simp [State.putSp, h]

/-! ### The stack pointer and the other registers -/

theorem lt_seven_of_ne {n : RegNum} (h : n ≠ 7) : n.val < 7 := by
  have h1 := n.isLt
  have h2 : n.val ≠ 7 := fun e => h (Fin.ext e)
  omega

theorem State.getA_seven : s.getA 7 = s.sp := rfl
theorem State.putA_seven (v : Long) : s.putA 7 v = s.putSp v := rfl

theorem State.sp_putA {n : RegNum} (h : n ≠ 7) (v : Long) : (s.putA n v).sp = s.sp := by
  simp only [State.putA, dif_pos (lt_seven_of_ne h)]; rfl

theorem State.getA_putSp {n : RegNum} (h : n ≠ 7) (v : Long) : (s.putSp v).getA n = s.getA n := by
  simp only [State.getA, dif_pos (lt_seven_of_ne h), State.putSp_a]

theorem State.putSp_putSp (v w : Long) : (s.putSp v).putSp w = s.putSp w := by
  cases h : s.sr.s
  · rw [s.putSp_user v h, s.putSp_user w h, (s.setUsp v).putSp_user w h]; rfl
  · rw [s.putSp_supervisor v h, s.putSp_supervisor w h, (s.setSsp v).putSp_supervisor w h]; rfl

theorem State.putSp_putA {n : RegNum} (h : n ≠ 7) (v w : Long) : (s.putSp v).putA n w = (s.putA n w).putSp v := by
  have e : ∀ u : State, u.putA n w = { u with a := u.a.set n.val w (lt_seven_of_ne h) } := fun u => by
    simp only [State.putA, dif_pos (lt_seven_of_ne h)]
  cases hs : s.sr.s
  · rw [s.putSp_user v hs, (s.putA n w).putSp_user v (by simpa using hs), e, e]; rfl
  · rw [s.putSp_supervisor v hs, (s.putA n w).putSp_supervisor v (by simpa using hs), e, e]; rfl

theorem State.putSp_setMem (v : Long) (m : Memory) : (s.putSp v).setMem m = (s.setMem m).putSp v := by
  cases h : s.sr.s <;> simp only [State.putSp, h, State.setMem_sr] <;> rfl

theorem State.putSp_setCcr (v : Long) (f : Ccr) : (s.putSp v).setCcr f = (s.setCcr f).putSp v := by
  cases h : s.sr.s <;> simp only [State.putSp, h, State.setCcr_sr] <;> rfl

/-- Writing a register with its own value changes nothing. -/
theorem State.putD_getD (n : RegNum) : s.putD n (s.getD n) = s := by simp [State.putD, State.getD]

theorem State.putA_getA (n : RegNum) : s.putA n (s.getA n) = s := by
  unfold State.putA State.getA
  split
  · simp
  · cases h : s.sr.s <;> simp only [State.putSp, State.sp, h] <;> rfl

end Sys2Proof.Machine
end

