-- ==== Sys2Proof/Laws/Memory.lean ====
section
/-! SUPPORT. Memory: a read after a write, every other byte unchanged, and the canonical form, which every operation keeps and
which makes equal memories equal data. -/

namespace Sys2Proof.Machine

theorem lookupCell_insertCell (cs : List Host.Cell) (p q : Nat) (v : Byte) :
    lookupCell (insertCell p v cs) q = if p = q then v else lookupCell cs q := by
  induction cs with
  | nil => simp [insertCell, lookupCell]
  | cons c cs ih =>
    simp only [insertCell]
    split
    · simp only [lookupCell, ih]
      split <;> split <;> first | rfl | omega
    · split
      · simp only [lookupCell]
        split
        · rfl
        · rw [if_neg (by omega)]
      · simp only [lookupCell]

theorem lookupCell_filter (cs : List Host.Cell) (p q : Nat) :
    lookupCell (cs.filter fun c => c.1 != p) q = if p = q then unlistedByte else lookupCell cs q := by
  induction cs with
  | nil => simp [lookupCell]
  | cons c cs ih =>
    by_cases hc : c.1 = p
    · rw [List.filter_cons_of_neg (by simp [hc]), ih]
      split
      · rfl
      · rename_i h; simp only [lookupCell]; rw [if_neg (by omega)]
    · rw [List.filter_cons_of_pos (by simp [hc])]
      simp only [lookupCell, ih]
      split <;> split <;> first | rfl | omega

/-- A byte read after a write, at any address. -/
theorem Memory.read_write (m : Memory) (p q : Nat) (v : Byte) :
    (m.write p v).read q = if p = q then v else m.read q := by
  unfold Memory.write Memory.read
  split
  · subst v; exact lookupCell_filter _ _ _
  · exact lookupCell_insertCell _ _ _ _

@[simp] theorem Memory.read_write_same (m : Memory) (p : Nat) (v : Byte) : (m.write p v).read p = v := by
  simp [Memory.read_write]

theorem Memory.read_write_other (m : Memory) {p q : Nat} (v : Byte) (h : p ≠ q) :
    (m.write p v).read q = m.read q := by
  simp [Memory.read_write, h]

theorem mem_insertCell {cs : List Host.Cell} {p : Nat} {v : Byte} {c : Host.Cell} (h : c ∈ insertCell p v cs) :
    c = (p, v) ∨ c ∈ cs := by
  induction cs with
  | nil => simpa [insertCell] using h
  | cons d cs ih =>
    simp only [insertCell] at h
    split at h
    · rcases List.mem_cons.1 h with h | h
      · exact .inr (h ▸ List.mem_cons_self)
      · rcases ih h with h | h
        · exact .inl h
        · exact .inr (List.mem_cons_of_mem _ h)
    · split at h
      · rcases List.mem_cons.1 h with h | h
        · exact .inl h
        · exact .inr (List.mem_cons_of_mem _ h)
      · rcases List.mem_cons.1 h with h | h
        · exact .inl h
        · exact .inr h

theorem pairwise_insertCell {cs : List Host.Cell} (p : Nat) (v : Byte)
    (h : cs.Pairwise (fun c c' => c.1 < c'.1)) : (insertCell p v cs).Pairwise (fun c c' => c.1 < c'.1) := by
  induction cs with
  | nil => simp [insertCell]
  | cons d cs ih =>
    obtain ⟨hd, hcs⟩ := List.pairwise_cons.1 h
    simp only [insertCell]
    split
    · refine List.pairwise_cons.2 ⟨fun c hc => ?_, ih hcs⟩
      rcases mem_insertCell hc with rfl | hc
      · assumption
      · exact hd c hc
    · split
      · exact List.pairwise_cons.2 ⟨fun c hc => by have := hd c hc; simp only; omega, hcs⟩
      · refine List.pairwise_cons.2 ⟨fun c hc => ?_, h⟩
        rcases List.mem_cons.1 hc with rfl | hc
        · simp only; omega
        · have := hd c hc; simp only; omega

/-- A write keeps the canonical form. -/
theorem Memory.write_wf {m : Memory} (h : m.wf) {p : Nat} (hp : p < 2 ^ 24) (v : Byte) : (m.write p v).wf := by
  obtain ⟨hs, hc⟩ := h
  unfold Memory.write
  split
  · exact ⟨hs.filter _, fun c hm => hc c (List.mem_of_mem_filter hm)⟩
  · refine ⟨pairwise_insertCell p v hs, fun c hm => ?_⟩
    rcases mem_insertCell hm with rfl | hm
    · exact ⟨by assumption, hp⟩
    · exact hc c hm

theorem physAddr_lt (a : Long) : physAddr a < 2 ^ 24 := Nat.mod_lt _ (by decide)

/-- Bytes placed from outside keep the canonical form. -/
theorem Memory.place_wf {m : Memory} (h : m.wf) (ps : List Nat) (hp : ∀ p ∈ ps, p < 2 ^ 24) (vs : List Byte) :
    (m.place ps vs).wf := by
  induction ps generalizing m vs with
  | nil => simpa [Memory.place] using h
  | cons p ps ih =>
    cases vs with
    | nil => simpa [Memory.place] using h
    | cons v vs =>
      exact ih (Memory.write_wf h (hp p List.mem_cons_self) v) (fun q hq => hp q (List.mem_cons_of_mem _ hq)) vs

theorem lookupCell_of_lt {cs : List Host.Cell} {p : Nat} (h : ∀ c ∈ cs, p < c.1) : lookupCell cs p = unlistedByte := by
  induction cs with
  | nil => rfl
  | cons c cs ih =>
    have := h c List.mem_cons_self
    simp only [lookupCell]
    rw [if_neg (by omega)]
    exact ih fun c hc => h c (List.mem_cons_of_mem _ hc)

/-! ### Bytes of one access are different bytes -/

/-- Two addresses less than 2^24 apart are different bytes. -/
theorem physAddr_add_inj (a : Long) {j k : Nat} (hj : j < 2 ^ 24) (hk : k < 2 ^ 24)
    (h : physAddr (a + BitVec.ofNat 32 j) = physAddr (a + BitVec.ofNat 32 k)) : j = k := by
  simp only [physAddr, BitVec.toNat_add, BitVec.toNat_ofNat] at h
  omega

theorem add_ofNat_ofNat (a : Long) (j k : Nat) :
    a + BitVec.ofNat 32 j + BitVec.ofNat 32 k = a + BitVec.ofNat 32 (j + k) := by
  rw [BitVec.add_assoc, ← BitVec.ofNat_add]

end Sys2Proof.Machine
end

