-- ==== Sys2Proof/Laws/Exec.lean ====
section
/-! SUPPORT. How a computation of the machine runs, and what it keeps: the lemmas by which a proof follows a meaning step by
step without unfolding the monad. -/

namespace Sys2Proof.Machine

variable {α β : Type}

@[simp] theorem Exec.pure_apply (a : α) (s : State) : (pure a : Exec α) s = .ok a s := rfl

/-- A sequence whose first part succeeds. -/
theorem Exec.bind_ok {m : Exec α} {f : α → Exec β} {s t : State} {a : α} (h : m s = .ok a t) :
    (m >>= f) s = f a t := by
  show EStateM.bind m f s = _
  simp [EStateM.bind, h]

/-- A sequence whose first part raises. -/
theorem Exec.bind_error {m : Exec α} {f : α → Exec β} {s t : State} {r : Raise} (h : m s = .error r t) :
    (m >>= f) s = .error r t := by
  show EStateM.bind m f s = _
  simp [EStateM.bind, h]

@[simp] theorem Exec.pure_bind_apply (a : α) (f : α → Exec β) (s : State) : ((pure a : Exec α) >>= f) s = f a s := rfl
@[simp] theorem look_apply (f : State → α) (s : State) : look f s = .ok (f s) s := rfl
@[simp] theorem update_apply (f : State → State) (s : State) : update f s = .ok () (f s) := rfl
@[simp] theorem fail_apply (r : Raise) (s : State) : (fail r : Exec α) s = .error r s := rfl
@[simp] theorem draw_apply (f : Nat → α) (s : State) : draw f s = .ok (f s.draws) s.nextDraw := rfl
@[simp] theorem look_bind (f : State → α) (g : α → Exec β) (s : State) : (look f >>= g) s = g (f s) s := rfl
@[simp] theorem update_bind (f : State → State) (g : Unit → Exec β) (s : State) : (update f >>= g) s = g () (f s) := rfl
@[simp] theorem draw_bind (f : Nat → α) (g : α → Exec β) (s : State) :
    (draw f >>= g) s = g (f s.draws) s.nextDraw := rfl
@[simp] theorem fail_bind (r : Raise) (g : α → Exec β) (s : State) : ((fail r : Exec α) >>= g) s = .error r s := rfl

theorem thenFlags_ok {f : Ccr} {m : Exec Unit} {s t : State} (h : m s = .ok () t) :
    thenFlags f m s = .ok () (t.setCcr f) := by
  simp [thenFlags, h]

/-- Where the part before the flags raises, the flags are as before or already written, and one choice is drawn (U5). -/
theorem thenFlags_error {f : Ccr} {m : Exec Unit} {s t : State} {r : Raise} (h : m s = .error r t) :
    thenFlags f m s = .error r t.nextDraw ∨ thenFlags f m s = .error r (t.nextDraw.setCcr f) := by
  unfold thenFlags
  rw [h]
  by_cases hb : Config.freeBit t.draws <;> simp [hb]

/-! ### What a computation keeps -/

/-- `m` keeps `P`, whether it succeeds or raises. -/
structure Keeps (P : State → Prop) (m : Exec α) : Prop where
  ok : ∀ {s a t}, P s → m s = .ok a t → P t
  error : ∀ {s r t}, P s → m s = .error r t → P t

variable {P : State → Prop}

theorem Keeps.pure (a : α) : Keeps P (pure a : Exec α) where
  ok hs h := by injection h with _ h; exact h ▸ hs
  error _ h := by injection h

theorem Keeps.fail (r : Raise) : Keeps P (fail r : Exec α) where
  ok _ h := by injection h
  error hs h := by injection h with _ h; exact h ▸ hs

theorem Keeps.look (f : State → α) : Keeps P (look f) where
  ok hs h := by injection h with _ h; exact h ▸ hs
  error _ h := by injection h

theorem Keeps.update {f : State → State} (hf : ∀ s, P s → P (f s)) : Keeps P (update f) where
  ok hs h := by injection h with _ h; exact h ▸ hf _ hs
  error _ h := by injection h

theorem Keeps.draw {f : Nat → α} (hf : ∀ s, P s → P s.nextDraw) : Keeps P (draw f) where
  ok hs h := by injection h with _ h; exact h ▸ hf _ hs
  error _ h := by injection h

theorem Keeps.bind {m : Exec α} {f : α → Exec β} (hm : Keeps P m) (hf : ∀ a, Keeps P (f a)) : Keeps P (m >>= f) where
  ok {s _ _} hs h := by
    cases hr : m s with
    | ok a t => rw [Exec.bind_ok hr] at h; exact (hf a).ok (hm.ok hs hr) h
    | error r t => rw [Exec.bind_error hr] at h; injection h
  error {s _ _} hs h := by
    cases hr : m s with
    | ok a t => rw [Exec.bind_ok hr] at h; exact (hf a).error (hm.ok hs hr) h
    | error r t =>
      rw [Exec.bind_error hr] at h
      injection h with _ h
      exact h ▸ hm.error hs hr

theorem Keeps.ite {c : Prop} [Decidable c] {m n : Exec α} (hm : Keeps P m) (hn : Keeps P n) :
    Keeps P (if c then m else n) := by
  split
  · exact hm
  · exact hn

theorem Keeps.thenFlags {f : Ccr} {m : Exec Unit} (hm : Keeps P m) (hf : ∀ s, P s → P (s.setCcr f))
    (hd : ∀ s, P s → P s.nextDraw) : Keeps P (thenFlags f m) where
  ok {s _ _} hs h := by
    cases hr : m s with
    | ok a t => rw [thenFlags_ok hr] at h; injection h with _ h; exact h ▸ hf _ (hm.ok hs hr)
    | error r t => rcases thenFlags_error (f := f) hr with h' | h' <;> rw [h'] at h <;> injection h
  error {s _ _} hs h := by
    cases hr : m s with
    | ok a t => rw [thenFlags_ok hr] at h; injection h
    | error r t =>
      have ht := hd _ (hm.error hs hr)
      rcases thenFlags_error (f := f) hr with h' | h' <;> rw [h'] at h <;> injection h with _ h
      · exact h ▸ ht
      · exact h ▸ hf _ ht

end Sys2Proof.Machine
end

