-- ==== Sys2Proof/Laws/Bus.lean ====
section
/-! SUPPORT. The bus: what each access does where the platform answers with plain memory, where it stops, and what it keeps. -/

namespace Sys2Proof.Machine

/-! ### Addresses of one access -/

theorem physAddr_add_zero (a : Long) : physAddr (a + BitVec.ofNat 32 0) = physAddr a := by simp

theorem State.canRead.at {s : State} {sz : Size} {a : Long} (h : s.canRead sz a) {k : Nat} (hk : k < sz.bytes) :
    s.readAnswer (physAddr (a + BitVec.ofNat 32 k)) = .stored := h.2 k hk

theorem State.canWrite.at {s : State} {sz : Size} {a : Long} (h : s.canWrite sz a) {k : Nat} (hk : k < sz.bytes) :
    s.writeAnswer (physAddr (a + BitVec.ofNat 32 k)) = .stored := h.2 k hk

/-- Evenness two bytes on. -/
theorem aligned_add_two (a : Long) : aligned .w (a + 2) = aligned .w a := by
  have h : (a + 2).getLsbD 0 = a.getLsbD 0 := by
    show Nat.testBit (a + 2).toNat 0 = Nat.testBit a.toNat 0
    rw [Nat.testBit_zero, Nat.testBit_zero, BitVec.toNat_add]
    have : (2 : Long).toNat = 2 := rfl
    congr 1
    rw [this]
    exact propext ⟨fun _ => by omega, fun _ => by omega⟩
  simp only [aligned, h]

/-- Readability of a long word, as its two words. -/
theorem State.canRead_long {s : State} {a : Long} (h : s.canRead .l a) : s.canRead .w a ∧ s.canRead .w (a + 2) := by
  refine ⟨⟨by simpa [aligned] using h.1, fun k hk => h.2 k (Nat.lt_trans hk (by decide))⟩, ?_, fun k hk => ?_⟩
  · rw [aligned_add_two]; exact h.1
  · have := h.2 (2 + k) (show 2 + k < 4 by have : k < 2 := hk; omega)
    rwa [← add_ofNat_ofNat] at this

theorem State.canWrite_long {s : State} {a : Long} (h : s.canWrite .l a) :
    s.canWrite .w a ∧ s.canWrite .w (a + 2) := by
  refine ⟨⟨by simpa [aligned] using h.1, fun k hk => h.2 k (Nat.lt_trans hk (by decide))⟩, ?_, fun k hk => ?_⟩
  · rw [aligned_add_two]; exact h.1
  · have := h.2 (2 + k) (show 2 + k < 4 by have : k < 2 := hk; omega)
    rwa [← add_ofNat_ofNat] at this

theorem State.canRead.word {s : State} {a : Long} (h : s.canRead .w a) :
    s.readAnswer (physAddr a) = .stored ∧ s.readAnswer (physAddr (a + 1)) = .stored :=
  ⟨by simpa using h.at (k := 0) (by decide), by simpa using h.at (k := 1) (by decide)⟩

theorem State.canWrite.word {s : State} {a : Long} (h : s.canWrite .w a) :
    s.writeAnswer (physAddr a) = .stored ∧ s.writeAnswer (physAddr (a + 1)) = .stored :=
  ⟨by simpa using h.at (k := 0) (by decide), by simpa using h.at (k := 1) (by decide)⟩

theorem State.canRead.answers {s : State} {a : Long} (h : s.canRead .w a) : s.answersRead [a, a + 1] = true := by
  obtain ⟨h0, h1⟩ := h.word
  simp only [State.answersRead, List.all_cons, List.all_nil, h0, h1]
  rfl

theorem State.canWrite.answers {s : State} {a : Long} (h : s.canWrite .w a) : s.answersWrite [a, a + 1] = true := by
  obtain ⟨h0, h1⟩ := h.word
  simp only [State.answersWrite, List.all_cons, List.all_nil, h0, h1]
  rfl

/-! ### Reads -/

theorem busByte_ok {s : State} {a : Long} (h : s.readAnswer (physAddr a) = .stored) :
    busByte a s = .ok (s.mem.byteAt a) s := by
  simp [busByte, h, Memory.byteAt]

theorem cycleReadByte_ok {s : State} {acc : Access} {a : Long} (h : s.readAnswer (physAddr a) = .stored) :
    cycleReadByte acc a s = .ok (s.mem.byteAt a) s := by
  simp [cycleReadByte, State.answersRead, h, busByte_ok]

theorem cycleReadWord_ok {s : State} {acc : Access} {a : Long} (h : s.canRead .w a) :
    cycleReadWord acc a s = .ok (s.mem.wordAt a) s := by
  obtain ⟨h0, h1⟩ := h.word
  simp only [cycleReadWord, look_bind]
  rw [if_pos h.answers, Exec.bind_ok (busByte_ok h0), Exec.bind_ok (busByte_ok h1)]
  rfl

theorem checkAligned_ok {s : State} {sz : Size} {acc : Access} (h : aligned sz acc.addr = true) :
    checkAligned sz acc s = .ok () s := by
  simp [checkAligned, h]

theorem checkAligned_error {s : State} {sz : Size} {acc : Access} (h : aligned sz acc.addr = false) :
    checkAligned sz acc s = .error (.mem ⟨.address, acc⟩) s := by
  simp [checkAligned, h]

/-- A read of plain memory answers what memory holds and changes nothing. -/
theorem memRead_ok {s : State} {sz : Size} {a : Long} (space : Space) (h : s.canRead sz a) :
    memRead sz space a s = .ok (s.mem.valueAt sz a) s := by
  unfold memRead
  rw [Exec.bind_ok (checkAligned_ok h.1)]
  cases sz with
  | b => exact cycleReadByte_ok (by simpa using h.at (k := 0) (by decide))
  | w => exact cycleReadWord_ok h
  | l =>
    obtain ⟨hw, hw2⟩ := State.canRead_long h
    simp only [readCycles]
    rw [Exec.bind_ok (cycleReadWord_ok hw), Exec.bind_ok (cycleReadWord_ok hw2)]
    rfl

/-- A byte that memory or a device answers; a device's draws a value. -/
theorem busByte_answered {s : State} {a : Long} (h : s.readAnswer (physAddr a) ≠ .busError) :
    ∃ v, busByte a s = .ok v (s.drawn (s.readAnswer (physAddr a) == .device).toNat) := by
  cases e : s.readAnswer (physAddr a) with
  | stored => exact ⟨_, by rw [busByte_ok e]; rfl⟩
  | device => exact ⟨_, by simp only [busByte, e]; rfl⟩
  | busError => exact absurd e h

theorem State.deviceBytes_byte (s : State) (a : Long) :
    s.deviceBytes .b a = (s.readAnswer (physAddr a) == .device).toNat := by
  simp [State.deviceBytes, Size.bytes, List.range_succ, List.countP_cons, Bool.toNat, Bool.cond_eq_ite]

theorem State.deviceBytes_word (s : State) (a : Long) :
    s.deviceBytes .w a = (s.readAnswer (physAddr a) == .device).toNat + (s.readAnswer (physAddr (a + 1)) == .device).toNat := by
  simp [State.deviceBytes, Size.bytes, List.range_succ, List.countP_cons, Bool.toNat, Bool.cond_eq_ite, Nat.add_comm]

theorem State.deviceBytes_long (s : State) (a : Long) :
    s.deviceBytes .l a = s.deviceBytes .w a + s.deviceBytes .w (a + 2) := by
  have e : a + 2 + 1 = a + 3 := by rw [BitVec.add_assoc]; rfl
  simp only [State.deviceBytes_word, e]
  simp [State.deviceBytes, Size.bytes, List.range_succ, List.countP_cons, Bool.toNat, Bool.cond_eq_ite]
  omega

theorem cycleReadWord_answered {s : State} {acc : Access} {a : Long} (h0 : s.readAnswer (physAddr a) ≠ .busError)
    (h1 : s.readAnswer (physAddr (a + 1)) ≠ .busError) :
    ∃ v, cycleReadWord acc a s = .ok v (s.drawn (s.deviceBytes .w a)) := by
  obtain ⟨x, hx⟩ := busByte_answered h0
  obtain ⟨y, hy⟩ := busByte_answered (s := s.drawn (s.readAnswer (physAddr a) == .device).toNat) h1
  have ha : s.answersRead [a, a + 1] = true := by
    simp only [State.answersRead, List.all_cons, List.all_nil, bne_iff_ne.2 h0, bne_iff_ne.2 h1, Bool.and_self]
  refine ⟨x ++ y, ?_⟩
  simp only [cycleReadWord, look_bind, ha, if_true]
  rw [Exec.bind_ok hx, Exec.bind_ok hy, State.deviceBytes_word]
  simp only [State.drawn, Nat.add_assoc]
  rfl

/-- A read that memory or devices answer: each byte of a device draws a value. -/
theorem memRead_answered {s : State} {sz : Size} {a : Long} (space : Space) (ha : aligned sz a = true)
    (h : ∀ k < sz.bytes, s.readAnswer (physAddr (a + BitVec.ofNat 32 k)) ≠ .busError) :
    ∃ v, memRead sz space a s = .ok v (s.drawn (s.deviceBytes sz a)) := by
  unfold memRead
  rw [Exec.bind_ok (checkAligned_ok ha)]
  cases sz with
  | b =>
    have h0 : s.readAnswer (physAddr a) ≠ .busError := by simpa using h 0 (by decide)
    obtain ⟨v, hv⟩ := busByte_answered h0
    have hb : s.answersRead [a] = true := by simp [State.answersRead, h0]
    exact ⟨v, by simp only [readCycles, cycleReadByte, look_bind, hb, if_true, hv, State.deviceBytes_byte]⟩
  | w =>
    exact cycleReadWord_answered (by simpa using h 0 (by decide)) (h 1 (by decide))
  | l =>
    have e : a + 2 + 1 = a + 3 := by rw [BitVec.add_assoc]; rfl
    obtain ⟨x, hx⟩ := cycleReadWord_answered (s := s) (acc := ⟨a, false, space⟩) (a := a) (by simpa using h 0 (by decide))
      (h 1 (by decide))
    obtain ⟨y, hy⟩ := cycleReadWord_answered (s := s.drawn (s.deviceBytes .w a)) (acc := ⟨a, false, space⟩) (a := a + 2)
      (h 2 (by decide)) (by rw [e]; exact h 3 (by decide))
    refine ⟨(x ++ y : Long), ?_⟩
    simp only [readCycles]
    rw [Exec.bind_ok hx, Exec.bind_ok hy, State.deviceBytes_long]
    simp only [State.drawn, Nat.add_assoc]
    rfl

/-- A misaligned read raises an address error; nothing is read (R77). -/
theorem memRead_misaligned {s : State} {sz : Size} {a : Long} (space : Space) (h : aligned sz a = false) :
    memRead sz space a s = .error (.mem ⟨.address, ⟨a, false, space⟩⟩) s := by
  unfold memRead
  exact Exec.bind_error (checkAligned_error h)

/-- A misaligned write raises an address error; nothing is written (R77). -/
theorem memWrite_misaligned {s : State} {sz : Size} {a : Long} (lowFirst : Bool) (v : BitVec sz.bits)
    (h : aligned sz a = false) :
    memWrite sz lowFirst a v s = .error (.mem ⟨.address, ⟨a, true, .data⟩⟩) s := by
  unfold memWrite
  exact Exec.bind_error (checkAligned_error h)

/-! ### Writes -/

theorem storeByte_ok {s : State} {a : Long} (v : Byte) (h : s.writeAnswer (physAddr a) = .stored) :
    storeByte a v s = .ok () (s.setMem (s.mem.write (physAddr a) v)) := by
  simp [storeByte, h]

theorem cycleWriteByte_ok {s : State} {acc : Access} {a : Long} (v : Byte)
    (h : s.writeAnswer (physAddr a) = .stored) :
    cycleWriteByte acc a v s = .ok () (s.setMem (s.mem.write (physAddr a) v)) := by
  simp [cycleWriteByte, State.answersWrite, h, storeByte_ok]

/-- The memory a word write leaves. -/
def Memory.putWord (m : Memory) (a : Long) (v : Word) : Memory :=
  (m.write (physAddr a) (v.extractLsb' 8 8)).write (physAddr (a + 1)) (v.setWidth 8)

/-- The memory a write of a size leaves; a long word's halves in either order. -/
def Memory.putValue (m : Memory) : (sz : Size) → Bool → Long → BitVec sz.bits → Memory
  | .b, _, a, v => m.write (physAddr a) v
  | .w, _, a, v => m.putWord a v
  | .l, true, a, v => (m.putWord (a + 2) (v.setWidth 16)).putWord a (v.extractLsb' 16 16)
  | .l, false, a, v => (m.putWord a (v.extractLsb' 16 16)).putWord (a + 2) (v.setWidth 16)

theorem cycleWriteWord_ok {s : State} {acc : Access} {a : Long} (v : Word) (h : s.canWrite .w a) :
    cycleWriteWord acc a v s = .ok () (s.setMem (s.mem.putWord a v)) := by
  obtain ⟨h0, h1⟩ := h.word
  have h1' : (s.setMem (s.mem.write (physAddr a) (v.extractLsb' 8 8))).writeAnswer (physAddr (a + 1)) = .stored := h1
  simp only [cycleWriteWord, look_bind]
  rw [if_pos h.answers, Exec.bind_ok (storeByte_ok _ h0), storeByte_ok _ h1']
  rfl

/-- A write of plain memory succeeds and leaves `putValue`. -/
theorem memWrite_eq {s : State} {sz : Size} {a : Long} (lowFirst : Bool) (v : BitVec sz.bits) (h : s.canWrite sz a) :
    memWrite sz lowFirst a v s = .ok () (s.setMem (s.mem.putValue sz lowFirst a v)) := by
  unfold memWrite
  rw [Exec.bind_ok (checkAligned_ok h.1)]
  cases sz with
  | b =>
    have h0 : s.writeAnswer (physAddr a) = .stored := by simpa using h.at (k := 0) (by decide)
    exact cycleWriteByte_ok v h0
  | w => exact cycleWriteWord_ok v h
  | l =>
    obtain ⟨hw, hw2⟩ := State.canWrite_long h
    cases lowFirst with
    | true =>
      simp only [writeCycles]
      rw [Exec.bind_ok (cycleWriteWord_ok _ hw2)]
      exact cycleWriteWord_ok (s := s.setMem _) _ hw
    | false =>
      simp only [writeCycles]
      rw [Exec.bind_ok (cycleWriteWord_ok _ hw)]
      exact cycleWriteWord_ok (s := s.setMem _) _ hw2

theorem Memory.read_putWord (m : Memory) (a : Long) (v : Word) (p : Nat) :
    (m.putWord a v).read p =
      if physAddr (a + 1) = p then v.setWidth 8 else if physAddr a = p then v.extractLsb' 8 8 else m.read p := by
  simp only [Memory.putWord, Memory.read_write]

theorem physAddr_ne (a : Long) {j k : Nat} (hj : j < 2 ^ 24) (hk : k < 2 ^ 24) (h : j ≠ k) :
    physAddr (a + BitVec.ofNat 32 j) ≠ physAddr (a + BitVec.ofNat 32 k) :=
  fun e => h (physAddr_add_inj a hj hk e)

theorem word_bytes (v : Word) : v.extractLsb' 8 8 ++ v.setWidth 8 = v := by
  ext i hi
  simp only [BitVec.getElem_append]
  split
  · simp only [BitVec.getElem_setWidth]
    exact BitVec.getLsbD_eq_getElem (by omega)
  · simp only [BitVec.getElem_extractLsb']
    rw [BitVec.getLsbD_eq_getElem (by omega)]
    congr 1
    omega

theorem long_words (v : Long) : v.extractLsb' 16 16 ++ v.setWidth 16 = v := by
  ext i hi
  simp only [BitVec.getElem_append]
  split
  · simp only [BitVec.getElem_setWidth]
    exact BitVec.getLsbD_eq_getElem (by omega)
  · simp only [BitVec.getElem_extractLsb']
    rw [BitVec.getLsbD_eq_getElem (by omega)]
    congr 1
    omega

theorem Memory.putWord_frame (m : Memory) (a : Long) (v : Word) {p : Nat} (h : ¬ spans a 2 p) :
    (m.putWord a v).read p = m.read p := by
  rw [Memory.read_putWord, if_neg (fun e => h ⟨1, by decide, e.symm⟩),
    if_neg (fun e => h ⟨0, by decide, by simpa using e.symm⟩)]

theorem Memory.putWord_wordAt (m : Memory) (a : Long) (v : Word) : (m.putWord a v).wordAt a = v := by
  have h : physAddr (a + 1) ≠ physAddr a := by
    simpa using physAddr_ne a (j := 1) (k := 0) (by decide) (by decide) (by decide)
  simp only [Memory.wordAt, Memory.byteAt, Memory.read_putWord, if_neg h, if_true, word_bytes]

/-- A word outside the two bytes written. -/
theorem Memory.putWord_wordAt_other (m : Memory) (a b : Long) (v : Word) (h0 : ¬ spans a 2 (physAddr b))
    (h1 : ¬ spans a 2 (physAddr (b + 1))) : (m.putWord a v).wordAt b = m.wordAt b := by
  simp only [Memory.wordAt, Memory.byteAt, Memory.putWord_frame _ _ _ h0, Memory.putWord_frame _ _ _ h1]

theorem not_spans_add (a : Long) {j k n : Nat} (hk : k < 2 ^ 24) (hj : j + n < 2 ^ 24) (h : k < j ∨ j + n ≤ k) :
    ¬ spans (a + BitVec.ofNat 32 j) n (physAddr (a + BitVec.ofNat 32 k)) := by
  rintro ⟨i, hi, e⟩
  rw [add_ofNat_ofNat] at e
  have := physAddr_add_inj a hk (by omega) e
  omega

theorem spans_mono {a : Long} {j n N p : Nat} (h : spans (a + BitVec.ofNat 32 j) n p) (hN : j + n ≤ N) :
    spans a N p := by
  obtain ⟨k, hk, rfl⟩ := h
  exact ⟨j + k, by omega, by rw [add_ofNat_ofNat]⟩

theorem Memory.putValue_frame (m : Memory) (sz : Size) (lowFirst : Bool) (a : Long) (v : BitVec sz.bits) {p : Nat}
    (h : ¬ spans a sz.bytes p) : (m.putValue sz lowFirst a v).read p = m.read p := by
  cases sz with
  | b => exact Memory.read_write_other m v (fun e => h ⟨0, by decide, by simpa using e.symm⟩)
  | w => exact Memory.putWord_frame m a v h
  | l =>
    have h0 : ¬ spans a 2 p := fun e => h (spans_mono (j := 0) (by simpa using e) (by decide))
    have h2 : ¬ spans (a + 2) 2 p := fun e => h (spans_mono (j := 2) e (by decide))
    cases lowFirst <;>
      simp only [Memory.putValue, Memory.putWord_frame _ _ _ h0, Memory.putWord_frame _ _ _ h2]

theorem Memory.putValue_valueAt (m : Memory) (sz : Size) (lowFirst : Bool) (a : Long) (v : BitVec sz.bits) :
    (m.putValue sz lowFirst a v).valueAt sz a = v := by
  cases sz with
  | b => exact Memory.read_write_same m _ v
  | w => exact Memory.putWord_wordAt m a v
  | l =>
    have k0 : ¬ spans (a + 2) 2 (physAddr a) := by
      simpa using not_spans_add a (j := 2) (k := 0) (n := 2) (by decide) (by decide) (by decide)
    have k1 : ¬ spans (a + 2) 2 (physAddr (a + 1)) :=
      not_spans_add a (j := 2) (k := 1) (n := 2) (by decide) (by decide) (by decide)
    have k2 : ¬ spans a 2 (physAddr (a + 2)) := by
      simpa using not_spans_add a (j := 0) (k := 2) (n := 2) (by decide) (by decide) (by decide)
    have k3 : ¬ spans a 2 (physAddr (a + 2 + 1)) := by
      have := not_spans_add a (j := 0) (k := 3) (n := 2) (by decide) (by decide) (by decide)
      rw [show (3 : Nat) = 2 + 1 from rfl, ← add_ofNat_ofNat] at this
      simpa using this
    cases lowFirst <;>
      simp only [Memory.putValue, Memory.valueAt, Memory.longAt, Memory.putWord_wordAt,
        Memory.putWord_wordAt_other _ _ _ _ k0 k1, Memory.putWord_wordAt_other _ _ _ _ k2 k3, long_words]

theorem Memory.putWord_wf {m : Memory} (h : m.wf) (a : Long) (v : Word) : (m.putWord a v).wf :=
  Memory.write_wf (Memory.write_wf h (physAddr_lt _) _) (physAddr_lt _) _

theorem Memory.putValue_wf {m : Memory} (h : m.wf) (sz : Size) (lowFirst : Bool) (a : Long) (v : BitVec sz.bits) :
    (m.putValue sz lowFirst a v).wf := by
  cases sz with
  | b => exact Memory.write_wf h (physAddr_lt _) _
  | w => exact Memory.putWord_wf h a v
  | l => cases lowFirst <;> exact Memory.putWord_wf (Memory.putWord_wf h _ _) _ _

theorem Memory.putValue_stored (m : Memory) (sz : Size) (lowFirst : Bool) (a : Long) (v : BitVec sz.bits) :
    Stored m (m.putValue sz lowFirst a v) sz a v :=
  ⟨m.putValue_valueAt sz lowFirst a v, fun _ h => m.putValue_frame sz lowFirst a v h⟩

/-! ### Fetching extension words -/

theorem fetchExt_ok {s : State} (h : s.canRead .w s.pc) : fetchExt s = .ok () (s.setPc (s.pc + 2)) := by
  simp only [fetchExt, look_bind]
  rw [Exec.bind_ok (checkAligned_ok h.1)]
  simp only [look_bind]
  rw [if_pos h.answers]
  rfl

/-- All the extension words of an operand, where they can be fetched. -/
theorem fetchExts_ok {s : State} {n : Nat} (h : s.canFetch s.pc n) :
    fetchExts n s = .ok () (s.setPc (s.pc + BitVec.ofNat 32 (2 * n))) := by
  induction n generalizing s with
  | zero => simp [fetchExts, State.setPc]
  | succ n ih =>
    have h0 : s.canRead .w s.pc := by simpa using h 0 (by omega)
    have hn : (s.setPc (s.pc + 2)).canFetch (s.setPc (s.pc + 2)).pc n := by
      intro k hk
      have := h (k + 1) (by omega)
      rw [show 2 * (k + 1) = 2 + 2 * k by omega, ← add_ofNat_ofNat] at this
      exact this
    simp only [fetchExts]
    rw [Exec.bind_ok (fetchExt_ok h0), ih hn]
    simp only [State.setPc]
    rw [show (2 : Long) = BitVec.ofNat 32 2 from rfl, add_ofNat_ofNat, show 2 + 2 * n = 2 * (n + 1) by omega]

end Sys2Proof.Machine
end

