-- ==== Sys2Proof/Laws/Operands.lean ====
section
/-! SUPPORT. Effective addresses and the shared operations of the instruction forms, where nothing raises: one lemma each, in
the terms of Sys2Proof/Safety.lean. -/

namespace Sys2Proof.Machine

/-! ### The side effect of a mode -/

section
variable (sz : Size) (ea : Ea) (s : State)

@[simp] theorem eaTouch_d : (eaTouch sz ea s).d = s.d := by cases ea <;> simp [eaTouch]
@[simp] theorem eaTouch_pc : (eaTouch sz ea s).pc = s.pc := by cases ea <;> simp [eaTouch]
@[simp] theorem eaTouch_sr : (eaTouch sz ea s).sr = s.sr := by cases ea <;> simp [eaTouch]
@[simp] theorem eaTouch_ir : (eaTouch sz ea s).ir = s.ir := by cases ea <;> simp [eaTouch]
@[simp] theorem eaTouch_run : (eaTouch sz ea s).run = s.run := by cases ea <;> simp [eaTouch]
@[simp] theorem eaTouch_mem : (eaTouch sz ea s).mem = s.mem := by cases ea <;> simp [eaTouch]
@[simp] theorem eaTouch_stale : (eaTouch sz ea s).stale = s.stale := by cases ea <;> simp [eaTouch]
@[simp] theorem eaTouch_memMap : (eaTouch sz ea s).memMap = s.memMap := by cases ea <;> simp [eaTouch]
@[simp] theorem eaTouch_refilled : (eaTouch sz ea s).refilled = s.refilled := by cases ea <;> simp [eaTouch]
@[simp] theorem eaTouch_traceDue : (eaTouch sz ea s).traceDue = s.traceDue := by cases ea <;> simp [eaTouch]
@[simp] theorem eaTouch_draws : (eaTouch sz ea s).draws = s.draws := by cases ea <;> simp [eaTouch]
@[simp] theorem eaTouch_getD (n : RegNum) : (eaTouch sz ea s).getD n = s.getD n := by simp [State.getD]
@[simp] theorem eaTouch_readAnswer (p : Nat) : (eaTouch sz ea s).readAnswer p = s.readAnswer p := by
  simp [State.readAnswer]
@[simp] theorem eaTouch_writeAnswer (p : Nat) : (eaTouch sz ea s).writeAnswer p = s.writeAnswer p := by
  simp [State.writeAnswer]

end

/-! ### Where an access can be made depends on the memory map alone -/

theorem State.canRead_congr {s t : State} (h : t.memMap = s.memMap) (sz : Size) (a : Long) :
    t.canRead sz a ↔ s.canRead sz a := by
  simp only [State.canRead, State.readAnswer, h]

theorem State.canWrite_congr {s t : State} (h : t.memMap = s.memMap) (sz : Size) (a : Long) :
    t.canWrite sz a ↔ s.canWrite sz a := by
  simp only [State.canWrite, State.writeAnswer, h]

theorem State.canFetch_congr {s t : State} (h : t.memMap = s.memMap) (a : Long) (n : Nat) :
    t.canFetch a n ↔ s.canFetch a n := by
  simp only [State.canFetch, State.canRead_congr h]

theorem LocReadable_congr {s t : State} (h : t.memMap = s.memMap) (sz : Size) (loc : Loc) :
    LocReadable t sz loc ↔ LocReadable s sz loc := by
  cases loc <;> simp only [LocReadable, State.canRead_congr h]

theorem LocWritable_congr {s t : State} (h : t.memMap = s.memMap) (sz : Size) (loc : Loc) :
    LocWritable t sz loc ↔ LocWritable s sz loc := by
  cases loc <;> simp only [LocWritable, State.canWrite_congr h]

/-- The place of an operand depends on the registers alone. -/
theorem eaLoc_congr {s t : State} (hd : ∀ n, t.getD n = s.getD n) (ha : ∀ n, t.getA n = s.getA n) (base : Long)
    (sz : Size) (ea : Ea) : eaLoc t base sz ea = eaLoc s base sz ea := by
  cases ea <;> simp only [eaLoc, State.indexValue, hd, ha]

/-! ### Decode, read, write -/

theorem decodeEa_ok {s : State} {sz : Size} {ea : Ea} (h : s.canFetch s.pc (eaWords sz ea)) :
    decodeEa sz ea s =
      .ok (eaLoc s s.pc sz ea) (eaTouch sz ea (s.setPc (s.pc + BitVec.ofNat 32 (2 * eaWords sz ea)))) := by
  simp only [decodeEa, look_bind]
  rw [Exec.bind_ok (fetchExts_ok h)]
  rfl

theorem readLoc_ok {s : State} {sz : Size} {loc : Loc} (h : LocReadable s sz loc) :
    readLoc sz loc s = .ok (locValue s sz loc) s := by
  cases loc with
  | dreg n => rfl
  | areg n => rfl
  | mem a space lf => exact memRead_ok space h
  | imm v => rfl

theorem writeLoc_ok {s : State} {sz : Size} {loc : Loc} (v : BitVec sz.bits) (h : LocWritable s sz loc) :
    ∃ t, writeLoc sz loc v s = .ok () t ∧ LocWritten s sz loc v t := by
  cases loc with
  | dreg n => exact ⟨_, rfl, rfl⟩
  | areg n => exact ⟨_, rfl, rfl⟩
  | mem a space lf => exact ⟨_, memWrite_eq lf v h, _, rfl, s.mem.putValue_stored sz lf a v⟩
  | imm v => exact h.elim

/-- The value of an operand is what it was before its own side effect. -/
theorem locValue_touch (s : State) (sz : Size) (ea : Ea) (pc base : Long) :
    locValue (eaTouch sz ea (s.setPc pc)) sz (eaLoc s base sz ea) = locValue s sz (eaLoc s base sz ea) := by
  cases ea <;> first | rfl | simp [eaLoc, locValue]

theorem readEa_ok {s : State} {sz : Size} {ea : Ea} (h : s.canFetch s.pc (eaWords sz ea))
    (hr : LocReadable s sz (eaLoc s s.pc sz ea)) :
    readEa sz ea s =
      .ok (locValue s sz (eaLoc s s.pc sz ea)) (eaTouch sz ea (s.setPc (s.pc + BitVec.ofNat 32 (2 * eaWords sz ea)))) := by
  simp only [readEa]
  rw [Exec.bind_ok (decodeEa_ok h), readLoc_ok ((LocReadable_congr (by simp) _ _).2 hr), locValue_touch]

/-- The unlisted read where no device is reached: nothing. -/
theorem unlistedRead_memory {s : State} {sz : Size} (space : Space) {a : Long} (h : s.reachesDevice sz a = false) :
    unlistedRead sz space a s = .ok () s := by
  simp only [unlistedRead, look_bind, h, Bool.and_false]
  rfl

/-- Where no device is reached, no byte is a device's. -/
theorem State.deviceBytes_memory {s : State} {sz : Size} {a : Long} (h : s.reachesDevice sz a = false) :
    s.deviceBytes sz a = 0 := by
  simp only [State.deviceBytes, List.countP_eq_zero]
  simp only [State.reachesDevice, List.any_eq_false] at h
  intro k hk e
  refine h k hk ?_
  rw [State.isDevice, beq_iff_eq.1 e]

/-- The unlisted read where no device is reached or the whole read is answered. -/
theorem unlistedRead_ok {s : State} {sz : Size} {space : Space} {a : Long} {lf : Bool}
    (h : s.reachesDevice sz a = false ∨ LocAnswered s sz (.mem a space lf)) :
    unlistedRead sz space a s = .ok () (s.afterUnlistedRead sz (.mem a space lf)) := by
  cases hd : s.reachesDevice sz a with
  | false =>
    rw [unlistedRead_memory space hd, State.afterUnlistedRead, State.deviceBytes_memory hd]
    split <;> rfl
  | true =>
    cases ha : aligned sz a with
    | false => simp only [unlistedRead, look_bind, ha, Bool.false_and, State.afterUnlistedRead]; rfl
    | true =>
      obtain ⟨v, hv⟩ := memRead_answered space ha (h.resolve_left (by simp [hd]))
      simp only [unlistedRead, look_bind, ha, hd, Bool.and_self, if_true, State.afterUnlistedRead]
      rw [Exec.bind_ok hv]
      rfl

theorem addrOfEa_ok {s : State} {ea : Ea} {a : Long} {space : Space} {lf : Bool}
    (h : s.canFetch s.pc (eaWords .l ea)) (ha : eaLoc s s.pc .l ea = .mem a space lf) :
    addrOfEa ea s = .ok a (eaTouch .l ea (s.setPc (s.pc + BitVec.ofNat 32 (2 * eaWords .l ea)))) := by
  simp only [addrOfEa]
  rw [Exec.bind_ok (decodeEa_ok h), ha]
  rfl

/-- Reading, computing and writing back at one place. -/
theorem modifyLoc_ok {s : State} {sz : Size} {loc : Loc} (f : Unary sz.bits) (hr : LocReadable s sz loc)
    (hw : LocWritable s sz loc) :
    ∃ t, LocWritten s sz loc (f (locValue s sz loc) s.sr.ccr).1 t ∧
      modifyLoc sz f loc s = .ok () (t.setCcr (f (locValue s sz loc) s.sr.ccr).2) := by
  obtain ⟨t, ht, hwr⟩ := writeLoc_ok (f (locValue s sz loc) s.sr.ccr).1 hw
  refine ⟨t, hwr, ?_⟩
  simp only [modifyLoc]
  rw [Exec.bind_ok (readLoc_ok hr)]
  simp only [look_bind]
  exact thenFlags_ok ht

/-! ### One instruction -/

theorem runInstr_ok {body : Exec Unit} {s t : State} (h : body s.startInstr = .ok () t) :
    runInstr body s = .next t := by
  simp [runInstr, h]

theorem runInstr_exc {body : Exec Unit} {s t : State} {e : Exc} (h : body s.startInstr = .error (.exc e) t) :
    runInstr body s = .next (takeException s.pc e t) := by
  simp [runInstr, h]

theorem runInstr_mem {body : Exec Unit} {s t : State} {f : MemFault} (h : body s.startInstr = .error (.mem f) t) :
    runInstr body s = .next ((takeMemFault (some s.pc) false f t).setTraceDue false) := by
  simp [runInstr, h]

theorem State.afterWords_add (s : State) (k n : Nat) :
    s.afterWords k + BitVec.ofNat 32 (2 * n) = s.afterWords (k + n) := by
  unfold State.afterWords
  rw [add_ofNat_ofNat]
  congr 2
  omega

theorem State.startInstr_eq_completed (s : State) : s.startInstr = s.completed 0 := rfl

theorem State.completed_setPc (s : State) (k n : Nat) :
    (s.completed k).setPc ((s.completed k).pc + BitVec.ofNat 32 (2 * n)) = s.completed (k + n) := by
  simp only [State.completed_pc, State.afterWords_add]
  rfl

/-- The place of an operand, seen from inside the instruction. -/
theorem State.eaLoc_completed (s : State) (k : Nat) (sz : Size) (ea : Ea) :
    eaLoc (s.completed k) (s.completed k).pc sz ea = s.operand k sz ea := by
  simp only [State.operand, State.completed_pc]
  exact eaLoc_congr (fun _ => rfl) (fun _ => rfl) _ _ _

end Sys2Proof.Machine
end

