-- ==== Sys2Proof/Laws/Exceptions.lean ====
section
/-! SUPPORT. The stack and exception entry, where nothing raises: one lemma each. -/

namespace Sys2Proof.Machine

theorem push32_ok {s : State} (v : Long) (h : s.canWrite .l (s.sp - 4)) :
    push32 v s = .ok () ((s.putSp (s.sp - 4)).setMem (s.mem.putValue .l true (s.sp - 4) v)) := by
  simp only [push32, update_bind, look_bind, State.sp_putSp]
  rw [memWrite_eq true v ((State.canWrite_congr (by simp) _ _).2 h), State.putSp_mem]

theorem push16_ok {s : State} (v : Word) (h : s.canWrite .w (s.sp - 2)) :
    push16 v s = .ok () ((s.putSp (s.sp - 2)).setMem (s.mem.putValue .w true (s.sp - 2) v)) := by
  simp only [push16, update_bind, look_bind, State.sp_putSp]
  rw [memWrite_eq true v ((State.canWrite_congr (by simp) _ _).2 h), State.putSp_mem]

theorem pop16_ok {s : State} (h : s.canRead .w s.sp) :
    pop16 s = .ok (s.mem.wordAt s.sp) (s.putSp (s.sp + 2)) := by
  simp only [pop16, look_bind]
  rw [Exec.bind_ok (memRead_ok .data h)]
  rfl

theorem pop32_ok {s : State} (h : s.canRead .l s.sp) :
    pop32 s = .ok (s.mem.longAt s.sp) (s.putSp (s.sp + 4)) := by
  simp only [pop32, look_bind]
  rw [Exec.bind_ok (memRead_ok .data h)]
  rfl

theorem loadVector_ok {s : State} {v : Nat} (h : s.canRead .l (vectorAddr v)) :
    loadVector v s = .ok () (s.jumpTo (s.mem.longAt (vectorAddr v))) := by
  simp only [loadVector]
  rw [Exec.bind_ok (memRead_ok .data h)]
  rfl

/-- Whether an entry can be made depends on the memory map and the supervisor stack pointer alone. -/
theorem State.entryReady_congr {s t : State} (hm : t.memMap = s.memMap) (hs : t.ssp = s.ssp) (v : Nat) :
    t.entryReady v ↔ s.entryReady v := by
  simp only [State.entryReady, State.canWrite_congr hm, State.canRead_congr hm, hs]

/-- Two stores that touch different bytes: the first one's value survives. -/
theorem Memory.valueAt_frame {m m' : Memory} {sz : Size} {a b : Long} {n : Nat}
    (h : ∀ p, ¬ spans b n p → m'.read p = m.read p)
    (hd : ∀ k < sz.bytes, ¬ spans b n (physAddr (a + BitVec.ofNat 32 k))) : m'.valueAt sz a = m.valueAt sz a := by
  have hb : ∀ k < sz.bytes, m'.read (physAddr (a + BitVec.ofNat 32 k)) = m.read (physAddr (a + BitVec.ofNat 32 k)) :=
    fun k hk => h _ (hd k hk)
  have h0 : 0 < sz.bytes → m'.byteAt a = m.byteAt a := fun hk => by simpa [Memory.byteAt] using hb 0 hk
  cases sz with
  | b => exact h0 (by decide)
  | w =>
    have h1 : m'.byteAt (a + 1) = m.byteAt (a + 1) := hb 1 (by decide)
    simp only [Memory.valueAt, Memory.wordAt, h0 (by decide), h1]
  | l =>
    have h1 : m'.byteAt (a + 1) = m.byteAt (a + 1) := hb 1 (by decide)
    have h2 : m'.byteAt (a + 2) = m.byteAt (a + 2) := hb 2 (by decide)
    have h3 : m'.byteAt (a + 2 + 1) = m.byteAt (a + 2 + 1) := by
      have := hb 3 (by decide)
      rw [show (3 : Nat) = 2 + 1 from rfl, ← add_ofNat_ofNat] at this
      exact this
    simp only [Memory.valueAt, Memory.longAt, Memory.wordAt, h0 (by decide), h1, h2, h3]

theorem sub_eq_add_ofNat (a : Long) (j k : Nat) (hk : k ≤ j) (_hj : j < 2 ^ 32) :
    a - BitVec.ofNat 32 k = a - BitVec.ofNat 32 j + BitVec.ofNat 32 (j - k) := by
  apply BitVec.eq_of_toNat_eq
  simp only [BitVec.toNat_add, BitVec.toNat_sub, BitVec.toNat_ofNat]
  omega

/-- The memory two pushes of a frame leave: a word just below a long word. -/
theorem frame_memory (m : Memory) (a : Long) (pc : Long) (w : Word) :
    let m' := (m.putValue .l true (a - 4) pc).putValue .w true (a - 6) w
    m'.longAt (a - 4) = pc ∧ m'.wordAt (a - 6) = w ∧ ∀ p, ¬ spans (a - 6) 6 p → m'.read p = m.read p := by
  intro m'
  have e4 : a - 4 = a - 6 + BitVec.ofNat 32 2 := sub_eq_add_ofNat a 6 4 (by decide) (by decide)
  refine ⟨?_, ?_, fun p hp => ?_⟩
  · have := Memory.valueAt_frame (m := m.putValue .l true (a - 4) pc) (m' := m') (sz := .l) (a := a - 4) (b := a - 6)
      (n := 2) (fun p hp => Memory.putValue_frame _ .w true _ w hp) (fun k hk => by
        have hk : k < 4 := hk
        rw [e4, add_ofNat_ofNat]
        have := not_spans_add (a - 6) (j := 0) (k := 2 + k) (n := 2) (by omega) (by decide) (by omega)
        simpa using this)
    simp only [Memory.valueAt] at this
    rw [this]
    exact Memory.putValue_valueAt m .l true _ pc
  · exact Memory.putValue_valueAt _ .w true _ w
  · have h2 : ¬ spans (a - 6) 2 p := fun h => hp (spans_mono (j := 0) (by simpa using h) (by decide))
    have h4 : ¬ spans (a - 4) 4 p := fun h => hp (spans_mono (j := 2) (by rwa [e4] at h) (by decide))
    show ((m.putValue .l true (a - 4) pc).putValue .w true (a - 6) w).read p = m.read p
    rw [Memory.putValue_frame _ .w true _ w h2, Memory.putValue_frame _ .l true _ pc h4]

/-- The two pushes and the vector of an exception, from the state in supervisor mode. -/
theorem frameAndVector_ok {s : State} (v : Nat) (savedPc : Long) (w : Word) (hs : s.sr.s = true)
    (h : s.entryReady v) :
    ∃ m, (push32 savedPc >>= fun _ => push16 w >>= fun _ => loadVector v) s =
        .ok () (((s.setSsp (s.ssp - 6)).setMem m).jumpTo (m.longAt (vectorAddr v))) ∧
      m.longAt (s.ssp - 4) = savedPc ∧ m.wordAt (s.ssp - 6) = w ∧
      ∀ p, ¬ spans (s.ssp - 6) 6 p → m.read p = s.mem.read p := by
  obtain ⟨hl, hw, hv⟩ := h
  have hsp : s.sp = s.ssp := by simp [State.sp, hs]
  have e : s.ssp - 4 - 2 = s.ssp - 6 := by rw [BitVec.sub_sub]; rfl
  refine ⟨_, ?_, frame_memory s.mem s.ssp savedPc w⟩
  have h1 : push32 savedPc s = .ok () ((s.setSsp (s.ssp - 4)).setMem (s.mem.putValue .l true (s.ssp - 4) savedPc)) := by
    rw [push32_ok savedPc (by rwa [hsp]), hsp, State.putSp_supervisor s _ hs]
  rw [Exec.bind_ok h1]
  have hsp1 : ((s.setSsp (s.ssp - 4)).setMem (s.mem.putValue .l true (s.ssp - 4) savedPc)).sp = s.ssp - 4 := by
    simp [State.sp, hs]
  have h2 := push16_ok (s := (s.setSsp (s.ssp - 4)).setMem (s.mem.putValue .l true (s.ssp - 4) savedPc)) w
    (by rw [hsp1, e]; exact (State.canWrite_congr rfl _ _).2 hw)
  rw [hsp1, e, State.putSp_supervisor ((s.setSsp (s.ssp - 4)).setMem (s.mem.putValue .l true (s.ssp - 4) savedPc)) _ hs]
    at h2
  rw [Exec.bind_ok h2]
  exact loadVector_ok ((State.canRead_congr rfl _ _).2 hv)

/-- Taking an exception of group 1 or 2 where its frame can be pushed and its vector read. -/
theorem processException_ok {s : State} {v : Nat} (savedPc : Long) (h : s.entryReady v) :
    ∃ t, processException v savedPc s = .ok () t ∧ Entered s v savedPc t := by
  obtain ⟨m, hm, h1, h2, h3⟩ := frameAndVector_ok (s := s.setSr s.sr.forHandler) v savedPc s.sr.toWord rfl
    ⟨h.1, h.2.1, h.2.2⟩
  exact ⟨_, hm, m, rfl, h1, h2, h3⟩

theorem takeEntry_ok {ipc : Option Long} {b : Bool} {entry : Exec Unit} {s t : State} (h : entry s = .ok () t) :
    takeEntry ipc b entry s = t := by
  simp [takeEntry, h]

/-- Taking an exception of group 2 where its entry can be made. -/
theorem takeException_group2 {ipc : Long} {e : Exc} {s : State} (he : e.isGroup2 = true) (h : s.entryReady e.vector) :
    ∃ t, takeException ipc e s = t ∧ Entered s e.vector s.pc t := by
  obtain ⟨t, ht, hE⟩ := processException_ok s.pc h
  exact ⟨t, by rw [takeException, if_pos he, takeEntry_ok ht], hE⟩

/-- Taking an exception of group 1 where its entry can be made. -/
theorem takeException_group1 {ipc : Long} {e : Exc} {s : State} (he : e.isGroup2 = false) (h : s.entryReady e.vector) :
    ∃ t, takeException ipc e s = t.setTraceDue false ∧ Entered s e.vector ipc t := by
  obtain ⟨t, ht, hE⟩ := processException_ok ipc h
  exact ⟨t, by rw [takeException, if_neg (by simp [he]), takeEntry_ok ht], hE⟩

end Sys2Proof.Machine
end

