-- ==== Sys2Proof/Laws/Fetch.lean ====
section
/-! SUPPORT. What a step does around an instruction, where nothing raises: the fetch from plain memory, where it stops, and the
processing of an interrupt. -/

namespace Sys2Proof.Machine

/-! ### The fetch -/

/-- An instruction word of plain memory, nothing stale. -/
theorem codeWord_ok {s : State} {a : Long} (hs : s.stale = []) (h : s.canRead .w a) :
    codeWord a s = .ok (s.mem.wordAt a) s := by
  obtain ⟨h0, h1⟩ := h.word
  simp only [codeWord]
  rw [Exec.bind_ok (busByte_ok h0), Exec.bind_ok (busByte_ok h1)]
  simp only [look_bind, hs, staleChoice]
  rfl

/-- The words after the operation word, one after the other. -/
theorem peekWords_ok {s : State} {n : Nat} {a : Long} (hs : s.stale = []) (h : s.canFetch a n) :
    peekWords n a s = .ok ((List.range n).map fun k => s.mem.wordAt (a + BitVec.ofNat 32 (2 * k))) s := by
  induction n generalizing a with
  | zero => rfl
  | succ n ih =>
    have h0 : s.canRead .w a := by simpa using h 0 (by omega)
    have e : ∀ k, a + 2 + BitVec.ofNat 32 (2 * k) = a + BitVec.ofNat 32 (2 * (k + 1)) := fun k => by
      rw [BitVec.add_assoc, Nat.mul_add, Nat.add_comm, BitVec.ofNat_add]; rfl
    have ht : s.canFetch (a + 2) n := fun k hk => e k ▸ h (k + 1) (by omega)
    simp only [peekWords, look_bind, h0.answers, if_true]
    rw [Exec.bind_ok (codeWord_ok hs h0), Exec.bind_ok (ih ht), List.range_succ_eq_map]
    simpa [Function.comp_def] using fun k _ => congrArg s.mem.wordAt (e k)

/-- The fetch of the operation word, and where it raises (R344). -/
theorem fetchOpWord_ok {s : State} (hs : s.stale = []) (h : s.canRead .w s.pc) :
    fetchOpWord s = .ok (s.mem.wordAt s.pc) s := by
  simp only [fetchOpWord, look_bind]
  rw [Exec.bind_ok (checkAligned_ok h.1)]
  simp only [look_bind]
  rw [if_pos h.answers]
  exact codeWord_ok hs h

theorem fetchOpWord_misaligned {s : State} (h : aligned .w s.pc = false) :
    fetchOpWord s = .error (.mem ⟨.address, ⟨s.pc, false, .program⟩⟩) s := by
  simp only [fetchOpWord, look_bind]
  exact Exec.bind_error (checkAligned_error h)

theorem fetchOpWord_unanswered {s : State} (ha : aligned .w s.pc = true) (h : s.answersRead [s.pc, s.pc + 1] = false) :
    fetchOpWord s = .error (.mem ⟨.bus, ⟨s.pc, false, .program⟩⟩) s := by
  simp only [fetchOpWord, look_bind]
  rw [Exec.bind_ok (checkAligned_ok ha)]
  simp only [look_bind]
  rw [h]
  rfl

theorem fetchWords_error {s t : State} {r : Raise} (h : fetchOpWord s = .error r t) : fetchWords s = .error r t :=
  Exec.bind_error h

/-- The fetch of an instruction from plain memory, nothing stale: its words, and the operation word kept. -/
theorem fetchWords_ok {s : State} (hs : s.stale = []) (h : s.canFetch s.pc 5) :
    fetchWords s = .ok s.codeWords (s.setIr (s.mem.wordAt s.pc)) := by
  have h1 : (s.setIr (s.mem.wordAt s.pc)).canFetch (s.pc + 2) 4 := fun k hk => by
    have := h (k + 1) (by omega)
    rw [Nat.mul_add, Nat.add_comm, BitVec.ofNat_add, ← BitVec.add_assoc] at this
    exact (State.canRead_congr (s := s) rfl _ _).2 this
  simp only [fetchWords]
  rw [Exec.bind_ok (fetchOpWord_ok hs (by simpa using h 0 (by decide)))]
  simp only [update_bind, look_bind]
  refine (Exec.bind_ok (peekWords_ok (s := s.setIr (s.mem.wordAt s.pc)) hs h1)).trans ?_
  simp [State.codeWords, List.range_succ, BitVec.add_assoc]
/-! ### The processing of an interrupt -/

/-- Entering the handler of an interrupt where its frame can be pushed and its vector read. -/
theorem processInterrupt_ok {s : State} (level : BitVec 3) (h : s.entryReady (ackVector level s.intAck[level.toFin])) :
    ∃ t, processInterrupt level s = .ok () t ∧
      EnteredAs s { s.sr with t := false, s := true, i := level } (ackVector level s.intAck[level.toFin]) s.pc t := by
  obtain ⟨m, hm, h1, h2, h3⟩ := frameAndVector_ok (s := s.setSr { s.sr.forHandler with i := level }) _ s.pc s.sr.toWord rfl
    ⟨h.1, h.2.1, h.2.2⟩
  exact ⟨_, hm, m, rfl, h1, h2, h3⟩

end Sys2Proof.Machine
end

