-- ==== Sys2Proof/Laws/Forms.lean ====
section
/-! SUPPORT. The forms of Sys2Proof/Safety.lean inside an instruction: fetching and reading an operand from the state in which
the instruction has `k` extension words behind it, and what is left to show of a `Reads` or a `Modifies`. -/

namespace Sys2Proof.Machine

theorem extReady_completed {s : State} {k n : Nat} (h : s.extReady (k + n)) :
    (s.completed k).canFetch (s.completed k).pc n := by
  intro j hj
  have := h (k + j) (by omega)
  rw [State.canRead_congr (t := s.completed k) (s := s) rfl]
  have e : (s.completed k).pc + BitVec.ofNat 32 (2 * j) = s.afterWords 0 + BitVec.ofNat 32 (2 * (k + j)) := by
    simp only [State.completed_pc, State.afterWords_add]; congr 1; omega
  rw [e]; exact this

theorem extReady_mono {s : State} {k n : Nat} (h : s.extReady n) (hk : k ≤ n) : s.extReady k := fun j hj => h j (by omega)

theorem readable_completed {s : State} {k : Nat} {sz : Size} {ea : Ea}
    (h : LocReadable s sz (s.operand k sz ea)) :
    LocReadable (s.completed k) sz (eaLoc (s.completed k) (s.completed k).pc sz ea) := by
  rw [State.eaLoc_completed]; exact (LocReadable_congr rfl _ _).2 h

theorem locValue_completed (s : State) (k : Nat) (sz : Size) (loc : Loc) : locValue (s.completed k) sz loc = locValue s sz loc := by
  cases loc <;> rfl

theorem readEa_completed {s : State} {k : Nat} {sz : Size} {ea : Ea} (h : s.extReady (k + eaWords sz ea))
    (hr : LocReadable s sz (s.operand k sz ea)) :
    readEa sz ea (s.completed k) =
      .ok (locValue s sz (s.operand k sz ea)) (eaTouch sz ea (s.completed (k + eaWords sz ea))) := by
  rw [readEa_ok (extReady_completed h) (readable_completed hr), State.completed_setPc, State.eaLoc_completed, locValue_completed]

theorem decodeEa_completed {s : State} {k : Nat} {sz : Size} {ea : Ea} (h : s.extReady (k + eaWords sz ea)) :
    decodeEa sz ea (s.completed k) = .ok (s.operand k sz ea) (eaTouch sz ea (s.completed (k + eaWords sz ea))) := by
  rw [decodeEa_ok (extReady_completed h), State.completed_setPc, State.eaLoc_completed]

theorem fetchExts_completed {s : State} {k n : Nat} (h : s.extReady (k + n)) :
    fetchExts n (s.completed k) = .ok () (s.completed (k + n)) := by
  rw [fetchExts_ok (extReady_completed h), State.completed_setPc]

theorem fetchExt_completed {s : State} {k : Nat} (h : s.extReady (k + 1)) :
    fetchExt (s.completed k) = .ok () (s.completed (k + 1)) := by
  have := extReady_completed h
  rw [fetchExt_ok (by simpa using this 0 (by omega)), ← State.completed_setPc]; rfl

theorem operand_touch_readable {s : State} {k : Nat} {sz : Size} {ea : Ea} {n : Nat} (h : LocReadable s sz (s.operand k sz ea)) :
    LocReadable (eaTouch sz ea (s.completed n)) sz (s.operand k sz ea) := (LocReadable_congr (by simp) _ _).2 h
theorem operand_touch_writable {s : State} {sz : Size} {ea : Ea} {n : Nat} {loc : Loc} (h : LocWritable s sz loc) :
    LocWritable (eaTouch sz ea (s.completed n)) sz loc := (LocWritable_congr (by simp) _ _).2 h

theorem locValue_touch_completed (s : State) (k n : Nat) (sz : Size) (ea : Ea) :
    locValue (eaTouch sz ea (s.completed n)) sz (s.operand k sz ea) = locValue s sz (s.operand k sz ea) := by
  cases ea <;> first | rfl | simp [State.operand, eaLoc, locValue]

/-- To show a `Reads`: the meaning's body from the state an instruction starts in. -/
theorem reads_of {i : Instr} {s : State} {k : Nat} {sz : Size} {ea : Ea} {g : BitVec sz.bits → State → State} {body : Exec Unit}
    (hi : exec i s = runInstr body s)
    (hb : ∀ v t, s.extReady (k + eaWords sz ea) → t = eaTouch sz ea (s.completed (k + eaWords sz ea)) →
      readEa sz ea (s.completed k) = .ok v t → body (s.completed 0) = .ok () (g v t)) : Reads i s k sz ea g := by
  intro he hr
  rw [hi]
  exact runInstr_ok (hb _ _ he rfl (readEa_completed he hr))

/-- To show a `Modifies`: the body comes down to `modifyLoc` at the operand. -/
theorem modifies_of {i : Instr} {s : State} {k : Nat} {sz : Size} {ea : Ea} {f : Unary sz.bits} {body : Exec Unit}
    (hi : exec i s = runInstr body s)
    (hb : ∀ t, s.extReady (k + eaWords sz ea) → body (s.completed 0) = t →
      t = modifyLoc sz f (s.operand k sz ea) (eaTouch sz ea (s.completed (k + eaWords sz ea)))) : Modifies i s k sz ea f := by
  intro he hr hw
  obtain ⟨t, h1, h2⟩ := modifyLoc_ok (s := eaTouch sz ea (s.completed (k + eaWords sz ea))) f (operand_touch_readable hr)
    (operand_touch_writable hw)
  rw [locValue_touch_completed] at h1 h2
  simp only [eaTouch_sr, State.completed_sr] at h1 h2
  refine ⟨t, ?_, h1⟩
  rw [hi]
  exact runInstr_ok ((hb _ he rfl).trans h2)

/-- To show what an instruction completes in. -/
theorem exec_next {i : Instr} {s t : State} {body : Exec Unit} (hi : exec i s = runInstr body s)
    (h : body (s.completed 0) = .ok () t) : exec i s = .next t := hi ▸ runInstr_ok h

/-- To show which exception of group 1 or 2 an instruction takes. -/
theorem exec_exc {i : Instr} {s t : State} {e : Exc} {body : Exec Unit} (hi : exec i s = runInstr body s)
    (h : body (s.completed 0) = .error (.exc e) t) : exec i s = .next (takeException s.pc e t) := hi ▸ runInstr_exc h

theorem requireSupervisor_ok {s : State} (h : s.sr.s = true) : requireSupervisor s = .ok () s := by
  simp [requireSupervisor, h]

theorem requireSupervisor_error {s : State} (h : s.sr.s = false) :
    requireSupervisor s = .error (.exc .privilegeViolation) s := by
  simp [requireSupervisor, h]

end Sys2Proof.Machine
end

