-- ==== Sys2Proof/Laws/Keeps.lean ====
section
/-! SUPPORT. What every shared operation keeps: a property closed under the elementary changes of an instruction is kept by
each of them, whether it succeeds or raises. -/

namespace Sys2Proof.Machine

/-- A property that the bus keeps: a byte written, a free value drawn. -/
structure BusClosed (P : State → Prop) : Prop where
  nextDraw : ∀ s, P s → P s.nextDraw
  write : ∀ s p v, p < 2 ^ 24 → P s → P (s.setMem (s.mem.write p v))

/-- A property that pushes, pops and transfers of control keep too. -/
structure StackClosed (P : State → Prop) : Prop extends BusClosed P where
  putSp : ∀ s v, P s → P (s.putSp v)
  jumpTo : ∀ s v, P s → P (s.jumpTo v)

/-- A property that every elementary change an instruction makes without privilege keeps. -/
structure Closed (P : State → Prop) : Prop extends StackClosed P where
  setPc : ∀ s v, P s → P (s.setPc v)
  setCcr : ∀ s f, P s → P (s.setCcr f)
  putD : ∀ s n v, P s → P (s.putD n v)
  putA : ∀ s n v, P s → P (s.putA n v)

/-- A property that every elementary change of exception processing keeps. -/
structure EntryClosed (P : State → Prop) : Prop extends StackClosed P where
  setSr : ∀ s r, r.s = true → r.t = false → P s → P (s.setSr r)

variable {P : State → Prop}

/-! ### The bus -/

section
variable (hP : BusClosed P)
include hP

theorem BusClosed.busByte (a : Long) : Keeps P (busByte a) where
  ok {s _ _} hs h := by
    unfold Machine.busByte at h
    split at h
    · injection h with _ h; exact h ▸ hP.nextDraw _ hs
    · injection h with _ h; exact h ▸ hs
  error {s _ _} _ h := by
    unfold Machine.busByte at h
    split at h <;> injection h

theorem BusClosed.storeByte (a : Long) (v : Byte) : Keeps P (storeByte a v) := by
  refine Keeps.update fun s hs => ?_
  split
  · exact hP.write _ _ _ (physAddr_lt a) hs
  · exact hs

theorem BusClosed.cycleReadByte (acc : Access) (a : Long) : Keeps P (cycleReadByte acc a) :=
  (Keeps.look _).bind fun _ => .ite (hP.busByte a) (.fail _)

theorem BusClosed.cycleReadWord (acc : Access) (a : Long) : Keeps P (cycleReadWord acc a) :=
  (Keeps.look _).bind fun _ => .ite ((hP.busByte a).bind fun _ => (hP.busByte _).bind fun _ => .pure _) (.fail _)

theorem BusClosed.cycleWriteByte (acc : Access) (a : Long) (v : Byte) : Keeps P (cycleWriteByte acc a v) :=
  (Keeps.look _).bind fun _ => .ite (hP.storeByte a v) (.fail _)

theorem BusClosed.cycleWriteWord (acc : Access) (a : Long) (v : Word) : Keeps P (cycleWriteWord acc a v) :=
  (Keeps.look _).bind fun _ => .ite ((hP.storeByte a _).bind fun _ => hP.storeByte _ _) (.fail _)

omit hP in
theorem Keeps.checkAligned (sz : Size) (acc : Access) : Keeps P (checkAligned sz acc) := .ite (.pure _) (.fail _)

theorem BusClosed.readCycles (sz : Size) (acc : Access) : Keeps P (readCycles sz acc) := by
  cases sz with
  | b => exact hP.cycleReadByte _ _
  | w => exact hP.cycleReadWord _ _
  | l => exact (hP.cycleReadWord _ _).bind fun _ => (hP.cycleReadWord _ _).bind fun _ => .pure _

theorem BusClosed.writeCycles (sz : Size) (lowFirst : Bool) (acc : Access) (v : BitVec sz.bits) :
    Keeps P (writeCycles sz lowFirst acc v) := by
  cases sz with
  | b => exact hP.cycleWriteByte _ _ _
  | w => exact hP.cycleWriteWord _ _ _
  | l => cases lowFirst <;> exact (hP.cycleWriteWord _ _ _).bind fun _ => hP.cycleWriteWord _ _ _

theorem BusClosed.memRead (sz : Size) (space : Space) (a : Long) : Keeps P (memRead sz space a) :=
  (Keeps.checkAligned _ _).bind fun _ => hP.readCycles _ _

theorem BusClosed.memWrite (sz : Size) (lowFirst : Bool) (a : Long) (v : BitVec sz.bits) :
    Keeps P (memWrite sz lowFirst a v) :=
  (Keeps.checkAligned _ _).bind fun _ => hP.writeCycles _ _ _ _

theorem BusClosed.unlistedRead (sz : Size) (space : Space) (a : Long) : Keeps P (unlistedRead sz space a) :=
  (Keeps.look _).bind fun _ => .ite ((hP.memRead _ _ _).bind fun _ => .pure _) (.pure _)

end

/-! ### The stack -/

section
variable (hP : StackClosed P)
include hP

theorem StackClosed.push16 (v : Word) : Keeps P (push16 v) :=
  (Keeps.update fun _ => hP.putSp _ _).bind fun _ => (Keeps.look _).bind fun _ => hP.memWrite _ _ _ _

theorem StackClosed.push32 (v : Long) : Keeps P (push32 v) :=
  (Keeps.update fun _ => hP.putSp _ _).bind fun _ => (Keeps.look _).bind fun _ => hP.memWrite _ _ _ _

theorem StackClosed.pop16 : Keeps P pop16 :=
  (Keeps.look _).bind fun _ => (hP.memRead _ _ _).bind fun _ =>
    (Keeps.update fun _ => hP.putSp _ _).bind fun _ => .pure _

theorem StackClosed.pop32 : Keeps P pop32 :=
  (Keeps.look _).bind fun _ => (hP.memRead _ _ _).bind fun _ =>
    (Keeps.update fun _ => hP.putSp _ _).bind fun _ => .pure _

theorem StackClosed.loadVector (v : Nat) : Keeps P (loadVector v) :=
  (hP.memRead _ _ _).bind fun _ => Keeps.update fun _ => hP.jumpTo _ _

end

section
variable (hP : Closed P)
include hP

theorem Closed.putLow (s : State) (sz : Size) (n : RegNum) (v : BitVec sz.bits) (h : P s) : P (s.putLow sz n v) :=
  hP.putD _ _ _ h

theorem Closed.putReg (s : State) (i : Nat) (v : Long) (h : P s) : P (s.putReg i v) := by
  unfold State.putReg
  split
  · exact hP.putD _ _ _ h
  · exact hP.putA _ _ _ h

theorem Closed.eaTouch (sz : Size) (ea : Ea) (s : State) (h : P s) : P (eaTouch sz ea s) := by
  cases ea <;> first | exact h | exact hP.putA _ _ _ h

theorem Closed.fetchExt : Keeps P fetchExt :=
  (Keeps.look _).bind fun _ => (Keeps.checkAligned _ _).bind fun _ => (Keeps.look _).bind fun _ =>
    .ite (Keeps.update fun _ => hP.setPc _ _) (.fail _)

theorem Closed.fetchExts (n : Nat) : Keeps P (fetchExts n) := by
  induction n with
  | zero => exact .pure _
  | succ n ih => exact hP.fetchExt.bind fun _ => ih

omit hP in
theorem Keeps.requireSupervisor : Keeps P requireSupervisor := (Keeps.look _).bind fun _ => .ite (.pure _) (.fail _)

/-! ### Operands -/

theorem Closed.decodeEa (sz : Size) (ea : Ea) : Keeps P (decodeEa sz ea) :=
  (Keeps.look _).bind fun _ => (hP.fetchExts _).bind fun _ =>
    (Keeps.update (hP.eaTouch sz ea)).bind fun _ => .pure _

theorem Closed.readLoc (sz : Size) (loc : Loc) : Keeps P (readLoc sz loc) := by
  cases loc with
  | dreg n => exact .look _
  | areg n => exact .look _
  | mem a space lf => exact hP.memRead _ _ _
  | imm v => exact .pure _

theorem Closed.writeLoc (sz : Size) (loc : Loc) (v : BitVec sz.bits) : Keeps P (writeLoc sz loc v) := by
  cases loc with
  | dreg n => exact .update fun _ => hP.putLow _ _ _ _
  | areg n => exact .update fun _ => hP.putA _ _ _
  | mem a space lf => exact hP.memWrite _ _ _ _
  | imm v => exact .fail _

omit hP in
theorem Keeps.addrOf (loc : Loc) : Keeps P (addrOf loc) := by
  cases loc <;> first | exact .pure _ | exact .fail _

theorem Closed.readEa (sz : Size) (ea : Ea) : Keeps P (readEa sz ea) :=
  (hP.decodeEa _ _).bind fun _ => hP.readLoc _ _

theorem Closed.addrOfEa (ea : Ea) : Keeps P (addrOfEa ea) :=
  (hP.decodeEa _ _).bind fun _ => .addrOf _

theorem Closed.thenFlags (f : Ccr) {m : Exec Unit} (hm : Keeps P m) : Keeps P (thenFlags f m) :=
  hm.thenFlags (fun _ => hP.setCcr _ _) hP.nextDraw

theorem Closed.modifyLoc (sz : Size) (f : Unary sz.bits) (loc : Loc) : Keeps P (modifyLoc sz f loc) :=
  (hP.readLoc _ _).bind fun _ => (Keeps.look _).bind fun _ => hP.thenFlags _ (hP.writeLoc _ _ _)

theorem Closed.opEa (sz : Size) (f : Unary sz.bits) (ea : Ea) : Keeps P (opEa sz f ea) :=
  (hP.decodeEa _ _).bind fun _ => hP.modifyLoc _ _ _

theorem Closed.opEaDn (sz : Size) (f : Alu sz.bits) (dn : RegNum) (ea : Ea) : Keeps P (opEaDn sz f dn ea) :=
  (hP.readEa _ _).bind fun _ => (Keeps.look _).bind fun _ => (Keeps.look _).bind fun _ =>
    .update fun _ h => hP.setCcr _ _ (hP.putLow _ _ _ _ h)

theorem Closed.opDnEa (sz : Size) (f : Alu sz.bits) (dn : RegNum) (ea : Ea) : Keeps P (opDnEa sz f dn ea) :=
  (hP.decodeEa _ _).bind fun _ => (Keeps.look _).bind fun _ => hP.modifyLoc _ _ _

theorem Closed.opImmEa (sz : Size) (f : Alu sz.bits) (imm : Long) (ea : Ea) : Keeps P (opImmEa sz f imm ea) :=
  (hP.fetchExts _).bind fun _ => (hP.decodeEa _ _).bind fun _ => hP.modifyLoc _ _ _

theorem Closed.opQuick (sz : Size) (f : Alu sz.bits) (g : Long → Long → Long) (q : BitVec 3) (ea : Ea) :
    Keeps P (opQuick sz f g q ea) := by
  unfold Machine.opQuick
  split
  · exact .update fun _ => hP.putA _ _ _
  · exact (hP.decodeEa _ _).bind fun _ => hP.modifyLoc _ _ _

theorem Closed.opEaAn (sz : Size) (g : Long → Long → Long) (an : RegNum) (ea : Ea) : Keeps P (opEaAn sz g an ea) :=
  (hP.readEa _ _).bind fun _ => .update fun _ => hP.putA _ _ _

theorem Closed.opFlags (sz : Size) (f : BitVec sz.bits → State → Ccr) (ea : Ea) : Keeps P (opFlags sz f ea) :=
  (hP.readEa _ _).bind fun _ => .update fun _ => hP.setCcr _ _

theorem Closed.opMove (sz : Size) (src dst : Ea) : Keeps P (opMove sz src dst) :=
  (hP.readEa _ _).bind fun _ => (Keeps.look _).bind fun _ =>
    hP.thenFlags _ ((hP.decodeEa _ _).bind fun _ => hP.writeLoc _ _ _)

theorem Closed.unlistedReadLoc (sz : Size) (loc : Loc) : Keeps P (unlistedReadLoc sz loc) := by
  cases loc <;> first | exact hP.unlistedRead _ _ _ | exact .pure _

theorem Closed.opWrite (sz : Size) (v : State → BitVec sz.bits) (ea : Ea) : Keeps P (opWrite sz v ea) :=
  (hP.decodeEa _ _).bind fun _ => (hP.unlistedReadLoc _ _).bind fun _ => (Keeps.look _).bind fun _ => hP.writeLoc _ _ _

theorem Closed.opPair (sz : Size) {f : BitVec sz.bits → BitVec sz.bits → Ccr → Exec (BitVec sz.bits × Ccr)}
    (hf : ∀ a b c, Keeps P (f a b c)) (form : PairForm) (ry rx : RegNum) : Keeps P (opPair sz f form ry rx) :=
  (hP.readEa _ _).bind fun _ => (hP.decodeEa _ _).bind fun _ => (hP.readLoc _ _).bind fun _ =>
    (Keeps.look _).bind fun _ => (hf _ _ _).bind fun _ => hP.thenFlags _ (hP.writeLoc _ _ _)

theorem Closed.decimal (op : BcdOp) (a b : Byte) (c : Ccr) : Keeps P (decimal op a b c) :=
  (Keeps.draw hP.nextDraw).bind fun _ => (Keeps.draw hP.nextDraw).bind fun _ => .pure _

theorem Closed.opShiftReg (k : ShiftKind) (c : ShiftCount) (sz : Size) (dn : RegNum) : Keeps P (opShiftReg k c sz dn) :=
  .update fun _ h => hP.setCcr _ _ (hP.putLow _ _ _ _ h)

theorem Closed.opBitAt (op : BitOp) (b : Nat) (loc : Loc) : Keeps P (opBitAt op b loc) := by
  cases loc <;> exact hP.modifyLoc _ _ _

theorem Closed.opBitTestAt (b : Nat) (loc : Loc) : Keeps P (opBitTestAt b loc) := by
  cases loc with
  | dreg n => exact .update fun _ => hP.setCcr _ _
  | _ => exact (hP.readLoc _ _).bind fun _ => .update fun _ => hP.setCcr _ _

theorem Closed.opBitImm {f : Nat → Loc → Exec Unit} (hf : ∀ n loc, Keeps P (f n loc)) (n : Byte) (ea : Ea) :
    Keeps P (opBitImm f n ea) :=
  hP.fetchExt.bind fun _ => (hP.decodeEa _ _).bind fun _ => hf _ _

theorem Closed.opBitDn {f : Nat → Loc → Exec Unit} (hf : ∀ n loc, Keeps P (f n loc)) (dn : RegNum) (ea : Ea) :
    Keeps P (opBitDn f dn ea) :=
  (Keeps.look _).bind fun _ => (hP.decodeEa _ _).bind fun _ => hf _ _

theorem Closed.opMul (f : Word → Word → Long) (dn : RegNum) (ea : Ea) : Keeps P (opMul f dn ea) :=
  (hP.readEa _ _).bind fun _ => .update fun _ h => hP.setCcr _ _ (hP.putD _ _ _ h)

theorem Closed.opDiv (f : Word → Long → DivOut) (dn : RegNum) (ea : Ea) : Keeps P (opDiv f dn ea) := by
  refine (hP.readEa _ _).bind fun _ => (Keeps.look _).bind fun _ => (Keeps.look _).bind fun _ => ?_
  have hd : Keeps P (draw Config.freeBit) := .draw hP.nextDraw
  split
  · exact .update fun _ h => hP.setCcr _ _ (hP.putD _ _ _ h)
  · exact hd.bind fun _ => hd.bind fun _ => .update fun _ => hP.setCcr _ _
  · exact hd.bind fun _ => hd.bind fun _ => hd.bind fun _ => (Keeps.update fun _ => hP.setCcr _ _).bind fun _ => .fail _

theorem Closed.storeUp (sz : Size) (is : List Nat) (a : Long) : Keeps P (storeUp sz is a) := by
  induction is generalizing a with
  | nil => exact .pure _
  | cons i is ih => exact (Keeps.look _).bind fun _ => (hP.memWrite _ _ _ _).bind fun _ => ih _

theorem Closed.storeDown (sz : Size) (is : List Nat) (a : Long) : Keeps P (storeDown sz is a) := by
  induction is generalizing a with
  | nil => exact .pure _
  | cons i is ih => exact (Keeps.look _).bind fun _ => (hP.memWrite _ _ _ _).bind fun _ => ih _

theorem Closed.loadUp (sz : Size) (space : Space) (is : List Nat) (a : Long) : Keeps P (loadUp sz space is a) := by
  induction is generalizing a with
  | nil => exact .pure _
  | cons i is ih =>
    exact (hP.memRead _ _ _).bind fun _ => (Keeps.update fun _ => hP.putReg _ _ _).bind fun _ => ih _

theorem Closed.storeAlternate (vs : List Byte) (a : Long) : Keeps P (storeAlternate vs a) := by
  induction vs generalizing a with
  | nil => exact .pure _
  | cons v vs ih => exact (hP.memWrite _ _ _ _).bind fun _ => ih _

theorem Closed.loadAlternate (n : Nat) (a acc : Long) : Keeps P (loadAlternate n a acc) := by
  induction n generalizing a acc with
  | zero => exact .pure _
  | succ n ih => exact (hP.memRead _ _ _).bind fun _ => ih _ _

/-! ### Fetching an instruction -/

theorem Closed.staleChoice (es : List (Nat × Word)) (p : Nat) (w : Word) : Keeps P (staleChoice es p w) := by
  induction es with
  | nil => exact .pure _
  | cons e es ih =>
    refine ih.bind fun _ => .ite ((Keeps.draw hP.nextDraw).bind fun _ => .ite (.pure _) (.pure _)) (.pure _)

theorem Closed.codeWord (a : Long) : Keeps P (codeWord a) :=
  (hP.busByte _).bind fun _ => (hP.busByte _).bind fun _ => (Keeps.look _).bind fun _ => hP.staleChoice _ _ _

theorem Closed.fetchOpWord : Keeps P fetchOpWord :=
  (Keeps.look _).bind fun _ => (Keeps.checkAligned _ _).bind fun _ => (Keeps.look _).bind fun _ =>
    .ite (hP.codeWord _) (.fail _)

theorem Closed.peekWords (n : Nat) (a : Long) : Keeps P (peekWords n a) := by
  induction n generalizing a with
  | zero => exact .pure _
  | succ n ih =>
    refine (Keeps.look _).bind fun _ => ?_
    split
    · exact (hP.codeWord _).bind fun _ => (ih _).bind fun _ => .pure _
    · exact (ih _).bind fun _ => .pure _

theorem Closed.fetchWords (hir : ∀ s w, P s → P (s.setIr w)) : Keeps P fetchWords :=
  hP.fetchOpWord.bind fun _ => (Keeps.update fun _ => hir _ _).bind fun _ => (Keeps.look _).bind fun _ =>
    (hP.peekWords _ _).bind fun _ => .pure _

end

/-! ### Exception processing -/

section
variable (hP : EntryClosed P)
include hP

theorem EntryClosed.processException (v : Nat) (savedPc : Long) : Keeps P (processException v savedPc) :=
  (Keeps.look _).bind fun _ => (Keeps.update fun _ => hP.setSr _ _ rfl rfl).bind fun _ =>
    (hP.push32 _).bind fun _ => (hP.push16 _).bind fun _ => hP.loadVector _

theorem EntryClosed.processInterrupt (level : BitVec 3) : Keeps P (processInterrupt level) :=
  (Keeps.look _).bind fun _ => (Keeps.update fun _ => hP.setSr _ _ rfl rfl).bind fun _ => (Keeps.look _).bind fun _ =>
    (Keeps.look _).bind fun _ => (hP.push32 _).bind fun _ => (hP.push16 _).bind fun _ => hP.loadVector _

theorem EntryClosed.drawPcx (ipc : Option Long) : Keeps P (drawPcx ipc) := by
  refine (Keeps.draw hP.nextDraw).bind fun _ => ?_
  cases ipc <;> exact .pure _

theorem EntryClosed.savedIr (ipc : Option Long) (inEntry : Bool) : Keeps P (savedIr ipc inEntry) := by
  unfold Machine.savedIr
  split
  · exact .draw hP.nextDraw
  · exact .look _

theorem EntryClosed.inProgramSpace (space : Space) : Keeps P (inProgramSpace space) := by
  cases space <;> first | exact .pure _ | exact .draw hP.nextDraw

theorem EntryClosed.processMemFault (ipc : Option Long) (inEntry : Bool) (f : MemFault) :
    Keeps P (processMemFault ipc inEntry f) :=
  (Keeps.look _).bind fun _ => (hP.savedIr _ _).bind fun _ => (hP.drawPcx _).bind fun _ =>
    (hP.inProgramSpace _).bind fun _ => (Keeps.draw hP.nextDraw).bind fun _ =>
    (Keeps.update fun _ => hP.setSr _ _ rfl rfl).bind fun _ => (hP.push32 _).bind fun _ => (hP.push16 _).bind fun _ =>
    (hP.push16 _).bind fun _ => (hP.push32 _).bind fun _ => (hP.push16 _).bind fun _ => hP.loadVector _

/-- The state after a group 0 error keeps what the processing keeps. -/
theorem EntryClosed.takeMemFault (hrun : ∀ s, P s → P (s.setRun .halted)) (ipc : Option Long) (inEntry : Bool)
    (f : MemFault) {s : State} (h : P s) : P (takeMemFault ipc inEntry f s) := by
  unfold Machine.takeMemFault
  split
  · rename_i e; exact (hP.processMemFault _ _ _).ok h e
  · rename_i e; exact hrun _ ((hP.processMemFault _ _ _).error h e)

/-- The state after an entry keeps what the processing keeps. -/
theorem EntryClosed.takeEntry (hrun : ∀ s, P s → P (s.setRun .halted)) (ipc : Option Long) (inEntry : Bool)
    {entry : Exec Unit} (he : Keeps P entry) {s : State} (h : P s) : P (takeEntry ipc inEntry entry s) := by
  unfold Machine.takeEntry
  split
  · rename_i e; exact he.ok h e
  · rename_i e; exact hP.takeMemFault hrun _ _ _ (he.error h e)
  · rename_i e; exact he.error h e

end

/-! ### Supervisor mode after an entry -/

theorem supervisor_closed : EntryClosed fun s => s.sr.s = true where
  nextDraw _ h := h
  write _ _ _ _ h := h
  putSp s v h := by simpa using h
  jumpTo _ _ h := h
  setSr _ _ h _ _ := h

theorem takeMemFault_supervisor (ipc : Option Long) (inEntry : Bool) (f : MemFault) (s : State) :
    (takeMemFault ipc inEntry f s).sr.s = true := by
  have tail : ∀ (pcx : Long) (ir : Word) (sr0 : StatusReg) (ssw : Word), Keeps (fun s => s.sr.s = true)
      (push32 pcx >>= fun _ => push16 sr0.toWord >>= fun _ => push16 ir >>= fun _ => push32 f.access.addr >>= fun _ =>
        push16 ssw >>= fun _ => loadVector f.error.vector) := fun pcx ir sr0 ssw =>
    have hP := supervisor_closed
    (hP.push32 _).bind fun _ => (hP.push16 _).bind fun _ => (hP.push16 _).bind fun _ => (hP.push32 _).bind fun _ =>
      (hP.push16 _).bind fun _ => hP.loadVector _
  unfold takeMemFault
  split <;> rename_i e <;> unfold processMemFault drawPcx savedIr at e <;> cases ipc <;> cases inEntry <;> cases f with | mk er acc =>
    cases acc with | mk a w sp => cases sp <;>
      simp only [look_bind, draw_bind, update_bind, Exec.pure_bind_apply, inProgramSpace, bind_assoc] at e <;>
      first
        | exact (tail _ _ _ _).ok rfl e
        | (rw [State.setRun_sr]; exact (tail _ _ _ _).error rfl e)

theorem takeEntry_supervisor {entry : Exec Unit} (h : ∀ s t, entry s = .ok () t → t.sr.s = true)
    (h' : ∀ s r t, entry s = .error r t → t.sr.s = true) (ipc : Option Long) (inEntry : Bool) (s : State) :
    (takeEntry ipc inEntry entry s).sr.s = true := by
  unfold takeEntry
  split
  · rename_i e; exact h _ _ e
  · exact takeMemFault_supervisor _ _ _ _
  · rename_i e; exact h' _ _ _ e

/-- Every exception of group 1 or 2 ends in supervisor mode, whatever its processing met. -/
theorem processException_supervisor (v : Nat) (savedPc : Long) (ipc : Option Long) (inEntry : Bool) (s : State) :
    (takeEntry ipc inEntry (processException v savedPc) s).sr.s = true := by
  have hP := supervisor_closed
  have tail : ∀ w, Keeps (fun s => s.sr.s = true)
      (push32 savedPc >>= fun _ => push16 w >>= fun _ => loadVector v) := fun w =>
    (hP.push32 _).bind fun _ => (hP.push16 _).bind fun _ => hP.loadVector _
  refine takeEntry_supervisor (fun s t e => ?_) (fun s r t e => ?_) _ _ _ <;> unfold processException at e <;>
    simp only [look_bind, update_bind] at e
  · exact (tail _).ok rfl e
  · exact (tail _).error rfl e

/-- So does every interrupt. -/
theorem processInterrupt_supervisor (level : BitVec 3) (ipc : Option Long) (inEntry : Bool) (s : State) :
    (takeEntry ipc inEntry (processInterrupt level) s).sr.s = true := by
  have hP := supervisor_closed
  have tail : ∀ (pc : Long) (w : Word) (v : Nat), Keeps (fun s => s.sr.s = true)
      (push32 pc >>= fun _ => push16 w >>= fun _ => loadVector v) := fun pc w v =>
    (hP.push32 _).bind fun _ => (hP.push16 _).bind fun _ => hP.loadVector _
  refine takeEntry_supervisor (fun s t e => ?_) (fun s r t e => ?_) _ _ _ <;> unfold processInterrupt at e <;>
    simp only [look_bind, update_bind] at e
  · exact (tail _ _ _).ok rfl e
  · exact (tail _ _ _).error rfl e

theorem takeException_supervisor (ipc : Long) (e : Exc) (s : State) : (takeException ipc e s).sr.s = true := by
  unfold takeException
  split
  · exact processException_supervisor _ _ _ _ _
  · exact processException_supervisor _ _ _ _ _

end Sys2Proof.Machine
end

