-- ==== Sys2Proof/Laws/PerInstr.lean ====
section
/-! SUPPORT. Statements about every instruction, one lemma per constructor. -/

namespace Sys2Proof.Laws

theorem encodeImm_length_le (sz : Size) (v : Long) : (encodeImm sz v).length ≤ 2 := by cases sz <;> simp [encodeImm]

theorem ext_length_le (sz : Size) (ea : Ea) : (ea.ext sz).length ≤ 2 := by
  cases ea <;> simp [Ea.ext, encodeImm_length_le]

namespace WordCount

/-- An instruction is one to five words (R110). -/
def Statement (i : Instr) : Prop := 1 ≤ (encode i).length ∧ (encode i).length ≤ maxWords

theorem of_le {ws : List Word} {w : Word} (h : ws.length ≤ 4) : 1 ≤ (w :: ws).length ∧ (w :: ws).length ≤ maxWords := by
  simp only [List.length_cons, maxWords]; omega

theorem of_one (w : Word) : 1 ≤ [w].length ∧ [w].length ≤ maxWords := of_le (Nat.zero_le 4)

theorem of_two (w v : Word) : 1 ≤ [w, v].length ∧ [w, v].length ≤ maxWords := of_le (Nat.le_add_left 1 3)

theorem of_encEa (g a b : Nat) (sz : Size) (ea : Ea) :
    1 ≤ (encEa g a b sz ea).length ∧ (encEa g a b sz ea).length ≤ maxWords := by
  have := ext_length_le sz ea
  exact of_le (by omega)

theorem of_encImmEa (a : Nat) (sz : Size) (v : Long) (ea : Ea) :
    1 ≤ (encImmEa a sz v ea).length ∧ (encImmEa a sz v ea).length ≤ maxWords := by
  have := ext_length_le sz ea
  have := encodeImm_length_le sz v
  exact of_le (by rw [List.length_append]; omega)

theorem of_wordEa (w m : Word) (sz : Size) (ea : Ea) :
    1 ≤ (w :: m :: ea.ext sz).length ∧ (w :: m :: ea.ext sz).length ≤ maxWords := by
  have := ext_length_le sz ea
  exact of_le (by rw [List.length_cons]; omega)

theorem of_encMove (g : Nat) (sz : Size) (src dst : Ea) :
    1 ≤ (encMove g sz src dst).length ∧ (encMove g sz src dst).length ≤ maxWords := by
  have := ext_length_le sz src
  have := ext_length_le sz dst
  exact of_le (by rw [List.length_append]; omega)

theorem of_encBranch (cc : Nat) (d : BranchDisp) :
    1 ≤ (encBranch cc d).length ∧ (encBranch cc d).length ≤ maxWords := by
  cases d
  · exact of_one _
  · exact of_two _ _

theorem oriToCcr (imm : Byte) : Statement (.oriToCcr imm) := of_two _ _
theorem oriToSr (imm : Word) : Statement (.oriToSr imm) := of_two _ _
theorem ori (sz : Size) (imm : Long) (ea : Ea) : Statement (.ori sz imm ea) := of_encImmEa _ _ _ _
theorem andiToCcr (imm : Byte) : Statement (.andiToCcr imm) := of_two _ _
theorem andiToSr (imm : Word) : Statement (.andiToSr imm) := of_two _ _
theorem andi (sz : Size) (imm : Long) (ea : Ea) : Statement (.andi sz imm ea) := of_encImmEa _ _ _ _
theorem subi (sz : Size) (imm : Long) (ea : Ea) : Statement (.subi sz imm ea) := of_encImmEa _ _ _ _
theorem addi (sz : Size) (imm : Long) (ea : Ea) : Statement (.addi sz imm ea) := of_encImmEa _ _ _ _
theorem eoriToCcr (imm : Byte) : Statement (.eoriToCcr imm) := of_two _ _
theorem eoriToSr (imm : Word) : Statement (.eoriToSr imm) := of_two _ _
theorem eori (sz : Size) (imm : Long) (ea : Ea) : Statement (.eori sz imm ea) := of_encImmEa _ _ _ _
theorem cmpi (sz : Size) (imm : Long) (ea : Ea) : Statement (.cmpi sz imm ea) := of_encImmEa _ _ _ _
theorem btstImm (n : Byte) (ea : Ea) : Statement (.btstImm n ea) := of_wordEa _ _ _ _
theorem btstDn (dn : RegNum) (ea : Ea) : Statement (.btstDn dn ea) := of_encEa _ _ _ _ _
theorem bchgImm (n : Byte) (ea : Ea) : Statement (.bchgImm n ea) := of_wordEa _ _ _ _
theorem bchgDn (dn : RegNum) (ea : Ea) : Statement (.bchgDn dn ea) := of_encEa _ _ _ _ _
theorem bclrImm (n : Byte) (ea : Ea) : Statement (.bclrImm n ea) := of_wordEa _ _ _ _
theorem bclrDn (dn : RegNum) (ea : Ea) : Statement (.bclrDn dn ea) := of_encEa _ _ _ _ _
theorem bsetImm (n : Byte) (ea : Ea) : Statement (.bsetImm n ea) := of_wordEa _ _ _ _
theorem bsetDn (dn : RegNum) (ea : Ea) : Statement (.bsetDn dn ea) := of_encEa _ _ _ _ _
theorem movep (dn : RegNum) (form : MovepForm) (an : RegNum) (d16 : Word) : Statement (.movep dn form an d16) := of_two _ _
theorem moveB (src dst : Ea) : Statement (.moveB src dst) := of_encMove _ _ _ _
theorem moveL (src dst : Ea) : Statement (.moveL src dst) := of_encMove _ _ _ _
theorem moveW (src dst : Ea) : Statement (.moveW src dst) := of_encMove _ _ _ _
theorem moveaL (an : RegNum) (src : Ea) : Statement (.moveaL an src) := of_encEa _ _ _ _ _
theorem moveaW (an : RegNum) (src : Ea) : Statement (.moveaW an src) := of_encEa _ _ _ _ _
theorem negx (sz : Size) (ea : Ea) : Statement (.negx sz ea) := of_encEa _ _ _ _ _
theorem moveFromSr (ea : Ea) : Statement (.moveFromSr ea) := of_encEa _ _ _ _ _
theorem chk (dn : RegNum) (ea : Ea) : Statement (.chk dn ea) := of_encEa _ _ _ _ _
theorem lea (an : RegNum) (ea : Ea) : Statement (.lea an ea) := of_encEa _ _ _ _ _
theorem clr (sz : Size) (ea : Ea) : Statement (.clr sz ea) := of_encEa _ _ _ _ _
theorem neg (sz : Size) (ea : Ea) : Statement (.neg sz ea) := of_encEa _ _ _ _ _
theorem moveToCcr (ea : Ea) : Statement (.moveToCcr ea) := of_encEa _ _ _ _ _
theorem notEa (sz : Size) (ea : Ea) : Statement (.notEa sz ea) := of_encEa _ _ _ _ _
theorem moveToSr (ea : Ea) : Statement (.moveToSr ea) := of_encEa _ _ _ _ _
theorem nbcd (ea : Ea) : Statement (.nbcd ea) := of_encEa _ _ _ _ _
theorem swap (dn : RegNum) : Statement (.swap dn) := of_one _
theorem pea (ea : Ea) : Statement (.pea ea) := of_encEa _ _ _ _ _
theorem extW (dn : RegNum) : Statement (.extW dn) := of_one _
theorem extL (dn : RegNum) : Statement (.extL dn) := of_one _
theorem movemStore (sz : Size) (mask : Word) (ea : Ea) : Statement (.movemStore sz mask ea) := of_wordEa _ _ _ _
theorem tst (sz : Size) (ea : Ea) : Statement (.tst sz ea) := of_encEa _ _ _ _ _
theorem tas (ea : Ea) : Statement (.tas ea) := of_encEa _ _ _ _ _
theorem illegal : Statement .illegal := of_one _
theorem movemLoad (sz : Size) (mask : Word) (ea : Ea) : Statement (.movemLoad sz mask ea) := of_wordEa _ _ _ _
theorem trap (v : BitVec 4) : Statement (.trap v) := of_one _
theorem link (an : RegNum) (d16 : Word) : Statement (.link an d16) := of_two _ _
theorem unlk (an : RegNum) : Statement (.unlk an) := of_one _
theorem moveAnUsp (an : RegNum) : Statement (.moveAnUsp an) := of_one _
theorem moveUspAn (an : RegNum) : Statement (.moveUspAn an) := of_one _
theorem reset : Statement .reset := of_one _
theorem nop : Statement .nop := of_one _
theorem stop (imm : Word) : Statement (.stop imm) := of_two _ _
theorem rte : Statement .rte := of_one _
theorem rts : Statement .rts := of_one _
theorem trapv : Statement .trapv := of_one _
theorem rtr : Statement .rtr := of_one _
theorem jsr (ea : Ea) : Statement (.jsr ea) := of_encEa _ _ _ _ _
theorem jmp (ea : Ea) : Statement (.jmp ea) := of_encEa _ _ _ _ _
theorem addq (q : BitVec 3) (sz : Size) (ea : Ea) : Statement (.addq q sz ea) := of_encEa _ _ _ _ _
theorem subq (q : BitVec 3) (sz : Size) (ea : Ea) : Statement (.subq q sz ea) := of_encEa _ _ _ _ _
theorem scc (cond : Cond) (ea : Ea) : Statement (.scc cond ea) := of_encEa _ _ _ _ _
theorem dbcc (cond : Cond) (dn : RegNum) (d16 : Word) : Statement (.dbcc cond dn d16) := of_two _ _
theorem bra (d : BranchDisp) : Statement (.bra d) := of_encBranch _ _
theorem bsr (d : BranchDisp) : Statement (.bsr d) := of_encBranch _ _
theorem bcc (cond : Cond) (d : BranchDisp) : Statement (.bcc cond d) := of_encBranch _ _
theorem moveq (dn : RegNum) (d8 : Byte) : Statement (.moveq dn d8) := of_one _
theorem orBEaDn (dn : RegNum) (ea : Ea) : Statement (.orBEaDn dn ea) := of_encEa _ _ _ _ _
theorem orWEaDn (dn : RegNum) (ea : Ea) : Statement (.orWEaDn dn ea) := of_encEa _ _ _ _ _
theorem orLEaDn (dn : RegNum) (ea : Ea) : Statement (.orLEaDn dn ea) := of_encEa _ _ _ _ _
theorem orBDnEa (dn : RegNum) (ea : Ea) : Statement (.orBDnEa dn ea) := of_encEa _ _ _ _ _
theorem orWDnEa (dn : RegNum) (ea : Ea) : Statement (.orWDnEa dn ea) := of_encEa _ _ _ _ _
theorem orLDnEa (dn : RegNum) (ea : Ea) : Statement (.orLDnEa dn ea) := of_encEa _ _ _ _ _
theorem divu (dn : RegNum) (ea : Ea) : Statement (.divu dn ea) := of_encEa _ _ _ _ _
theorem divs (dn : RegNum) (ea : Ea) : Statement (.divs dn ea) := of_encEa _ _ _ _ _
theorem sbcd (rx : RegNum) (form : PairForm) (ry : RegNum) : Statement (.sbcd rx form ry) := of_one _
theorem subBEaDn (dn : RegNum) (ea : Ea) : Statement (.subBEaDn dn ea) := of_encEa _ _ _ _ _
theorem subWEaDn (dn : RegNum) (ea : Ea) : Statement (.subWEaDn dn ea) := of_encEa _ _ _ _ _
theorem subLEaDn (dn : RegNum) (ea : Ea) : Statement (.subLEaDn dn ea) := of_encEa _ _ _ _ _
theorem subBDnEa (dn : RegNum) (ea : Ea) : Statement (.subBDnEa dn ea) := of_encEa _ _ _ _ _
theorem subWDnEa (dn : RegNum) (ea : Ea) : Statement (.subWDnEa dn ea) := of_encEa _ _ _ _ _
theorem subLDnEa (dn : RegNum) (ea : Ea) : Statement (.subLDnEa dn ea) := of_encEa _ _ _ _ _
theorem subaW (an : RegNum) (ea : Ea) : Statement (.subaW an ea) := of_encEa _ _ _ _ _
theorem subaL (an : RegNum) (ea : Ea) : Statement (.subaL an ea) := of_encEa _ _ _ _ _
theorem subx (rx : RegNum) (sz : Size) (form : PairForm) (ry : RegNum) : Statement (.subx rx sz form ry) := of_one _
theorem lineA (z : BitVec 12) : Statement (.lineA z) := of_one _
theorem cmpBEaDn (dn : RegNum) (ea : Ea) : Statement (.cmpBEaDn dn ea) := of_encEa _ _ _ _ _
theorem cmpWEaDn (dn : RegNum) (ea : Ea) : Statement (.cmpWEaDn dn ea) := of_encEa _ _ _ _ _
theorem cmpLEaDn (dn : RegNum) (ea : Ea) : Statement (.cmpLEaDn dn ea) := of_encEa _ _ _ _ _
theorem cmpaW (an : RegNum) (ea : Ea) : Statement (.cmpaW an ea) := of_encEa _ _ _ _ _
theorem cmpaL (an : RegNum) (ea : Ea) : Statement (.cmpaL an ea) := of_encEa _ _ _ _ _
theorem eorBDnEa (dn : RegNum) (ea : Ea) : Statement (.eorBDnEa dn ea) := of_encEa _ _ _ _ _
theorem eorWDnEa (dn : RegNum) (ea : Ea) : Statement (.eorWDnEa dn ea) := of_encEa _ _ _ _ _
theorem eorLDnEa (dn : RegNum) (ea : Ea) : Statement (.eorLDnEa dn ea) := of_encEa _ _ _ _ _
theorem cmpm (rx : RegNum) (sz : Size) (ry : RegNum) : Statement (.cmpm rx sz ry) := of_one _
theorem andBEaDn (dn : RegNum) (ea : Ea) : Statement (.andBEaDn dn ea) := of_encEa _ _ _ _ _
theorem andWEaDn (dn : RegNum) (ea : Ea) : Statement (.andWEaDn dn ea) := of_encEa _ _ _ _ _
theorem andLEaDn (dn : RegNum) (ea : Ea) : Statement (.andLEaDn dn ea) := of_encEa _ _ _ _ _
theorem andBDnEa (dn : RegNum) (ea : Ea) : Statement (.andBDnEa dn ea) := of_encEa _ _ _ _ _
theorem andWDnEa (dn : RegNum) (ea : Ea) : Statement (.andWDnEa dn ea) := of_encEa _ _ _ _ _
theorem andLDnEa (dn : RegNum) (ea : Ea) : Statement (.andLDnEa dn ea) := of_encEa _ _ _ _ _
theorem mulu (dn : RegNum) (ea : Ea) : Statement (.mulu dn ea) := of_encEa _ _ _ _ _
theorem muls (dn : RegNum) (ea : Ea) : Statement (.muls dn ea) := of_encEa _ _ _ _ _
theorem abcd (rx : RegNum) (form : PairForm) (ry : RegNum) : Statement (.abcd rx form ry) := of_one _
theorem exgDxDy (rx ry : RegNum) : Statement (.exgDxDy rx ry) := of_one _
theorem exgAxAy (rx ry : RegNum) : Statement (.exgAxAy rx ry) := of_one _
theorem exgDxAy (rx ry : RegNum) : Statement (.exgDxAy rx ry) := of_one _
theorem addBEaDn (dn : RegNum) (ea : Ea) : Statement (.addBEaDn dn ea) := of_encEa _ _ _ _ _
theorem addWEaDn (dn : RegNum) (ea : Ea) : Statement (.addWEaDn dn ea) := of_encEa _ _ _ _ _
theorem addLEaDn (dn : RegNum) (ea : Ea) : Statement (.addLEaDn dn ea) := of_encEa _ _ _ _ _
theorem addBDnEa (dn : RegNum) (ea : Ea) : Statement (.addBDnEa dn ea) := of_encEa _ _ _ _ _
theorem addWDnEa (dn : RegNum) (ea : Ea) : Statement (.addWDnEa dn ea) := of_encEa _ _ _ _ _
theorem addLDnEa (dn : RegNum) (ea : Ea) : Statement (.addLDnEa dn ea) := of_encEa _ _ _ _ _
theorem addaW (an : RegNum) (ea : Ea) : Statement (.addaW an ea) := of_encEa _ _ _ _ _
theorem addaL (an : RegNum) (ea : Ea) : Statement (.addaL an ea) := of_encEa _ _ _ _ _
theorem addx (rx : RegNum) (sz : Size) (form : PairForm) (ry : RegNum) : Statement (.addx rx sz form ry) := of_one _
theorem aslReg (c : ShiftCount) (sz : Size) (dn : RegNum) : Statement (.aslReg c sz dn) := of_one _
theorem aslEa (ea : Ea) : Statement (.aslEa ea) := of_encEa _ _ _ _ _
theorem asrReg (c : ShiftCount) (sz : Size) (dn : RegNum) : Statement (.asrReg c sz dn) := of_one _
theorem asrEa (ea : Ea) : Statement (.asrEa ea) := of_encEa _ _ _ _ _
theorem lslReg (c : ShiftCount) (sz : Size) (dn : RegNum) : Statement (.lslReg c sz dn) := of_one _
theorem lslEa (ea : Ea) : Statement (.lslEa ea) := of_encEa _ _ _ _ _
theorem lsrReg (c : ShiftCount) (sz : Size) (dn : RegNum) : Statement (.lsrReg c sz dn) := of_one _
theorem lsrEa (ea : Ea) : Statement (.lsrEa ea) := of_encEa _ _ _ _ _
theorem roxlReg (c : ShiftCount) (sz : Size) (dn : RegNum) : Statement (.roxlReg c sz dn) := of_one _
theorem roxlEa (ea : Ea) : Statement (.roxlEa ea) := of_encEa _ _ _ _ _
theorem roxrReg (c : ShiftCount) (sz : Size) (dn : RegNum) : Statement (.roxrReg c sz dn) := of_one _
theorem roxrEa (ea : Ea) : Statement (.roxrEa ea) := of_encEa _ _ _ _ _
theorem rolReg (c : ShiftCount) (sz : Size) (dn : RegNum) : Statement (.rolReg c sz dn) := of_one _
theorem rolEa (ea : Ea) : Statement (.rolEa ea) := of_encEa _ _ _ _ _
theorem rorReg (c : ShiftCount) (sz : Size) (dn : RegNum) : Statement (.rorReg c sz dn) := of_one _
theorem rorEa (ea : Ea) : Statement (.rorEa ea) := of_encEa _ _ _ _ _
theorem lineF (z : BitVec 12) : Statement (.lineF z) := of_one _

end WordCount

end Sys2Proof.Laws
end

