-- ==== Sys2Proof/Laws/Step.lean ====
section
/-! SUPPORT. What every instruction and every step keeps: a property closed under the elementary changes of the machine. -/

namespace Sys2Proof.Machine

/-- A property that every elementary change of the machine keeps, those of the privileged instructions and of the step itself
among them. -/
structure StepClosed (P : State → Prop) : Prop extends Closed P where
  setSr : ∀ s r, P s → P (s.setSr r)
  setSsp : ∀ s v, P s → P (s.setSsp v)
  setUsp : ∀ s v, P s → P (s.setUsp v)
  setRun : ∀ s r, P s → P (s.setRun r)
  pulse : ∀ s, P s → P s.pulse
  startInstr : ∀ s, P s → P s.startInstr
  setTraceDue : ∀ s b, P s → P (s.setTraceDue b)
  setIr : ∀ s w, P s → P (s.setIr w)
  setStale : ∀ s ws, P s → P (s.setStale ws)
  setPrevIpl : ∀ s l, P s → P (s.setPrevIpl l)

variable {P : State → Prop}

theorem StepClosed.toEntryClosed (hP : StepClosed P) : EntryClosed P where
  toStackClosed := hP.toStackClosed
  setSr s r _ _ h := hP.setSr s r h

section
variable (hP : StepClosed P)
include hP

theorem StepClosed.takeMemFault (ipc : Option Long) (inEntry : Bool) (f : MemFault) {s : State} (h : P s) :
    P (takeMemFault ipc inEntry f s) := hP.toEntryClosed.takeMemFault (fun _ => hP.setRun _ _) _ _ _ h

theorem StepClosed.takeEntry (ipc : Option Long) (inEntry : Bool) {entry : Exec Unit} (he : Keeps P entry) {s : State}
    (h : P s) : P (takeEntry ipc inEntry entry s) := hP.toEntryClosed.takeEntry (fun _ => hP.setRun _ _) _ _ he h

theorem StepClosed.takeException (ipc : Long) (e : Exc) {s : State} (h : P s) : P (takeException ipc e s) := by
  unfold Machine.takeException
  split
  · exact hP.takeEntry _ _ (hP.toEntryClosed.processException _ _) h
  · exact hP.setTraceDue _ _ (hP.takeEntry _ _ (hP.toEntryClosed.processException _ _) h)

/-- One instruction keeps what its body keeps. -/
theorem StepClosed.runInstr {body : Exec Unit} (hb : Keeps P body) {s t : State} (h : P s)
    (ht : runInstr body s = .next t) : P t := by
  have hs := hP.startInstr _ h
  unfold Machine.runInstr at ht
  split at ht
  · rename_i e; injection ht with ht; exact ht ▸ hb.ok hs e
  · rename_i e; injection ht with ht; exact ht ▸ hP.takeException _ _ (hb.error hs e)
  · rename_i e; injection ht with ht; exact ht ▸ hP.setTraceDue _ _ (hP.takeMemFault _ _ _ (hb.error hs e))
  · injection ht

omit hP in
theorem Keeps.privileged {α : Type} {m : Exec α} (hm : Keeps P m) :
    Keeps P (Machine.requireSupervisor >>= fun _ => m) := Keeps.requireSupervisor.bind fun _ => hm

theorem StepClosed.returnFromException : Keeps P returnFromException :=
  Keeps.requireSupervisor.bind fun _ => hP.pop16.bind fun _ => hP.pop32.bind fun _ =>
    .update fun _ h => hP.jumpTo _ _ (hP.setSr _ _ h)

omit hP in
theorem Keeps.drawsNothing {w : Nat} (f : Alu w) (a b : BitVec w) (c : Ccr) : Keeps P (drawsNothing f a b c) := .pure _

theorem StepClosed.shiftEa (k : ShiftKind) (ea : Ea) : Keeps P (opShiftEa k ea) := hP.opEa _ _ _

theorem StepClosed.movemStore (sz : Size) (mask : Word) (ea : Ea) {s t : State} (h : P s)
    (ht : execMovemStore sz mask ea s = .next t) : P t := by
  refine hP.runInstr (hP.fetchExt.bind fun _ => ?_) h ht
  split
  · exact (Keeps.look _).bind fun _ => (hP.storeDown _ _ _).bind fun _ => .update fun _ => hP.putA _ _ _
  · exact (hP.decodeEa _ _).bind fun _ => (Keeps.addrOf _).bind fun _ => hP.storeUp _ _ _

theorem StepClosed.movemLoad (sz : Size) (mask : Word) (ea : Ea) {s t : State} (h : P s)
    (ht : execMovemLoad sz mask ea s = .next t) : P t := by
  refine hP.runInstr (hP.fetchExt.bind fun _ => ?_) h ht
  split
  · exact (Keeps.look _).bind fun _ => (hP.loadUp _ _ _ _).bind fun _ => (hP.unlistedRead _ _ _).bind fun _ =>
      .update fun _ => hP.putA _ _ _
  · refine (hP.decodeEa _ _).bind fun _ => ?_
    split
    · exact (hP.loadUp _ _ _ _).bind fun _ => hP.unlistedRead _ _ _
    · exact .fail _

theorem StepClosed.movep (dn : RegNum) (form : MovepForm) (an : RegNum) (d16 : Word) {s t : State} (h : P s)
    (ht : execMovep dn form an d16 s = .next t) : P t := by
  refine hP.runInstr (hP.fetchExt.bind fun _ => (Keeps.look _).bind fun _ => (Keeps.look _).bind fun _ => ?_) h ht
  split
  · exact (hP.loadAlternate _ _ _).bind fun _ => .update fun _ => hP.putLow _ _ _ _
  · exact (hP.loadAlternate _ _ _).bind fun _ => .update fun _ => hP.putD _ _ _
  · exact hP.storeAlternate _ _
  · exact hP.storeAlternate _ _

theorem StepClosed.chk (dn : RegNum) (ea : Ea) {s t : State} (h : P s) (ht : execChk dn ea s = .next t) : P t := by
  have hd : Keeps P (draw Config.freeBit) := .draw hP.nextDraw
  refine hP.runInstr ((hP.readEa _ _).bind fun _ => (Keeps.look _).bind fun _ => (Keeps.look _).bind fun _ =>
    hd.bind fun _ => hd.bind fun _ => hd.bind fun _ => ?_) h ht
  refine .ite ((Keeps.update fun _ => hP.setCcr _ _).bind fun _ => .fail _) (.ite ?_ ?_)
  · exact (Keeps.update fun _ => hP.setCcr _ _).bind fun _ => .fail _
  · exact hd.bind fun _ => .update fun _ => hP.setCcr _ _

theorem StepClosed.dbcc (cond : Cond) (dn : RegNum) (d16 : Word) {s t : State} (h : P s)
    (ht : execDbcc cond dn d16 s = .next t) : P t := by
  refine hP.runInstr ((Keeps.look _).bind fun _ => hP.fetchExt.bind fun _ => (Keeps.look _).bind fun _ =>
    .ite (.pure _) ((Keeps.look _).bind fun _ => (Keeps.update fun _ => hP.putLow _ _ _ _).bind fun _ =>
      .ite (.pure _) (.update fun _ => hP.jumpTo _ _))) h ht

theorem StepClosed.unlk (an : RegNum) {s t : State} (h : P s) (ht : execUnlk an s = .next t) : P t := by
  unfold execUnlk at ht
  split at ht
  · injection ht
  · exact hP.runInstr ((Keeps.update fun _ => hP.putSp _ _).bind fun _ => (Keeps.look _).bind fun _ =>
      (hP.memRead _ _ _).bind fun _ => (Keeps.update fun _ => hP.putA _ _ _).bind fun _ =>
      .update fun _ => hP.putSp _ _) h ht

/-- Every instruction keeps `P`. -/
theorem StepClosed.exec (i : Instr) {s t : State} (h : P s) (ht : exec i s = .next t) : P t := by
  have hc : ∀ (s : State) (n : RegNum) (v : Long) (f : Ccr), P s → P ((s.putD n v).setCcr f) := fun s n v f h =>
    hP.setCcr _ _ (hP.putD _ _ _ h)
  have hsr : ∀ (f : State → StatusReg), Keeps P (fetchExt >>= fun _ => update fun s => s.setSr (f s)) := fun f =>
    hP.fetchExt.bind fun _ => .update fun _ => hP.setSr _ _
  have hccr : ∀ (f : State → Ccr), Keeps P (fetchExt >>= fun _ => update fun s => s.setCcr (f s)) := fun f =>
    hP.fetchExt.bind fun _ => .update fun _ => hP.setCcr _ _
  cases i with
  | movemStore sz mask ea => exact hP.movemStore sz mask ea h ht
  | movemLoad sz mask ea => exact hP.movemLoad sz mask ea h ht
  | movep dn form an d => exact hP.movep dn form an d h ht
  | chk dn ea => exact hP.chk dn ea h ht
  | dbcc c dn d => exact hP.dbcc c dn d h ht
  | unlk an => exact hP.unlk an h ht
  | cmpi sz imm ea => exact hP.runInstr ((hP.fetchExts _).bind fun _ => hP.opFlags _ _ _) h ht
  | cmpm rx sz ry =>
    exact hP.runInstr ((hP.readEa _ _).bind fun _ => (hP.readEa _ _).bind fun _ => .update fun _ => hP.setCcr _ _) h ht
  | clr sz ea =>
    exact hP.runInstr ((hP.decodeEa _ _).bind fun _ => (Keeps.look _).bind fun _ =>
      hP.thenFlags _ ((hP.unlistedReadLoc _ _).bind fun _ => hP.writeLoc _ _ _)) h ht
  | lea an ea => exact hP.runInstr ((hP.addrOfEa _).bind fun _ => .update fun _ => hP.putA _ _ _) h ht
  | pea ea => exact hP.runInstr ((hP.addrOfEa _).bind fun _ => hP.push32 _) h ht
  | link an d =>
    exact hP.runInstr (hP.fetchExt.bind fun _ => (Keeps.update fun _ => hP.putSp _ _).bind fun _ => (Keeps.look _).bind fun _ =>
      (Keeps.look _).bind fun _ => (hP.memWrite _ _ _ _).bind fun _ => (Keeps.update fun _ => hP.putA _ _ _).bind fun _ =>
      .update fun _ => hP.putSp _ _) h ht
  | bra d =>
    exact hP.runInstr ((Keeps.look _).bind fun _ => (hP.fetchExts _).bind fun _ => .update fun _ => hP.jumpTo _ _) h ht
  | bcc c d =>
    exact hP.runInstr ((Keeps.look _).bind fun _ => (hP.fetchExts _).bind fun _ => (Keeps.look _).bind fun _ =>
      .ite (.update fun _ => hP.jumpTo _ _) (.pure _)) h ht
  | bsr d =>
    exact hP.runInstr ((Keeps.look _).bind fun _ => (hP.fetchExts _).bind fun _ => (Keeps.look _).bind fun _ =>
      (hP.push32 _).bind fun _ => .update fun _ => hP.jumpTo _ _) h ht
  | jmp ea => exact hP.runInstr ((hP.addrOfEa _).bind fun _ => .update fun _ => hP.jumpTo _ _) h ht
  | jsr ea =>
    exact hP.runInstr ((hP.addrOfEa _).bind fun _ => (Keeps.look _).bind fun _ => (hP.push32 _).bind fun _ =>
      .update fun _ => hP.jumpTo _ _) h ht
  | rts => exact hP.runInstr (hP.pop32.bind fun _ => .update fun _ => hP.jumpTo _ _) h ht
  | rtr =>
    exact hP.runInstr (hP.pop16.bind fun _ => hP.thenFlags _ (hP.pop32.bind fun _ => .update fun _ => hP.jumpTo _ _)) h ht
  | rte => exact hP.runInstr hP.returnFromException h ht
  | nop => exact hP.runInstr (body := pure ()) (.pure _) h ht
  | trapv => exact hP.runInstr ((Keeps.look _).bind fun _ => .ite (.fail _) (.pure _)) h ht
  | moveToSr ea =>
    exact hP.runInstr (.privileged ((hP.readEa _ _).bind fun _ => .update fun _ => hP.setSr _ _)) h ht
  | moveToCcr ea => exact hP.runInstr ((hP.readEa _ _).bind fun _ => .update fun _ => hP.setCcr _ _) h ht
  | moveUspAn an => exact hP.runInstr (.privileged (.update fun _ => hP.putA _ _ _)) h ht
  | moveAnUsp an => exact hP.runInstr (.privileged (.update fun _ => hP.setUsp _ _)) h ht
  | reset => exact hP.runInstr (.privileged (.update fun _ => hP.pulse _)) h ht
  | stop v =>
    exact hP.runInstr (.privileged (hP.fetchExt.bind fun _ => .update fun _ h => hP.setRun _ _ (hP.setSr _ _ h))) h ht
  | oriToSr v | andiToSr v | eoriToSr v => exact hP.runInstr (.privileged (hsr _)) h ht
  | oriToCcr v | andiToCcr v | eoriToCcr v => exact hP.runInstr (hccr _) h ht
  | illegal => exact hP.runInstr (body := Machine.fail _) (.fail (.exc .illegalInstruction)) h ht
  | trap v => exact hP.runInstr (body := Machine.fail _) (.fail (.exc (.trap v))) h ht
  | lineA z => exact hP.runInstr (body := Machine.fail _) (.fail (.exc .lineA)) h ht
  | lineF z => exact hP.runInstr (body := Machine.fail _) (.fail (.exc .lineF)) h ht
  | moveq r q =>
    unfold Machine.exec execMoveq at ht
    exact hP.runInstr (Keeps.update fun _ => hc _ _ _ _) h ht
  | extW r =>
    unfold Machine.exec execExtW at ht
    exact hP.runInstr (Keeps.update fun _ => hc _ _ _ _) h ht
  | extL r =>
    unfold Machine.exec execExtL at ht
    exact hP.runInstr (Keeps.update fun _ => hc _ _ _ _) h ht
  | swap r =>
    unfold Machine.exec execSwap at ht
    exact hP.runInstr (Keeps.update fun _ => hc _ _ _ _) h ht
  | exgDxDy x y =>
    unfold Machine.exec execExgDxDy at ht
    exact hP.runInstr (Keeps.update fun _ h => hP.putD _ _ _ (hP.putD _ _ _ h)) h ht
  | exgAxAy x y =>
    unfold Machine.exec execExgAxAy at ht
    exact hP.runInstr (Keeps.update fun _ h => hP.putA _ _ _ (hP.putA _ _ _ h)) h ht
  | exgDxAy x y =>
    unfold Machine.exec execExgDxAy at ht
    exact hP.runInstr (Keeps.update fun _ h => hP.putA _ _ _ (hP.putD _ _ _ h)) h ht
  | moveB s d | moveW s d | moveL s d => exact hP.runInstr (hP.opMove _ _ _) h ht
  | moveaL n e | moveaW n e | addaW n e | addaL n e | subaW n e | subaL n e => exact hP.runInstr (hP.opEaAn _ _ _ _) h ht
  | ori z v e | andi z v e | subi z v e | addi z v e | eori z v e => exact hP.runInstr (hP.opImmEa _ _ _ _) h ht
  | negx z e | neg z e | notEa z e => exact hP.runInstr (hP.opEa _ _ _) h ht
  | tas e => exact hP.runInstr (hP.opEa _ _ _) h ht
  | tst z e => exact hP.runInstr (hP.opFlags _ _ _) h ht
  | cmpBEaDn n e | cmpWEaDn n e | cmpLEaDn n e | cmpaW n e | cmpaL n e => exact hP.runInstr (hP.opFlags _ _ _) h ht
  | moveFromSr e => exact hP.runInstr (hP.opWrite _ _ _) h ht
  | scc c e => exact hP.runInstr (hP.opWrite _ _ _) h ht
  | addq q z e | subq q z e => exact hP.runInstr (hP.opQuick _ _ _ _ _) h ht
  | btstImm n e => exact hP.runInstr (hP.opBitImm (hP.opBitTestAt) _ _) h ht
  | btstDn n e => exact hP.runInstr (hP.opBitDn (hP.opBitTestAt) _ _) h ht
  | bchgImm n e | bclrImm n e | bsetImm n e => exact hP.runInstr (hP.opBitImm (hP.opBitAt _) _ _) h ht
  | bchgDn n e | bclrDn n e | bsetDn n e => exact hP.runInstr (hP.opBitDn (hP.opBitAt _) _ _) h ht
  | nbcd e =>
    exact hP.runInstr ((hP.decodeEa _ _).bind fun _ => (hP.readLoc _ _).bind fun _ => (Keeps.look _).bind fun _ =>
      (hP.decimal _ _ _ _).bind fun _ => hP.thenFlags _ (hP.writeLoc _ _ _)) h ht
  | abcd x f y | sbcd x f y => exact hP.runInstr (hP.opPair .b (hP.decimal _) _ _ _) h ht
  | addx x z f y | subx x z f y => exact hP.runInstr (hP.opPair _ (Keeps.drawsNothing _) _ _ _) h ht
  | mulu n e | muls n e => exact hP.runInstr (hP.opMul _ _ _) h ht
  | divu n e | divs n e => exact hP.runInstr (hP.opDiv _ _ _) h ht
  | aslReg c z r => exact hP.runInstr (hP.opShiftReg .asl c z r) h ht
  | asrReg c z r => exact hP.runInstr (hP.opShiftReg .asr c z r) h ht
  | lslReg c z r => exact hP.runInstr (hP.opShiftReg .lsl c z r) h ht
  | lsrReg c z r => exact hP.runInstr (hP.opShiftReg .lsr c z r) h ht
  | roxlReg c z r => exact hP.runInstr (hP.opShiftReg .roxl c z r) h ht
  | roxrReg c z r => exact hP.runInstr (hP.opShiftReg .roxr c z r) h ht
  | rolReg c z r => exact hP.runInstr (hP.opShiftReg .rol c z r) h ht
  | rorReg c z r => exact hP.runInstr (hP.opShiftReg .ror c z r) h ht
  | aslEa e | asrEa e | lslEa e | lsrEa e | roxlEa e | roxrEa e | rolEa e | rorEa e => exact hP.runInstr (hP.shiftEa _ _) h ht
  | addBDnEa n e | addWDnEa n e | addLDnEa n e | subBDnEa n e | subWDnEa n e | subLDnEa n e | andBDnEa n e | andWDnEa n e
  | andLDnEa n e | orBDnEa n e | orWDnEa n e | orLDnEa n e | eorBDnEa n e | eorWDnEa n e | eorLDnEa n e =>
    exact hP.runInstr (hP.opDnEa _ _ _ _) h ht
  | addBEaDn n e | addWEaDn n e | addLEaDn n e | subBEaDn n e | subWEaDn n e | subLEaDn n e | andBEaDn n e | andWEaDn n e
  | andLEaDn n e | orBEaDn n e | orWEaDn n e | orLEaDn n e => exact hP.runInstr (hP.opEaDn _ _ _ _) h ht

/-! ### The step -/

theorem StepClosed.processReset : Keeps P processReset :=
  (Keeps.update fun _ h => hP.setRun _ _ (hP.setSr _ _ h)).bind fun _ => (hP.memRead _ _ _).bind fun _ =>
    (Keeps.update fun _ => hP.setSsp _ _).bind fun _ => (hP.memRead _ _ _).bind fun _ => .update fun _ => hP.jumpTo _ _

theorem StepClosed.externalReset {s : State} (h : P s) : P (externalReset s) := by
  unfold Machine.externalReset
  split
  · rename_i e; exact hP.processReset.ok h e
  · rename_i e; exact hP.setRun _ _ (hP.processReset.error h e)

theorem StepClosed.traceStage {s : State} (h : P s) : P (traceStage s) := by
  unfold Machine.traceStage
  split
  · exact hP.setTraceDue _ _ (hP.takeEntry _ _ (hP.toEntryClosed.processException _ _) (hP.setRun _ _ h))
  · exact hP.setTraceDue _ _ h

theorem StepClosed.interruptStage {s : State} (h : P s) : P (interruptStage s) := by
  unfold Machine.interruptStage
  refine hP.setPrevIpl _ _ ?_
  split
  · exact hP.takeEntry _ _ (hP.toEntryClosed.processInterrupt _) (hP.setRun _ _ h)
  · exact h

theorem StepClosed.afterInstr (before : Memory) {s : State} (h : P s) : P (afterInstr before s) :=
  hP.interruptStage (hP.traceStage (hP.setStale _ _ h))

theorem StepClosed.takeFetchFault (r : Raise) {s : State} (h : P s) : P (takeFetchFault r s) := by
  unfold Machine.takeFetchFault
  split
  · exact hP.setTraceDue _ _ (hP.takeMemFault _ _ _ h)
  · exact h

theorem StepClosed.execWords (ws : List Word) {s t : State} (h : P s) (ht : execWords ws s = .next t) : P t := by
  unfold Machine.execWords at ht
  split at ht
  · exact hP.exec _ h ht
  · exact hP.runInstr (.fail _) h ht

/-- Every step keeps `P`. -/
theorem StepClosed.step {s t : State} (h : P s) (ht : step s = .next t) : P t := by
  have hf := hP.fetchWords hP.setIr
  unfold Machine.step at ht
  split at ht
  · injection ht with ht; exact ht ▸ hP.externalReset h
  · split at ht
    · injection ht with ht; exact ht ▸ h
    · injection ht with ht; exact ht ▸ hP.interruptStage h
    · split at ht
      · rename_i e; injection ht with ht; exact ht ▸ hP.interruptStage (hP.takeFetchFault _ (hf.error h e))
      · rename_i e
        have hw := hf.ok h e
        split at ht
        · rename_i e'; injection ht with ht; exact ht ▸ hP.afterInstr _ (hP.execWords _ hw e')
        · injection ht
        · injection ht

end

end Sys2Proof.Machine
end

