-- ==== Sys2Proof/Tests/Slice0.lean ====
section
/-! SUPPORT. The model's own tests: ill-formed terms that `Instr.wf` refuses, words written out from the encoding tables of
spec/30_encoding.md, one step on small states with the results that spec/95_test_vectors.md or the rules' own examples give,
and for every statement with hypotheses a state that meets them. -/

open Sys2Proof Sys2Proof.Machine

namespace Sys2Proof.Tests

set_option Elab.async false

/-! ### Well-formedness: one ill-formed term per check -/


/-- An immediate that its word does not hold (R120). -/
theorem test_wf_imm_too_wide : Instr.wf (.ori .b 0x100 (.dn 0)) = false := by decide

/-- Class DA has no address register (R124). -/
theorem test_wf_immediate_to_an : Instr.wf (.addi .w 1 (.an 0)) = false := by decide

/-- `CMPI` takes alterable modes only (R124, D41). -/
theorem test_wf_immediate_to_imm : Instr.wf (.cmpi .w 1 (.imm 0)) = false := by decide

/-- `BTST` on a PC-relative operand (D40, U15). -/
theorem test_wf_bit_imm_on_pc : Instr.wf (.btstImm 0 (.pcDisp 0)) = false := by decide

/-- A bit instruction on an address register. -/
theorem test_wf_bit_dn_on_an : Instr.wf (.bsetDn 0 (.an 1)) = false := by decide

/-- An address register at byte size (R124). -/
theorem test_wf_move_byte_an : Instr.wf (.moveB (.an 0) (.dn 0)) = false := by decide

/-- `MOVE` to an address register is `MOVEA` (R124). -/
theorem test_wf_move_to_an : Instr.wf (.moveW (.dn 0) (.an 0)) = false := by decide

/-- A word immediate beyond 16 bits (R120). -/
theorem test_wf_move_imm_too_wide : Instr.wf (.moveW (.imm 0x10000) (.dn 0)) = false := by decide

/-- A destination that is not alterable. -/
theorem test_wf_move_to_imm : Instr.wf (.moveL (.dn 0) (.imm 0)) = false := by decide

/-- A word immediate beyond 16 bits. -/
theorem test_wf_movea_imm_too_wide : Instr.wf (.moveaW 0 (.imm 0x10000)) = false := by decide

/-- `CLR` of an address register. -/
theorem test_wf_clr_an : Instr.wf (.clr .w (.an 0)) = false := by decide

/-- `TST` of a PC-relative operand (D41). -/
theorem test_wf_tst_pc : Instr.wf (.tst .w (.pcDisp 0)) = false := by decide

/-- `Scc` to an immediate. -/
theorem test_wf_scc_imm : Instr.wf (.scc .eq (.imm 0)) = false := by decide

/-- Class D has no address register. -/
theorem test_wf_chk_an : Instr.wf (.chk 0 (.an 0)) = false := by decide

/-- `LEA` takes control modes only. -/
theorem test_wf_lea_predec : Instr.wf (.lea 0 (.predec 0)) = false := by decide

/-- `JMP` takes control modes only. -/
theorem test_wf_jmp_dn : Instr.wf (.jmp (.dn 0)) = false := by decide

/-- `MOVEM` to memory through `(An)+` (R183). -/
theorem test_wf_movem_store_postinc : Instr.wf (.movemStore .w 0 (.postinc 0)) = false := by decide

/-- `MOVEM` has no byte size. -/
theorem test_wf_movem_store_byte : Instr.wf (.movemStore .b 0 (.ind 0)) = false := by decide

/-- `MOVEM` from memory through `-(An)` (R184). -/
theorem test_wf_movem_load_predec : Instr.wf (.movemLoad .l 0 (.predec 0)) = false := by decide

/-- `MOVEM` has no byte size. -/
theorem test_wf_movem_load_byte : Instr.wf (.movemLoad .b 0 (.ind 0)) = false := by decide

/-- `ADDQ.B` on an address register (R203). -/
theorem test_wf_addq_byte_an : Instr.wf (.addq 1 .b (.an 0)) = false := by decide

/-- `SUBQ` on an operand that is not alterable. -/
theorem test_wf_subq_pc : Instr.wf (.subq 1 .w (.pcDisp 0)) = false := by decide

/-- Displacement byte 0 announces a word (R290). -/
theorem test_wf_bra_short_zero : Instr.wf (.bra (.short 0)) = false := by decide

/-- Condition 0 is `BRA` (R291). -/
theorem test_wf_bcc_true : Instr.wf (.bcc .t (.word 0)) = false := by decide

/-- Displacement byte 0 announces a word. -/
theorem test_wf_bcc_short_zero : Instr.wf (.bcc .eq (.short 0)) = false := by decide

/-- Class D has no address register. -/
theorem test_wf_or_an : Instr.wf (.orWEaDn 0 (.an 0)) = false := by decide

/-- Class MA has no register direct mode. -/
theorem test_wf_and_to_dn : Instr.wf (.andLDnEa 0 (.dn 0)) = false := by decide

/-- An address register at byte size. -/
theorem test_wf_sub_byte_an : Instr.wf (.subBEaDn 0 (.an 0)) = false := by decide

/-- Class MA has no register direct mode. -/
theorem test_wf_sub_to_dn : Instr.wf (.subWDnEa 0 (.dn 0)) = false := by decide

/-- A byte immediate beyond 8 bits. -/
theorem test_wf_add_imm_too_wide : Instr.wf (.addBEaDn 0 (.imm 0x100)) = false := by decide

/-- A destination that is not alterable. -/
theorem test_wf_add_to_pc : Instr.wf (.addLDnEa 0 (.pcDisp 0)) = false := by decide

/-- A word immediate beyond 16 bits. -/
theorem test_wf_adda_imm_too_wide : Instr.wf (.addaW 0 (.imm 0x10000)) = false := by decide

/-- Class DA has no address register. -/
theorem test_wf_eor_an : Instr.wf (.eorWDnEa 0 (.an 0)) = false := by decide

/-- Class D has no address register. -/
theorem test_wf_mulu_an : Instr.wf (.mulu 0 (.an 0)) = false := by decide

/-- The memory shifts take no register. -/
theorem test_wf_shift_dn : Instr.wf (.aslEa (.dn 0)) = false := by decide

/-- The memory shifts take no immediate. -/
theorem test_wf_rotate_imm : Instr.wf (.rolEa (.imm 0)) = false := by decide


/-! ### Decoding: for every constructor, words written out from R113 to R129 -/

/-- The words decode to the instruction and nothing is left. -/
def decodesTo (ws : List Word) (i : Instr) : Bool := decode ws == .ok (i, [])


theorem test_decode_immediates :
    (decodesTo [0x003C, 0x0015] (.oriToCcr 0x15) && decodesTo [0x007C, 0x0700] (.oriToSr 0x0700) &&
    decodesTo [0x0042, 0x1234] (.ori .w 0x1234 (.dn 2)) && decodesTo [0x023C, 0x001E] (.andiToCcr 0x1E) &&
    decodesTo [0x027C, 0xF8FF] (.andiToSr 0xF8FF) && decodesTo [0x0213, 0x000F] (.andi .b 0x0F (.ind 3)) &&
    decodesTo [0x0480, 0x0001, 0x0002] (.subi .l 0x00010002 (.dn 0)) &&
    decodesTo [0x0658, 0x0005] (.addi .w 5 (.postinc 0)) && decodesTo [0x0A3C, 0x0004] (.eoriToCcr 4) &&
    decodesTo [0x0A7C, 0x2000] (.eoriToSr 0x2000) && decodesTo [0x0A01, 0x00FF] (.eori .b 0xFF (.dn 1)) &&
    decodesTo [0x0C6D, 0x0007, 0x0010] (.cmpi .w 7 (.disp 5 0x10))) = true := by decide +kernel

theorem test_decode_bits :
    (decodesTo [0x0800, 0x001F] (.btstImm 31 (.dn 0)) && decodesTo [0x0310] (.btstDn 1 (.ind 0)) &&
    decodesTo [0x0851, 0x0007] (.bchgImm 7 (.ind 1)) && decodesTo [0x0543] (.bchgDn 2 (.dn 3)) &&
    decodesTo [0x0890, 0x0002] (.bclrImm 2 (.ind 0)) && decodesTo [0x0784] (.bclrDn 3 (.dn 4)) &&
    decodesTo [0x08D7, 0x0000] (.bsetImm 0 (.ind 7)) && decodesTo [0x09E0] (.bsetDn 4 (.predec 0))) = true := by decide +kernel

theorem test_decode_moves :
    (decodesTo [0x010A, 0x0004] (.movep 0 .wordToReg 2 4) && decodesTo [0x0149, 0x0000] (.movep 0 .longToReg 1 0) &&
    decodesTo [0x038A, 0x0002] (.movep 1 .wordToMem 2 2) && decodesTo [0x03CA, 0xFFFF] (.movep 1 .longToMem 2 0xFFFF) &&
    decodesTo [0x1081] (.moveB (.dn 1) (.ind 0)) && decodesTo [0x2039, 0x0001, 0x2344] (.moveL (.absL 0x12344) (.dn 0)) &&
    decodesTo [0x3481] (.moveW (.dn 1) (.ind 2)) && decodesTo [0x2248] (.moveaL 1 (.an 0)) &&
    decodesTo [0x307C, 0x8000] (.moveaW 0 (.imm 0x8000)) && decodesTo [0x40C3] (.moveFromSr (.dn 3)) &&
    decodesTo [0x44FC, 0x001F] (.moveToCcr (.imm 0x1F)) && decodesTo [0x46C1] (.moveToSr (.dn 1)) &&
    decodesTo [0x4E60] (.moveAnUsp 0) && decodesTo [0x4E69] (.moveUspAn 1) &&
    decodesTo [0x45F0, 0x1008] (.lea 2 (.index 0 ⟨false, 1, false, 8⟩)) && decodesTo [0x4868, 0x0004] (.pea (.disp 0 4)) &&
    decodesTo [0x74FF] (.moveq 2 0xFF) && decodesTo [0x48E7, 0xC000] (.movemStore .l 0xC000 (.predec 7)) &&
    decodesTo [0x4CDF, 0x0003] (.movemLoad .l 3 (.postinc 7)) && decodesTo [0xC340] (.exgDxDy 1 0) &&
    decodesTo [0xC34A] (.exgAxAy 1 2) && decodesTo [0xC38A] (.exgDxAy 1 2) && decodesTo [0x4E56, 0xFFF8] (.link 6 0xFFF8) &&
    decodesTo [0x4E5E] (.unlk 6) && decodesTo [0x4845] (.swap 5) && decodesTo [0x4880] (.extW 0) &&
    decodesTo [0x48C7] (.extL 7)) = true := by decide +kernel

theorem test_decode_one_operand :
    (decodesTo [0x4042] (.negx .w (.dn 2)) && decodesTo [0x4253] (.clr .w (.ind 3)) && decodesTo [0x4484] (.neg .l (.dn 4)) &&
    decodesTo [0x4600] (.notEa .b (.dn 0)) && decodesTo [0x4801] (.nbcd (.dn 1)) && decodesTo [0x4A16] (.tst .b (.ind 6)) &&
    decodesTo [0x4AD0] (.tas (.ind 0)) && decodesTo [0x57C1] (.scc .eq (.dn 1)) && decodesTo [0x4590] (.chk 2 (.ind 0)) &&
    decodesTo [0x5048] (.addq 0 .w (.an 0)) && decodesTo [0x5382] (.subq 1 .l (.dn 2))) = true := by decide +kernel

theorem test_decode_control :
    (decodesTo [0x4AFC] (.illegal) && decodesTo [0x4E4F] (.trap 15) && decodesTo [0x4E70] (.reset) &&
    decodesTo [0x4E71] (.nop) && decodesTo [0x4E72, 0x2700] (.stop 0x2700) && decodesTo [0x4E73] (.rte) &&
    decodesTo [0x4E75] (.rts) && decodesTo [0x4E76] (.trapv) && decodesTo [0x4E77] (.rtr) &&
    decodesTo [0x4E90] (.jsr (.ind 0)) && decodesTo [0x4EF8, 0x1234] (.jmp (.absW 0x1234)) &&
    decodesTo [0x51C9, 0xFFFC] (.dbcc .f 1 0xFFFC) && decodesTo [0x60FE] (.bra (.short 0xFE)) &&
    decodesTo [0x6100, 0x0010] (.bsr (.word 0x10)) && decodesTo [0x6704] (.bcc .eq (.short 4)) &&
    decodesTo [0xA123] (.lineA 0x123) && decodesTo [0xF123] (.lineF 0x123)) = true := by decide +kernel

theorem test_decode_or_sub :
    (decodesTo [0x8210] (.orBEaDn 1 (.ind 0)) && decodesTo [0x8441] (.orWEaDn 2 (.dn 1)) &&
    decodesTo [0x8698] (.orLEaDn 3 (.postinc 0)) && decodesTo [0x8310] (.orBDnEa 1 (.ind 0)) &&
    decodesTo [0x8551] (.orWDnEa 2 (.ind 1)) && decodesTo [0x87A2] (.orLDnEa 3 (.predec 2)) &&
    decodesTo [0x80C1] (.divu 0 (.dn 1)) && decodesTo [0x83FC, 0x0003] (.divs 1 (.imm 3)) &&
    decodesTo [0x8300] (.sbcd 1 .regs 0) && decodesTo [0x9200] (.subBEaDn 1 (.dn 0)) &&
    decodesTo [0x9449] (.subWEaDn 2 (.an 1)) && decodesTo [0x96BA, 0x0002] (.subLEaDn 3 (.pcDisp 2)) &&
    decodesTo [0x9310] (.subBDnEa 1 (.ind 0)) && decodesTo [0x9551] (.subWDnEa 2 (.ind 1)) &&
    decodesTo [0x97A2] (.subLDnEa 3 (.predec 2)) && decodesTo [0x90C1] (.subaW 0 (.dn 1)) &&
    decodesTo [0x93C8] (.subaL 1 (.an 0)) && decodesTo [0x9340] (.subx 1 .w .regs 0)) = true := by decide +kernel

theorem test_decode_compare_eor :
    (decodesTo [0xB200] (.cmpBEaDn 1 (.dn 0)) && decodesTo [0xB449] (.cmpWEaDn 2 (.an 1)) &&
    decodesTo [0xB69A] (.cmpLEaDn 3 (.postinc 2)) && decodesTo [0xB0C1] (.cmpaW 0 (.dn 1)) &&
    decodesTo [0xB3C8] (.cmpaL 1 (.an 0)) && decodesTo [0xB302] (.eorBDnEa 1 (.dn 2)) &&
    decodesTo [0xB551] (.eorWDnEa 2 (.ind 1)) && decodesTo [0xB7A2] (.eorLDnEa 3 (.predec 2)) &&
    decodesTo [0xB548] (.cmpm 2 .w 0)) = true := by decide +kernel

theorem test_decode_and_add :
    (decodesTo [0xC210] (.andBEaDn 1 (.ind 0)) && decodesTo [0xC441] (.andWEaDn 2 (.dn 1)) &&
    decodesTo [0xC698] (.andLEaDn 3 (.postinc 0)) && decodesTo [0xC310] (.andBDnEa 1 (.ind 0)) &&
    decodesTo [0xC551] (.andWDnEa 2 (.ind 1)) && decodesTo [0xC7A2] (.andLDnEa 3 (.predec 2)) &&
    decodesTo [0xC0C1] (.mulu 0 (.dn 1)) && decodesTo [0xC3FC, 0xFFFF] (.muls 1 (.imm 0xFFFF)) &&
    decodesTo [0xC308] (.abcd 1 .predec 0) && decodesTo [0xD200] (.addBEaDn 1 (.dn 0)) &&
    decodesTo [0xD449] (.addWEaDn 2 (.an 1)) && decodesTo [0xD6BA, 0x0002] (.addLEaDn 3 (.pcDisp 2)) &&
    decodesTo [0xD310] (.addBDnEa 1 (.ind 0)) && decodesTo [0xD551] (.addWDnEa 2 (.ind 1)) &&
    decodesTo [0xD7A2] (.addLDnEa 3 (.predec 2)) && decodesTo [0xD0C1] (.addaW 0 (.dn 1)) &&
    decodesTo [0xD3C8] (.addaL 1 (.an 0)) && decodesTo [0xD388] (.addx 1 .l .predec 0)) = true := by decide +kernel

theorem test_decode_shifts :
    (decodesTo [0xE380] (.aslReg (.quick 1) .l 0) && decodesTo [0xE262] (.asrReg (.reg 1) .w 2) &&
    decodesTo [0xE188] (.lslReg (.quick 0) .l 0) && decodesTo [0xE20B] (.lsrReg (.quick 1) .b 3) &&
    decodesTo [0xE554] (.roxlReg (.quick 2) .w 4) && decodesTo [0xEAB6] (.roxrReg (.reg 5) .l 6) &&
    decodesTo [0xEF38] (.rolReg (.reg 7) .b 0) && decodesTo [0xE059] (.rorReg (.quick 0) .w 1) &&
    decodesTo [0xE1D0] (.aslEa (.ind 0)) && decodesTo [0xE0D1] (.asrEa (.ind 1)) && decodesTo [0xE3D2] (.lslEa (.ind 2)) &&
    decodesTo [0xE2D3] (.lsrEa (.ind 3)) && decodesTo [0xE5D4] (.roxlEa (.ind 4)) &&
    decodesTo [0xE4D5] (.roxrEa (.ind 5)) && decodesTo [0xE7D6] (.rolEa (.ind 6)) && decodesTo [0xE6D7] (.rorEa (.ind 7))) = true := by decide +kernel

theorem test_decode_modes :
    (decodesTo [0x3005] (.moveW (.dn 5) (.dn 0)) && decodesTo [0x300E] (.moveW (.an 6) (.dn 0)) &&
    decodesTo [0x3017] (.moveW (.ind 7) (.dn 0)) && decodesTo [0x3018] (.moveW (.postinc 0) (.dn 0)) &&
    decodesTo [0x3021] (.moveW (.predec 1) (.dn 0)) && decodesTo [0x302A, 0xFFFE] (.moveW (.disp 2 0xFFFE) (.dn 0)) &&
    decodesTo [0x3033, 0x98FE] (.moveW (.index 3 ⟨true, 1, true, 0xFE⟩) (.dn 0)) &&
    decodesTo [0x3038, 0x8000] (.moveW (.absW 0x8000) (.dn 0)) &&
    decodesTo [0x3039, 0x0003, 0x1A5C] (.moveW (.absL 0x31A5C) (.dn 0)) &&
    decodesTo [0x303A, 0x0010] (.moveW (.pcDisp 0x10) (.dn 0)) &&
    decodesTo [0x303B, 0x1004] (.moveW (.pcIndex ⟨false, 1, false, 4⟩) (.dn 0)) &&
    decodesTo [0x303C, 0xABCD] (.moveW (.imm 0xABCD) (.dn 0)) && decodesTo [0x103C, 0xFF12] (.moveB (.imm 0x12) (.dn 0)) &&
    decodesTo [0x203C, 0x1234, 0x5678] (.moveL (.imm 0x12345678) (.dn 0)) &&
    decodesTo [0x33FC, 0x0001, 0x0002, 0x0004] (.moveW (.imm 1) (.absL 0x20004))) = true := by decide +kernel

/-- Words without a row: `MOVE.B A0,D0`, `BTST D0,d16(PC)`, a 68010 word, and a size field of `11` (R128). -/
theorem test_decode_illegal :
    ([0x1008, 0x013A, 0x42C0, 0x4E74, 0x4E7A, 0x0CFC].all fun w => decode [w, 0, 0, 0, 0] == .error .illegal) = true := by
  decide +kernel

/-- A table row's word, and the operand words of zeros that follow it. -/
theorem test_decode_table_word : decodeTableWord 16 0x45F0 = some (.lea 2 (.index 0 ⟨false, 0, false, 0⟩)) := by decide +kernel

/-! ### One step on a small state -/

/-- Supervisor mode, RAM everywhere, `PC` 0x1000, `SSP` 0x4000, `USP` 0x3000, `A0` 0x2000. -/
def base : State :=
  { State.reset with
    usp := 0x3000
    ssp := 0x4000
    pc := 0x1000
    a := State.reset.a.set 0 0x2000 }

/-- Words put into memory. -/
def poke (a : Long) (ws : List Word) (s : State) : State :=
  s.setMem (s.mem.place (byteRange a (2 * ws.length)) (ws.flatMap Word.bytes))

/-- The status register loaded from a word. -/
def withSr (w : Word) (s : State) : State := s.setSr (StatusReg.ofWord w)

/-- The state after one step over the words at 0x1000. -/
def run (ws : List Word) (s : State) : State :=
  match step (poke 0x1000 ws s) with
  | .next t => t
  | _ => s

/-- The flags as a byte. -/
def ccr (s : State) : Byte := s.sr.ccr.toByte


/-- spec/95: EA.1. -/
theorem test_step_moveW_indirect :
    let t := run [0x3010] (poke 0x2000 [0x1122] base)
    (t.getD 0, t.pc) = (0x1122, 0x1002) := by decide +kernel

/-- spec/95: EA.6. -/
theorem test_step_moveB_predec_a7 :
    let t := run [0x1F00] ((poke 0x3FFE [0x1122] base).putD 0 0xAB)
    (t.getA 7, t.mem.wordAt 0x3FFE) = (0x3FFE, 0xAB22) := by decide +kernel

/-- spec/95: EA.8. -/
theorem test_step_moveW_index :
    let t := run [0x3030, 0x1002] (((poke 0x2000 [0x1122, 0x3344] base).putA 0 0x2004).putD 1 0x1234FFFC)
    t.getD 0 = 0x3344 := by decide +kernel

/-- spec/95: EA.12. -/
theorem test_step_moveW_abs_short_sign :
    let t := run [0x3038, 0x8000] (poke 0xFF8000 [0xBEEF] base)
    (t.getD 0, ccr t) = (0xBEEF, 0x08) := by decide +kernel

/-- spec/95: EA.20. -/
theorem test_step_moveL_register_before_decrement :
    let t := run [0x2108] (base.putA 0 0x2004)
    (t.getA 0, t.mem.longAt 0x2000) = (0x2000, 0x2004) := by decide +kernel

/-- spec/95: EA.21. -/
theorem test_step_moveaL_own_register :
    let t := run [0x2058] (poke 0x2000 [0x1122, 0x3344] base)
    t.getA 0 = 0x11223344 := by decide +kernel

/-- spec/95: MOV.4. -/
theorem test_step_moveaW_sign :
    let t := run [0x327C, 0x8000] (withSr 0x271F base)
    (t.getA 1, ccr t) = (0xFFFF8000, 0x1F) := by decide +kernel

/-- spec/95: MOV.2. -/
theorem test_step_moveL_zero_flags :
    let t := run [0x203C, 0x0000, 0x0000] (withSr 0x271B (base.putD 0 5))
    (t.getD 0, ccr t) = (0, 0x14) := by decide +kernel

/-- spec/95: MOV.6. -/
theorem test_step_moveq_negative :
    let t := run [0x76FF] base
    (t.getD 3, ccr t) = (0xFFFFFFFF, 0x08) := by decide +kernel

/-- spec/95: MOV.13. -/
theorem test_step_movem_store_predec :
    let t := run [0x48E0, 0x00C0] ((base.putA 0 0x2008).putA 1 0xAAAAAAAA)
    (t.getA 0, t.mem.longAt 0x2000, t.mem.longAt 0x2004) = (0x2000, 0x2008, 0xAAAAAAAA) := by decide +kernel

/-- spec/95: MOV.12. -/
theorem test_step_movem_store_control :
    let t := run [0x4890, 0x0201] ((base.putA 1 0xABCDEF01).putD 0 0x12345678)
    t.mem.longAt 0x2000 = 0x5678EF01 := by decide +kernel

/-- spec/95: MOV.14. -/
theorem test_step_movem_load_postinc :
    let t := run [0x4CD8, 0x0300] (poke 0x2000 [0x0000, 0x5000, 0x0000, 0x6000] base)
    (t.getA 0, t.getA 1) = (0x2008, 0x6000) := by decide +kernel

/-- spec/95: MOV.11. -/
theorem test_step_movem_load_sign :
    let t := run [0x4C90, 0x0201] (poke 0x2000 [0x8001, 0x7FFF] base)
    (t.getD 0, t.getA 1) = (0xFFFF8001, 0x7FFF) := by decide +kernel

/-- spec/95: MOV.16. -/
theorem test_step_movep_long_to_memory :
    let t := run [0x01C9, 0x0000] ((base.putA 1 0x8001).putD 0 0x12345678)
    (t.mem.byteAt 0x8001, t.mem.byteAt 0x8007) = (0x12, 0x78) := by decide +kernel

/-- spec/95: MOV.17. -/
theorem test_step_movep_word_to_register :
    let t := run [0x0109, 0x0002] (((poke 0x8000 [0x0102, 0x0304, 0x0506] base).putA 1 0x8000).putD 0 0xFFFFFFFF)
    t.getD 0 = 0xFFFF0305 := by decide +kernel

/-- spec/95: MOV.18. -/
theorem test_step_lea_index :
    let t := run [0x45F0, 0x1008] ((base.putA 0 0x1000).putD 1 0xFFFE)
    t.getA 2 = 0x1006 := by decide +kernel

/-- spec/95: MOV.22. -/
theorem test_step_pea_a7 :
    let t := run [0x4857] base
    (t.ssp, t.mem.longAt 0x3FFC) = (0x3FFC, 0x4000) := by decide +kernel

/-- spec/95: MOV.23. -/
theorem test_step_exg_mixed :
    let t := run [0xC38A] ((base.putA 2 0xFF0000).putD 1 5)
    (t.getD 1, t.getA 2) = (0xFF0000, 5) := by decide +kernel

/-- spec/95: MOV.24. -/
theorem test_step_exg_data :
    let t := run [0xC342] ((base.putD 2 2).putD 1 1)
    (t.getD 1, t.getD 2) = (2, 1) := by decide +kernel

/-- spec/95: MOV.25. -/
theorem test_step_exg_address :
    let t := run [0xC34A] ((base.putA 2 2).putA 1 1)
    (t.getA 1, t.getA 2) = (2, 1) := by decide +kernel

/-- spec/95: MOV.26. -/
theorem test_step_link :
    let t := run [0x4E56, 0xFFF8] (base.putA 6 0xABCD)
    (t.getA 6, t.ssp, t.mem.longAt 0x3FFC) = (0x3FFC, 0x3FF4, 0xABCD) := by decide +kernel

/-- spec/95: MOV.28. -/
theorem test_step_link_a7 :
    let t := run [0x4E57, 0x0000] base
    (t.ssp, t.mem.longAt 0x3FFC) = (0x3FFC, 0x3FFC) := by decide +kernel

/-- spec/95: MOV.27. -/
theorem test_step_unlk :
    let t := run [0x4E5E] ((poke 0x3FFC [0x0000, 0xABCD] base).putA 6 0x3FFC)
    (t.getA 6, t.ssp) = (0xABCD, 0x4000) := by decide +kernel

/-- spec/95: ARI.1. -/
theorem test_step_addW_carry :
    let t := run [0xD058] (poke 0x2000 [0x7FFF] (base.putD 0 0x9235))
    (t.getD 0, t.getA 0, ccr t) = (0x1234, 0x2002, 0x11) := by decide +kernel

/-- spec/95: ARI.4. -/
theorem test_step_addB_overflow :
    let t := run [0xD001] ((base.putD 1 0x80).putD 0 0x80)
    (t.getD 0, ccr t) = (0, 0x17) := by decide +kernel

/-- spec/95: ARI.5. -/
theorem test_step_addL_overflow :
    let t := run [0xD081] ((base.putD 1 1).putD 0 0x7FFFFFFF)
    (t.getD 0, ccr t) = (0x80000000, 0x0A) := by decide +kernel

/-- spec/95: ARI.6. -/
theorem test_step_addW_to_memory :
    let t := run [0xD150] (poke 0x2000 [0xFFFF] (base.putD 0 0x10001))
    (t.mem.wordAt 0x2000, ccr t) = (0, 0x15) := by decide +kernel

/-- spec/95: ARI.8. -/
theorem test_step_addaW_sign :
    let t := run [0xD2C0] ((base.putA 1 0x1000).putD 0 0xFFFF)
    t.getA 1 = 0xFFF := by decide +kernel

/-- spec/95: ARI.9. -/
theorem test_step_addaL :
    let t := run [0xD3C0] ((base.putA 1 0x1000).putD 0 0xFFFF)
    t.getA 1 = 0x10FFF := by decide +kernel

/-- spec/95: ARI.10. -/
theorem test_step_addiB_upper_bits :
    let t := run [0x0600, 0x0001] (base.putD 0 0x123456FF)
    (t.getD 0, ccr t) = (0x12345600, 0x15) := by decide +kernel

/-- spec/95: ARI.13. -/
theorem test_step_addqB_eight :
    let t := run [0x5000] (base.putD 0 0x78)
    (t.getD 0, ccr t) = (0x80, 0x0A) := by decide +kernel

/-- R205: 0 minus 1 at word size. -/
theorem test_step_subW_borrow :
    let t := run [0x9041] ((base.putD 1 1).putD 0 0x50000)
    (t.getD 0, ccr t) = (0x5FFFF, 0x19) := by decide +kernel

/-- spec/95: ARI.22. -/
theorem test_step_subaW :
    let t := run [0x92C0] (base.putD 0 0x8000)
    t.getA 1 = 0x8000 := by decide +kernel

/-- spec/95: ARI.21. -/
theorem test_step_subaL :
    let t := run [0x93C0] ((base.putA 1 0x2000).putD 0 0x10)
    t.getA 1 = 0x1FF0 := by decide +kernel

/-- spec/95: ARI.23. -/
theorem test_step_subiW :
    let t := run [0x0440, 0x0001] (base.putD 0 0x8000)
    (t.getD 0, ccr t) = (0x7FFF, 0x02) := by decide +kernel

/-- spec/95: ARI.25. -/
theorem test_step_subqL_address :
    let t := run [0x5188] (base.putA 0 4)
    (t.getA 0, ccr t) = (0xFFFFFFFC, 0) := by decide +kernel

/-- spec/95: ARI.26. -/
theorem test_step_subxB_predec :
    let t := run [0x9109] (withSr 0x2714 (((poke 0x2000 [0x0100] base).putA 1 0x2001).putA 0 0x5001))
    (t.getA 0, t.getA 1, t.mem.byteAt 0x5000, ccr t) = (0x5000, 0x2000, 0xFE, 0x19) := by decide +kernel

/-- R204: Z unchanged on a zero result. -/
theorem test_step_addxL_sticky_z :
    let t := run [0xD181] (withSr 0x2704 base)
    (t.getD 0, ccr t) = (0, 0x04) := by decide +kernel

/-- spec/95: ARI.28. -/
theorem test_step_negB_most_negative :
    let t := run [0x4400] (base.putD 0 0x80)
    (t.getD 0, ccr t) = (0x80, 0x1B) := by decide +kernel

/-- spec/95: ARI.30. -/
theorem test_step_negxB :
    let t := run [0x4000] (withSr 0x2714 base)
    (t.getD 0, ccr t) = (0xFF, 0x19) := by decide +kernel

/-- spec/95: ARI.32. -/
theorem test_step_cmpW_keeps_x :
    let t := run [0xB041] (withSr 0x2710 ((base.putD 1 2).putD 0 1))
    (t.getD 0, ccr t) = (1, 0x19) := by decide +kernel

/-- spec/95: ARI.36. -/
theorem test_step_cmpaW_sign :
    let t := run [0xB0FC, 0x8000] (base.putA 0 0x8000)
    (t.getA 0, ccr t) = (0x8000, 0x01) := by decide +kernel

/-- spec/95: ARI.37. -/
theorem test_step_cmpiB :
    let t := run [0x0C10, 0x0041] (poke 0x2000 [0x4100] base)
    ccr t = 0x04 := by decide +kernel

/-- spec/95: ARI.39. -/
theorem test_step_cmpm_same_register :
    let t := run [0xB148] (poke 0x2000 [0x0005, 0x0003] base)
    (t.getA 0, ccr t) = (0x2004, 0x09) := by decide +kernel

/-- R92: on a device that takes writes and answers no read, `CLR` takes the bus error of its read. -/
theorem test_step_clr_write_only_device :
    let s := { poke 0x1000 [0x4250] base with memMap := [⟨0x2000, 16, .busError, .taken⟩, ⟨0, 2 ^ 24, .stored, .stored⟩] }
    (execClr .w (.ind 0) s matches .next _) ∧
      unlistedRead .w .data 0x2000 s = .error (.mem ⟨.bus, ⟨0x2000, false, .data⟩⟩) s := ⟨rfl, rfl⟩

/-- R154 and decision D50: `A0` has stepped where the read of the source faults, and `A1` where that of the destination does. -/
theorem test_step_cmpm_fault_after_step :
    (run [0xB148] (base.putA 0 0x2001)).getA 0 = 0x2003 ∧
    (let t := run [0xB348] (base.putA 1 0x2001)
     (t.getA 0, t.getA 1) = (0x2002, 0x2003)) := by decide +kernel

/-- spec/95: ARI.41. -/
theorem test_step_mulu :
    let t := run [0xC0C1] ((base.putD 1 0xFFFF).putD 0 0xFFFF)
    (t.getD 0, ccr t) = (0xFFFE0001, 0x08) := by decide +kernel

/-- spec/95: ARI.45. -/
theorem test_step_muls :
    let t := run [0xC1C1] ((base.putD 1 0x7FFF).putD 0 0x8000)
    (t.getD 0, ccr t) = (0xC0008000, 0x08) := by decide +kernel

/-- spec/95: ARI.46. -/
theorem test_step_divu :
    let t := run [0x80FC, 0x0007] (withSr 0x271F (base.putD 0 0x12340))
    (t.getD 0, ccr t) = (0x3299B, 0x10) := by decide +kernel

/-- spec/95: ARI.52. -/
theorem test_step_divs_signs :
    let t := run [0x81C1] ((base.putD 1 0xFFFE).putD 0 0xFFFFFFF9)
    (t.getD 0, ccr t) = (0xFFFF0003, 0) := by decide +kernel

/-- spec/95: ARI.56. -/
theorem test_step_divs_overflow_keeps_register :
    let t := run [0x81C1] ((base.putD 1 1).putD 0 0x8000)
    (t.getD 0, t.sr.ccr.v, t.sr.ccr.c) = (0x8000, true, false) := by decide +kernel

/-- spec/95: ARI.49. -/
theorem test_step_divu_by_zero :
    let t := run [0x80C1] (poke 0x14 [0x0000, 0x1300] (base.putD 0 0x1234))
    (t.getD 0, t.ssp, t.sr.ccr.c) = (0x1234, 0x3FFA, false) := by decide +kernel

/-- spec/95: ARI.57. -/
theorem test_step_extW_upper :
    let t := run [0x4880] (base.putD 0 0x12340080)
    (t.getD 0, ccr t) = (0x1234FF80, 0x08) := by decide +kernel

/-- spec/95: ARI.58. -/
theorem test_step_extL :
    let t := run [0x48C0] (base.putD 0 0x1234FF80)
    (t.getD 0, ccr t) = (0xFFFFFF80, 0x08) := by decide +kernel

/-- spec/95: ARI.60. -/
theorem test_step_clrW :
    let t := run [0x4250] (poke 0x2000 [0xAABB, 0xCC00] (withSr 0x271B base))
    (t.mem.longAt 0x2000, ccr t) = (0xCC00, 0x14) := by decide +kernel

/-- spec/95: BCD.3. -/
theorem test_step_abcd_carry :
    let t := run [0xC101] (withSr 0x2710 ((base.putD 1 0x99).putD 0 0x99))
    (t.getD 0, t.sr.ccr.x, t.sr.ccr.c) = (0x99, true, true) := by decide +kernel

/-- spec/95: BCD.4. -/
theorem test_step_abcd_predec :
    let t := run [0xC109] (withSr 0x2714 (((poke 0x2000 [0x2700, 0x1500] base).putA 1 0x2001).putA 0 0x2003))
    (t.getA 0, t.getA 1, t.mem.byteAt 0x2002) = (0x2002, 0x2000, 0x43) := by decide +kernel

/-- spec/95: BCD.7. -/
theorem test_step_sbcd_borrow :
    let t := run [0x8101] (withSr 0x2704 (base.putD 1 1))
    (t.getD 0, t.sr.ccr.x, t.sr.ccr.z) = (0x99, true, false) := by decide +kernel

/-- spec/95: BCD.9. -/
theorem test_step_nbcd :
    let t := run [0x4800] (base.putD 0 0x25)
    (t.getD 0, t.sr.ccr.c) = (0x75, true) := by decide +kernel

/-- spec/95: LOG.1. -/
theorem test_step_andW :
    let t := run [0xC041] (withSr 0x271F ((base.putD 1 0xF0F0).putD 0 0x1234FF0F))
    (t.getD 0, ccr t) = (0x1234F000, 0x18) := by decide +kernel

/-- spec/95: LOG.2. -/
theorem test_step_andL_to_memory :
    let t := run [0xC190] (poke 0x2000 [0xF0F0, 0xF0F0] (base.putD 0 0x0F0F0F0F))
    (t.mem.longAt 0x2000, ccr t) = (0, 0x04) := by decide +kernel

/-- spec/95: LOG.3. -/
theorem test_step_andiB :
    let t := run [0x0200, 0x000F] (base.putD 0 0xA5)
    (t.getD 0, ccr t) = (5, 0) := by decide +kernel

/-- spec/95: LOG.4. -/
theorem test_step_orL_to_memory :
    let t := run [0x8190] (poke 0x2000 [0x1234, 0x0056] (base.putD 0 0xFF00))
    t.mem.longAt 0x2000 = 0x1234FF56 := by decide +kernel

/-- spec/95: LOG.6. -/
theorem test_step_oriW :
    let t := run [0x0040, 0x8000] (base.putD 0 1)
    (t.getD 0, ccr t) = (0x8001, 0x08) := by decide +kernel

/-- spec/95: LOG.7. -/
theorem test_step_eorW :
    let t := run [0xB141] ((base.putD 1 0x1234).putD 0 0xFFFF)
    (t.getD 1, ccr t) = (0xEDCB, 0x08) := by decide +kernel

/-- spec/95: LOG.9. -/
theorem test_step_eoriL :
    let t := run [0x0A80, 0xFFFF, 0xFFFF] (base.putD 0 0xFFFFFFFF)
    (t.getD 0, ccr t) = (0, 0x04) := by decide +kernel

/-- spec/95: LOG.11. -/
theorem test_step_notL_keeps_x :
    let t := run [0x4680] (withSr 0x2710 base)
    (t.getD 0, ccr t) = (0xFFFFFFFF, 0x18) := by decide +kernel

/-- spec/95: LOG.12. -/
theorem test_step_tstW :
    let t := run [0x4A50] (poke 0x2000 [0x8000] (withSr 0x271F base))
    (t.getA 0, ccr t) = (0x2000, 0x18) := by decide +kernel

/-- spec/95: SHF.6. -/
theorem test_step_asl_overflow_in_passing :
    let t := run [0xE540] (base.putD 0 0x6000)
    (t.getD 0, ccr t) = (0x8000, 0x1B) := by decide +kernel

/-- spec/95: SHF.4. -/
theorem test_step_asl_count_past_size :
    let t := run [0xE320] (withSr 0x2711 ((base.putD 1 9).putD 0 1))
    (t.getD 0, ccr t) = (0, 0x06) := by decide +kernel

/-- spec/95: SHF.8. -/
theorem test_step_asr_count_past_size :
    let t := run [0xE260] ((base.putD 1 0x14).putD 0 0x8000)
    (t.getD 0, ccr t) = (0xFFFF, 0x19) := by decide +kernel

/-- spec/95: SHF.11. -/
theorem test_step_lsl_eight :
    let t := run [0xE188] (base.putD 0 0x1234567)
    (t.getD 0, ccr t) = (0x23456700, 0x01) := by decide +kernel

/-- spec/95: SHF.16. -/
theorem test_step_lsr_count_of_64 :
    let t := run [0xE268] (withSr 0x2713 ((base.putD 1 0x40).putD 0 0x8000))
    (t.getD 0, ccr t) = (0x8000, 0x18) := by decide +kernel

/-- spec/95: SHF.19. -/
theorem test_step_rol :
    let t := run [0xE378] ((base.putD 1 0x10).putD 0 0x8001)
    (t.getD 0, ccr t) = (0x8001, 0x09) := by decide +kernel

/-- spec/95: SHF.21. -/
theorem test_step_ror :
    let t := run [0xE098] (base.putD 0 0x12345678)
    (t.getD 0, ccr t) = (0x78123456, 0) := by decide +kernel

/-- spec/95: SHF.23. -/
theorem test_step_roxl_full_turn :
    let t := run [0xE330] (withSr 0x2710 ((base.putD 1 9).putD 0 0xA5))
    (t.getD 0, ccr t) = (0xA5, 0x19) := by decide +kernel

/-- spec/95: SHF.25. -/
theorem test_step_roxr :
    let t := run [0xE290] (withSr 0x2710 (base.putD 0 1))
    (t.getD 0, ccr t) = (0x80000000, 0x19) := by decide +kernel

/-- spec/95: SHF.27. -/
theorem test_step_asl_memory :
    let t := run [0xE1D0] (poke 0x2000 [0xC000] base)
    (t.mem.wordAt 0x2000, ccr t) = (0x8000, 0x19) := by decide +kernel

/-- spec/95: SHF.29. -/
theorem test_step_roxl_memory :
    let t := run [0xE5D8] (poke 0x2000 [0x8000] (withSr 0x2710 base))
    (t.getA 0, t.mem.wordAt 0x2000, ccr t) = (0x2002, 1, 0x11) := by decide +kernel

/-- spec/95: SHF.30. -/
theorem test_step_swap :
    let t := run [0x4840] (base.putD 0 0x3299B)
    (t.getD 0, ccr t) = (0x299B0003, 0) := by decide +kernel

/-- spec/95: BIT.1. -/
theorem test_step_btst_memory_modulo_8 :
    let t := run [0x0310] (poke 0x2000 [0x0800] (withSr 0x271F (base.putD 1 0xB)))
    ccr t = 0x1B := by decide +kernel

/-- spec/95: BIT.5. -/
theorem test_step_bset_register_modulo_32 :
    let t := run [0x01C0] (base.putD 0 5)
    (t.getD 0, ccr t) = (0x25, 0x04) := by decide +kernel

/-- spec/95: BIT.7. -/
theorem test_step_bclr_memory :
    let t := run [0x0890, 0x000F] (poke 0x2000 [0xFF00] base)
    (t.mem.wordAt 0x2000, ccr t) = (0x7F00, 0) := by decide +kernel

/-- spec/95: BIT.8. -/
theorem test_step_bchg_register :
    let t := run [0x0840, 0x001F] (withSr 0x2708 base)
    (t.getD 0, ccr t) = (0x80000000, 0x0C) := by decide +kernel

/-- spec/95: PCF.1, at another address. -/
theorem test_step_bcc_taken :
    let t := run [0x66FC] base
    t.pc = 0xFFE := by decide +kernel

/-- spec/95: PCF.4. -/
theorem test_step_bcc_not_taken :
    let t := run [0x6700, 0x00FE] base
    t.pc = 0x1004 := by decide +kernel

/-- spec/95: PCF.6, at another address. -/
theorem test_step_bra_word_back :
    let t := run [0x6000, 0xF000] base
    t.pc = 0x2 := by decide +kernel

/-- spec/95: PCF.9. -/
theorem test_step_bsr_word :
    let t := run [0x6100, 0x0FFE] base
    (t.pc, t.mem.longAt 0x3FFC) = (0x2000, 0x1004) := by decide +kernel

/-- spec/95: PCF.11. -/
theorem test_step_dbcc_counts :
    let t := run [0x51C9, 0xFFFC] (base.putD 1 3)
    (t.getD 1, t.pc) = (2, 0xFFE) := by decide +kernel

/-- spec/95: PCF.12. -/
theorem test_step_dbcc_expires :
    let t := run [0x51C9, 0xFFFC] (base.putD 1 0x50000)
    (t.getD 1, t.pc) = (0x5FFFF, 0x1004) := by decide +kernel

/-- spec/95: PCF.15. -/
theorem test_step_scc :
    let t := run [0x57D0] (withSr 0x2704 base)
    (t.mem.byteAt 0x2000, ccr t) = (0xFF, 0x04) := by decide +kernel

/-- spec/95: PCF.20. -/
theorem test_step_jmp_pc_index :
    let t := run [0x4EFB, 0x0004] (base.putD 0 8)
    t.pc = 0x100E := by decide +kernel

/-- spec/95: PCF.22, at another address. -/
theorem test_step_jsr_a7 :
    let t := run [0x4E97] base
    (t.ssp, t.pc, t.mem.longAt 0x3FFC) = (0x3FFC, 0x4000, 0x1002) := by decide +kernel

/-- spec/95: PCF.23. -/
theorem test_step_nop :
    let t := run [0x4E71] (withSr 0x2715 base)
    (ccr t, t.pc) = (0x15, 0x1002) := by decide +kernel

/-- spec/95: PCF.24. -/
theorem test_step_rts :
    let t := run [0x4E75] (poke 0x4000 [0x0000, 0x1008] base)
    (t.ssp, t.pc) = (0x4004, 0x1008) := by decide +kernel

/-- spec/95: PCF.25. -/
theorem test_step_rtr :
    let t := run [0x4E77] (poke 0x4000 [0xFF1F, 0x0000, 0x1008] base)
    (t.ssp, t.sr.toWord, t.pc) = (0x4006, 0x271F, 0x1008) := by decide +kernel

/-- spec/95: SYS.1. -/
theorem test_step_move_to_sr :
    let t := run [0x46FC, 0xFFFF] base
    (t.sr.toWord, t.pc) = (0xA71F, 0x1004) := by decide +kernel

/-- spec/95: SYS.3. -/
theorem test_step_move_to_sr_user :
    let t := run [0x46FC, 0x2700] (withSr 0x0004 (poke 0x20 [0x0000, 0x1500] base))
    (t.sr.toWord, t.ssp, t.mem.longAt 0x3FFC, t.pc) = (0x2004, 0x3FFA, 0x1000, 0x1500) := by decide +kernel

/-- spec/95: SYS.4. -/
theorem test_step_andi_to_sr :
    let t := run [0x027C, 0xF8FF] (withSr 0x2715 base)
    t.sr.toWord = 0x2015 := by decide +kernel

/-- spec/95: SYS.5. -/
theorem test_step_ori_to_sr :
    let t := run [0x007C, 0x0700] (withSr 0x2000 base)
    t.sr.toWord = 0x2700 := by decide +kernel

/-- spec/95: SYS.6. -/
theorem test_step_eori_to_sr :
    let t := run [0x0A7C, 0x8000] (withSr 0x2000 base)
    t.sr.toWord = 0xA000 := by decide +kernel

/-- spec/95: SYS.7. -/
theorem test_step_move_to_usp :
    let t := run [0x4E60] base
    t.usp = 0x2000 := by decide +kernel

/-- spec/95: SYS.8. -/
theorem test_step_move_from_usp :
    let t := run [0x4E68] base
    t.getA 0 = 0x3000 := by decide +kernel

/-- spec/95: SYS.10. -/
theorem test_step_reset :
    let t := run [0x4E70] (withSr 0x2715 base)
    (t.sr.toWord, t.resetPulses, t.pc) = (0x2715, 1, 0x1002) := by decide +kernel

/-- spec/95: SYS.12. -/
theorem test_step_stop :
    let t := run [0x4E72, 0x2000] base
    (t.sr.toWord, t.run, t.pc) = (0x2000, .stopped, 0x1004) := by decide +kernel

/-- spec/95: SYS.13. -/
theorem test_step_rte :
    let t := run [0x4E73] (poke 0x4000 [0x0000, 0x0000, 0x1006] base)
    (t.sr.toWord, t.ssp, t.pc) = (0, 0x4006, 0x1006) := by decide +kernel

/-- spec/95: SYS.15. -/
theorem test_step_move_to_ccr :
    let t := run [0x44FC, 0x0004] (withSr 0x2713 base)
    t.sr.toWord = 0x2704 := by decide +kernel

/-- spec/95: SYS.18. -/
theorem test_step_move_from_sr_user :
    let t := run [0x40C0] (withSr 0x0011 base)
    t.getD 0 = 0x11 := by decide +kernel

/-- spec/95: SYS.19. -/
theorem test_step_andi_to_ccr :
    let t := run [0x023C, 0x00EF] (withSr 0x271F base)
    t.sr.toWord = 0x270F := by decide +kernel

/-- spec/95: SYS.22. -/
theorem test_step_ori_to_ccr :
    let t := run [0x003C, 0x00FF] (withSr 0x2000 base)
    t.sr.toWord = 0x201F := by decide +kernel

/-- spec/95: SYS.21. -/
theorem test_step_eori_to_ccr :
    let t := run [0x0A3C, 0x0001] (withSr 0x2701 base)
    t.sr.toWord = 0x2700 := by decide +kernel

/-- spec/95: SYS.23. -/
theorem test_step_trap :
    let t := run [0x4E40] (withSr 0x0015 (poke 0x80 [0x0000, 0x1100] base))
    (t.sr.toWord, t.mem.wordAt 0x3FFA, t.mem.longAt 0x3FFC, t.pc) = (0x2015, 0x15, 0x1002, 0x1100) := by decide +kernel

/-- spec/95: SYS.26. -/
theorem test_step_trapv :
    let t := run [0x4E76] (withSr 0x2702 (poke 0x1C [0x0000, 0x1700] base))
    (t.ssp, t.mem.wordAt 0x3FFA, t.pc) = (0x3FFA, 0x2702, 0x1700) := by decide +kernel

/-- spec/95: SYS.28. -/
theorem test_step_chk_bound_itself :
    let t := run [0x4181] ((base.putD 1 0x64).putD 0 0x64)
    (t.ssp, t.pc) = (0x4000, 0x1002) := by decide +kernel

/-- spec/95: SYS.30. -/
theorem test_step_chk_negative :
    let t := run [0x4181] (poke 0x18 [0x0000, 0x1800] ((base.putD 1 0x64).putD 0 0xFFFF))
    (t.ssp, t.sr.ccr.n) = (0x3FFA, true) := by decide +kernel

/-- spec/95: SYS.32. -/
theorem test_step_tas :
    let t := run [0x4AD0] (withSr 0x271F base)
    (t.mem.byteAt 0x2000, ccr t) = (0x80, 0x14) := by decide +kernel

/-- spec/95: EXC.1. -/
theorem test_step_illegal :
    let t := run [0x4AFC] (poke 0x10 [0x0000, 0x1400] base)
    (t.pc, t.mem.longAt 0x3FFC) = (0x1400, 0x1000) := by decide +kernel

/-- spec/95: EXC.2. -/
theorem test_step_line_a :
    let t := run [0xA123] (poke 0x28 [0x0000, 0x1A00] base)
    (t.pc, t.mem.longAt 0x3FFC) = (0x1A00, 0x1000) := by decide +kernel

/-- spec/95: EXC.3. -/
theorem test_step_line_f :
    let t := run [0xF000] (poke 0x2C [0x0000, 0x1B00] base)
    (t.pc, t.mem.longAt 0x3FFC) = (0x1B00, 0x1000) := by decide +kernel

/-- spec/95: EXC.4. -/
theorem test_step_undecoded_word :
    let t := run [0x4E74] (poke 0x10 [0x0000, 0x1400] base)
    (t.pc, t.ssp) = (0x1400, 0x3FFA) := by decide +kernel

/-- spec/95: EXC.6. -/
theorem test_step_trace :
    let t := run [0x4E71] (withSr 0x8000 (poke 0x24 [0x0000, 0x1600] base))
    (t.pc, t.mem.wordAt 0x3FFA, t.mem.longAt 0x3FFC) = (0x1600, 0x8000, 0x1002) := by decide +kernel

/-- spec/95: EXC.9. -/
theorem test_step_interrupt :
    let t := run [0x4E71] { (withSr 0x2200 (poke 0x6C [0x0000, 0x1C00] base)) with ipl := 3 }
    (t.sr.toWord, t.mem.wordAt 0x3FFA, t.pc) = (0x2300, 0x2200, 0x1C00) := by decide +kernel

/-- spec/95: EXC.14. -/
theorem test_step_stop_woken :
    let t := run [0x4E72, 0x2000] { (poke 0x64 [0x0000, 0x1C00] base) with ipl := 1 }
    (t.sr.toWord, t.mem.longAt 0x3FFC, t.pc, t.run) = (0x2100, 0x1004, 0x1C00, .running) := by decide +kernel

/-- spec/95: EXC.16. -/
theorem test_step_double_fault :
    let t := run [0x4E40] (base.setSsp 0x3FFF)
    (t.run, t.pc) = (.halted, 0x1002) := by decide +kernel

/-- spec/95: EXC.17. -/
theorem test_step_address_error :
    let t := run [0x3010] (withSr 0x0000 ((poke 0xC [0x0000, 0x1200] base).putA 0 0x2001))
    (t.ssp, t.sr.toWord, t.usp) = (0x3FF2, 0x2000, 0x3000) := by decide +kernel

/-- spec/95: MOV.29, `UNLK A7` is refused. -/
theorem test_step_unlk_a7 :
    (match step (poke 0x1000 [0x4E5F] base) with
      | .refused r => some r
      | _ => none) = some .unlkStackPointer := by decide +kernel

/-! ### Every hypothesis can be met: a concrete state for each statement -/

section
variable {s : State}

theorem ram_read (h : s.memMap = ramEverywhere) (a : Long) : s.readAnswer (physAddr a) = .stored := by
  have hp := physAddr_lt a
  simp only [State.readAnswer, h, ramEverywhere, List.find?, Region.covers]
  rw [decide_eq_true ⟨Nat.zero_le _, by omega⟩]

theorem ram_write (h : s.memMap = ramEverywhere) (a : Long) : s.writeAnswer (physAddr a) = .stored := by
  have hp := physAddr_lt a
  simp only [State.writeAnswer, h, ramEverywhere, List.find?, Region.covers]
  rw [decide_eq_true ⟨Nat.zero_le _, by omega⟩]

theorem ram_canRead (h : s.memMap = ramEverywhere) {sz : Size} {a : Long} (ha : aligned sz a = true) : s.canRead sz a :=
  ⟨ha, fun _ _ => ram_read h _⟩

theorem ram_canWrite (h : s.memMap = ramEverywhere) {sz : Size} {a : Long} (ha : aligned sz a = true) : s.canWrite sz a :=
  ⟨ha, fun _ _ => ram_write h _⟩

theorem ram_canFetch (h : s.memMap = ramEverywhere) (hp : s.pc = 0x1000) : s.canFetch s.pc 5 := by
  intro k hk
  refine ram_canRead h ?_
  rw [hp]
  revert k
  decide

theorem ram_extReady (h : s.memMap = ramEverywhere) (hp : s.pc = 0x1000) {n : Nat} (hn : n ≤ 4) : s.extReady n := by
  have even : ∀ k < 4, aligned .w ((0x1000 : Long) + BitVec.ofNat 32 (2 + 2 * 0) + BitVec.ofNat 32 (2 * k)) = true := by decide
  intro k hk
  refine ram_canRead h ?_
  simp only [State.afterWords, hp]
  exact even k (by omega)

theorem ram_entryReady (h : s.memMap = ramEverywhere) (hs : s.ssp = 0x4000) {v : Nat} (hv : v < 256) : s.entryReady v := by
  refine ⟨ram_canWrite h ?_, ram_canWrite h ?_, ram_canRead h ?_⟩
  · rw [hs]; decide
  · rw [hs]; decide
  · clear hs; revert v; decide +kernel

end

/-- The operand `(A0)` of every size, in RAM and even, can be read and written. -/
theorem operand_ready (k : Nat) (hk : k ≤ 4) (sz : Size) :
    base.extReady (k + eaWords sz (.ind 0)) ∧ LocReadable base sz (base.operand k sz (.ind 0)) ∧
    LocWritable base sz (base.operand k sz (.ind 0)) := by
  refine ⟨ram_extReady rfl rfl (by simpa [eaWords] using hk), ram_canRead rfl ?_, ram_canWrite rfl ?_⟩ <;>
    cases sz <;> decide

theorem witness_ExternalResetLoadsVectors :
    let s := { base with resetLine := true }
    s.resetLine = true ∧ s.canRead .l 0 ∧ s.canRead .l 4 :=
  ⟨rfl, ram_canRead rfl (by decide), ram_canRead rfl (by decide)⟩

theorem witness_ExternalResetLoadsVectors_halts :
    let s := { base with resetLine := true, memMap := [] }
    s.resetLine = true ∧ s.readAnswer 0 = .busError := ⟨rfl, rfl⟩

theorem witness_StepRunsDecodedInstruction :
    let s := poke 0x1000 [0x4253] base
    s.resetLine = false ∧ s.run = .running ∧ s.stale = [] ∧ s.canFetch s.pc 5 ∧
    decode s.codeWords = .ok (.clr .w (.ind 3), [0, 0, 0, 0]) :=
  ⟨rfl, rfl, rfl, ram_canFetch rfl rfl, by decide +kernel⟩

theorem witness_UndecodedWordIsIllegal :
    let s := poke 0x1000 [0x4E74] base
    s.resetLine = false ∧ s.run = .running ∧ s.stale = [] ∧ s.canFetch s.pc 5 ∧ s.entryReady 4 ∧
    decode s.codeWords = .error .illegal :=
  ⟨rfl, rfl, rfl, ram_canFetch rfl rfl, ram_entryReady rfl rfl (by decide), by decide +kernel⟩

theorem witness_HaltedAndStoppedWait_halted :
    (base.setRun .halted).resetLine = false ∧ (base.setRun .halted).run = .halted := ⟨rfl, rfl⟩

/-- A request at the mask's own level, and level 7 held. -/
theorem witness_HaltedAndStoppedWait_stopped :
    (let s := { (withSr 0x2300 base).setRun .stopped with ipl := 3 }
     s.resetLine = false ∧ s.run = .stopped ∧ ¬ s.sr.i.ult s.ipl = true ∧ ¬ (s.ipl = 7 ∧ s.prevIpl ≠ 7)) ∧
    (let s := { base.setRun .stopped with ipl := 7, prevIpl := 7 }
     s.resetLine = false ∧ s.run = .stopped ∧ ¬ s.sr.i.ult s.ipl = true ∧ ¬ (s.ipl = 7 ∧ s.prevIpl ≠ 7)) := by
  decide

/-- A run ended by `STOP #$2700` with requests up to level 6 to come, by a branch to itself, and by the halted state; a request
at level 7 to come, or a branch elsewhere, does not end it. -/
theorem witness_HaltedAndStoppedWait_end :
    (base.setRun .stopped).runEnded none [6, 1] = true ∧ (base.setRun .stopped).runEnded none [6, 7] = false ∧
    (base.setRun .halted).runEnded (some 0x2000) [7] = true ∧ (poke 0x1000 [0x60FC] base).runEnded none [] = false ∧
    (let s := poke 0x1000 [0x60FE] base
     s.runEnded (some 0x2000) [] = true ∧ some 0x2000 ≠ some s.pc ∧ s.run = .running ∧ s.stale = [] ∧ s.canFetch s.pc 5 ∧
     s.sr.t = false ∧ s.interruptAcceptable = false) :=
  ⟨by decide +kernel, by decide +kernel, by decide +kernel, by decide +kernel, by decide +kernel, by decide, rfl, rfl,
    ram_canFetch rfl rfl, rfl, rfl⟩

/-- A request above the mask at the boundary after a `NOP`; one at the mask's own level is not requested. -/
theorem witness_InterruptEntersHandler_running :
    (let s := { poke 0x1000 [0x4E71] (withSr 0x2200 base) with ipl := 3 }
     let u := (s.setIr (s.mem.wordAt s.pc)).completed 0
     s.resetLine = false ∧ s.run = .running ∧ s.stale = [] ∧ s.canFetch s.pc 5 ∧
     decode s.codeWords = .ok (.nop, [0, 0, 0, 0]) ∧ exec .nop (s.setIr (s.mem.wordAt s.pc)) = .next u ∧ u.traceDue = false ∧
     u.run ≠ .halted ∧ u.sr.i.ult u.ipl = true ∧ u.intAck[u.ipl.toFin] = .autovector ∧ u.entryReady 27) ∧
    (let s := { withSr 0x2300 base with ipl := 3 }
     s.run ≠ .halted ∧ ¬ (s.sr.i.ult s.ipl = true ∨ (s.ipl = 7 ∧ s.prevIpl ≠ 7))) :=
  ⟨⟨rfl, rfl, rfl, ram_canFetch rfl rfl, by decide +kernel, rfl, rfl, by decide, rfl, rfl,
    ram_entryReady rfl rfl (by decide)⟩, by decide⟩

/-- One level above the mask, answered by an autovector. -/
theorem witness_InterruptEntersHandler_level :
    let s := { (withSr 0x2200 base).setRun .stopped with ipl := 3 }
    s.resetLine = false ∧ s.run = .stopped ∧ s.sr.i.ult s.ipl = true ∧ s.intAck[s.ipl.toFin] = .autovector ∧ s.entryReady 27 :=
  ⟨rfl, rfl, rfl, rfl, ram_entryReady rfl rfl (by decide)⟩

/-- A change to level 7 under mask 7, answered by a vector number. -/
theorem witness_InterruptEntersHandler_edge :
    let s := { base.setRun .stopped with ipl := 7, intAck := Vector.replicate 8 (.vector 255) }
    s.resetLine = false ∧ s.run = .stopped ∧ (s.ipl = 7 ∧ s.prevIpl ≠ 7) ∧ s.intAck[s.ipl.toFin] = .vector 255 ∧
    s.entryReady 255 :=
  ⟨rfl, rfl, by decide, rfl, ram_entryReady rfl rfl (by decide)⟩

/-- A level answered by a bus error. -/
theorem witness_InterruptEntersHandler_spurious :
    let s := { (withSr 0x2000 base).setRun .stopped with ipl := 1, intAck := Vector.replicate 8 .busError }
    s.resetLine = false ∧ s.run = .stopped ∧ s.sr.i.ult s.ipl = true ∧ s.intAck[s.ipl.toFin] = .busError ∧ s.entryReady 24 :=
  ⟨rfl, rfl, rfl, rfl, ram_entryReady rfl rfl (by decide)⟩

theorem witness_TraceFollowsInstruction :
    let s := poke 0x1000 [0x4E71] (withSr 0x8000 base)
    let u := (s.setIr (s.mem.wordAt s.pc)).completed 0
    s.resetLine = false ∧ s.run = .running ∧ s.stale = [] ∧ s.canFetch s.pc 5 ∧
    decode s.codeWords = .ok (.nop, [0, 0, 0, 0]) ∧ exec .nop (s.setIr (s.mem.wordAt s.pc)) = .next u ∧ u.traceDue = true ∧
    u.run ≠ .halted ∧ u.entryReady 9 :=
  ⟨rfl, rfl, rfl, ram_canFetch rfl rfl, by decide +kernel, rfl, rfl, by decide, ram_entryReady rfl rfl (by decide)⟩

/-- The longest instruction, and one whose immediate fills its byte. -/
theorem witness_DecodeEncodeRoundTrip :
    Instr.wf (.moveL (.imm 0xFFFFFFFF) (.absL 0xFFFFFFFF)) = true ∧ Instr.wf (.ori .b 0xFF (.dn 7)) = true := by decide

theorem witness_DecoderSoundAndTotal : decode [0x4253, 0x1234] = .ok (.clr .w (.ind 3), [0x1234]) := by decide +kernel

theorem witness_EncodedLengthFormula :
    Instr.wf (.moveL (.imm 0) (.absL 0)) = true ∧ lengthBytes (.moveL (.imm 0) (.absL 0)) = 10 := by decide

/-- A long word over the top of the 24-bit space. -/
theorem witness_WriteThenReadBack : base.canWrite .l 0xFFFFFE ∧ base.canRead .l 0xFFFFFE :=
  ⟨ram_canWrite rfl (by decide), ram_canRead rfl (by decide)⟩

theorem witness_UpperAddressBitsIgnored : (0x00002000 : Long).extractLsb' 0 24 = (0xFF002000 : Long).extractLsb' 0 24 := by
  decide

theorem witness_MemoryFormCanonical :
    let m : Memory := ⟨[(0, 1), (2 ^ 24 - 1, 255)]⟩
    m.wf ∧ ∀ p < 2 ^ 24, m.read p = m.read p := ⟨by decide, fun _ _ => rfl⟩

/-- Counts of one, of the size itself, and past it. -/
theorem witness_ShiftClosedForms :
    (1 ≤ 1 ∧ 1 ≤ Size.b.bits) ∧ (1 ≤ 8 ∧ 8 ≤ Size.b.bits ∧ ¬ 8 < Size.b.bits) ∧ (1 ≤ 9 ∧ ¬ 9 ≤ Size.b.bits) := by decide

theorem witness_ZeroShiftCount : ((base.putD 1 64).getD 1).toNat % 64 = 0 ∧ (base.getD 1).toNat % 64 = 0 := by decide

/-- Quotients at the edge of fitting and just past it. -/
theorem witness_ProductsAndQuotientsAreExact :
    (0xFFFF : Word) ≠ 0 ∧ divUnsigned 0xFFFF 0xFFFE0001 = .fits 0xFFFF 0 ∧ divUnsigned 1 0x10000 = .overflow ∧
    divSigned 1 0xFFFF8000 = .fits 0x8000 0 ∧ divSigned 1 0x8000 = .overflow := by decide +kernel

theorem witness_DecimalArithmetic : isBcd 0x99 = true ∧ isBcd 0 = true := by decide

/-- `MOVE.W (A0),(A0)+` and its two other sizes. -/
theorem witness_MoveCopiesOperand (sz : Size) :
    base.extReady (eaWords sz (.ind 0) + eaWords sz (.postinc 0)) ∧ LocReadable base sz (base.operand 0 sz (.ind 0)) ∧
    LocWritable base sz (eaLoc (eaTouch sz (.ind 0) base) (base.afterWords (eaWords sz (.ind 0))) sz (.postinc 0)) :=
  ⟨ram_extReady rfl rfl (by simp [eaWords]), (operand_ready 0 (by decide) sz).2.1, (operand_ready 0 (by decide) sz).2.2⟩

theorem witness_AddressArithmetic :
    base.extReady (0 + eaWords .w (.ind 0)) ∧ LocReadable base .w (base.operand 0 .w (.ind 0)) ∧
    base.extReady (0 + eaWords .l (.ind 0)) ∧ LocReadable base .l (base.operand 0 .l (.ind 0)) :=
  have w := operand_ready 0 (by decide) .w
  have l := operand_ready 0 (by decide) .l
  ⟨w.1, w.2.1, l.1, l.2.1⟩

theorem witness_EffectiveAddressLoads :
    (∀ m, Ea.ind 0 ≠ .postinc m ∧ Ea.ind 0 ≠ .predec m) ∧
    Ea.isControl (.disp 0 4) = true ∧ base.target (.disp 0 4) 0x2004 ∧ base.extReady (eaWords .l (.disp 0 4)) ∧
    base.canWrite .l (base.sp - 4) :=
  ⟨by simp, rfl, ⟨.data, false, rfl⟩, ram_extReady rfl rfl (by decide), ram_canWrite rfl (by decide)⟩

/-- All sixteen registers below `A0`, and two of them upward from it. -/
theorem witness_MovemStoresRegisters :
    (let regs := (List.range 16).filter fun i => (0xFFFF : Word).getLsbD (15 - i)
     Size.l ≠ .b ∧ base.extReady 1 ∧ regs.length = 16 ∧
     ∀ j < regs.length, base.canWrite .l (base.getA 0 - BitVec.ofNat 32 (4 * regs.length) + BitVec.ofNat 32 (4 * j))) ∧
    (Ea.isControl (.ind 0) = true ∧ base.operand 1 .w (.ind 0) = .mem 0x2000 .data false ∧
     base.extReady (1 + eaWords .w (.ind 0)) ∧ ∀ j < 2, base.canWrite .w (0x2000 + BitVec.ofNat 32 (2 * j))) := by
  refine ⟨⟨by decide, ram_extReady rfl rfl (by decide), by decide, fun j hj => ram_canWrite rfl ?_⟩, rfl, rfl,
    ram_extReady rfl rfl (by decide), fun j hj => ram_canWrite rfl ?_⟩ <;> revert j <;> decide +kernel

theorem witness_MovemLoadsRegisters :
    (let regs := (List.range 16).filter fun i => (0xFFFF : Word).getLsbD i
     Size.l ≠ .b ∧ base.extReady 1 ∧ regs.length = 16 ∧
     (∀ j < regs.length, base.canRead .l (base.getA 0 + BitVec.ofNat 32 (4 * j))) ∧
     base.reachesDevice .w (base.getA 0 + BitVec.ofNat 32 (4 * regs.length)) = false) ∧
    (Ea.isControl (.pcDisp 6) = true ∧ base.operand 1 .w (.pcDisp 6) = .mem 0x100A .pcRelative false ∧
     base.extReady (1 + eaWords .w (.pcDisp 6)) ∧ (∀ j < 1, base.canRead .w (0x100A + BitVec.ofNat 32 (2 * j))) ∧
     base.reachesDevice .w (0x100A + BitVec.ofNat 32 2) = false) := by
  refine ⟨⟨by decide, ram_extReady rfl rfl (by decide), by decide, fun j hj => ram_canRead rfl ?_, by decide +kernel⟩, rfl,
    by decide, ram_extReady rfl rfl (by decide), fun j hj => ram_canRead rfl ?_, by decide +kernel⟩ <;> revert j <;>
    decide +kernel

/-- An odd address, which `MOVEP` admits. -/
theorem witness_MovepMovesAlternateBytes :
    let s := base.putA 1 0x8001
    s.extReady 1 ∧ (∀ j < 4, s.canRead .b (s.getA 1 + BitVec.ofNat 32 (2 * j))) ∧
    ∀ j < 4, s.canWrite .b (s.getA 1 + BitVec.ofNat 32 (2 * j)) :=
  ⟨ram_extReady rfl rfl (by decide), fun _ _ => ram_canRead rfl rfl, fun _ _ => ram_canWrite rfl rfl⟩

theorem witness_LinkAndUnlk :
    base.extReady 1 ∧ base.canWrite .l (base.sp - 4) ∧ (0 : RegNum) ≠ 7 ∧ base.canRead .l (base.getA 0) :=
  ⟨ram_extReady rfl rfl (by decide), ram_canWrite rfl (by decide), by decide, ram_canRead rfl (by decide)⟩

theorem witness_OperandToDataRegister (sz : Size) :
    base.extReady (0 + eaWords sz (.ind 0)) ∧ LocReadable base sz (base.operand 0 sz (.ind 0)) :=
  ⟨(operand_ready 0 (by decide) sz).1, (operand_ready 0 (by decide) sz).2.1⟩

theorem witness_DataRegisterToOperand (sz : Size) :
    base.extReady (0 + eaWords sz (.ind 0)) ∧ LocReadable base sz (base.operand 0 sz (.ind 0)) ∧
    LocWritable base sz (base.operand 0 sz (.ind 0)) := operand_ready 0 (by decide) sz

theorem witness_ConstantsToOperand (sz : Size) :
    (∀ r, (Ea.ind 0) ≠ .an r) ∧ base.extReady (immWords sz + eaWords sz (.ind 0)) ∧
    LocReadable base sz (base.operand (immWords sz) sz (.ind 0)) ∧ LocWritable base sz (base.operand (immWords sz) sz (.ind 0)) ∧
    base.extReady (0 + eaWords sz (.ind 0)) ∧ LocReadable base sz (base.operand 0 sz (.ind 0)) ∧
    LocWritable base sz (base.operand 0 sz (.ind 0)) :=
  have h : immWords sz ≤ 4 := by cases sz <;> decide
  have i := operand_ready (immWords sz) h sz
  ⟨by simp, i.1, i.2.1, i.2.2, operand_ready 0 (by decide) sz⟩

theorem witness_OneOperandInstructions (sz : Size) :
    base.extReady (0 + eaWords sz (.ind 0)) ∧ LocReadable base sz (base.operand 0 sz (.ind 0)) ∧
    LocWritable base sz (base.operand 0 sz (.ind 0)) ∧ LocAnswered base sz (base.operand 0 sz (.ind 0)) :=
  have o := operand_ready 0 (by decide) sz
  ⟨o.1, o.2.1, o.2.2, fun k hk => by rw [o.2.1.2 k hk]; decide⟩

/-- `CMPM.W (A0)+,(A0)+` among them, whose second operand lies past the first. -/
theorem witness_ComparesSetFlagsOnly (sz : Size) :
    (base.extReady (0 + eaWords sz (.ind 0)) ∧ LocReadable base sz (base.operand 0 sz (.ind 0))) ∧
    (base.extReady (immWords sz + eaWords sz (.ind 0)) ∧ LocReadable base sz (base.operand (immWords sz) sz (.ind 0))) ∧
    base.canRead sz (base.getA 0) ∧ base.canRead sz ((eaTouch sz (.postinc 0) (base.completed 0)).getA 0) := by
  have h : immWords sz ≤ 4 := by cases sz <;> decide
  have i := operand_ready (immWords sz) h sz
  have o := operand_ready 0 (by decide) sz
  refine ⟨⟨o.1, o.2.1⟩, ⟨i.1, i.2.1⟩, o.2.1, ram_canRead rfl ?_⟩
  cases sz <;> decide

theorem witness_ExtendedArithmetic (sz : Size) :
    let t := eaTouch sz (.predec 0) (base.completed 0)
    base.canRead sz (base.getA 0 - stepSize 0 sz) ∧ base.canRead sz (t.getA 0 - stepSize 0 sz) ∧
    base.canWrite sz (t.getA 0 - stepSize 0 sz) := by
  refine ⟨ram_canRead rfl ?_, ram_canRead rfl ?_, ram_canWrite rfl ?_⟩ <;> cases sz <;> decide

theorem witness_DecimalInstructions :
    (let t := eaTouch .b (.predec 0) (base.completed 0)
     base.canRead .b (base.getA 0 - stepSize 0 .b) ∧ base.canRead .b (t.getA 0 - stepSize 0 .b) ∧
     base.canWrite .b (t.getA 0 - stepSize 0 .b)) ∧
    base.extReady (eaWords .b (.ind 0)) ∧ LocReadable base .b (base.operand 0 .b (.ind 0)) ∧
    LocWritable base .b (base.operand 0 .b (.ind 0)) :=
  have o := operand_ready 0 (by decide) .b
  ⟨⟨ram_canRead rfl rfl, ram_canRead rfl rfl, ram_canWrite rfl rfl⟩, by simpa using o.1, o.2.1, o.2.2⟩

theorem witness_MultiplyInstructions :
    base.extReady (0 + eaWords .w (.ind 0)) ∧ LocReadable base .w (base.operand 0 .w (.ind 0)) :=
  ⟨(operand_ready 0 (by decide) .w).1, (operand_ready 0 (by decide) .w).2.1⟩

/-- A quotient of 0xFFFF, one of 0x10000, signed ones of 0x7FFF and 0x8000, and a divisor of zero. -/
theorem witness_DivideInstructions :
    (∀ e v : Long, (((base.putD 0 e).putD 1 v).extReady (eaWords .w (.dn 1)) ∧
      LocReadable ((base.putD 0 e).putD 1 v) .w (((base.putD 0 e).putD 1 v).operand 0 .w (.dn 1)) ∧
      locValue ((base.putD 0 e).putD 1 v) .w (((base.putD 0 e).putD 1 v).operand 0 .w (.dn 1)) = v.setWidth 16)) ∧
    ((1 : Word) ≠ 0 ∧ (0xFFFF : Long).toNat / (1 : Word).toNat ≤ 0xFFFF ∧ ¬ (0x10000 : Long).toNat / (1 : Word).toNat ≤ 0xFFFF) ∧
    ((0x7FFF : Long).toInt.tdiv (1 : Word).toInt = 32767 ∧ (0x8000 : Long).toInt.tdiv (1 : Word).toInt = 32768) ∧
    (eaTouch .w (.dn 1) ((base.putD 1 0).completed 0)).entryReady 5 :=
  ⟨fun _ _ => ⟨ram_extReady rfl rfl (by decide), trivial, rfl⟩, by decide, by decide, ram_entryReady rfl rfl (by decide)⟩

theorem witness_ShiftInstructions :
    base.extReady (0 + eaWords .w (.ind 0)) ∧ LocReadable base .w (base.operand 0 .w (.ind 0)) ∧
    LocWritable base .w (base.operand 0 .w (.ind 0)) := operand_ready 0 (by decide) .w

theorem witness_BitInstructionsOnRegister : base.extReady 1 := ram_extReady rfl rfl (by decide)

theorem witness_BitInstructionsOnMemory (k : Nat) (hk : k ≤ 1) :
    Ea.isMemory (.ind 0) = true ∧ base.extReady (k + eaWords .b (.ind 0)) ∧ LocReadable base .b (base.operand k .b (.ind 0)) ∧
    LocWritable base .b (base.operand k .b (.ind 0)) := ⟨rfl, operand_ready k (by omega) .b⟩

/-- Conditions that hold and fail, and a counter that passes zero and one that does not. -/
theorem witness_Branches :
    base.extReady (branchWords (.short 0xFE)) ∧ base.extReady (branchWords (.word 0x10)) ∧ base.extReady 1 ∧
    condHolds .ne base.sr.ccr = true ∧ condHolds .eq base.sr.ccr = false ∧
    (base.getD 1).setWidth 16 - 1 = (0xFFFF : Word) ∧ ((base.putD 1 1).getD 1).setWidth 16 - 1 = (0 : Word) :=
  ⟨ram_extReady rfl rfl (by decide), ram_extReady rfl rfl (by decide), ram_extReady rfl rfl (by decide), by decide, by decide,
    by decide, by decide⟩

theorem witness_CallsJumpsReturns :
    base.extReady (branchWords (.word 0)) ∧ base.canWrite .l (base.sp - 4) ∧ Ea.isControl (.absL 0x1234) = true ∧
    base.target (.absL 0x1234) 0x1234 ∧ base.extReady (eaWords .l (.absL 0x1234)) ∧ base.canRead .l base.sp ∧
    base.canRead .w base.sp ∧ base.canRead .l (base.sp + 2) :=
  ⟨ram_extReady rfl rfl (by decide), ram_canWrite rfl (by decide), rfl, ⟨.data, false, rfl⟩, ram_extReady rfl rfl (by decide),
    ram_canRead rfl (by decide), ram_canRead rfl (by decide), ram_canRead rfl (by decide)⟩

theorem witness_SupervisorInstructions :
    base.sr.s = true ∧ base.extReady 1 ∧ base.extReady (0 + eaWords .w (.ind 0)) ∧
    LocReadable base .w (base.operand 0 .w (.ind 0)) :=
  ⟨rfl, ram_extReady rfl rfl (by decide), (operand_ready 0 (by decide) .w).1, (operand_ready 0 (by decide) .w).2.1⟩

theorem witness_ConditionCodeWrites :
    base.extReady 1 ∧ base.extReady (0 + eaWords .w (.ind 0)) ∧ LocReadable base .w (base.operand 0 .w (.ind 0)) :=
  ⟨ram_extReady rfl rfl (by decide), (operand_ready 0 (by decide) .w).1, (operand_ready 0 (by decide) .w).2.1⟩

theorem witness_RteRestoresFrame :
    base.sr.s = true ∧ base.canRead .w base.ssp ∧ base.canRead .l (base.ssp + 2) :=
  ⟨rfl, ram_canRead rfl (by decide), ram_canRead rfl (by decide)⟩

/-- `TRAP #0` from user mode, and the `RTE` that follows it. -/
theorem witness_RteUndoesTrap :
    let s := withSr 0x0015 base
    s.entryReady 32 ∧ s.canRead .w (s.ssp - 6) ∧ s.canRead .l (s.ssp - 4) ∧
    ∃ t u, exec (.trap 0) s = .next t ∧ exec .rte t = .next u :=
  ⟨ram_entryReady rfl rfl (by decide), ram_canRead rfl (by decide), ram_canRead rfl (by decide), _, _, rfl, rfl⟩

theorem witness_NopAndTraps :
    base.entryReady (32 + (15 : BitVec 4).toNat) ∧ base.sr.ccr.v = false ∧ (withSr 0x2702 base).sr.ccr.v = true ∧
    (withSr 0x2702 base).entryReady 7 :=
  ⟨ram_entryReady rfl rfl (by decide), rfl, rfl, ram_entryReady rfl rfl (by decide)⟩

/-- A bound of 100, and values of 0, 100, 101 and -1. -/
theorem witness_ChkChecksBounds :
    (∀ v : Long, ((base.putD 0 v).putD 1 100).extReady (eaWords .w (.dn 1)) ∧
      LocReadable ((base.putD 0 v).putD 1 100) .w (((base.putD 0 v).putD 1 100).operand 0 .w (.dn 1)) ∧
      locValue ((base.putD 0 v).putD 1 100) .w (((base.putD 0 v).putD 1 100).operand 0 .w (.dn 1)) = 100 ∧
      (eaTouch .w (.dn 1) (((base.putD 0 v).putD 1 100).completed 0)).nextDraw.nextDraw.nextDraw.entryReady 6) ∧
    (0 ≤ (0 : Word).toInt ∧ (0 : Word).toInt ≤ (100 : Word).toInt) ∧ (0 ≤ (100 : Word).toInt ∧ (100 : Word).toInt ≤ (100 : Word).toInt) ∧
    (100 : Word).toInt < (101 : Word).toInt ∧ (0xFFFF : Word).toInt < 0 :=
  ⟨fun _ => ⟨ram_extReady rfl rfl (by decide), trivial, rfl, ram_entryReady rfl rfl (by decide)⟩, by decide, by decide, by decide,
    by decide⟩

theorem witness_UnimplementedWordsTrap : base.entryReady 4 ∧ base.entryReady 10 ∧ base.entryReady 11 :=
  ⟨ram_entryReady rfl rfl (by decide), ram_entryReady rfl rfl (by decide), ram_entryReady rfl rfl (by decide)⟩

theorem witness_PrivilegedInstructionsTrap :
    (withSr 0x0015 base).sr.s = false ∧ (withSr 0x0015 base).entryReady 8 ∧
    Instr.rte ∈ [.moveToSr (.dn 0), .andiToSr 0, .oriToSr 0, .eoriToSr 0, .moveUspAn 0, .moveAnUsp 0, .reset, .stop 0, .rte] :=
  ⟨rfl, ram_entryReady rfl rfl (by decide), by decide⟩

theorem witness_ErrorFrame : base.faultEntryReady .bus ∧ base.faultEntryReady .address := by
  constructor <;>
    exact ⟨ram_canWrite rfl (by decide), ram_canWrite rfl (by decide), ram_canWrite rfl (by decide), ram_canWrite rfl (by decide),
      ram_canWrite rfl (by decide), ram_canRead rfl (by decide)⟩

/-- `TST.W (A0)` and `CMPM.W (A0)+,(A1)+` with an odd `A0`; odd destinations of a `CMPM` that reads its source. -/
theorem witness_MisalignedAccessTakesError :
    (let s := base.putA 0 0x2001
     Size.w ≠ .b ∧ (0x2001 : Long).getLsbD 0 = true ∧ s.extReady (eaWords .w (.ind 0)) ∧
     s.operand 0 .w (.ind 0) = .mem 0x2001 .data false ∧ (s.getA 0).getLsbD 0 = true) ∧
    (let s := base.putA 1 0x2001
     s.canRead .w (s.getA 0) ∧ ((eaTouch .w (.postinc 0) (s.completed 0)).getA 1).getLsbD 0 = true) :=
  ⟨⟨by decide, by decide, ram_extReady rfl rfl (by decide), rfl, by decide⟩, ram_canRead rfl (by decide), by decide⟩

/-- 32 Kbytes of RAM and nothing else, with `A0` at its end. -/
def halfRam : State := { base.putA 0 0x8000 with memMap := [⟨0, 0x8000, .stored, .stored⟩] }

/-- Accesses past the end of memory at each size, and a long word across it; `TST (A0)`, `Scc (A0)` and `CMPM`. -/
theorem witness_MisalignedAccessTakesError_unanswered :
    (∀ sz, aligned sz 0x8000 = true ∧ halfRam.readsDevice sz 0x8000 = false ∧ halfRam.extReady (eaWords sz (.ind 0)) ∧
      halfRam.operand 0 sz (.ind 0) = .mem 0x8000 .data false) ∧
    halfRam.readAnswer (physAddr 0x8000) = .busError ∧ halfRam.writeAnswer (physAddr 0x8000) = .busError ∧
    (aligned .l 0x7FFE = true ∧ halfRam.writeAnswer (physAddr (0x7FFE + BitVec.ofNat 32 1)) = .stored ∧
      halfRam.writeAnswer (physAddr (0x7FFE + BitVec.ofNat 32 2)) = .busError) ∧
    (let s := (halfRam.putA 0 0x2000).putA 1 0x8000
     s.canRead .b (s.getA 0) ∧ (eaTouch .b (.postinc 0) (s.completed 0)).getA 1 = 0x8000) := by
  refine ⟨fun sz => ⟨?_, ?_, fun k hk => absurd hk (by simp [eaWords]), rfl⟩, rfl, rfl, by decide, ?_, by decide⟩
  · cases sz <;> decide
  · cases sz <;> decide
  · exact ⟨rfl, fun k hk => by have : k = 0 := by simpa [Size.bytes] using hk
                               subst this; decide⟩

/-- Memory that ends after an even byte: a word, of whose two bytes one is answered, under `(A0)` and under `PC`; and a long word
whose first half is answered whole. -/
theorem witness_MisalignedAccessTakesError_oddByte :
    let s := { (base.putA 0 0x7FFE).setPc 0x7FFE with memMap := [⟨0, 0x7FFF, .stored, .stored⟩] }
    (aligned .w 0x7FFE = true ∧ s.readsDevice .w 0x7FFE = false ∧
      s.readAnswer (physAddr (0x7FFE + BitVec.ofNat 32 0)) = .stored ∧
      s.readAnswer (physAddr (0x7FFE + BitVec.ofNat 32 1)) = .busError ∧
      s.writeAnswer (physAddr (0x7FFE + BitVec.ofNat 32 0)) = .stored ∧
      s.writeAnswer (physAddr (0x7FFE + BitVec.ofNat 32 1)) = .busError) ∧
    (s.extReady (eaWords .w (.ind 0)) ∧ s.operand 0 .w (.ind 0) = .mem 0x7FFE .data false) ∧
    (s.resetLine = false ∧ s.run = .running ∧ s.pc.getLsbD 0 = false ∧ s.readAnswer (physAddr s.pc) = .stored ∧
      s.readAnswer (physAddr (s.pc + 1)) = .busError) ∧
    (aligned .l 0x7FFC = true ∧ s.readsDevice .l 0x7FFC = false ∧
      s.readAnswer (physAddr (0x7FFC + BitVec.ofNat 32 3)) = .busError ∧
      s.writeAnswer (physAddr (0x7FFC + BitVec.ofNat 32 3)) = .busError) :=
  ⟨by decide, ⟨fun k hk => absurd hk (by simp [eaWords]), rfl⟩, by decide, by decide⟩

/-- A device that takes writes and answers no read, under `(A0)` at each size. -/
theorem witness_MisalignedAccessTakesError_writeOnly (sz : Size) :
    let s := { base with memMap := [⟨0x2000, 16, .busError, .taken⟩] }
    s.extReady (eaWords sz (.ind 0)) ∧ s.operand 0 sz (.ind 0) = .mem 0x2000 .data false ∧
    (aligned sz 0x2000 = true ∧ s.readsDevice sz 0x2000 = false ∧ s.readAnswer (physAddr (0x2000 + BitVec.ofNat 32 0)) = .busError) ∧
    s.reachesDevice sz 0x2000 = true :=
  ⟨fun k hk => absurd hk (by simp [eaWords]), rfl, by cases sz <;> decide, by cases sz <;> decide⟩

/-- The fetch of an operation word at an odd `PC`, and past the end of memory. -/
theorem witness_MisalignedAccessTakesError_fetch :
    (let s := base.setPc 0x1001
     s.resetLine = false ∧ s.run = .running ∧ s.pc.getLsbD 0 = true) ∧
    (let s := halfRam.setPc 0x8000
     s.resetLine = false ∧ s.run = .running ∧ s.pc.getLsbD 0 = false ∧ s.readAnswer (physAddr s.pc) = .busError) := by
  decide

theorem witness_DoubleFaultHalts : (base.setSsp 0x3FFF).ssp.getLsbD 0 = true := by decide

theorem witness_StepKeepsInvariant :
    let s := poke 0x1000 [0x4E71] base
    Inv s ∧ ∃ t, step s = .next t :=
  ⟨⟨by decide +kernel, rfl, by intro e he; exact absurd he List.not_mem_nil⟩, _, rfl⟩

/-- A `MOVEQ` in user mode. -/
theorem witness_UserModeIsContained :
    let s := poke 0x1000 [0x7001] (withSr 0x0000 base)
    s.sr.s = false ∧ ∃ t, step s = .next t ∧ t.sr.s = false :=
  ⟨rfl, _, rfl, rfl⟩

theorem witness_PlatformInputsUnchanged : ∃ t, step (poke 0x1000 [0x4E71] base) = .next t := ⟨_, rfl⟩

end Sys2Proof.Tests
end

section
/-! The flags of addition and subtraction (R17, R18) against exact arithmetic, at every width. A result is tied to its carry or
borrow by `toNat_add_carryIn` and `toNat_sub_carryIn`, a top bit is the comparison of the value with half of the range
(`BitVec.msb_eq_decide`), and `toInt_cases` reads the signed value by the same comparison; each formula over top bits is then a
comparison of exact numbers. -/

namespace Sys2Proof.Machine

theorem bits_pos (sz : Size) : 0 < sz.bits := by cases sz <;> decide

theorem toNat_carryIn {w : Nat} (hw : 0 < w) (x : Bool) : (carryIn w x).toNat = x.toNat := by
  cases x with
  | false => rfl
  | true => exact Nat.mod_eq_of_lt (Nat.one_lt_two_pow hw.ne')

/-- A word's signed value, by the half of the range its unsigned value is in. -/
theorem toInt_cases {w : Nat} (b : BitVec w) :
    (b.toNat < 2 ^ (w - 1) ∧ b.toInt = b.toNat) ∨ (2 ^ (w - 1) ≤ b.toNat ∧ b.toInt = b.toNat - (2 ^ w : Nat)) := by
  cases h : b.msb with
  | false => exact .inl ⟨BitVec.toNat_lt_of_msb_false h, BitVec.toInt_eq_toNat_of_msb h⟩
  | true => exact .inr ⟨BitVec.le_toNat_of_msb_true h, by simp [BitVec.toInt_eq_msb_cond, h]⟩

/-! ### Results and their carry or borrow -/

/-- A sum with carry in is the exact sum, less `2 ^ w` where there is a carry out. -/
theorem toNat_add_carryIn {w : Nat} (hw : 0 < w) (s d : BitVec w) (x : Bool) :
    (d + s + carryIn w x).toNat = s.toNat + d.toNat + x.toNat ∨
    (d + s + carryIn w x).toNat + 2 ^ w = s.toNat + d.toNat + x.toNat := by
  have hs := s.isLt
  have hd := d.isLt
  have hx := x.toNat_le
  rw [BitVec.toNat_add, BitVec.toNat_add, toNat_carryIn hw, Nat.mod_add_mod]
  rcases Nat.lt_or_ge (d.toNat + s.toNat + x.toNat) (2 ^ w) with hfits | hcarry
  · left
    rw [Nat.mod_eq_of_lt hfits]
    omega
  · right
    rw [Nat.mod_eq_sub_mod hcarry, Nat.mod_eq_of_lt (by omega)]
    omega

/-- A difference with borrow in is the exact difference, plus `2 ^ w` where there is a borrow out: it is the word that the
subtracted values complete to the minuend. -/
theorem toNat_sub_carryIn {w : Nat} (hw : 0 < w) (s d : BitVec w) (x : Bool) :
    (d - s - carryIn w x).toNat + s.toNat + x.toNat = d.toNat ∨
    (d - s - carryIn w x).toNat + s.toNat + x.toNat = d.toNat + 2 ^ w := by
  have hback : d - s - carryIn w x + s + carryIn w x = d := by
    rw [BitVec.add_assoc, BitVec.add_comm s, ← BitVec.add_assoc, BitVec.sub_add_cancel, BitVec.sub_add_cancel]
  have hsum := toNat_add_carryIn hw s (d - s - carryIn w x) x
  rw [hback] at hsum
  omega

/-! ### The formulas as conditions on the top bits -/

section
variable (p q r : Prop) [Decidable p] [Decidable q] [Decidable r]

theorem addCarry_decide_iff :
    addCarry (decide p) (decide q) (decide r) = true ↔ p ∧ q ∨ ¬r ∧ q ∨ p ∧ ¬r := by
  simp [addCarry, or_assoc]

theorem addOverflow_decide_iff :
    addOverflow (decide p) (decide q) (decide r) = true ↔ p ∧ q ∧ ¬r ∨ ¬p ∧ ¬q ∧ r := by
  simp [addOverflow, and_assoc]

theorem subBorrow_decide_iff :
    subBorrow (decide p) (decide q) (decide r) = true ↔ p ∧ ¬q ∨ r ∧ ¬q ∨ p ∧ r := by
  simp [subBorrow, or_assoc]

theorem subOverflow_decide_iff :
    subOverflow (decide p) (decide q) (decide r) = true ↔ ¬p ∧ q ∧ ¬r ∨ p ∧ ¬q ∧ r := by
  simp [subOverflow, and_assoc]

end

/-! ### The carry and the overflow of R17 -/

theorem addCarry_eq_decide {w : Nat} (hw : 0 < w) (s d : BitVec w) (x : Bool) :
    addCarry s.msb d.msb (d + s + carryIn w x).msb = decide (2 ^ w ≤ s.toNat + d.toNat + x.toNat) := by
  have hr := toNat_add_carryIn hw s d x
  generalize d + s + carryIn w x = r at hr ⊢
  have hhalf := Nat.two_pow_pred_add_two_pow_pred hw
  have hrlt := r.isLt
  have hx := x.toNat_le
  rw [BitVec.msb_eq_decide, BitVec.msb_eq_decide, BitVec.msb_eq_decide, Bool.eq_iff_iff, addCarry_decide_iff, decide_eq_true_iff]
  omega

theorem addOverflow_eq_decide {w : Nat} (hw : 0 < w) (s d : BitVec w) (x : Bool) :
    addOverflow s.msb d.msb (d + s + carryIn w x).msb =
      decide (s.toInt + d.toInt + x.toNat < -2 ^ (w - 1) ∨ 2 ^ (w - 1) ≤ s.toInt + d.toInt + x.toNat) := by
  have hr := toNat_add_carryIn hw s d x
  generalize d + s + carryIn w x = r at hr ⊢
  have hhalf := Nat.two_pow_pred_add_two_pow_pred hw
  have hs := toInt_cases s
  have hd := toInt_cases d
  have hx := x.toNat_le
  have hcast : ((2 ^ (w - 1) : Nat) : Int) = 2 ^ (w - 1) := Nat.cast_pow 2 (w - 1)
  rw [BitVec.msb_eq_decide, BitVec.msb_eq_decide, BitVec.msb_eq_decide, Bool.eq_iff_iff, addOverflow_decide_iff, decide_eq_true_iff]
  omega

/-! ### The borrow and the overflow of R18 -/

theorem subBorrow_eq_decide {w : Nat} (hw : 0 < w) (s d : BitVec w) (x : Bool) :
    subBorrow s.msb d.msb (d - s - carryIn w x).msb = decide (d.toNat < s.toNat + x.toNat) := by
  have hr := toNat_sub_carryIn hw s d x
  generalize d - s - carryIn w x = r at hr ⊢
  have hhalf := Nat.two_pow_pred_add_two_pow_pred hw
  have hrlt := r.isLt
  have hx := x.toNat_le
  rw [BitVec.msb_eq_decide, BitVec.msb_eq_decide, BitVec.msb_eq_decide, Bool.eq_iff_iff, subBorrow_decide_iff, decide_eq_true_iff]
  omega

theorem subOverflow_eq_decide {w : Nat} (hw : 0 < w) (s d : BitVec w) (x : Bool) :
    subOverflow s.msb d.msb (d - s - carryIn w x).msb =
      decide (d.toInt - s.toInt - x.toNat < -2 ^ (w - 1) ∨ 2 ^ (w - 1) ≤ d.toInt - s.toInt - x.toNat) := by
  have hr := toNat_sub_carryIn hw s d x
  generalize d - s - carryIn w x = r at hr ⊢
  have hhalf := Nat.two_pow_pred_add_two_pow_pred hw
  have hs := toInt_cases s
  have hd := toInt_cases d
  have hx := x.toNat_le
  have hcast : ((2 ^ (w - 1) : Nat) : Int) = 2 ^ (w - 1) := Nat.cast_pow 2 (w - 1)
  rw [BitVec.msb_eq_decide, BitVec.msb_eq_decide, BitVec.msb_eq_decide, Bool.eq_iff_iff, subOverflow_decide_iff, decide_eq_true_iff]
  omega

/-! ### The obligations -/

/-- Settles O16: `C` and `V` by the carry and the overflow of the exact sum; the rest is what `addFlags` writes. -/
theorem addFlagsAreExact : Obligations.AddFlagsAreExact := by
  intro sz s d x
  have hw := bits_pos sz
  exact ⟨rfl, addCarry_eq_decide hw s d x, rfl, addOverflow_eq_decide hw s d x, rfl, rfl, rfl⟩

/-- Settles O17: `C` and `V` by the borrow and the overflow of the exact difference; the rest is what `subFlags` and `cmpFlags`
write. -/
theorem subFlagsAreExact : Obligations.SubFlagsAreExact := by
  intro sz s d x before
  have hw := bits_pos sz
  exact ⟨rfl, subBorrow_eq_decide hw s d x, rfl, subOverflow_eq_decide hw s d x, rfl, rfl, rfl, rfl⟩

end Sys2Proof.Machine
end

section
/-! The length of an encoding (R133). `encode` builds its words in seven shapes; each shape's words are counted once, and
`encode_countsWords` says which shape a constructor has. -/

namespace Sys2Proof.Machine

/-- The words are an operation word, `own` extension words and those of the operands `ops`: the sum of R133, in words. -/
def CountsWords (ws : List Word) (own : Nat) (ops : List (Size × Ea)) : Prop :=
  ws.length = 1 + own + (ops.map fun p => eaWords p.1 p.2).sum

/-! ### Extension words -/

theorem encodeImm_length (sz : Size) (v : Long) : (encodeImm sz v).length = immWords sz := by cases sz <;> rfl

/-- The encoder and the machine agree on the extension words of a mode (R114). -/
theorem ext_length (sz : Size) (ea : Ea) : (ea.ext sz).length = eaWords sz ea := by
  cases ea with
  | imm v => exact encodeImm_length sz v
  | _ => rfl

/-! ### The shapes of an encoding -/

theorem countsWords_one (w : Word) : CountsWords [w] 0 [] := rfl

theorem countsWords_two (w v : Word) : CountsWords [w, v] 1 [] := rfl

theorem countsWords_encBranch (cc : Nat) (d : BranchDisp) : CountsWords (encBranch cc d) (branchWords d) [] := by
  cases d <;> rfl

theorem countsWords_encEa (g a b : Nat) (sz : Size) (ea : Ea) : CountsWords (encEa g a b sz ea) 0 [(sz, ea)] := by
  simp [CountsWords, encEa, ext_length, Nat.add_comm]

theorem countsWords_wordEa (w v : Word) (sz : Size) (ea : Ea) : CountsWords (w :: v :: ea.ext sz) 1 [(sz, ea)] := by
  simp only [CountsWords, List.length_cons, ext_length, List.map_cons, List.map_nil, List.sum_singleton]
  omega

theorem countsWords_encImmEa (a : Nat) (sz : Size) (v : Long) (ea : Ea) :
    CountsWords (encImmEa a sz v ea) (immWords sz) [(sz, ea)] := by
  simp [CountsWords, encImmEa, encodeImm_length, ext_length, Nat.add_comm, Nat.add_left_comm]

theorem countsWords_encMove (g : Nat) (sz : Size) (src dst : Ea) :
    CountsWords (encMove g sz src dst) 0 [(sz, src), (sz, dst)] := by
  simp [CountsWords, encMove, ext_length, Nat.add_comm]

/-! ### Every instruction has one of the shapes -/

theorem encode_countsWords (i : Instr) : CountsWords (encode i) (ownWords i) (operandsOf i) := by
  cases i with
  | moveB | moveW | moveL => exact countsWords_encMove ..
  | ori | andi | subi | addi | eori | cmpi => exact countsWords_encImmEa ..
  | btstImm | bchgImm | bclrImm | bsetImm | movemStore | movemLoad => exact countsWords_wordEa ..
  | bra | bsr | bcc => exact countsWords_encBranch ..
  | oriToCcr | oriToSr | andiToCcr | andiToSr | eoriToCcr | eoriToSr | stop | movep | link | dbcc =>
    exact countsWords_two ..
  | swap | extW | extL | illegal | trap | unlk | moveAnUsp | moveUspAn | reset | nop | rte | rts | trapv | rtr | moveq
  | sbcd | abcd | subx | addx | cmpm | exgDxDy | exgAxAy | exgDxAy | lineA | lineF
  | aslReg | asrReg | lslReg | lsrReg | roxlReg | roxrReg | rolReg | rorReg => exact countsWords_one _
  | _ => exact countsWords_encEa ..

/-- Settles O12: twice the count of `encode_countsWords`. It holds of the terms that are not well formed too. -/
theorem encodedLengthFormula : Obligations.EncodedLengthFormula := by
  intro i _
  have hcount : (encode i).length = 1 + ownWords i + ((operandsOf i).map fun p => eaWords p.1 p.2).sum :=
    encode_countsWords i
  rw [hcount, lengthBytes]
  omega

end Sys2Proof.Machine
end

section
/-! The words that are no instruction of the processor (R129, R130): `ILLEGAL` and lines A and F. The decoder cuts a word into
its line and the four fields below it, and a line's instruction holds those four joined again; its meaning raises an exception of
group 1 and does nothing else. -/

namespace Sys2Proof.Machine

/-! ### Decoding by line -/

/-- The decoder on a word given as its line and its low twelve bits. -/
theorem decode_line (g : BitVec 4) (z : BitVec 12) (ws : List Word) :
    decode ((g ++ z) :: ws) =
      decodeFields g.toNat (z.toNat / 512) (z.toNat / 64 % 8) (z.toNat / 8 % 8) (z.toNat % 8) ws := by
  have hz := z.isLt
  have hw : (g ++ z).toNat = g.toNat * 4096 + z.toNat := by
    rw [BitVec.toNat_append, ← Nat.shiftLeft_add_eq_or_of_lt hz, Nat.shiftLeft_eq]
  simp only [decode, hw]
  congr 1 <;> omega

/-- The low twelve bits of a word from their four fields. -/
theorem join_fields (z : BitVec 12) :
    BitVec.ofNat 12 (z.toNat / 512 * 512 + z.toNat / 64 % 8 * 64 + z.toNat / 8 % 8 * 8 + z.toNat % 8) = z := by
  have hz : z.toNat / 512 * 512 + z.toNat / 64 % 8 * 64 + z.toNat / 8 % 8 * 8 + z.toNat % 8 = z.toNat := by omega
  rw [hz, BitVec.ofNat_toNat, BitVec.setWidth_eq]

theorem decode_lineA (z : BitVec 12) (ws : List Word) : decode ((0xA#4 ++ z) :: ws) = .ok (.lineA z, ws) := by
  rw [decode_line]
  exact congrArg (fun y => Except.ok (Instr.lineA y, ws)) (join_fields z)

theorem decode_lineF (z : BitVec 12) (ws : List Word) : decode ((0xF#4 ++ z) :: ws) = .ok (.lineF z, ws) := by
  rw [decode_line]
  exact congrArg (fun y => Except.ok (Instr.lineF y, ws)) (join_fields z)

/-! ### Raising an exception of group 1 -/

/-- An instruction that raises an exception of group 1 before it changes anything: the entry saves the instruction's own
address, and no trace follows (R340, R353). -/
theorem exec_enters_group1 {i : Instr} {s : State} {e : Exc} {body : Exec Unit} (hi : exec i s = runInstr body s)
    (hbody : body (s.completed 0) = .error (.exc e) (s.completed 0)) (he : e.isGroup2 = false)
    (hready : s.entryReady e.vector) :
    ∃ t, exec i s = .next (t.setTraceDue false) ∧ Entered (s.completed 0) e.vector s.pc t := by
  obtain ⟨t, ht, hentered⟩ := takeException_group1 (ipc := s.pc) (s := s.completed 0) he
    ((State.entryReady_congr rfl rfl _).2 hready)
  exact ⟨t, by rw [exec_exc hi hbody, ht], hentered⟩

/-- Settles O52: the decoder line by line, and each meaning as one that raises at once. -/
theorem unimplementedWordsTrap : Obligations.UnimplementedWordsTrap := by
  refine ⟨rfl, fun z => ⟨decode_lineA z [], decode_lineF z []⟩, ?_⟩
  rintro s z i v (⟨rfl, rfl⟩ | ⟨rfl, rfl⟩ | ⟨rfl, rfl⟩) hready
  · exact exec_enters_group1 (e := .illegalInstruction) rfl rfl rfl hready
  · exact exec_enters_group1 (e := .lineA) rfl rfl rfl hready
  · exact exec_enters_group1 (e := .lineF) rfl rfl rfl hready

end Sys2Proof.Machine
end

section
/-! `MOVEQ`, `EXT`, `SWAP` and `EXG` (R182, R188, R220, R271). Each of their words is an `opWord`, which the decoder takes apart
into the five fields it was built from; each meaning is one change of the state, which cannot raise. -/

namespace Sys2Proof.Machine

/-! ### A word by its fields -/

/-- The decoder cuts an operation word into the fields `opWord` joins (R112). -/
theorem decode_opWord {g a b c d : Nat} (hg : g < 16) (ha : a < 8) (hb : b < 8) (hc : c < 8) (hd : d < 8) (ws : List Word) :
    decode (opWord g a b c d :: ws) = decodeFields g a b c d ws := by
  have hw : (opWord g a b c d).toNat = (((g * 8 + a) * 8 + b) * 8 + c) * 8 + d :=
    Nat.mod_eq_of_lt (by omega)
  simp only [decode, hw]
  congr 1 <;> omega

theorem regField_val (r : RegNum) : regField r.val = r := Fin.ofNat_val_eq_self r

/-- Bits set side by side, as a number. -/
theorem toNat_append_eq_mul_add {m n : Nat} (x : BitVec m) (y : BitVec n) : (x ++ y).toNat = x.toNat * 2 ^ n + y.toNat := by
  rw [BitVec.toNat_append, ← Nat.shiftLeft_add_eq_or_of_lt y.isLt, Nat.shiftLeft_eq]

theorem toNat_ofNat_regNum (r : RegNum) : (BitVec.ofNat 3 r.val).toNat = r.val := Nat.mod_eq_of_lt r.isLt

/-- A word whose number is the sum of its fields. -/
theorem eq_opWord {w : Word} {g a b c d : Nat} (h : w.toNat = (((g * 8 + a) * 8 + b) * 8 + c) * 8 + d) :
    w = opWord g a b c d := by
  rw [opWord, ← h, BitVec.ofNat_toNat, BitVec.setWidth_eq]

/-! ### The words of R182, R188, R220 and R271 -/

theorem decode_moveq (x : RegNum) (q : Byte) (ws : List Word) :
    decode ((7#4 ++ BitVec.ofNat 3 x.val ++ 0#1 ++ q) :: ws) = .ok (.moveq x q, ws) := by
  have hx := x.isLt
  have hq := q.isLt
  have hword : 7#4 ++ BitVec.ofNat 3 x.val ++ 0#1 ++ q = opWord 7 x.val (q.toNat / 64) (q.toNat / 8 % 8) (q.toNat % 8) := by
    apply eq_opWord
    simp only [toNat_append_eq_mul_add, toNat_ofNat_regNum, BitVec.reduceToNat]
    omega
  have hfields : BitVec.ofNat 8 (q.toNat / 64 * 64 + q.toNat / 8 % 8 * 8 + q.toNat % 8) = q := by
    have hsum : q.toNat / 64 * 64 + q.toNat / 8 % 8 * 8 + q.toNat % 8 = q.toNat := by omega
    rw [hsum, BitVec.ofNat_toNat, BitVec.setWidth_eq]
  have hb : q.toNat / 64 < 4 := by omega
  rw [hword, decode_opWord (by decide) hx (by omega) (by omega) (by omega)]
  simp only [decodeFields, group7, if_pos hb, hfields, regField_val]

/-- The words `0100 1000 bb00 0ddd` of group 0100, by the two bits that tell `SWAP`, `EXT.W` and `EXT.L` apart. -/
theorem decode_group48_register {w : BitVec 12} {b : Nat} (hb : b < 4) (hw : w.toNat = 0x480 + 4 * b) (x : RegNum)
    (ws : List Word) : decode ((w ++ 0#1 ++ BitVec.ofNat 3 x.val) :: ws) = group48 b 0 x.val ws := by
  have hx := x.isLt
  have hword : w ++ 0#1 ++ BitVec.ofNat 3 x.val = opWord 4 4 b 0 x.val := by
    apply eq_opWord
    simp only [toNat_append_eq_mul_add, toNat_ofNat_regNum, BitVec.reduceToNat, hw]
    omega
  have h6 : b ≠ 6 := by omega
  have h7 : b ≠ 7 := by omega
  rw [hword, decode_opWord (by decide) (by decide) (by omega) (by decide) hx]
  simp only [decodeFields, group4, if_neg h6, if_neg h7]

theorem decode_extW (x : RegNum) (ws : List Word) :
    decode ((0x488#12 ++ 0#1 ++ BitVec.ofNat 3 x.val) :: ws) = .ok (.extW x, ws) := by
  rw [decode_group48_register (b := 2) (by decide) rfl]
  simp only [group48, if_true, regField_val]

theorem decode_extL (x : RegNum) (ws : List Word) :
    decode ((0x48C#12 ++ 0#1 ++ BitVec.ofNat 3 x.val) :: ws) = .ok (.extL x, ws) := by
  rw [decode_group48_register (b := 3) (by decide) rfl]
  simp only [group48, if_true, regField_val]

theorem decode_swap (x : RegNum) (ws : List Word) :
    decode ((0x484#12 ++ 0#1 ++ BitVec.ofNat 3 x.val) :: ws) = .ok (.swap x, ws) := by
  rw [decode_group48_register (b := 1) (by decide) rfl]
  simp only [group48, if_true, regField_val]

/-- The words `1100 xxx 1 ooooo yyy` of group 1100, by their operation mode `o`. -/
theorem decode_groupC_registers (o : BitVec 5) (x y : RegNum) (ws : List Word) :
    decode ((12#4 ++ BitVec.ofNat 3 x.val ++ 1#1 ++ o ++ BitVec.ofNat 3 y.val) :: ws) =
      groupC x.val (4 + o.toNat / 8) (o.toNat % 8) y.val ws := by
  have hx := x.isLt
  have hy := y.isLt
  have ho := o.isLt
  have hword : 12#4 ++ BitVec.ofNat 3 x.val ++ 1#1 ++ o ++ BitVec.ofNat 3 y.val =
      opWord 12 x.val (4 + o.toNat / 8) (o.toNat % 8) y.val := by
    apply eq_opWord
    simp only [toNat_append_eq_mul_add, toNat_ofNat_regNum, BitVec.reduceToNat]
    omega
  rw [hword, decode_opWord (by decide) hx (by omega) (by omega) hy]
  rfl

theorem decode_exgDxDy (x y : RegNum) (ws : List Word) :
    decode ((12#4 ++ BitVec.ofNat 3 x.val ++ 1#1 ++ 8#5 ++ BitVec.ofNat 3 y.val) :: ws) = .ok (.exgDxDy x y, ws) := by
  rw [decode_groupC_registers]
  simp [groupC, regField_val]

theorem decode_exgAxAy (x y : RegNum) (ws : List Word) :
    decode ((12#4 ++ BitVec.ofNat 3 x.val ++ 1#1 ++ 9#5 ++ BitVec.ofNat 3 y.val) :: ws) = .ok (.exgAxAy x y, ws) := by
  rw [decode_groupC_registers]
  simp [groupC, regField_val]

theorem decode_exgDxAy (x y : RegNum) (ws : List Word) :
    decode ((12#4 ++ BitVec.ofNat 3 x.val ++ 1#1 ++ 17#5 ++ BitVec.ofNat 3 y.val) :: ws) = .ok (.exgDxAy x y, ws) := by
  rw [decode_groupC_registers]
  simp [groupC, regField_val]

/-! ### What each leaves (R182, R188, R220, R271) -/

/-- Sign extension keeps the signed value, so it keeps `N` and `Z`. -/
theorem logicFlags_signExtend {w v : Nat} (h : w ≤ v) (q : BitVec w) (c : Ccr) :
    logicFlags (q.signExtend v) c = logicFlags q c := by
  have hint : (q.signExtend v).toInt = q.toInt := BitVec.toInt_signExtend_of_le h
  have hn : (q.signExtend v).msb = q.msb := by rw [BitVec.msb_eq_toInt, BitVec.msb_eq_toInt, hint]
  have hz : (q.signExtend v == 0) = (q == 0) := by
    rw [Bool.eq_iff_iff, beq_iff_eq, beq_iff_eq, ← BitVec.toInt_inj, ← BitVec.toInt_inj, hint, BitVec.toInt_ofNat,
      BitVec.toInt_ofNat]
    simp
  rw [logicFlags, logicFlags, hn, hz]

/-- `MOVEQ` sets the flags of its 32-bit result (R182), which are those of the byte. -/
theorem exec_moveq (s : State) (x : RegNum) (q : Byte) :
    exec (.moveq x q) s =
      .next (((s.completed 0).putD x (q.signExtend 32)).setCcr (logicFlags q s.sr.ccr)) := by
  rw [← logicFlags_signExtend (by decide : 8 ≤ 32)]
  rfl

/-- `EXT.W` writes the low word alone: the upper half stays (R220). -/
theorem exec_extW (s : State) (x : RegNum) :
    let v : Word := ((s.getD x).setWidth 8).signExtend 16
    exec (.extW x) s =
      .next (((s.completed 0).putD x ((s.getD x).extractLsb' 16 16 ++ v)).setCcr (logicFlags v s.sr.ccr)) := rfl

theorem exec_extL (s : State) (x : RegNum) :
    let v : Long := ((s.getD x).setWidth 16).signExtend 32
    exec (.extL x) s = .next (((s.completed 0).putD x v).setCcr (logicFlags v s.sr.ccr)) := rfl

theorem exec_swap (s : State) (x : RegNum) :
    let v : Long := (s.getD x).extractLsb' 0 16 ++ (s.getD x).extractLsb' 16 16
    exec (.swap x) s = .next (((s.completed 0).putD x v).setCcr (logicFlags v s.sr.ccr)) := rfl

theorem exec_exgDxDy (s : State) (x y : RegNum) :
    exec (.exgDxDy x y) s = .next (((s.completed 0).putD x (s.getD y)).putD y (s.getD x)) := rfl

theorem exec_exgAxAy (s : State) (x y : RegNum) :
    exec (.exgAxAy x y) s = .next (((s.completed 0).putA x (s.getA y)).putA y (s.getA x)) := rfl

theorem exec_exgDxAy (s : State) (x y : RegNum) :
    exec (.exgDxAy x y) s = .next (((s.completed 0).putD x (s.getA y)).putA y (s.getD x)) := rfl

/-- `EXG Dn,Dn` writes the register's own value twice (R188). -/
theorem exec_exgDxDy_self (s : State) (x : RegNum) : exec (.exgDxDy x x) s = .next (s.completed 0) := by
  have hsame : (s.completed 0).putD x (s.getD x) = s.completed 0 := (s.completed 0).putD_getD x
  rw [exec_exgDxDy, hsame, hsame]

/-- `EXG An,An`; for `A7` it is the active stack pointer that is written with its own value (R34, R188). -/
theorem exec_exgAxAy_self (s : State) (x : RegNum) : exec (.exgAxAy x x) s = .next (s.completed 0) := by
  have hsame : (s.completed 0).putA x (s.getA x) = s.completed 0 := (s.completed 0).putA_getA x
  rw [exec_exgAxAy, hsame, hsame]

/-- Settles O26: the words by their fields, and each meaning as one change of the completed state. -/
theorem registerInstructions : Obligations.RegisterInstructions := by
  intro s x y q
  exact
    ⟨⟨decode_moveq x q [], exec_moveq s x q⟩,
      ⟨decode_extW x [], exec_extW s x⟩,
      ⟨decode_extL x [], exec_extL s x⟩,
      ⟨decode_swap x [], exec_swap s x⟩,
      ⟨decode_exgDxDy x y [], exec_exgDxDy s x y, exec_exgDxDy_self s x⟩,
      ⟨decode_exgAxAy x y [], exec_exgAxAy s x y, exec_exgAxAy_self s x⟩,
      ⟨decode_exgDxAy x y [], exec_exgDxAy s x y⟩⟩

end Sys2Proof.Machine
end

section
/-! A shift or rotate by a count of zero (R261). No step runs, so the operand and `X` are as they were and `C` is the carry that
`shiftZeroCarry` names; writing a register's low part back to it then changes nothing of the state but the flags. -/

namespace Sys2Proof.Machine

/-- A word cut in two and joined again. -/
theorem extractLsb'_append_setWidth (m n : Nat) (v : BitVec (m + n)) : v.extractLsb' n m ++ v.setWidth n = v := by
  rw [BitVec.setWidth_eq_extractLsb' (Nat.le_add_left n m),
    BitVec.extractLsb'_append_extractLsb'_eq_extractLsb' (Nat.zero_add n).symm, BitVec.extractLsb'_eq_self]

theorem mergeLow_low (sz : Size) (v : Long) : mergeLow sz v (low sz v) = v := by
  cases sz with
  | b => exact extractLsb'_append_setWidth 24 8 v
  | w => exact extractLsb'_append_setWidth 16 16 v
  | l => exact BitVec.setWidth_eq v

/-- Writing a part of a register with the value it holds changes nothing. -/
theorem State.putLow_low (s : State) (sz : Size) (n : RegNum) : s.putLow sz n (low sz (s.getD n)) = s := by
  rw [State.putLow, mergeLow_low, State.putD_getD]

theorem shiftZeroCarry_eq_ite (k : ShiftKind) (x : Bool) :
    shiftZeroCarry k x = if k = .roxl ∨ k = .roxr then x else false := by
  cases k <;> rfl

/-- No step has run, so no top bit has moved: `ASL` too clears `V`. -/
theorem shiftOverflow_false (k : ShiftKind) : shiftOverflow k false = false := by
  cases k <;> rfl

theorem shiftResult_zero {w : Nat} (k : ShiftKind) (v : BitVec w) (f : Ccr) :
    shiftResult k 0 v f = (v, ⟨f.x, v.msb, v == 0, false, shiftZeroCarry k f.x⟩) := by
  rw [← shiftOverflow_false k]
  rfl

/-- Settles O20: the count is zero, the result of no step is the operand, and its write back leaves the register as it was. -/
theorem zeroShiftCount : Obligations.ZeroShiftCount := by
  intro k s m dn sz hcount
  have hzero : shiftCount s (.reg m) = 0 := hcount
  simp only [opShiftReg, update, hzero, shiftResult_zero, State.putLow_low, shiftZeroCarry_eq_ite]

end Sys2Proof.Machine
end

section
/-! `NOP`, `TRAP` and `TRAPV` (R300, R324, R325). Their words lie in the row `0100 1110 01cc cddd` of group 0100. The two traps
raise an exception of group 2, the counterpart of `exec_enters_group1`: the instruction counts as completed, so the address saved
is the next instruction's and a due trace stays due. -/

namespace Sys2Proof.Machine

/-! ### The words of R300, R324 and R325 -/

theorem decode_group4E4 {c d : Nat} (hc : c < 8) (hd : d < 8) (ws : List Word) :
    decode (opWord 4 7 1 c d :: ws) = group4E4 c d ws :=
  decode_opWord (by decide) (by decide) (by decide) hc hd ws

theorem decode_nop (ws : List Word) : decode (0x4E71 :: ws) = .ok (.nop, ws) :=
  decode_group4E4 (c := 6) (d := 1) (by decide) (by decide) ws

theorem decode_trapv (ws : List Word) : decode (0x4E76 :: ws) = .ok (.trapv, ws) :=
  decode_group4E4 (c := 6) (d := 6) (by decide) (by decide) ws

/-- The two rows of `TRAP` hold the halves of the vector's range: bit 3 of the vector is the low bit of the field `c`. -/
theorem group4E4_trap {c : Nat} (hc : c < 2) (d : Nat) (ws : List Word) :
    group4E4 c d ws = .ok (.trap (BitVec.ofNat 4 (8 * c + d)), ws) := by
  obtain rfl | rfl : c = 0 ∨ c = 1 := by omega
  · rw [Nat.mul_zero, Nat.zero_add]
    rfl
  · rfl

theorem decode_trap (v : BitVec 4) (ws : List Word) : decode ((0x4E4#12 ++ v) :: ws) = .ok (.trap v, ws) := by
  have hv := v.isLt
  have hword : 0x4E4#12 ++ v = opWord 4 7 1 (v.toNat / 8) (v.toNat % 8) := by
    apply eq_opWord
    simp only [toNat_append_eq_mul_add, BitVec.reduceToNat]
    omega
  rw [hword, decode_group4E4 (by omega) (by omega), group4E4_trap (by omega), Nat.div_add_mod, BitVec.ofNat_toNat,
    BitVec.setWidth_eq]

/-! ### Raising an exception of group 2 -/

/-- An instruction that raises an exception of group 2 before it changes anything: the entry saves the next instruction's
address (R352, R353). -/
theorem exec_enters_group2 {i : Instr} {s : State} {e : Exc} {body : Exec Unit} (hi : exec i s = runInstr body s)
    (hbody : body (s.completed 0) = .error (.exc e) (s.completed 0)) (he : e.isGroup2 = true)
    (hready : s.entryReady e.vector) :
    ∃ t, exec i s = .next t ∧ Entered (s.completed 0) e.vector (s.pc + 2) t := by
  obtain ⟨t, ht, hentered⟩ := takeException_group2 (ipc := s.pc) (s := s.completed 0) he
    ((State.entryReady_congr rfl rfl _).2 hready)
  exact ⟨t, by rw [exec_exc hi hbody, ht], hentered⟩

/-! ### The meanings (R300, R324, R325) -/

theorem exec_nop (s : State) : exec .nop s = .next (s.completed 0) := exec_next rfl rfl

theorem exec_trap_enters {s : State} {v : BitVec 4} (hready : s.entryReady (32 + v.toNat)) :
    ∃ t, exec (.trap v) s = .next t ∧ Entered (s.completed 0) (32 + v.toNat) (s.pc + 2) t :=
  exec_enters_group2 (e := .trap v) rfl rfl rfl hready

theorem exec_trapv_of_v_clear {s : State} (hv : s.sr.ccr.v = false) : exec .trapv s = .next (s.completed 0) := by
  apply exec_next rfl
  simp only [look_bind, State.completed_sr, hv]
  rfl

theorem exec_trapv_enters {s : State} (hv : s.sr.ccr.v = true) (hready : s.entryReady 7) :
    ∃ t, exec .trapv s = .next t ∧ Entered (s.completed 0) 7 (s.pc + 2) t := by
  refine exec_enters_group2 (e := .trapV) rfl ?_ rfl hready
  simp only [look_bind, State.completed_sr, hv]
  rfl

/-- Settles O50: `NOP` has no effect of its own, `TRAP` always raises, and `TRAPV` is one or the other by `V`. -/
theorem nopAndTraps : Obligations.NopAndTraps :=
  ⟨decode_nop [], decode_trapv [], fun v => decode_trap v [], fun s _ =>
    ⟨exec_nop s, exec_trap_enters, exec_trapv_of_v_clear, exec_trapv_enters⟩⟩

end Sys2Proof.Machine
end

section
/-! The decoder against the encoder and against `Instr.wf` (R110 to R129). Both go through one description of an effective
address: `Admits ok sz ea` says that its mode lies in the set a row asks for and that its immediate, if it is one, fits the size.
Each set of R124 is tied once to the class `Instr.wf` names (`admits_dataAlterable` and its companions), so that reading back an
encoding (O10) and the well-formedness of what is read (O11) use the same equivalences from their two sides. -/

namespace Sys2Proof

open Machine (long_words regField_val toNat_ofNat_regNum toNat_append_eq_mul_add)

/-! ### The modes of R124 -/

/-- An immediate operand, if it is one, fits the size (R120). -/
def HoldsImm (sz : Size) (ea : Ea) : Prop := ∀ v, ea = .imm v → sz.holds v = true

/-- The effective address has a mode of the set and words that hold it. -/
def Admits (ok : Nat → Bool) (sz : Size) (ea : Ea) : Prop := ok (modeIndex ea.mode ea.reg) = true ∧ HoldsImm sz ea

theorem anyMode_modeIndex (ea : Ea) : anyMode (modeIndex ea.mode ea.reg) = true := by cases ea <;> rfl

theorem dataMode_modeIndex (ea : Ea) : dataMode (modeIndex ea.mode ea.reg) = ea.isData := by cases ea <;> rfl

theorem alterableMode_modeIndex (ea : Ea) : alterableMode (modeIndex ea.mode ea.reg) = ea.isAlterable := by
  cases ea <;> rfl

theorem dataAlterableMode_modeIndex (ea : Ea) :
    dataAlterableMode (modeIndex ea.mode ea.reg) = ea.isDataAlterable := by cases ea <;> rfl

theorem memoryAlterableMode_modeIndex (ea : Ea) :
    memoryAlterableMode (modeIndex ea.mode ea.reg) = ea.isMemoryAlterable := by cases ea <;> rfl

theorem controlMode_modeIndex (ea : Ea) : controlMode (modeIndex ea.mode ea.reg) = ea.isControl := by cases ea <;> rfl

/-- The modes of `MOVEM` to memory: control alterable, and predecrement (R183). -/
theorem movemStoreMode_modeIndex (ea : Ea) : movemStoreMode (modeIndex ea.mode ea.reg) =
    (ea.isControlAlterable || match ea with | .predec _ => true | _ => false) := by cases ea <;> rfl

/-- The modes of `MOVEM` from memory: control, and postincrement (R184). -/
theorem movemLoadMode_modeIndex (ea : Ea) : movemLoadMode (modeIndex ea.mode ea.reg) =
    (ea.isControl || match ea with | .postinc _ => true | _ => false) := by cases ea <;> rfl

/-- A mode that is not immediate holds no immediate. -/
theorem holdsImm_of_ne {sz : Size} {ea : Ea} (h : ∀ v, ea ≠ .imm v) : HoldsImm sz ea := fun v e => absurd e (h v)

theorem holdsImm_iff_fits {sz : Size} {ea : Ea} (h : sz ≠ .b ∨ ea.isData = true) : HoldsImm sz ea ↔ ea.fits sz = true := by
  cases ea with
  | imm v => exact ⟨fun hv => hv v rfl, fun hv w hw => by cases hw; exact hv⟩
  | an n =>
    have hb : sz ≠ .b := h.resolve_right Bool.false_ne_true
    exact ⟨fun _ => bne_iff_ne.2 hb, fun _ => holdsImm_of_ne fun _ => Ea.noConfusion⟩
  | _ => exact ⟨fun _ => rfl, fun _ => holdsImm_of_ne fun _ => Ea.noConfusion⟩

/-- A class without the immediate mode: the immediate asks for nothing. -/
theorem admits_iff_of_no_imm {ok : Nat → Bool} {cls : Ea → Bool} {sz : Size} {ea : Ea}
    (hok : ∀ e : Ea, ok (modeIndex e.mode e.reg) = cls e) (himm : ∀ v, cls (.imm v) = false) :
    Admits ok sz ea ↔ cls ea = true := by
  refine ⟨fun h => (hok ea).symm.trans h.1, fun h => ⟨(hok ea).trans h, holdsImm_of_ne fun v e => ?_⟩⟩
  rw [e, himm] at h
  exact Bool.false_ne_true h

theorem admits_dataAlterable {sz : Size} {ea : Ea} : Admits dataAlterableMode sz ea ↔ ea.isDataAlterable = true :=
  admits_iff_of_no_imm dataAlterableMode_modeIndex fun _ => rfl

theorem admits_alterable {sz : Size} {ea : Ea} : Admits alterableMode sz ea ↔ ea.isAlterable = true :=
  admits_iff_of_no_imm alterableMode_modeIndex fun _ => rfl

theorem admits_memoryAlterable {sz : Size} {ea : Ea} : Admits memoryAlterableMode sz ea ↔ ea.isMemoryAlterable = true :=
  admits_iff_of_no_imm memoryAlterableMode_modeIndex fun _ => rfl

theorem admits_control {sz : Size} {ea : Ea} : Admits controlMode sz ea ↔ ea.isControl = true :=
  admits_iff_of_no_imm controlMode_modeIndex fun _ => rfl

theorem admits_movemStore {sz : Size} {ea : Ea} : Admits movemStoreMode sz ea ↔
    (ea.isControlAlterable || match ea with | .predec _ => true | _ => false) = true :=
  admits_iff_of_no_imm movemStoreMode_modeIndex fun _ => rfl

theorem admits_movemLoad {sz : Size} {ea : Ea} : Admits movemLoadMode sz ea ↔
    (ea.isControl || match ea with | .postinc _ => true | _ => false) = true :=
  admits_iff_of_no_imm movemLoadMode_modeIndex fun _ => rfl

theorem admits_dataSrc {sz : Size} {ea : Ea} : Admits dataMode sz ea ↔ wfDataSrc sz ea = true := by
  rw [Admits, dataMode_modeIndex, wfDataSrc, Bool.and_eq_true]
  exact and_congr_right fun h => holdsImm_iff_fits (.inr h)

theorem admits_any {sz : Size} {ea : Ea} (hsz : sz ≠ .b) : Admits anyMode sz ea ↔ ea.fits sz = true := by
  rw [Admits, anyMode_modeIndex]
  exact (and_iff_right rfl).trans (holdsImm_iff_fits (.inl hsz))

/-- At byte size an operand that fits is no address register (R124). -/
theorem isData_of_fits_byte {ea : Ea} (h : ea.fits .b = true) : ea.isData = true := by
  cases ea with
  | an n => exact h
  | _ => rfl

theorem admits_sized {sz : Size} {ea : Ea} : Admits (sizedMode sz) sz ea ↔ ea.fits sz = true := by
  cases sz with
  | b =>
    refine admits_dataSrc.trans ⟨fun h => (Bool.and_eq_true_iff.1 h).2, fun h => Bool.and_eq_true_iff.2 ⟨isData_of_fits_byte h, h⟩⟩
  | w => exact admits_any (by decide)
  | l => exact admits_any (by decide)

theorem admits_sizedAlterable {sz : Size} {ea : Ea} :
    Admits (sizedAlterableMode sz) sz ea ↔ (ea.isAlterable && ea.fits sz) = true := by
  cases sz with
  | b =>
    refine admits_dataAlterable.trans ?_
    cases ea <;> simp [Ea.isDataAlterable, Ea.isData, Ea.isAlterable, Ea.fits]
  | w =>
    refine admits_alterable.trans ?_
    cases ea <;> simp [Ea.isAlterable, Ea.fits]
  | l =>
    refine admits_alterable.trans ?_
    cases ea <;> simp [Ea.isAlterable, Ea.fits]

/-! ### Reading back the parts of an encoding -/

theorem readWord_cons (w : Word) (ws : List Word) : readWord (w :: ws) = .ok (w, ws) := rfl

theorem readLong_halves (v : Long) (ws : List Word) :
    readLong (v.extractLsb' 16 16 :: v.setWidth 16 :: ws) = .ok (v, ws) := by
  rw [readLong, long_words]

/-- A value that fits a width comes back from it. -/
theorem setWidth_setWidth_of_lt {m : Nat} {v : Long} (h : v.toNat < 2 ^ m) : (v.setWidth m).setWidth 32 = v := by
  apply BitVec.eq_of_toNat_eq
  rw [BitVec.toNat_setWidth, BitVec.toNat_setWidth, Nat.mod_eq_of_lt h, Nat.mod_eq_of_lt v.isLt]

theorem setWidth_byte_word (b : Byte) : (b.setWidth 16).setWidth 8 = b := by
  apply BitVec.eq_of_toNat_eq
  rw [BitVec.toNat_setWidth, BitVec.toNat_setWidth]
  have := b.isLt
  omega

theorem readImm_encodeImm {sz : Size} {v : Long} (h : sz.holds v = true) (ws : List Word) :
    readImm sz (encodeImm sz v ++ ws) = .ok (v, ws) := by
  have hv : v.toNat < 2 ^ sz.bits := of_decide_eq_true h
  cases sz with
  | b =>
    show Except.ok ((((v.setWidth 8).setWidth 16).setWidth 8).setWidth 32, ws) = _
    rw [setWidth_byte_word, setWidth_setWidth_of_lt hv]
  | w =>
    show Except.ok ((v.setWidth 16).setWidth 32, ws) = _
    rw [setWidth_setWidth_of_lt hv]
  | l => exact readLong_halves v ws

/-- The fields of an index word by their place (R119). -/
theorem toNat_indexWord (x : IndexWord) : x.toWord.toNat =
    x.isAddr.toNat * 32768 + x.reg.val * 4096 + x.isLong.toNat * 2048 + x.disp.toNat := by
  have hr : (BitVec.ofNat 3 x.reg.val).toNat = x.reg.val := toNat_ofNat_regNum x.reg
  simp only [IndexWord.toWord, toNat_append_eq_mul_add, hr, BitVec.toNat_ofBool, BitVec.reduceToNat]
  omega

theorem indexWord_ofWord_toWord (x : IndexWord) : IndexWord.ofWord x.toWord = x := by
  have hw := toNat_indexWord x
  have hr := x.reg.isLt
  have hd := x.disp.isLt
  have ha := x.isAddr.toNat_le
  have hl := x.isLong.toNat_le
  have hisAddr : x.toWord.getLsbD 15 = x.isAddr := by
    rw [BitVec.getLsbD, Nat.testBit_eq_decide_div_mod_eq, hw]
    cases x.isAddr <;> simp only [decide_eq_false_iff_not, decide_eq_true_iff, Bool.toNat_false, Bool.toNat_true] <;> omega
  have hisLong : x.toWord.getLsbD 11 = x.isLong := by
    rw [BitVec.getLsbD, Nat.testBit_eq_decide_div_mod_eq, hw]
    cases x.isLong <;> simp only [decide_eq_false_iff_not, decide_eq_true_iff, Bool.toNat_false, Bool.toNat_true] <;> omega
  have hreg : regField (x.toWord.toNat / 4096) = x.reg := by
    apply Fin.ext
    show x.toWord.toNat / 4096 % 8 = x.reg.val
    omega
  have hdisp : x.toWord.setWidth 8 = x.disp := by
    apply BitVec.eq_of_toNat_eq
    rw [BitVec.toNat_setWidth]
    omega
  rw [IndexWord.ofWord, hisAddr, hisLong, hreg, hdisp]

/-- An effective address is read back from its fields and its extension words. -/
theorem readEa_ext {sz : Size} {ea : Ea} (h : HoldsImm sz ea) (ws : List Word) :
    readEa sz ea.mode ea.reg (ea.ext sz ++ ws) = .ok (ea, ws) := by
  cases ea with
  | dn n => exact congrArg (fun r => Except.ok (Ea.dn r, ws)) (regField_val n)
  | an n => exact congrArg (fun r => Except.ok (Ea.an r, ws)) (regField_val n)
  | ind n => exact congrArg (fun r => Except.ok (Ea.ind r, ws)) (regField_val n)
  | postinc n => exact congrArg (fun r => Except.ok (Ea.postinc r, ws)) (regField_val n)
  | predec n => exact congrArg (fun r => Except.ok (Ea.predec r, ws)) (regField_val n)
  | disp n d => exact congrArg (fun r => Except.ok (Ea.disp r d, ws)) (regField_val n)
  | index n x =>
    show Except.ok (Ea.index (regField n.val) (IndexWord.ofWord x.toWord), ws) = _
    rw [regField_val, indexWord_ofWord_toWord]
  | absW a => rfl
  | absL a => exact congrArg (fun v => Except.ok (Ea.absL v, ws)) (long_words a)
  | pcDisp d => rfl
  | pcIndex x => exact congrArg (fun y => Except.ok (Ea.pcIndex y, ws)) (indexWord_ofWord_toWord x)
  | imm v =>
    show (readImm sz (encodeImm sz v ++ ws)).map _ = _
    rw [readImm_encodeImm (h v rfl)]
    rfl

theorem mode_lt (ea : Ea) : ea.mode < 8 := by cases ea <;> simp [Ea.mode]

theorem reg_lt (ea : Ea) : ea.reg < 8 := by
  cases ea with
  | dn n | an n | ind n | postinc n | predec n | disp n _ | index n _ => exact n.isLt
  | _ => simp [Ea.reg]

/-- A memory mode is neither of the two register direct ones. -/
theorem two_le_mode {ea : Ea} (h : ea.isMemoryAlterable = true) : 2 ≤ ea.mode := by
  rw [← memoryAlterableMode_modeIndex, memoryAlterableMode, decide_eq_true_iff, modeIndex] at h
  split at h <;> omega

theorem mode_ne_one {ea : Ea} (h : ea.isData = true) : ea.mode ≠ 1 := by
  rw [← dataMode_modeIndex, dataMode, decide_eq_true_iff, modeIndex] at h
  split at h <;> omega

/-- A data-alterable address is not the immediate mode, whose fields the forms to `CCR` and `SR` take (R126). -/
theorem not_status_fields {ea : Ea} (h : ea.isDataAlterable = true) : ¬ (ea.mode = 7 ∧ ea.reg = 4) := by
  rw [← dataAlterableMode_modeIndex, dataAlterableMode, decide_eq_true_iff, modeIndex] at h
  split at h <;> omega

/-! ### Reading back the shapes of an encoding -/

section
variable {ok : Nat → Bool} {sz : Size} {ea : Ea} {ws : List Word}

theorem oneEa_ext {mk : Ea → Instr} (h : Admits ok sz ea) :
    oneEa ok sz ea.mode ea.reg mk (ea.ext sz ++ ws) = .ok (mk ea, ws) := by
  rw [oneEa, if_pos h.1, readEa_ext h.2]
  rfl

theorem wordThenEa_ext {mk : Word → Ea → Instr} {w : Word} (h : Admits ok sz ea) :
    wordThenEa ok sz ea.mode ea.reg mk (w :: (ea.ext sz ++ ws)) = .ok (mk w ea, ws) := by
  rw [wordThenEa, if_pos h.1, readWord_cons]
  show (readEa sz ea.mode ea.reg (ea.ext sz ++ ws)).map _ = _
  rw [readEa_ext h.2]
  rfl

theorem sizeField_code (sz : Size) : sizeField sz.code = some sz := by cases sz <;> rfl

theorem sizedEa_ext {mk : Size → Ea → Instr} (h : Admits ok sz ea) :
    sizedEa ok sz.code ea.mode ea.reg mk (ea.ext sz ++ ws) = .ok (mk sz ea, ws) := by
  rw [sizedEa, sizeField_code]
  exact oneEa_ext h

theorem immThenEa_ext {mk : Size → Long → Ea → Instr} {v : Long} (hv : sz.holds v = true) (h : ea.isDataAlterable = true) :
    immThenEa sz.code ea.mode ea.reg mk (encodeImm sz v ++ ea.ext sz ++ ws) = .ok (mk sz v ea, ws) := by
  have hea := admits_dataAlterable (sz := sz).2 h
  rw [immThenEa, sizeField_code, List.append_assoc]
  simp only [hea.1, if_true, readImm_encodeImm hv, Except.bind, readEa_ext hea.2, Except.map]

theorem immOrStatus_ext {mk : Size → Long → Ea → Instr} {ccr : Byte → Instr} {sr : Word → Instr} {v : Long}
    (h : (sz.holds v && ea.isDataAlterable) = true) :
    immOrStatus sz.code ea.mode ea.reg mk ccr sr (encodeImm sz v ++ ea.ext sz ++ ws) = .ok (mk sz v ea, ws) := by
  obtain ⟨hv, hea⟩ := Bool.and_eq_true_iff.1 h
  rw [immOrStatus.eq_def, if_neg (not_status_fields hea), immThenEa_ext hv hea]

theorem moveRow_ext {a b : Nat} {mk : Ea → Ea → Instr} {mkA : Option (RegNum → Ea → Instr)} {src dst : Ea}
    (ha : a = dst.reg) (hb : b = dst.mode) (h : (src.fits sz && dst.isDataAlterable) = true) :
    moveRow sz a b src.mode src.reg mk mkA (src.ext sz ++ dst.ext sz ++ ws) = .ok (mk src dst, ws) := by
  obtain ⟨hsrc, hdst⟩ := Bool.and_eq_true_iff.1 h
  have hs := admits_sized.2 hsrc
  have hd := admits_dataAlterable (sz := sz).2 hdst
  have hb1 : dst.mode ≠ 1 := mode_ne_one (Bool.and_eq_true_iff.1 hdst).1
  subst ha hb
  rw [moveRow.eq_def, if_neg hb1, List.append_assoc]
  simp only [hs.1, hd.1, Bool.and_self, if_true, readEa_ext hs.2, Except.bind, readEa_ext hd.2, Except.map]

end

end Sys2Proof
end

section
/-! Decoding an encoding (O10). The operation word is taken apart into its five fields (`decode_opWord`); each format of R125 then
has one lemma that says which instruction its row reads back, and the theorem names the row of every constructor. -/

namespace Sys2Proof

open Machine (regField_val decode_opWord join_fields decode_group4E4 group4E4_trap)

/-! ### Rows by their format -/

section
variable {g a b : Nat} {sz : Size} {ea : Ea} {i : Instr} {ws : List Word}

theorem decode_encEa (hg : g < 16) (ha : a < 8) (hb : b < 8)
    (h : decodeFields g a b ea.mode ea.reg (ea.ext sz ++ ws) = .ok (i, ws)) : decode (encEa g a b sz ea ++ ws) = .ok (i, ws) :=
  (decode_opWord hg ha hb (mode_lt ea) (reg_lt ea) _).trans h

theorem decode_wordEa {w : Word} (hg : g < 16) (ha : a < 8) (hb : b < 8)
    (h : decodeFields g a b ea.mode ea.reg (w :: (ea.ext sz ++ ws)) = .ok (i, ws)) :
    decode ((eaWord g a b ea :: w :: ea.ext sz) ++ ws) = .ok (i, ws) :=
  (decode_opWord hg ha hb (mode_lt ea) (reg_lt ea) _).trans h

theorem code_lt (sz : Size) : sz.code < 3 := by cases sz <;> decide

theorem code_lt_four (sz : Size) : sz.code < 4 := Nat.lt_succ_of_lt (code_lt sz)

theorem four_add_code_lt (sz : Size) : 4 + sz.code < 8 := Nat.add_lt_add_left (code_lt_four sz) 4

theorem decode_encImmEa {v : Long} (ha : a < 8)
    (h : group0 a sz.code ea.mode ea.reg (encodeImm sz v ++ ea.ext sz ++ ws) = .ok (i, ws)) :
    decode (encImmEa a sz v ea ++ ws) = .ok (i, ws) :=
  (decode_opWord (by decide) ha (Nat.lt_trans (code_lt sz) (by decide)) (mode_lt ea) (reg_lt ea) _).trans h

theorem decode_encMove {src dst : Ea} (hg : g < 16)
    (h : decodeFields g dst.reg dst.mode src.mode src.reg (src.ext sz ++ dst.ext sz ++ ws) = .ok (i, ws)) :
    decode (encMove g sz src dst ++ ws) = .ok (i, ws) :=
  (decode_opWord hg (reg_lt dst) (mode_lt dst) (mode_lt src) (reg_lt src) _).trans h

/-! ### One effective address -/

variable {ok : Nat → Bool} {mk : RegNum → Ea → Instr}

theorem oneEa_reg (r : RegNum) (h : Admits ok sz ea) :
    oneEa ok sz ea.mode ea.reg (mk (regField r.val)) (ea.ext sz ++ ws) = .ok (mk r ea, ws) := by
  rw [regField_val, oneEa_ext h]

/-- The rows of memory operands beside a register pair, whose field `c` is 0 or 1. -/
theorem memoryEa_reg {p : Parsed Instr} (r : RegNum) (h : ea.isMemoryAlterable = true) :
    (if ea.mode < 2 then p else oneEa memoryAlterableMode sz ea.mode ea.reg (mk (regField r.val)) (ea.ext sz ++ ws)) =
      .ok (mk r ea, ws) := by
  rw [if_neg (Nat.not_lt.2 (two_le_mode h)), oneEa_reg r (admits_memoryAlterable.2 h)]

/-- The rows of memory operands beside `EXG`. -/
theorem memoryEa_reg_of_ne {p : Parsed Instr} (r : RegNum) (h : ea.isMemoryAlterable = true) :
    (if ea.mode = 1 then p else oneEa memoryAlterableMode sz ea.mode ea.reg (mk (regField r.val)) (ea.ext sz ++ ws)) =
      .ok (mk r ea, ws) := by
  have := two_le_mode h
  rw [if_neg (by omega), oneEa_reg r (admits_memoryAlterable.2 h)]

/-- The rows of data-alterable operands beside one whose field `c` is 1. -/
theorem dataAlterableEa_reg {p : Parsed Instr} (r : RegNum) (h : ea.isDataAlterable = true) :
    (if ea.mode = 1 then p else oneEa dataAlterableMode sz ea.mode ea.reg (mk (regField r.val)) (ea.ext sz ++ ws)) =
      .ok (mk r ea, ws) := by
  rw [if_neg (mode_ne_one (Bool.and_eq_true_iff.1 h).1), oneEa_reg r (admits_dataAlterable.2 h)]

theorem mode_ne_zero_of_control (h : ea.isControl = true) : ea.mode ≠ 0 := by
  rw [← controlMode_modeIndex, controlMode, decide_eq_true_iff, modeIndex] at h
  split at h <;> omega

theorem mode_ne_zero_of_movemStore (h : Admits movemStoreMode sz ea) : ea.mode ≠ 0 := by
  have hm := h.1
  rw [movemStoreMode, decide_eq_true_iff, modeIndex] at hm
  split at hm <;> omega

end

/-! ### Fields that are not an address -/

theorem pairField_code (form : PairForm) : pairField form.code = form := by cases form <;> rfl

theorem pairCode_lt (form : PairForm) : form.code < 2 := by cases form <;> decide

theorem movepField_code (form : MovepForm) : movepField form.code = form := by cases form <;> rfl

theorem condField_code (cond : Cond) : condField cond.code = cond := by cases cond <;> rfl

theorem condCode_lt (cond : Cond) : cond.code < 16 := by cases cond <;> decide

/-- The four bits of a condition from the two fields they are cut into (R123). -/
theorem condField_split (cond : Cond) (k : Nat) (hk : k < 4) :
    condField (cond.code / 2 * 2 + (cond.code % 2 * 4 + k) / 4) = cond := by
  have hsum : cond.code / 2 * 2 + (cond.code % 2 * 4 + k) / 4 = cond.code := by omega
  rw [hsum, condField_code]

theorem ofNat_toNat_self {n : Nat} (b : BitVec n) : BitVec.ofNat n b.toNat = b := by
  rw [BitVec.ofNat_toNat, BitVec.setWidth_eq]

/-- A byte from its three octal digits. -/
theorem join_octal (q : Byte) : BitVec.ofNat 8 (q.toNat / 64 * 64 + q.toNat / 8 % 8 * 8 + q.toNat % 8) = q := by
  have hsum : q.toNat / 64 * 64 + q.toNat / 8 % 8 * 8 + q.toNat % 8 = q.toNat := by omega
  rw [hsum, ofNat_toNat_self]

/-! ### Bits, branches and shifts -/

section
variable {ea : Ea} {ws : List Word}

/-- A bit number in an extension word, whose high byte is zero (R280). -/
theorem bitNumberEa_ext {mk : Byte → Ea → Instr} {n : Byte} (h : ea.isDataAlterable = true) :
    wordThenEa dataAlterableMode .b ea.mode ea.reg (fun w => mk (w.setWidth 8)) (n.setWidth 16 :: (ea.ext .b ++ ws)) =
      .ok (mk n ea, ws) := by
  rw [wordThenEa_ext (admits_dataAlterable.2 h), setWidth_byte_word]

/-- `ADDQ` and `SUBQ` (R122). -/
theorem quickEa_ext {sz : Size} {mk : BitVec 3 → Size → Ea → Instr} {q : BitVec 3}
    (h : (ea.isAlterable && ea.fits sz) = true) :
    oneEa (sizedAlterableMode sz) sz ea.mode ea.reg (mk (BitVec.ofNat 3 q.toNat) sz) (ea.ext sz ++ ws) = .ok (mk q sz ea, ws) := by
  rw [ofNat_toNat_self, oneEa_ext (admits_sizedAlterable.2 h)]

theorem group5_scc {cond : Cond} (h : ea.isDataAlterable = true) :
    group5 (cond.code / 2) (cond.code % 2 * 4 + 3) ea.mode ea.reg (ea.ext .b ++ ws) = .ok (.scc cond ea, ws) := by
  have hrow : (cond.code % 2 * 4 + 3) % 4 = 3 := by omega
  rw [group5, if_pos hrow, if_neg (mode_ne_one (Bool.and_eq_true_iff.1 h).1), condField_split _ _ (by decide),
    oneEa_ext (admits_dataAlterable.2 h)]

theorem group5_dbcc (cond : Cond) (r : RegNum) (d : Word) :
    group5 (cond.code / 2) (cond.code % 2 * 4 + 3) 1 r.val (d :: ws) = .ok (.dbcc cond r d, ws) := by
  have hrow : (cond.code % 2 * 4 + 3) % 4 = 3 := by omega
  rw [group5, if_pos hrow, if_pos rfl, condField_split _ _ (by decide), regField_val]
  rfl

theorem group7_moveq (r : RegNum) (q : Byte) :
    group7 r.val (q.toNat / 64) (q.toNat / 8 % 8) (q.toNat % 8) ws = .ok (.moveq r q, ws) := by
  have hq := q.isLt
  rw [group7, if_pos (by omega), join_octal, regField_val]

end

theorem two_le_code_of_branches {cond : Cond} (h : cond.branches = true) : 2 ≤ cond.code := by
  cases cond
  case t | f => exact absurd h (by decide)
  all_goals decide

/-- The condition that the two fields of a branch hold selects its row (R290). -/
theorem group6_eq {cc a b : Nat} (h : a * 2 + b / 4 = cc) (c d : Nat) (ws : List Word) :
    group6 a b c d ws =
      if cc = 0 then readDisp b c d .bra ws else if cc = 1 then readDisp b c d .bsr ws
      else readDisp b c d (.bcc (condField cc)) ws := by
  rw [group6.eq_def, h]
  split
  · rfl
  · rfl
  · rename_i h0 h1
    rw [if_neg h0, if_neg h1]

/-- A branch is read back where its row reads the displacement for the same instruction. -/
theorem decode_encBranch {cc : Nat} {disp : BranchDisp} {mk : BranchDisp → Instr} {ws : List Word} (hcc : cc < 16)
    (hd : disp.wf = true) (hrow : ∀ a b c d ws, a * 2 + b / 4 = cc → group6 a b c d ws = readDisp b c d mk ws) :
    decode (encBranch cc disp ++ ws) = .ok (mk disp, ws) := by
  cases disp with
  | short q =>
    have hq := q.isLt
    have hlow : (cc % 2 * 4 + q.toNat / 64) % 4 * 64 + q.toNat / 8 % 8 * 8 + q.toNat % 8 = q.toNat := by omega
    have hne : q.toNat ≠ 0 := fun e => bne_iff_ne.1 hd (BitVec.eq_of_toNat_eq e)
    refine (decode_opWord (by decide) (by omega) (by omega) (by omega) (by omega) ws).trans ?_
    refine (hrow _ _ _ _ _ (by omega)).trans ?_
    rw [readDisp, hlow, if_neg hne, ofNat_toNat_self]
  | word w =>
    have hlow : cc % 2 * 4 % 4 * 64 + 0 * 8 + 0 = 0 := by omega
    refine (decode_opWord (by decide) (by omega) (by omega) (by omega) (by omega) (w :: ws)).trans ?_
    refine (hrow _ _ _ _ _ (by omega)).trans ?_
    rw [readDisp, hlow, if_pos rfl]
    rfl

/-- The register shift of a direction and a type (R260). -/
def shiftInstr (dir ty : Nat) (n : ShiftCount) (sz : Size) (r : RegNum) : Instr :=
  match dir, ty with
  | 0, 0 => .asrReg n sz r
  | 0, 1 => .lsrReg n sz r
  | 0, 2 => .roxrReg n sz r
  | 0, _ => .rorReg n sz r
  | _, 0 => .aslReg n sz r
  | _, 1 => .lslReg n sz r
  | _, 2 => .roxlReg n sz r
  | _, _ => .rolReg n sz r

theorem groupE_register {a b c d : Nat} {sz : Size} (h : sizeField (b % 4) = some sz) (ws : List Word) :
    groupE a b c d ws = .ok (shiftInstr (b / 4) (c % 4) (countField c a) sz (regField d), ws) := by
  rw [groupE.eq_def, h]
  rfl

theorem countField_code {ty : Nat} (hty : ty < 4) (c : ShiftCount) : countField (c.kind + ty) c.code = c := by
  cases c with
  | quick q => exact (if_pos (by simpa [ShiftCount.kind] using hty)).trans (congrArg _ (ofNat_toNat_self q))
  | reg m => exact (if_neg (by simp [ShiftCount.kind])).trans (congrArg _ (regField_val m))

theorem decode_encShift {dir ty : Nat} (hdir : dir < 2) (hty : ty < 4) (c : ShiftCount) (sz : Size) (r : RegNum)
    (ws : List Word) : decode (encShift dir ty c sz r ++ ws) = .ok (shiftInstr dir ty c sz r, ws) := by
  have hcode := code_lt_four sz
  have hcount : c.code < 8 := by
    cases c with
    | quick q => exact q.isLt
    | reg m => exact m.isLt
  have hkind : c.kind = 0 ∨ c.kind = 4 := by cases c <;> simp [ShiftCount.kind]
  have hsize : sizeField ((dir * 4 + sz.code) % 4) = some sz := by
    rw [Nat.mul_add_mod', Nat.mod_eq_of_lt hcode, sizeField_code]
  refine (decode_opWord (by decide) hcount (by omega) (by omega) r.isLt ws).trans ?_
  refine (groupE_register hsize ws).trans ?_
  have hd : (dir * 4 + sz.code) / 4 = dir := by omega
  have ht : (c.kind + ty) % 4 = ty := by omega
  rw [hd, ht, countField_code hty, regField_val]

/-! ### Every constructor's row -/

section
variable {g b : Nat} {ws rest : List Word}

/-- A word that names one register in its low field. -/
theorem decode_register {a c : Nat} {mk : RegNum → Instr} {r : RegNum} (hg : g < 16) (ha : a < 8) (hb : b < 8) (hc : c < 8)
    (h : decodeFields g a b c r.val ws = .ok (mk (regField r.val), rest)) :
    decode (opWord g a b c r.val :: ws) = .ok (mk r, rest) := by
  rw [decode_opWord hg ha hb hc r.isLt, h, regField_val]

/-- A word that names two registers, in its high and its low field. -/
theorem decode_registers {c : Nat} {mk : RegNum → RegNum → Instr} {rx ry : RegNum} (hg : g < 16) (hb : b < 8) (hc : c < 8)
    (h : decodeFields g rx.val b c ry.val ws = .ok (mk (regField rx.val) (regField ry.val), rest)) :
    decode (opWord g rx.val b c ry.val :: ws) = .ok (mk rx ry, rest) := by
  rw [decode_opWord hg rx.isLt hb hc ry.isLt, h, regField_val, regField_val]

end

theorem decode_trap_encoding (v : BitVec 4) (ws : List Word) :
    decode (opWord 4 7 1 (v.toNat / 8) (v.toNat % 8) :: ws) = .ok (.trap v, ws) := by
  have hv := v.isLt
  rw [decode_group4E4 (by omega) (by omega), group4E4_trap (by omega), Nat.div_add_mod, ofNat_toNat_self]

/-- Settles O10: each constructor's encoding has the shape of its format, and its row reads that shape back. -/
theorem decodeEncodeRoundTrip : Obligations.DecodeEncodeRoundTrip := by
  intro i ws h
  cases i with
  | ori sz v ea | andi sz v ea | eori sz v ea =>
    exact decode_encImmEa (by decide) ((if_pos (code_lt_four sz)).trans (immOrStatus_ext h))
  | subi sz v ea | addi sz v ea | cmpi sz v ea =>
    obtain ⟨hv, hea⟩ := Bool.and_eq_true_iff.1 h
    exact decode_encImmEa (by decide) ((if_pos (code_lt_four sz)).trans (immThenEa_ext hv hea))
  | oriToCcr v | andiToCcr v | eoriToCcr v =>
    refine (decode_opWord (by decide) (by decide) (by decide) (by decide) (by decide) _).trans ?_
    exact congrArg (fun b => Except.ok (_, ws)) (setWidth_byte_word v)
  | oriToSr v | andiToSr v | eoriToSr v =>
    exact decode_opWord (by decide) (by decide) (by decide) (by decide) (by decide) _
  | btstImm n ea | bchgImm n ea | bclrImm n ea | bsetImm n ea =>
    exact decode_wordEa (by decide) (by decide) (by decide) (bitNumberEa_ext h)
  | btstDn r ea | bchgDn r ea | bclrDn r ea | bsetDn r ea =>
    exact decode_encEa (by decide) r.isLt (by decide) (dataAlterableEa_reg r h)
  | movep r form an d =>
    cases form <;> exact decode_registers (mk := fun x y => .movep x _ y d) (by decide) (by decide) (by decide) rfl
  | moveB src dst => exact decode_encMove (by decide) (moveRow_ext (mk := .moveB) (mkA := none) rfl rfl h)
  | moveL src dst => exact decode_encMove (by decide) (moveRow_ext (mk := .moveL) (mkA := some .moveaL) rfl rfl h)
  | moveW src dst => exact decode_encMove (by decide) (moveRow_ext (mk := .moveW) (mkA := some .moveaW) rfl rfl h)
  | moveaL an src | moveaW an src =>
    exact decode_encEa (by decide) an.isLt (by decide) (oneEa_reg an (admits_sized.2 h))
  | negx sz ea | clr sz ea | neg sz ea | notEa sz ea | tst sz ea =>
    cases sz <;> exact decode_encEa (by decide) (by decide) (by decide) (oneEa_ext (admits_dataAlterable.2 h))
  | moveFromSr ea | nbcd ea =>
    exact decode_encEa (by decide) (by decide) (by decide) (oneEa_ext (admits_dataAlterable.2 h))
  | tas ea =>
    exact decode_encEa (by decide) (by decide) (by decide)
      ((if_neg (not_status_fields h)).trans (oneEa_ext (admits_dataAlterable.2 h)))
  | scc cond ea =>
    have hcond := condCode_lt cond
    exact decode_encEa (by decide) (by omega) (by omega) (group5_scc h)
  | dbcc cond r d =>
    have hcond := condCode_lt cond
    exact (decode_opWord (by decide) (by omega) (by omega) (by decide) r.isLt _).trans (group5_dbcc cond r d)
  | chk r ea | divu r ea | divs r ea | mulu r ea | muls r ea | orBEaDn r ea | orWEaDn r ea | orLEaDn r ea
  | andBEaDn r ea | andWEaDn r ea | andLEaDn r ea =>
    exact decode_encEa (by decide) r.isLt (by decide) (oneEa_reg r (admits_dataSrc.2 h))
  | moveToCcr ea | moveToSr ea =>
    exact decode_encEa (by decide) (by decide) (by decide) (oneEa_ext (admits_dataSrc.2 h))
  | lea an ea => exact decode_encEa (by decide) an.isLt (by decide) (oneEa_reg an (admits_control.2 h))
  | pea ea =>
    exact decode_encEa (by decide) (by decide) (by decide)
      ((if_neg (mode_ne_zero_of_control h)).trans (oneEa_ext (admits_control.2 h)))
  | jsr ea | jmp ea => exact decode_encEa (by decide) (by decide) (by decide) (oneEa_ext (admits_control.2 h))
  | swap r | extW r | extL r | unlk r | moveAnUsp r | moveUspAn r =>
    exact decode_register (by decide) (by decide) (by decide) (by decide) rfl
  | link an d => exact decode_register (mk := fun r => .link r d) (by decide) (by decide) (by decide) (by decide) rfl
  | illegal | reset | nop | stop | rte | rts | trapv | rtr =>
    exact decode_opWord (by decide) (by decide) (by decide) (by decide) (by decide) _
  | trap v => exact decode_trap_encoding v ws
  | movemStore sz m ea =>
    obtain ⟨hsz, hea⟩ := Bool.and_eq_true_iff.1 h
    have hm := admits_movemStore (sz := sz).2 hea
    cases sz with
    | b => exact absurd hsz (by decide)
    | w | l =>
      exact decode_wordEa (by decide) (by decide) (by decide)
        ((if_neg (mode_ne_zero_of_movemStore hm)).trans (wordThenEa_ext hm))
  | movemLoad sz m ea =>
    obtain ⟨hsz, hea⟩ := Bool.and_eq_true_iff.1 h
    have hm := admits_movemLoad (sz := sz).2 hea
    cases sz with
    | b => exact absurd hsz (by decide)
    | w => exact decode_wordEa (by decide) (by decide) (by decide) (wordThenEa_ext (mk := .movemLoad .w) hm)
    | l => exact decode_wordEa (by decide) (by decide) (by decide) (wordThenEa_ext (mk := .movemLoad .l) hm)
  | addq q sz ea | subq q sz ea =>
    cases sz <;> exact decode_encEa (by decide) q.isLt (by decide) (quickEa_ext h)
  | bra d =>
    exact decode_encBranch (mk := .bra) (by decide) h fun a b c d ws hab => (group6_eq hab c d ws).trans (if_pos rfl)
  | bsr d =>
    exact decode_encBranch (mk := .bsr) (by decide) h fun a b c d ws hab =>
      (group6_eq hab c d ws).trans ((if_neg (by decide)).trans (if_pos rfl))
  | bcc cond d =>
    obtain ⟨hcond, hd⟩ := Bool.and_eq_true_iff.1 h
    have hcode := two_le_code_of_branches hcond
    refine decode_encBranch (mk := .bcc cond) (condCode_lt cond) hd fun a b c d ws hab => ?_
    rw [group6_eq hab, if_neg (by omega), if_neg (by omega), condField_code]
  | moveq r q =>
    have hq := q.isLt
    exact (decode_opWord (by decide) r.isLt (by omega) (by omega) (by omega) _).trans (group7_moveq r q)
  | orBDnEa r ea | andBDnEa r ea | subBDnEa r ea | subWDnEa r ea | subLDnEa r ea | addBDnEa r ea | addWDnEa r ea
  | addLDnEa r ea =>
    exact decode_encEa (by decide) r.isLt (by decide) (memoryEa_reg r h)
  | orWDnEa r ea | orLDnEa r ea =>
    exact decode_encEa (by decide) r.isLt (by decide) (oneEa_reg r (admits_memoryAlterable.2 h))
  | andWDnEa r ea =>
    have hmode := two_le_mode h
    exact decode_encEa (by decide) r.isLt (by decide) ((if_neg (by omega)).trans (memoryEa_reg_of_ne r h))
  | andLDnEa r ea => exact decode_encEa (by decide) r.isLt (by decide) (memoryEa_reg_of_ne r h)
  | eorBDnEa r ea | eorWDnEa r ea | eorLDnEa r ea =>
    exact decode_encEa (by decide) r.isLt (by decide) (dataAlterableEa_reg r h)
  | subBEaDn r ea | addBEaDn r ea | cmpBEaDn r ea =>
    exact decode_encEa (by decide) r.isLt (by decide) (oneEa_reg (ok := sizedMode .b) r (admits_sized.2 h))
  | subWEaDn r ea | subLEaDn r ea | addWEaDn r ea | addLEaDn r ea | cmpWEaDn r ea | cmpLEaDn r ea
  | subaW r ea | subaL r ea | addaW r ea | addaL r ea | cmpaW r ea | cmpaL r ea =>
    exact decode_encEa (by decide) r.isLt (by decide) (oneEa_reg r ((admits_any (by decide)).2 h))
  | sbcd rx form ry =>
    cases form <;> exact decode_registers (mk := fun x y => .sbcd x _ y) (by decide) (by decide) (by decide) rfl
  | abcd rx form ry =>
    cases form <;> exact decode_registers (mk := fun x y => .abcd x _ y) (by decide) (by decide) (by decide) rfl
  | subx rx sz form ry =>
    cases sz <;> cases form <;> exact decode_registers (mk := fun x y => .subx x _ _ y) (by decide) (by decide) (by decide) rfl
  | addx rx sz form ry =>
    cases sz <;> cases form <;> exact decode_registers (mk := fun x y => .addx x _ _ y) (by decide) (by decide) (by decide) rfl
  | cmpm rx sz ry =>
    cases sz <;> exact decode_registers (mk := fun x y => .cmpm x _ y) (by decide) (by decide) (by decide) rfl
  | exgDxDy rx ry | exgAxAy rx ry | exgDxAy rx ry =>
    exact decode_registers (by decide) (by decide) (by decide) rfl
  | lineA z =>
    have hz := z.isLt
    exact (decode_opWord (by decide) (by omega) (by omega) (by omega) (by omega) _).trans
      (congrArg (fun y => Except.ok (Instr.lineA y, ws)) (join_fields z))
  | lineF z =>
    have hz := z.isLt
    exact (decode_opWord (by decide) (by omega) (by omega) (by omega) (by omega) _).trans
      (congrArg (fun y => Except.ok (Instr.lineF y, ws)) (join_fields z))
  | aslReg c sz r | asrReg c sz r | lslReg c sz r | lsrReg c sz r | rolReg c sz r | rorReg c sz r | roxlReg c sz r
  | roxrReg c sz r =>
    exact decode_encShift (by decide) (by decide) c sz r ws
  | aslEa ea | asrEa ea | lslEa ea | lsrEa ea | rolEa ea | rorEa ea | roxlEa ea | roxrEa ea =>
    exact decode_encEa (by decide) (by decide) (by decide) (oneEa_ext (admits_memoryAlterable.2 h))

end Sys2Proof
end

section
/-! What the decoder answers (O11). `Answers n good ws r` says of the answer `r` to the words `ws` that what was read is `good`
and took at most `n` words, and that `n` words suffice for an answer. It passes through the parsers' sequences, so that each format
is shown once and each row of R126 is a case of its format. -/

namespace Sys2Proof

/-- An answer that reads something good from at most `n` words, and is never short of words where `n` are there. -/
structure Answers {α : Type} (n : Nat) (good : α → Prop) (ws : List Word) (r : Parsed α) : Prop where
  good : ∀ {a rest}, r = .ok (a, rest) → good a ∧ ws.length ≤ rest.length + n
  complete : n ≤ ws.length → r ≠ .error .truncated

section
variable {α β : Type} {n m : Nat} {good : α → Prop} {good' : β → Prop} {ws : List Word}

theorem Answers.ok {a : α} (h : good a) : Answers n good ws (.ok (a, ws)) where
  good e := by
    cases e
    exact ⟨h, Nat.le_add_right _ _⟩
  complete _ e := nomatch e

theorem Answers.illegal : Answers n good ws (.error .illegal) where
  good e := nomatch e
  complete _ e := nomatch e

theorem Answers.mono {r : Parsed α} (h : Answers n good ws r) (hn : n ≤ m) : Answers m good ws r where
  good e := ⟨(h.good e).1, by have := (h.good e).2; omega⟩
  complete hm := h.complete (Nat.le_trans hn hm)

theorem Answers.bind {r : Parsed α} {f : α × List Word → Parsed β} (hr : Answers n good ws r)
    (hf : ∀ a rest, good a → Answers m good' rest (f (a, rest))) : Answers (n + m) good' ws (r.bind f) := by
  match r with
  | .ok (a, rest) =>
    obtain ⟨ha, hlen⟩ := hr.good rfl
    have hfa := hf a rest ha
    refine ⟨fun e => ?_, fun hm => hfa.complete (by omega)⟩
    obtain ⟨hb, hlen'⟩ := hfa.good e
    exact ⟨hb, by omega⟩
  | .error .illegal => exact .illegal
  | .error .truncated => exact ⟨fun e => (nomatch e), fun hm => absurd rfl (hr.complete (by omega))⟩

theorem Answers.map {r : Parsed α} {f : α × List Word → β × List Word} (hr : Answers n good ws r)
    (hrest : ∀ p, (f p).2 = p.2) (hf : ∀ p, good p.1 → good' (f p).1) : Answers n good' ws (r.map f) := by
  match r with
  | .ok (a, rest) =>
    obtain ⟨ha, hlen⟩ := hr.good rfl
    refine ⟨fun e => ?_, fun _ e => nomatch e⟩
    have hp := Except.ok.inj e
    have hgood := hf (a, rest) ha
    have hwords := hrest (a, rest)
    rw [hp] at hgood hwords
    exact ⟨hgood, hlen.trans_eq (congrArg (fun l => List.length l + n) hwords.symm)⟩
  | .error .illegal => exact .illegal
  | .error .truncated => exact ⟨fun e => (nomatch e), fun hm => absurd rfl (hr.complete hm)⟩

theorem Answers.ite {c : Prop} [Decidable c] {p q : Parsed α} (hp : c → Answers n good ws p) (hq : ¬ c → Answers n good ws q) :
    Answers n good ws (if c then p else q) := by
  split
  · exact hp ‹_›
  · exact hq ‹_›

end

/-! ### Words, immediates, addresses -/

section
variable (sz : Size) (ws : List Word)

theorem readWord_answers : Answers 1 (fun _ => True) ws (readWord ws) := by
  match ws with
  | [] => exact ⟨fun e => (nomatch e), fun h => absurd h (by decide)⟩
  | w :: ws =>
    refine ⟨fun e => ?_, fun _ e => nomatch e⟩
    cases e
    exact ⟨trivial, Nat.le_refl _⟩

theorem readLong_answers : Answers 2 (fun _ => True) ws (readLong ws) := by
  match ws with
  | [] | [_] => exact ⟨fun e => (nomatch e), fun h => absurd h (by simp)⟩
  | hi :: lo :: ws =>
    refine ⟨fun e => ?_, fun _ e => nomatch e⟩
    cases e
    exact ⟨trivial, Nat.le_refl _⟩

theorem holds_setWidth {m : Nat} (v : BitVec m) (h : m ≤ sz.bits) : sz.holds (v.setWidth 32) = true := by
  refine decide_eq_true ?_
  rw [BitVec.toNat_setWidth]
  exact Nat.lt_of_le_of_lt (Nat.mod_le _ _) (Nat.lt_of_lt_of_le v.isLt (Nat.pow_le_pow_right (by decide) h))

theorem readImm_answers : Answers 2 (fun v => sz.holds v = true) ws (readImm sz ws) := by
  cases sz with
  | b =>
    exact .mono (.map (readWord_answers ws) (fun _ => rfl) fun w _ => holds_setWidth .b (w.1.setWidth 8) (by decide)) (by decide : 1 ≤ 2)
  | w => exact .mono (.map (readWord_answers ws) (fun _ => rfl) fun w _ => holds_setWidth .w w.1 (by decide)) (by decide : 1 ≤ 2)
  | l => exact ⟨fun e => ⟨decide_eq_true (BitVec.isLt _), ((readLong_answers ws).good e).2⟩, (readLong_answers ws).complete⟩

/-- What `readEa` gives lies in the mode of the fields and holds its immediate. -/
theorem readEa_answers (c d : Nat) :
    Answers 2 (fun ea => modeIndex ea.mode ea.reg = modeIndex c d ∧ HoldsImm sz ea) ws (readEa sz c d ws) := by
  have himm : ∀ ea : Ea, (∀ v, ea ≠ .imm v) → HoldsImm sz ea := fun _ => holdsImm_of_ne
  have one := readWord_answers ws
  unfold readEa
  split
  · exact .ok ⟨rfl, himm _ fun _ => Ea.noConfusion⟩
  · exact .ok ⟨rfl, himm _ fun _ => Ea.noConfusion⟩
  · exact .ok ⟨rfl, himm _ fun _ => Ea.noConfusion⟩
  · exact .ok ⟨rfl, himm _ fun _ => Ea.noConfusion⟩
  · exact .ok ⟨rfl, himm _ fun _ => Ea.noConfusion⟩
  · exact .mono (.map one (fun _ => rfl) fun _ _ => ⟨rfl, himm _ fun _ => Ea.noConfusion⟩) (by decide : 1 ≤ 2)
  · exact .mono (.map one (fun _ => rfl) fun _ _ => ⟨rfl, himm _ fun _ => Ea.noConfusion⟩) (by decide : 1 ≤ 2)
  · rename_i h0 h1 h2 h3 h4 h5 h6
    simp only [imp_false] at h0 h1 h2 h3 h4 h5 h6
    have hc : ¬ c < 7 := by omega
    have hmode : ∀ k, modeIndex 7 k = modeIndex c k := fun k => by rw [modeIndex, modeIndex, if_neg hc, if_neg (by decide)]
    split
    · exact .mono (.map one (fun _ => rfl) fun _ _ => ⟨hmode 0, himm _ fun _ => Ea.noConfusion⟩) (by decide : 1 ≤ 2)
    · exact (readLong_answers ws).map (fun _ => rfl) fun _ _ => ⟨hmode 1, himm _ fun _ => Ea.noConfusion⟩
    · exact .mono (.map one (fun _ => rfl) fun _ _ => ⟨hmode 2, himm _ fun _ => Ea.noConfusion⟩) (by decide : 1 ≤ 2)
    · exact .mono (.map one (fun _ => rfl) fun _ _ => ⟨hmode 3, himm _ fun _ => Ea.noConfusion⟩) (by decide : 1 ≤ 2)
    · refine (readImm_answers sz ws).map (fun _ => rfl) fun v hv => ⟨hmode 4, fun w hw => ?_⟩
      cases hw
      exact hv
    · exact .illegal

end

/-! ### Formats -/

/-- A row of the map: what it gives is well formed, and the four words after the operation word suffice. -/
abbrev RowSound (ws : List Word) (r : Parsed Instr) : Prop := Answers 4 (fun i => i.wf = true) ws r

section
variable {ok : Nat → Bool} {sz : Size} {c d : Nat} {ws : List Word}

theorem readEa_admits (h : ok (modeIndex c d) = true) : Answers 2 (Admits ok sz) ws (readEa sz c d ws) where
  good e := by
    obtain ⟨⟨hmode, himm⟩, hlen⟩ := (readEa_answers sz ws c d).good e
    exact ⟨⟨by rw [hmode, h], himm⟩, hlen⟩
  complete := (readEa_answers sz ws c d).complete

theorem oneEa_sound {mk : Ea → Instr} (hmk : ∀ ea, Admits ok sz ea → (mk ea).wf = true) :
    RowSound ws (oneEa ok sz c d mk ws) :=
  .ite (fun h => .mono (.map (readEa_admits h) (fun _ => rfl) fun p => hmk p.1) (by decide : 2 ≤ 4)) fun _ => .illegal

theorem sizedEa_sound {ss : Nat} {mk : Size → Ea → Instr} (hmk : ∀ sz ea, Admits ok sz ea → (mk sz ea).wf = true) :
    RowSound ws (sizedEa ok ss c d mk ws) := by
  unfold sizedEa
  split
  · exact oneEa_sound (hmk _)
  · exact .illegal

theorem wordThenEa_sound {mk : Word → Ea → Instr} (hmk : ∀ w ea, Admits ok sz ea → (mk w ea).wf = true) :
    RowSound ws (wordThenEa ok sz c d mk ws) :=
  .ite (fun h => .mono (.bind (readWord_answers ws) fun w _ _ =>
    .map (readEa_admits h) (fun _ => rfl) fun p => hmk w p.1) (by decide : 1 + 2 ≤ 4)) fun _ => .illegal

theorem immThenEa_sound {ss : Nat} {mk : Size → Long → Ea → Instr}
    (hmk : ∀ sz v ea, (sz.holds v && ea.isDataAlterable) = true → (mk sz v ea).wf = true) :
    RowSound ws (immThenEa ss c d mk ws) := by
  unfold immThenEa
  split
  · refine .ite (fun h => .bind (n := 2) (m := 2) (readImm_answers _ ws) fun v _ hv =>
      .map (readEa_admits h) (fun _ => rfl) fun ea hea => ?_) fun _ => .illegal
    exact hmk _ _ _ (Bool.and_eq_true_iff.2 ⟨hv, admits_dataAlterable.1 hea⟩)
  · exact .illegal

theorem oneWord_sound {mk : Word → Instr} (hmk : ∀ w, (mk w).wf = true) : RowSound ws (oneWord mk ws) :=
  .mono (.map (readWord_answers ws) (fun _ => rfl) fun w _ => hmk w.1) (by decide : 1 ≤ 4)

theorem immOrStatus_sound {b : Nat} {mk : Size → Long → Ea → Instr} {ccr : Byte → Instr} {sr : Word → Instr}
    (hmk : ∀ sz v ea, (sz.holds v && ea.isDataAlterable) = true → (mk sz v ea).wf = true)
    (hccr : ∀ v, (ccr v).wf = true) (hsr : ∀ v, (sr v).wf = true) : RowSound ws (immOrStatus b c d mk ccr sr ws) := by
  unfold immOrStatus
  refine .ite (fun _ => ?_) fun _ => immThenEa_sound hmk
  split
  · exact oneWord_sound fun w => hccr _
  · exact oneWord_sound hsr
  · exact .illegal

theorem moveRow_sound {a b : Nat} {mk : Ea → Ea → Instr} {mkA : Option (RegNum → Ea → Instr)}
    (hmk : ∀ src dst, (src.fits sz && dst.isDataAlterable) = true → (mk src dst).wf = true)
    (hmkA : ∀ f, mkA = some f → ∀ n ea, ea.fits sz = true → (f n ea).wf = true) :
    RowSound ws (moveRow sz a b c d mk mkA ws) := by
  unfold moveRow
  refine .ite (fun _ => ?_) fun _ => .ite (fun h => ?_) fun _ => .illegal
  · split
    · exact oneEa_sound fun ea hea => hmkA _ rfl _ _ (admits_sized.1 hea)
    · exact .illegal
  · obtain ⟨hsrc, hdst⟩ := Bool.and_eq_true_iff.1 h
    exact .bind (n := 2) (m := 2) (readEa_admits hsrc) fun src _ hs => .map (readEa_admits hdst) (fun _ => rfl) fun dst hd =>
      hmk _ _ (Bool.and_eq_true_iff.2 ⟨admits_sized.1 hs, admits_dataAlterable.1 hd⟩)

/-- The displacement in the word is not zero: zero stands for the long form (R290). -/
theorem readDisp_sound {b : Nat} {mk : BranchDisp → Instr} (hc : c < 8) (hd : d < 8)
    (hmk : ∀ disp : BranchDisp, disp.wf = true → (mk disp).wf = true) : RowSound ws (readDisp b c d mk ws) := by
  refine .ite (fun _ => oneWord_sound fun w => hmk _ rfl) fun h => .ok (hmk _ (bne_iff_ne.2 fun e => h ?_))
  have hb : b % 4 < 4 := Nat.mod_lt _ (by decide)
  have := congrArg BitVec.toNat e
  rw [BitVec.toNat_ofNat, Nat.mod_eq_of_lt (by omega)] at this
  exact this

end

/-! ### The groups of R126 -/

section
variable (a b c d : Nat) (ws : List Word)

theorem group0_sound : RowSound ws (group0 a b c d ws) := by
  unfold group0
  refine .ite (fun _ => ?_) fun _ => .ite (fun _ => oneWord_sound fun _ => rfl) fun _ => ?_
  · split
    · exact immOrStatus_sound (fun _ _ _ h => h) (fun _ => rfl) fun _ => rfl
    · exact immOrStatus_sound (fun _ _ _ h => h) (fun _ => rfl) fun _ => rfl
    · exact immThenEa_sound fun _ _ _ h => h
    · exact immThenEa_sound fun _ _ _ h => h
    · split <;> exact wordThenEa_sound fun _ _ h => admits_dataAlterable.1 h
    · exact immOrStatus_sound (fun _ _ _ h => h) (fun _ => rfl) fun _ => rfl
    · exact immThenEa_sound fun _ _ _ h => h
    · exact .illegal
  · split <;> exact oneEa_sound fun _ h => admits_dataAlterable.1 h

theorem group48_sound : RowSound ws (group48 b c d ws) := by
  unfold group48
  split
  · exact oneEa_sound fun _ h => admits_dataAlterable.1 h
  · exact .ite (fun _ => .ok rfl) fun _ => oneEa_sound fun _ h => admits_control.1 h
  · exact .ite (fun _ => .ok rfl) fun _ => wordThenEa_sound fun _ _ h => admits_movemStore.1 h
  · exact .ite (fun _ => .ok rfl) fun _ => wordThenEa_sound fun _ _ h => admits_movemStore.1 h
  · exact .illegal

theorem group4E4_sound : RowSound ws (group4E4 c d ws) := by
  unfold group4E4
  split
  · exact .ok rfl
  · exact .ok rfl
  · exact oneWord_sound fun _ => rfl
  · exact .ok rfl
  · exact .ok rfl
  · exact .ok rfl
  · split
    · exact .ok rfl
    · exact .ok rfl
    · exact oneWord_sound fun _ => rfl
    · exact .ok rfl
    · exact .ok rfl
    · exact .ok rfl
    · exact .ok rfl
    · exact .illegal
  · exact .illegal

theorem group4_sound : RowSound ws (group4 a b c d ws) := by
  unfold group4
  refine .ite (fun _ => oneEa_sound fun _ h => admits_dataSrc.1 h) fun _ =>
    .ite (fun _ => oneEa_sound fun _ h => admits_control.1 h) fun _ => ?_
  split
  · exact .ite (fun _ => oneEa_sound fun _ h => admits_dataAlterable.1 h) fun _ =>
      sizedEa_sound fun _ _ h => admits_dataAlterable.1 h
  · exact sizedEa_sound fun _ _ h => admits_dataAlterable.1 h
  · exact .ite (fun _ => oneEa_sound fun _ h => admits_dataSrc.1 h) fun _ =>
      sizedEa_sound fun _ _ h => admits_dataAlterable.1 h
  · exact .ite (fun _ => oneEa_sound fun _ h => admits_dataSrc.1 h) fun _ =>
      sizedEa_sound fun _ _ h => admits_dataAlterable.1 h
  · exact group48_sound b c d ws
  · exact .ite (fun _ => .ite (fun _ => .ok rfl) fun _ => oneEa_sound fun _ h => admits_dataAlterable.1 h) fun _ =>
      sizedEa_sound fun _ _ h => admits_dataAlterable.1 h
  · split
    · exact wordThenEa_sound fun _ _ h => admits_movemLoad.1 h
    · exact wordThenEa_sound fun _ _ h => admits_movemLoad.1 h
    · exact .illegal
  · split
    · exact group4E4_sound c d ws
    · exact oneEa_sound fun _ h => admits_control.1 h
    · exact oneEa_sound fun _ h => admits_control.1 h
    · exact .illegal

theorem group5_sound : RowSound ws (group5 a b c d ws) := by
  unfold group5
  refine .ite (fun _ => .ite (fun _ => oneWord_sound fun _ => rfl) fun _ =>
    oneEa_sound fun _ h => admits_dataAlterable.1 h) fun _ => ?_
  split
  · exact .ite (fun _ => oneEa_sound fun _ h => admits_sizedAlterable.1 h) fun _ =>
      oneEa_sound fun _ h => admits_sizedAlterable.1 h
  · exact .illegal

/-- The conditions `T` and `F` are the fields of `BRA` and `BSR`. -/
theorem condField_branches {n : Nat} (h0 : n ≠ 0) (h1 : n ≠ 1) : (condField n).branches = true := by
  unfold condField
  split <;> first | rfl | contradiction

theorem group6_sound (hc : c < 8) (hd : d < 8) : RowSound ws (group6 a b c d ws) := by
  rw [group6_eq rfl]
  refine .ite (fun _ => readDisp_sound hc hd fun _ h => h) fun h0 =>
    .ite (fun _ => readDisp_sound hc hd fun _ h => h) fun h1 => readDisp_sound hc hd fun _ h => ?_
  exact Bool.and_eq_true_iff.2 ⟨condField_branches h0 h1, h⟩

theorem group7_sound : RowSound ws (group7 a b c d ws) := .ite (fun _ => .ok rfl) fun _ => .illegal

theorem group8_sound : RowSound ws (group8 a b c d ws) := by
  unfold group8
  split
  · exact oneEa_sound fun _ h => admits_dataSrc.1 h
  · exact oneEa_sound fun _ h => admits_dataSrc.1 h
  · exact oneEa_sound fun _ h => admits_dataSrc.1 h
  · exact oneEa_sound fun _ h => admits_dataSrc.1 h
  · exact .ite (fun _ => .ok rfl) fun _ => oneEa_sound fun _ h => admits_memoryAlterable.1 h
  · exact oneEa_sound fun _ h => admits_memoryAlterable.1 h
  · exact oneEa_sound fun _ h => admits_memoryAlterable.1 h
  · exact oneEa_sound fun _ h => admits_dataSrc.1 h

theorem admits_dataMode_byte {ea : Ea} (h : Admits dataMode .b ea) : ea.fits .b = true :=
  (Bool.and_eq_true_iff.1 (admits_dataSrc.1 h)).2

theorem group9_sound : RowSound ws (group9 a b c d ws) := by
  have pair : ∀ {p : Instr} {q : Parsed Instr}, p.wf = true → RowSound ws q →
      RowSound ws (if c < 2 then .ok (p, ws) else q) := fun hp hq => .ite (fun _ => .ok hp) fun _ => hq
  unfold group9
  split
  · exact oneEa_sound fun _ h => admits_dataMode_byte h
  · exact oneEa_sound fun _ h => (admits_any (by decide)).1 h
  · exact oneEa_sound fun _ h => (admits_any (by decide)).1 h
  · exact oneEa_sound fun _ h => (admits_any (by decide)).1 h
  · exact pair rfl (oneEa_sound fun _ h => admits_memoryAlterable.1 h)
  · exact pair rfl (oneEa_sound fun _ h => admits_memoryAlterable.1 h)
  · exact pair rfl (oneEa_sound fun _ h => admits_memoryAlterable.1 h)
  · exact oneEa_sound fun _ h => (admits_any (by decide)).1 h

theorem groupB_sound : RowSound ws (groupB a b c d ws) := by
  have pair : ∀ {p : Instr} {q : Parsed Instr}, p.wf = true → RowSound ws q →
      RowSound ws (if c = 1 then .ok (p, ws) else q) := fun hp hq => .ite (fun _ => .ok hp) fun _ => hq
  unfold groupB
  split
  · exact oneEa_sound fun _ h => admits_dataMode_byte h
  · exact oneEa_sound fun _ h => (admits_any (by decide)).1 h
  · exact oneEa_sound fun _ h => (admits_any (by decide)).1 h
  · exact oneEa_sound fun _ h => (admits_any (by decide)).1 h
  · exact pair rfl (oneEa_sound fun _ h => admits_dataAlterable.1 h)
  · exact pair rfl (oneEa_sound fun _ h => admits_dataAlterable.1 h)
  · exact pair rfl (oneEa_sound fun _ h => admits_dataAlterable.1 h)
  · exact oneEa_sound fun _ h => (admits_any (by decide)).1 h

theorem groupC_sound : RowSound ws (groupC a b c d ws) := by
  unfold groupC
  split
  · exact oneEa_sound fun _ h => admits_dataSrc.1 h
  · exact oneEa_sound fun _ h => admits_dataSrc.1 h
  · exact oneEa_sound fun _ h => admits_dataSrc.1 h
  · exact oneEa_sound fun _ h => admits_dataSrc.1 h
  · exact .ite (fun _ => .ok rfl) fun _ => oneEa_sound fun _ h => admits_memoryAlterable.1 h
  · exact .ite (fun _ => .ok rfl) fun _ => .ite (fun _ => .ok rfl) fun _ =>
      oneEa_sound fun _ h => admits_memoryAlterable.1 h
  · exact .ite (fun _ => .ok rfl) fun _ => oneEa_sound fun _ h => admits_memoryAlterable.1 h
  · exact oneEa_sound fun _ h => admits_dataSrc.1 h

theorem groupD_sound : RowSound ws (groupD a b c d ws) := by
  have pair : ∀ {p : Instr} {q : Parsed Instr}, p.wf = true → RowSound ws q →
      RowSound ws (if c < 2 then .ok (p, ws) else q) := fun hp hq => .ite (fun _ => .ok hp) fun _ => hq
  unfold groupD
  split
  · exact oneEa_sound fun _ h => admits_dataMode_byte h
  · exact oneEa_sound fun _ h => (admits_any (by decide)).1 h
  · exact oneEa_sound fun _ h => (admits_any (by decide)).1 h
  · exact oneEa_sound fun _ h => (admits_any (by decide)).1 h
  · exact pair rfl (oneEa_sound fun _ h => admits_memoryAlterable.1 h)
  · exact pair rfl (oneEa_sound fun _ h => admits_memoryAlterable.1 h)
  · exact pair rfl (oneEa_sound fun _ h => admits_memoryAlterable.1 h)
  · exact oneEa_sound fun _ h => (admits_any (by decide)).1 h

theorem shiftInstr_wf (dir ty : Nat) (n : ShiftCount) (sz : Size) (r : RegNum) : (shiftInstr dir ty n sz r).wf = true := by
  unfold shiftInstr
  split <;> rfl

theorem groupE_sound : RowSound ws (groupE a b c d ws) := by
  cases hsz : sizeField (b % 4) with
  | some sz =>
    rw [groupE_register hsz]
    exact .ok (shiftInstr_wf _ _ _ _ _)
  | none =>
    rw [groupE.eq_def, hsz]
    dsimp only
    split <;> first | exact oneEa_sound fun _ h => admits_memoryAlterable.1 h | exact .illegal

theorem decodeFields_sound (g : Nat) (hc : c < 8) (hd : d < 8) : RowSound ws (decodeFields g a b c d ws) := by
  unfold decodeFields
  split
  · exact group0_sound a b c d ws
  · exact moveRow_sound (fun _ _ h => h) fun _ e => nomatch e
  · exact moveRow_sound (fun _ _ h => h) fun f e => Option.some.inj e ▸ fun _ _ h => h
  · exact moveRow_sound (fun _ _ h => h) fun f e => Option.some.inj e ▸ fun _ _ h => h
  · exact group4_sound a b c d ws
  · exact group5_sound a b c d ws
  · exact group6_sound a b c d ws hc hd
  · exact group7_sound a b c d ws
  · exact group8_sound a b c d ws
  · exact group9_sound a b c d ws
  · exact .ok rfl
  · exact groupB_sound a b c d ws
  · exact groupC_sound a b c d ws
  · exact groupD_sound a b c d ws
  · exact groupE_sound a b c d ws
  · exact .ok rfl

end

theorem decode_cons_sound (w : Word) (ws : List Word) : RowSound ws (decode (w :: ws)) :=
  decodeFields_sound _ _ _ _ _ _ (Nat.mod_lt _ (by decide)) (Nat.mod_lt _ (by decide))

/-- Whatever the decoder accepts is well formed. -/
theorem wf_of_decode {ws rest : List Word} {i : Instr} (h : decode ws = .ok (i, rest)) : i.wf = true := by
  cases ws with
  | nil => exact nomatch h
  | cons w ws => exact ((decode_cons_sound w ws).good h).1

/-- Settles O11: every row answers well-formed instructions from at most four words after the operation word. -/
theorem decoderSoundAndTotal : Obligations.DecoderSoundAndTotal :=
  ⟨fun _ _ _ h => wf_of_decode h, fun w a b c d => (decode_cons_sound w [a, b, c, d]).complete (Nat.le_refl _)⟩

end Sys2Proof
end

section
/-! The whole machine (O57 to O60). A step is an external reset, a boundary, or a fetch, an instruction and what follows it; each
property is carried through these by the closure lemmas of Sys2Proof/Laws/Keeps.lean. What is added here is how an instruction can
end: `Meaning` says of an instruction's body that it is never stopped by an operand that is none, and that it either keeps every
property closed under unprivileged changes or asks for supervisor mode before anything else. -/

namespace Sys2Proof.Machine

/-! ### What a computation can raise -/

/-- Whatever `m` raises lies in `R`. -/
def RaisesOnly {α : Type} (R : Raise → Prop) (m : Exec α) : Prop := ∀ ⦃s r t⦄, m s = .error r t → R r

/-- `m` is never stopped by an operand that is none of the instruction's (log entry 30). -/
abbrev NotIllFormed {α : Type} (m : Exec α) : Prop := RaisesOnly (· ≠ .illFormed) m

/-- `m` raises nothing. -/
abbrev NeverRaises {α : Type} (m : Exec α) : Prop := RaisesOnly (fun _ => False) m

section
variable {α β : Type} {R : Raise → Prop}

theorem RaisesOnly.pure (a : α) : RaisesOnly R (pure a : Exec α) := fun _ _ _ h => nomatch h

theorem RaisesOnly.look (f : State → α) : RaisesOnly R (look f) := fun _ _ _ h => nomatch h

theorem RaisesOnly.update (f : State → State) : RaisesOnly R (update f) := fun _ _ _ h => nomatch h

theorem RaisesOnly.draw (f : Nat → α) : RaisesOnly R (draw f) := fun _ _ _ h => nomatch h

theorem RaisesOnly.fail {r : Raise} (h : R r) : RaisesOnly R (fail r : Exec α) := fun _ _ _ e => by
  injection e with e _
  exact e ▸ h

/-- A sequence, the second part known for the values the first can give. -/
theorem RaisesOnly.bindOk {m : Exec α} {f : α → Exec β} (hm : RaisesOnly R m)
    (hf : ∀ s a t, m s = .ok a t → RaisesOnly R (f a)) : RaisesOnly R (m >>= f) := by
  intro s r t h
  cases hr : m s with
  | ok a u =>
    rw [Exec.bind_ok hr] at h
    exact hf s a u hr h
  | error r' u =>
    rw [Exec.bind_error hr] at h
    injection h with h _
    exact h ▸ hm hr

theorem RaisesOnly.bind {m : Exec α} {f : α → Exec β} (hm : RaisesOnly R m) (hf : ∀ a, RaisesOnly R (f a)) :
    RaisesOnly R (m >>= f) := hm.bindOk fun _ a _ _ => hf a

theorem RaisesOnly.ite {c : Prop} [Decidable c] {m n : Exec α} (hm : RaisesOnly R m) (hn : RaisesOnly R n) :
    RaisesOnly R (if c then m else n) := by
  split
  · exact hm
  · exact hn

theorem RaisesOnly.thenFlags {f : Ccr} {m : Exec Unit} (hm : RaisesOnly R m) : RaisesOnly R (thenFlags f m) := by
  intro s r t h
  cases hr : m s with
  | ok a u =>
    rw [thenFlags_ok hr] at h
    exact nomatch h
  | error r' u =>
    rcases thenFlags_error (f := f) hr with h' | h' <;> rw [h'] at h <;> injection h with h _ <;> exact h ▸ hm hr

end

/-! ### The fetch of an instruction raises only where its operation word is not fetched -/

theorem busByte_neverRaises (a : Long) : NeverRaises (busByte a) := by
  intro s r t h
  unfold busByte at h
  split at h <;> exact nomatch h

theorem staleChoice_neverRaises (es : List (Nat × Word)) (p : Nat) (w : Word) : NeverRaises (staleChoice es p w) := by
  induction es with
  | nil => exact .pure _
  | cons e es ih => exact ih.bind fun _ => .ite ((RaisesOnly.draw _).bind fun _ => .ite (.pure _) (.pure _)) (.pure _)

theorem codeWord_neverRaises (a : Long) : NeverRaises (codeWord a) :=
  (busByte_neverRaises a).bind fun _ => (busByte_neverRaises _).bind fun _ => (RaisesOnly.look _).bind fun _ =>
    staleChoice_neverRaises _ _ _

theorem peekWords_neverRaises (n : Nat) (a : Long) : NeverRaises (peekWords n a) := by
  induction n generalizing a with
  | zero => exact .pure _
  | succ n ih =>
    refine (RaisesOnly.look _).bind fun _ => ?_
    split
    · exact (codeWord_neverRaises _).bind fun _ => (ih _).bind fun _ => .pure _
    · exact (ih _).bind fun _ => .pure _

/-- A fetch of an operation word that fails has changed nothing. -/
theorem fetchOpWord_error_state {s t : State} {r : Raise} (h : fetchOpWord s = .error r t) : t = s := by
  cases ha : aligned .w s.pc with
  | false =>
    rw [fetchOpWord_misaligned ha] at h
    injection h with _ h
    exact h.symm
  | true =>
    cases hb : s.answersRead [s.pc, s.pc + 1] with
    | false =>
      rw [fetchOpWord_unanswered ha hb] at h
      injection h with _ h
      exact h.symm
    | true =>
      simp only [fetchOpWord, look_bind] at h
      rw [Exec.bind_ok (checkAligned_ok ha)] at h
      simp only [look_bind, hb, if_true] at h
      exact (codeWord_neverRaises _ h).elim

theorem fetchWords_error_state {s t : State} {r : Raise} (h : fetchWords s = .error r t) : t = s := by
  cases hr : fetchOpWord s with
  | error r' u =>
    rw [fetchWords_error hr] at h
    injection h with _ h
    exact h ▸ fetchOpWord_error_state hr
  | ok w u =>
    have hrest : NeverRaises (update (·.setIr w) >>= fun _ => look State.pc >>= fun pc =>
        peekWords (maxWords - 1) (pc + 2) >>= fun ws => (pure (w :: ws) : Exec _)) :=
      (RaisesOnly.update _).bind fun _ => (RaisesOnly.look _).bind fun _ => (peekWords_neverRaises _ _).bind fun _ => .pure _
    simp only [fetchWords] at h
    rw [Exec.bind_ok hr] at h
    exact (hrest h).elim

/-! ### The shared operations never meet an ill-formed operand where their operand is one of the instruction's -/

theorem busByte_notIllFormed (a : Long) : NotIllFormed (busByte a) := fun _ _ _ h => (busByte_neverRaises a h).elim

/-- A bus cycle that is not answered raises a bus error. -/
theorem cycle_notIllFormed {α : Type} {f : State → Bool} {m : Exec α} {fault : MemFault} (hm : NotIllFormed m) :
    NotIllFormed (look f >>= fun b => if b then m else fail (.mem fault)) :=
  (RaisesOnly.look _).bind fun _ => .ite hm (.fail Raise.noConfusion)

theorem cycleReadWord_notIllFormed (acc : Access) (a : Long) : NotIllFormed (cycleReadWord acc a) :=
  cycle_notIllFormed ((busByte_notIllFormed a).bind fun _ => (busByte_notIllFormed _).bind fun _ => .pure _)

theorem cycleWriteWord_notIllFormed (acc : Access) (a : Long) (v : Word) : NotIllFormed (cycleWriteWord acc a v) :=
  cycle_notIllFormed ((RaisesOnly.update _).bind fun _ => .update _)

theorem checkAligned_notIllFormed (sz : Size) (acc : Access) : NotIllFormed (checkAligned sz acc) :=
  .ite (.pure _) (.fail Raise.noConfusion)

theorem memRead_notIllFormed (sz : Size) (space : Space) (a : Long) : NotIllFormed (memRead sz space a) := by
  refine (checkAligned_notIllFormed _ _).bind fun _ => ?_
  cases sz with
  | b => exact cycle_notIllFormed (busByte_notIllFormed _)
  | w => exact cycleReadWord_notIllFormed _ _
  | l => exact (cycleReadWord_notIllFormed _ _).bind fun _ => (cycleReadWord_notIllFormed _ _).bind fun _ => .pure _

theorem memWrite_notIllFormed (sz : Size) (lowFirst : Bool) (a : Long) (v : BitVec sz.bits) :
    NotIllFormed (memWrite sz lowFirst a v) := by
  refine (checkAligned_notIllFormed _ _).bind fun _ => ?_
  cases sz with
  | b => exact cycle_notIllFormed (.update _)
  | w => exact cycleWriteWord_notIllFormed _ _ _
  | l => cases lowFirst <;> exact (cycleWriteWord_notIllFormed _ _ _).bind fun _ => cycleWriteWord_notIllFormed _ _ _

theorem unlistedRead_notIllFormed (sz : Size) (space : Space) (a : Long) : NotIllFormed (unlistedRead sz space a) :=
  (RaisesOnly.look _).bind fun _ => .ite ((memRead_notIllFormed _ _ _).bind fun _ => .pure _) (.pure _)

theorem push32_notIllFormed (v : Long) : NotIllFormed (push32 v) :=
  (RaisesOnly.update _).bind fun _ => (RaisesOnly.look _).bind fun _ => memWrite_notIllFormed _ _ _ _

theorem pop16_notIllFormed : NotIllFormed pop16 :=
  (RaisesOnly.look _).bind fun _ => (memRead_notIllFormed _ _ _).bind fun _ => (RaisesOnly.update _).bind fun _ => .pure _

theorem pop32_notIllFormed : NotIllFormed pop32 :=
  (RaisesOnly.look _).bind fun _ => (memRead_notIllFormed _ _ _).bind fun _ => (RaisesOnly.update _).bind fun _ => .pure _

theorem fetchExt_notIllFormed : NotIllFormed fetchExt :=
  (RaisesOnly.look _).bind fun _ => (checkAligned_notIllFormed _ _).bind fun _ => cycle_notIllFormed (.update _)

theorem fetchExts_notIllFormed (n : Nat) : NotIllFormed (fetchExts n) := by
  induction n with
  | zero => exact .pure _
  | succ n ih => exact fetchExt_notIllFormed.bind fun _ => ih

theorem requireSupervisor_notIllFormed : NotIllFormed requireSupervisor :=
  (RaisesOnly.look _).bind fun _ => .ite (.pure _) (.fail Raise.noConfusion)

theorem decodeEa_notIllFormed (sz : Size) (ea : Ea) : NotIllFormed (decodeEa sz ea) :=
  (RaisesOnly.look _).bind fun _ => (fetchExts_notIllFormed _).bind fun _ => (RaisesOnly.update _).bind fun _ => .pure _

/-- The place that decoding gives is the one `eaLoc` names. -/
theorem decodeEa_place {sz : Size} {ea : Ea} {s t : State} {loc : Loc} (h : decodeEa sz ea s = .ok loc t) :
    loc = eaLoc s s.pc sz ea := by
  simp only [decodeEa, look_bind] at h
  cases hr : fetchExts (eaWords sz ea) s with
  | ok _ u =>
    rw [Exec.bind_ok hr] at h
    injection h with h _
    exact h.symm
  | error r u =>
    rw [Exec.bind_error hr] at h
    exact nomatch h

/-- What follows the decoding of an operand, known at the places its mode can name. -/
theorem decodeEa_bind_notIllFormed {α : Type} {sz : Size} {ea : Ea} {f : Loc → Exec α}
    (hf : ∀ s base, NotIllFormed (f (eaLoc s base sz ea))) : NotIllFormed (decodeEa sz ea >>= f) :=
  (decodeEa_notIllFormed sz ea).bindOk fun s _ _ h => decodeEa_place h ▸ hf s s.pc

theorem readLoc_notIllFormed (sz : Size) (loc : Loc) : NotIllFormed (readLoc sz loc) := by
  cases loc with
  | dreg n => exact .look _
  | areg n => exact .look _
  | mem a space lf => exact memRead_notIllFormed _ _ _
  | imm v => exact .pure _

/-- Every place but an immediate can be written. -/
theorem writeLoc_notIllFormed {sz : Size} {loc : Loc} (v : BitVec sz.bits) (h : ∀ w, loc ≠ .imm w) :
    NotIllFormed (writeLoc sz loc v) := by
  cases loc with
  | dreg n => exact .update _
  | areg n => exact .update _
  | mem a space lf => exact memWrite_notIllFormed _ _ _ _
  | imm w => exact absurd rfl (h w)

theorem eaLoc_ne_imm {ea : Ea} (h : ea.isAlterable = true) (s : State) (base : Long) (sz : Size) (v : Long) :
    eaLoc s base sz ea ≠ .imm v := by
  cases ea with
  | pcDisp | pcIndex | imm => exact absurd h (by simp [Ea.isAlterable])
  | _ => exact Loc.noConfusion

/-- A control mode names a place in memory. -/
theorem eaLoc_control {ea : Ea} (h : ea.isControl = true) (s : State) (base : Long) (sz : Size) :
    ∃ a space lf, eaLoc s base sz ea = .mem a space lf := by
  cases ea with
  | dn | an | postinc | predec | imm => exact absurd h (by simp [Ea.isControl])
  | _ => exact ⟨_, _, _, rfl⟩

theorem readEa_notIllFormed (sz : Size) (ea : Ea) : NotIllFormed (readEa sz ea) :=
  (decodeEa_notIllFormed _ _).bind fun _ => readLoc_notIllFormed _ _

theorem addrOfEa_notIllFormed {ea : Ea} (h : ea.isControl = true) : NotIllFormed (addrOfEa ea) := by
  refine decodeEa_bind_notIllFormed fun s base => ?_
  obtain ⟨a, space, lf, e⟩ := eaLoc_control h s base .l
  rw [e]
  exact .pure _

theorem modifyLoc_notIllFormed {sz : Size} (f : Unary sz.bits) {loc : Loc} (h : ∀ w, loc ≠ .imm w) :
    NotIllFormed (modifyLoc sz f loc) :=
  (readLoc_notIllFormed _ _).bind fun _ => (RaisesOnly.look _).bind fun _ => .thenFlags (writeLoc_notIllFormed _ h)

section
variable {sz : Size} {ea : Ea}

theorem opEa_notIllFormed (f : Unary sz.bits) (h : ea.isAlterable = true) : NotIllFormed (opEa sz f ea) :=
  decodeEa_bind_notIllFormed fun s base => modifyLoc_notIllFormed f (eaLoc_ne_imm h s base sz)

theorem opEaDn_notIllFormed (f : Alu sz.bits) (dn : RegNum) : NotIllFormed (opEaDn sz f dn ea) :=
  (readEa_notIllFormed _ _).bind fun _ => (RaisesOnly.look _).bind fun _ => (RaisesOnly.look _).bind fun _ => .update _

theorem opDnEa_notIllFormed (f : Alu sz.bits) (dn : RegNum) (h : ea.isAlterable = true) :
    NotIllFormed (opDnEa sz f dn ea) :=
  decodeEa_bind_notIllFormed fun s base =>
    (RaisesOnly.look _).bind fun _ => modifyLoc_notIllFormed _ (eaLoc_ne_imm h s base sz)

theorem opImmEa_notIllFormed (f : Alu sz.bits) (imm : Long) (h : ea.isAlterable = true) :
    NotIllFormed (opImmEa sz f imm ea) :=
  (fetchExts_notIllFormed _).bind fun _ => opEa_notIllFormed (f (low sz imm)) h

theorem opQuick_notIllFormed (f : Alu sz.bits) (g : Long → Long → Long) (q : BitVec 3) (h : ea.isAlterable = true) :
    NotIllFormed (opQuick sz f g q ea) := by
  unfold opQuick
  split
  · exact .update _
  · exact opEa_notIllFormed (f _) h

theorem opEaAn_notIllFormed (g : Long → Long → Long) (an : RegNum) : NotIllFormed (opEaAn sz g an ea) :=
  (readEa_notIllFormed _ _).bind fun _ => .update _

theorem opFlags_notIllFormed (f : BitVec sz.bits → State → Ccr) : NotIllFormed (opFlags sz f ea) :=
  (readEa_notIllFormed _ _).bind fun _ => .update _

theorem opMove_notIllFormed (src : Ea) (h : ea.isAlterable = true) : NotIllFormed (opMove sz src ea) :=
  (readEa_notIllFormed _ _).bind fun _ => (RaisesOnly.look _).bind fun _ =>
    .thenFlags (decodeEa_bind_notIllFormed fun s base => writeLoc_notIllFormed _ (eaLoc_ne_imm h s base sz))

theorem unlistedReadLoc_notIllFormed (loc : Loc) : NotIllFormed (unlistedReadLoc sz loc) := by
  cases loc with
  | mem a space lf => exact unlistedRead_notIllFormed _ _ _
  | _ => exact .pure _

theorem opWrite_notIllFormed (v : State → BitVec sz.bits) (h : ea.isAlterable = true) : NotIllFormed (opWrite sz v ea) :=
  decodeEa_bind_notIllFormed fun s base => (unlistedReadLoc_notIllFormed _).bind fun _ =>
    (RaisesOnly.look _).bind fun _ => writeLoc_notIllFormed _ (eaLoc_ne_imm h s base sz)

theorem opPair_notIllFormed {f : BitVec sz.bits → BitVec sz.bits → Ccr → Exec (BitVec sz.bits × Ccr)}
    (hf : ∀ a b c, NotIllFormed (f a b c)) (form : PairForm) (ry rx : RegNum) : NotIllFormed (opPair sz f form ry rx) := by
  have hdst : ∀ s base w, eaLoc s base sz (match form with | .regs => Ea.dn rx | .predec => Ea.predec rx) ≠ .imm w := by
    intro s base w
    cases form <;> exact Loc.noConfusion
  exact (readEa_notIllFormed _ _).bind fun _ => decodeEa_bind_notIllFormed fun s base =>
    (readLoc_notIllFormed _ _).bind fun _ => (RaisesOnly.look _).bind fun _ => (hf _ _ _).bind fun _ =>
    .thenFlags (writeLoc_notIllFormed _ (hdst s base))

theorem decimal_notIllFormed (op : BcdOp) (a b : Byte) (c : Ccr) : NotIllFormed (decimal op a b c) :=
  (RaisesOnly.draw _).bind fun _ => (RaisesOnly.draw _).bind fun _ => .pure _

theorem opBitAt_notIllFormed (op : BitOp) (b : Nat) {loc : Loc} (h : ∀ w, loc ≠ .imm w) : NotIllFormed (opBitAt op b loc) := by
  cases loc <;> exact modifyLoc_notIllFormed _ h

theorem opBitTestAt_notIllFormed (b : Nat) (loc : Loc) : NotIllFormed (opBitTestAt b loc) := by
  cases loc with
  | dreg n => exact .update _
  | _ => exact (readLoc_notIllFormed _ _).bind fun _ => .update _

theorem opBitImm_notIllFormed {f : Nat → Loc → Exec Unit} (n : Byte)
    (hf : ∀ n s base, NotIllFormed (f n (eaLoc s base .b ea))) : NotIllFormed (opBitImm f n ea) :=
  fetchExt_notIllFormed.bind fun _ => decodeEa_bind_notIllFormed fun s base => hf _ s base

theorem opBitDn_notIllFormed {f : Nat → Loc → Exec Unit} (dn : RegNum)
    (hf : ∀ n s base, NotIllFormed (f n (eaLoc s base .b ea))) : NotIllFormed (opBitDn f dn ea) :=
  (RaisesOnly.look _).bind fun _ => decodeEa_bind_notIllFormed fun s base => hf _ s base

theorem opMul_notIllFormed (f : Word → Word → Long) (dn : RegNum) : NotIllFormed (opMul f dn ea) :=
  (readEa_notIllFormed _ _).bind fun _ => .update _

theorem opDiv_notIllFormed (f : Word → Long → DivOut) (dn : RegNum) : NotIllFormed (opDiv f dn ea) := by
  refine (readEa_notIllFormed _ _).bind fun _ => (RaisesOnly.look _).bind fun _ => (RaisesOnly.look _).bind fun _ => ?_
  split
  · exact .update _
  · exact (RaisesOnly.draw _).bind fun _ => (RaisesOnly.draw _).bind fun _ => .update _
  · exact (RaisesOnly.draw _).bind fun _ => (RaisesOnly.draw _).bind fun _ => (RaisesOnly.draw _).bind fun _ =>
      (RaisesOnly.update _).bind fun _ => .fail Raise.noConfusion

end

theorem storeUp_notIllFormed (sz : Size) (is : List Nat) (a : Long) : NotIllFormed (storeUp sz is a) := by
  induction is generalizing a with
  | nil => exact .pure _
  | cons i is ih => exact (RaisesOnly.look _).bind fun _ => (memWrite_notIllFormed _ _ _ _).bind fun _ => ih _

theorem storeDown_notIllFormed (sz : Size) (is : List Nat) (a : Long) : NotIllFormed (storeDown sz is a) := by
  induction is generalizing a with
  | nil => exact .pure _
  | cons i is ih => exact (RaisesOnly.look _).bind fun _ => (memWrite_notIllFormed _ _ _ _).bind fun _ => ih _

theorem loadUp_notIllFormed (sz : Size) (space : Space) (is : List Nat) (a : Long) : NotIllFormed (loadUp sz space is a) := by
  induction is generalizing a with
  | nil => exact .pure _
  | cons i is ih => exact (memRead_notIllFormed _ _ _).bind fun _ => (RaisesOnly.update _).bind fun _ => ih _

theorem storeAlternate_notIllFormed (vs : List Byte) (a : Long) : NotIllFormed (storeAlternate vs a) := by
  induction vs generalizing a with
  | nil => exact .pure _
  | cons v vs ih => exact (memWrite_notIllFormed _ _ _ _).bind fun _ => ih _

theorem loadAlternate_notIllFormed (n : Nat) (a acc : Long) : NotIllFormed (loadAlternate n a acc) := by
  induction n generalizing a acc with
  | zero => exact .pure _
  | succ n ih => exact (memRead_notIllFormed _ _ _).bind fun _ => ih _ _

end Sys2Proof.Machine
end

section
/-! How the instruction that a step runs can end, and with it O57 to O60. -/

namespace Sys2Proof.Machine

/-! ### The meaning of an instruction that some word encodes -/

/-- `body` is the meaning of `i`: no ill-formed operand stops it, and either it asks for supervisor mode before anything else, or
it makes only changes that need no privilege. -/
structure Meaning (i : Instr) (body : Exec Unit) : Prop where
  exec_eq : ∀ s, exec i s = runInstr body s
  notIllFormed : NotIllFormed body
  changes : (∃ rest : Exec Unit, body = requireSupervisor >>= fun _ => rest) ∨ ∀ {P}, Closed P → Keeps P body

/-- `i` has such a meaning. -/
def HasMeaning (i : Instr) : Prop := ∃ body, Meaning i body

theorem HasMeaning.unprivileged {i : Instr} {body : Exec Unit} (he : ∀ s, exec i s = runInstr body s) (hn : NotIllFormed body)
    (hk : ∀ {P}, Closed P → Keeps P body) : HasMeaning i := ⟨body, he, hn, .inr hk⟩

theorem HasMeaning.privileged {i : Instr} {rest : Exec Unit}
    (he : ∀ s, exec i s = runInstr (requireSupervisor >>= fun _ => rest) s) (hn : NotIllFormed rest) : HasMeaning i :=
  ⟨_, he, requireSupervisor_notIllFormed.bind fun _ => hn, .inl ⟨rest, rfl⟩⟩

/-- One change of the state that cannot raise. -/
theorem HasMeaning.of_update {i : Instr} {f : State → State} (he : ∀ s, exec i s = runInstr (update f) s)
    (hk : ∀ {P}, Closed P → ∀ s, P s → P (f s)) : HasMeaning i := .unprivileged he (.update f) fun hP => .update (hk hP)

/-- One data register and the flags. -/
theorem HasMeaning.of_register {i : Instr} (n : RegNum) {v : State → Long} {f : State → Ccr}
    (he : ∀ s, exec i s = runInstr (update fun s => (s.putD n (v s)).setCcr (f s)) s) : HasMeaning i :=
  .of_update he fun hP _ hs => hP.setCcr _ _ (hP.putD _ _ _ hs)

/-- One extension word, then a change of the state. -/
theorem HasMeaning.of_fetch_update {i : Instr} {f : State → State}
    (he : ∀ s, exec i s = runInstr (fetchExt >>= fun _ => update f) s)
    (hk : ∀ {P}, Closed P → ∀ s, P s → P (f s)) : HasMeaning i :=
  .unprivileged he (fetchExt_notIllFormed.bind fun _ => .update f) fun hP => hP.fetchExt.bind fun _ => .update (hk hP)

/-- An exception of group 1 or 2 raised at once. -/
theorem HasMeaning.of_exc {i : Instr} {e : Exc} (he : ∀ s, exec i s = runInstr (fail (.exc e)) s) : HasMeaning i :=
  .unprivileged he (.fail Raise.noConfusion) fun _ => .fail _

theorem isAlterable_of_data {ea : Ea} (h : ea.isDataAlterable = true) : ea.isAlterable = true := (Bool.and_eq_true_iff.1 h).2

theorem isAlterable_of_memory {ea : Ea} (h : ea.isMemoryAlterable = true) : ea.isAlterable = true :=
  (Bool.and_eq_true_iff.1 h).2

theorem isControl_of_movemStore {sz : Size} {mask : Word} {ea : Ea} (h : (Instr.movemStore sz mask ea).wf = true)
    (hpre : ∀ n, ea ≠ .predec n) : ea.isControl = true := by
  cases ea with
  | predec n => exact absurd rfl (hpre n)
  | dn n | an n | postinc n | imm v => simp [Instr.wf, Ea.isControlAlterable, Ea.isControl] at h
  | _ => rfl

theorem isControl_of_movemLoad {sz : Size} {mask : Word} {ea : Ea} (h : (Instr.movemLoad sz mask ea).wf = true)
    (hpost : ∀ n, ea ≠ .postinc n) : ea.isControl = true := by
  cases ea with
  | postinc n => exact absurd rfl (hpost n)
  | dn n | an n | predec n | imm v => simp [Instr.wf, Ea.isControl] at h
  | _ => rfl

theorem hasMeaning_movemStore {sz : Size} {mask : Word} {ea : Ea} (h : (Instr.movemStore sz mask ea).wf = true) :
    HasMeaning (.movemStore sz mask ea) := by
  refine .unprivileged (fun _ => rfl) (fetchExt_notIllFormed.bind fun _ => ?_) fun hP => hP.fetchExt.bind fun _ => ?_
  · split
    · exact (RaisesOnly.look _).bind fun _ => (storeDown_notIllFormed _ _ _).bind fun _ => .update _
    · rename_i hpre
      have hc := isControl_of_movemStore h hpre
      exact decodeEa_bind_notIllFormed fun s base => by
        obtain ⟨a, space, lf, e⟩ := eaLoc_control hc s base sz
        rw [e]
        exact (RaisesOnly.pure _).bind fun _ => storeUp_notIllFormed _ _ _
  · split
    · exact (Keeps.look _).bind fun _ => (hP.storeDown _ _ _).bind fun _ => .update fun _ => hP.putA _ _ _
    · exact (hP.decodeEa _ _).bind fun _ => (Keeps.addrOf _).bind fun _ => hP.storeUp _ _ _

theorem hasMeaning_movemLoad {sz : Size} {mask : Word} {ea : Ea} (h : (Instr.movemLoad sz mask ea).wf = true) :
    HasMeaning (.movemLoad sz mask ea) := by
  refine .unprivileged (fun _ => rfl) (fetchExt_notIllFormed.bind fun _ => ?_) fun hP => hP.fetchExt.bind fun _ => ?_
  · split
    · exact (RaisesOnly.look _).bind fun _ => (loadUp_notIllFormed _ _ _ _).bind fun _ =>
        (unlistedRead_notIllFormed _ _ _).bind fun _ => .update _
    · rename_i hpost
      have hc := isControl_of_movemLoad h hpost
      exact decodeEa_bind_notIllFormed fun s base => by
        obtain ⟨a, space, lf, e⟩ := eaLoc_control hc s base sz
        rw [e]
        exact (loadUp_notIllFormed _ _ _ _).bind fun _ => unlistedRead_notIllFormed _ _ _
  · split
    · exact (Keeps.look _).bind fun _ => (hP.loadUp _ _ _ _).bind fun _ => (hP.unlistedRead _ _ _).bind fun _ =>
        .update fun _ => hP.putA _ _ _
    · refine (hP.decodeEa _ _).bind fun _ => ?_
      split
      · exact (hP.loadUp _ _ _ _).bind fun _ => hP.unlistedRead _ _ _
      · exact .fail _

theorem hasMeaning_movep (dn : RegNum) (form : MovepForm) (an : RegNum) (d16 : Word) : HasMeaning (.movep dn form an d16) := by
  refine .unprivileged (fun _ => rfl)
    (fetchExt_notIllFormed.bind fun _ => (RaisesOnly.look _).bind fun _ => (RaisesOnly.look _).bind fun _ => ?_)
    fun hP => hP.fetchExt.bind fun _ => (Keeps.look _).bind fun _ => (Keeps.look _).bind fun _ => ?_
  · cases form with
    | wordToReg | longToReg => exact (loadAlternate_notIllFormed _ _ _).bind fun _ => .update _
    | wordToMem | longToMem => exact storeAlternate_notIllFormed _ _
  · cases form with
    | wordToReg => exact (hP.loadAlternate _ _ _).bind fun _ => .update fun _ => hP.putLow _ _ _ _
    | longToReg => exact (hP.loadAlternate _ _ _).bind fun _ => .update fun _ => hP.putD _ _ _
    | wordToMem | longToMem => exact hP.storeAlternate _ _

theorem hasMeaning_chk (dn : RegNum) (ea : Ea) : HasMeaning (.chk dn ea) := by
  refine .unprivileged (fun _ => rfl) ?_ fun hP => ?_
  · have hd : NotIllFormed (draw Config.freeBit) := .draw _
    exact (readEa_notIllFormed _ _).bind fun _ => (RaisesOnly.look _).bind fun _ => (RaisesOnly.look _).bind fun _ =>
      hd.bind fun _ => hd.bind fun _ => hd.bind fun _ =>
      .ite ((RaisesOnly.update _).bind fun _ => .fail Raise.noConfusion)
        (.ite ((RaisesOnly.update _).bind fun _ => .fail Raise.noConfusion) (hd.bind fun _ => .update _))
  · rename_i P
    have hd : Keeps P (draw Config.freeBit) := .draw hP.nextDraw
    have hccr : ∀ f : Ccr, Keeps P (update (·.setCcr f)) := fun f => .update fun _ => hP.setCcr _ _
    exact (hP.readEa _ _).bind fun _ => (Keeps.look _).bind fun _ => (Keeps.look _).bind fun _ =>
      hd.bind fun _ => hd.bind fun _ => hd.bind fun _ =>
      .ite ((hccr _).bind fun _ => .fail _) (.ite ((hccr _).bind fun _ => .fail _) (hd.bind fun _ => hccr _))

theorem hasMeaning_dbcc (cond : Cond) (dn : RegNum) (d16 : Word) : HasMeaning (.dbcc cond dn d16) :=
  .unprivileged (fun _ => rfl)
    ((RaisesOnly.look _).bind fun _ => fetchExt_notIllFormed.bind fun _ => (RaisesOnly.look _).bind fun _ =>
      .ite (.pure _) ((RaisesOnly.look _).bind fun _ => (RaisesOnly.update _).bind fun _ => .ite (.pure _) (.update _)))
    fun hP => (Keeps.look _).bind fun _ => hP.fetchExt.bind fun _ => (Keeps.look _).bind fun _ =>
      .ite (.pure _) ((Keeps.look _).bind fun _ => (Keeps.update fun _ => hP.putLow _ _ _ _).bind fun _ =>
        .ite (.pure _) (.update fun _ => hP.jumpTo _ _))

theorem hasMeaning_link (an : RegNum) (d16 : Word) : HasMeaning (.link an d16) :=
  .unprivileged (fun _ => rfl)
    (fetchExt_notIllFormed.bind fun _ => (RaisesOnly.update _).bind fun _ => (RaisesOnly.look _).bind fun _ =>
      (RaisesOnly.look _).bind fun _ => (memWrite_notIllFormed _ _ _ _).bind fun _ => (RaisesOnly.update _).bind fun _ => .update _)
    fun hP => hP.fetchExt.bind fun _ => (Keeps.update fun _ => hP.putSp _ _).bind fun _ => (Keeps.look _).bind fun _ =>
      (Keeps.look _).bind fun _ => (hP.memWrite _ _ _ _).bind fun _ => (Keeps.update fun _ => hP.putA _ _ _).bind fun _ =>
      .update fun _ => hP.putSp _ _

theorem hasMeaning_unlk {an : RegNum} (h : an ≠ 7) : HasMeaning (.unlk an) :=
  .unprivileged (fun _ => if_neg h)
    ((RaisesOnly.update _).bind fun _ => (RaisesOnly.look _).bind fun _ => (memRead_notIllFormed _ _ _).bind fun _ =>
      (RaisesOnly.update _).bind fun _ => .update _)
    fun hP => (Keeps.update fun _ => hP.putSp _ _).bind fun _ => (Keeps.look _).bind fun _ => (hP.memRead _ _ _).bind fun _ =>
      (Keeps.update fun _ => hP.putA _ _ _).bind fun _ => .update fun _ => hP.putSp _ _

/-- Every instruction that some word encodes has a meaning, but `UNLK A7`. -/
theorem hasMeaning_of_wf {i : Instr} (h : i.wf = true) (hu : i ≠ .unlk 7) : HasMeaning i := by
  cases i with
  | movemStore sz mask ea => exact hasMeaning_movemStore h
  | movemLoad sz mask ea => exact hasMeaning_movemLoad h
  | movep dn form an d => exact hasMeaning_movep dn form an d
  | chk dn ea => exact hasMeaning_chk dn ea
  | dbcc c dn d => exact hasMeaning_dbcc c dn d
  | link an d => exact hasMeaning_link an d
  | unlk an => exact hasMeaning_unlk fun e => hu (e ▸ rfl)
  | cmpi sz imm ea =>
    exact .unprivileged (fun _ => rfl) ((fetchExts_notIllFormed _).bind fun _ => opFlags_notIllFormed _)
      fun hP => (hP.fetchExts _).bind fun _ => hP.opFlags _ _ _
  | cmpm rx sz ry =>
    exact .unprivileged (fun _ => rfl)
      ((readEa_notIllFormed _ _).bind fun _ => (readEa_notIllFormed _ _).bind fun _ => .update _)
      fun hP => (hP.readEa _ _).bind fun _ => (hP.readEa _ _).bind fun _ => .update fun _ => hP.setCcr _ _
  | clr sz ea =>
    exact .unprivileged (fun _ => rfl)
      (decodeEa_bind_notIllFormed fun s base => (RaisesOnly.look _).bind fun _ => .thenFlags
        ((unlistedReadLoc_notIllFormed _).bind fun _ =>
          writeLoc_notIllFormed _ (eaLoc_ne_imm (isAlterable_of_data h) s base sz)))
      fun hP => (hP.decodeEa _ _).bind fun _ => (Keeps.look _).bind fun _ =>
        hP.thenFlags _ ((hP.unlistedReadLoc _ _).bind fun _ => hP.writeLoc _ _ _)
  | lea an ea =>
    exact .unprivileged (fun _ => rfl) ((addrOfEa_notIllFormed h).bind fun _ => .update _)
      fun hP => (hP.addrOfEa _).bind fun _ => .update fun _ => hP.putA _ _ _
  | pea ea =>
    exact .unprivileged (fun _ => rfl) ((addrOfEa_notIllFormed h).bind fun _ => push32_notIllFormed _)
      fun hP => (hP.addrOfEa _).bind fun _ => hP.push32 _
  | bra d =>
    exact .unprivileged (fun _ => rfl) ((RaisesOnly.look _).bind fun _ => (fetchExts_notIllFormed _).bind fun _ => .update _)
      fun hP => (Keeps.look _).bind fun _ => (hP.fetchExts _).bind fun _ => .update fun _ => hP.jumpTo _ _
  | bcc c d =>
    exact .unprivileged (fun _ => rfl)
      ((RaisesOnly.look _).bind fun _ => (fetchExts_notIllFormed _).bind fun _ => (RaisesOnly.look _).bind fun _ =>
        .ite (.update _) (.pure _))
      fun hP => (Keeps.look _).bind fun _ => (hP.fetchExts _).bind fun _ => (Keeps.look _).bind fun _ =>
        .ite (.update fun _ => hP.jumpTo _ _) (.pure _)
  | bsr d =>
    exact .unprivileged (fun _ => rfl)
      ((RaisesOnly.look _).bind fun _ => (fetchExts_notIllFormed _).bind fun _ => (RaisesOnly.look _).bind fun _ =>
        (push32_notIllFormed _).bind fun _ => .update _)
      fun hP => (Keeps.look _).bind fun _ => (hP.fetchExts _).bind fun _ => (Keeps.look _).bind fun _ =>
        (hP.push32 _).bind fun _ => .update fun _ => hP.jumpTo _ _
  | jmp ea =>
    exact .unprivileged (fun _ => rfl) ((addrOfEa_notIllFormed h).bind fun _ => .update _)
      fun hP => (hP.addrOfEa _).bind fun _ => .update fun _ => hP.jumpTo _ _
  | jsr ea =>
    exact .unprivileged (fun _ => rfl)
      ((addrOfEa_notIllFormed h).bind fun _ => (RaisesOnly.look _).bind fun _ => (push32_notIllFormed _).bind fun _ => .update _)
      fun hP => (hP.addrOfEa _).bind fun _ => (Keeps.look _).bind fun _ => (hP.push32 _).bind fun _ =>
        .update fun _ => hP.jumpTo _ _
  | rts =>
    exact .unprivileged (fun _ => rfl) (pop32_notIllFormed.bind fun _ => .update _)
      fun hP => hP.pop32.bind fun _ => .update fun _ => hP.jumpTo _ _
  | rtr =>
    exact .unprivileged (fun _ => rfl)
      (pop16_notIllFormed.bind fun _ => .thenFlags (pop32_notIllFormed.bind fun _ => .update _))
      fun hP => hP.pop16.bind fun _ => hP.thenFlags _ (hP.pop32.bind fun _ => .update fun _ => hP.jumpTo _ _)
  | nop => exact .unprivileged (body := pure ()) (fun _ => rfl) (.pure _) fun _ => .pure _
  | trapv =>
    exact .unprivileged (fun _ => rfl) ((RaisesOnly.look _).bind fun _ => .ite (.fail Raise.noConfusion) (.pure _))
      fun _ => (Keeps.look _).bind fun _ => .ite (.fail _) (.pure _)
  | rte =>
    exact .privileged (fun _ => rfl) (pop16_notIllFormed.bind fun _ => pop32_notIllFormed.bind fun _ => .update _)
  | moveToSr ea => exact .privileged (fun _ => rfl) ((readEa_notIllFormed _ _).bind fun _ => .update _)
  | moveUspAn an => exact .privileged (fun _ => rfl) (.update _)
  | moveAnUsp an => exact .privileged (fun _ => rfl) (.update _)
  | reset => exact .privileged (fun _ => rfl) (.update State.pulse)
  | stop v | oriToSr v | andiToSr v | eoriToSr v =>
    exact .privileged (fun _ => rfl) (fetchExt_notIllFormed.bind fun _ => .update _)
  | moveToCcr ea =>
    exact .unprivileged (fun _ => rfl) ((readEa_notIllFormed _ _).bind fun _ => .update _)
      fun hP => (hP.readEa _ _).bind fun _ => .update fun _ => hP.setCcr _ _
  | oriToCcr v | andiToCcr v | eoriToCcr v => exact .of_fetch_update (fun _ => rfl) fun hP _ => hP.setCcr _ _
  | illegal => exact .of_exc (e := .illegalInstruction) fun _ => rfl
  | trap v => exact .of_exc (e := .trap v) fun _ => rfl
  | lineA z => exact .of_exc (e := .lineA) fun _ => rfl
  | lineF z => exact .of_exc (e := .lineF) fun _ => rfl
  | moveq r q =>
    exact .of_register r (v := fun _ => q.signExtend 32) (f := fun s => logicFlags (q.signExtend 32 : Long) s.sr.ccr)
      (fun _ => rfl)
  | extW r =>
    exact .of_register r (v := fun s => mergeLow .w (s.getD r) (((s.getD r).setWidth 8).signExtend 16))
      (f := fun s => logicFlags (((s.getD r).setWidth 8).signExtend 16 : Word) s.sr.ccr) (fun _ => rfl)
  | extL r =>
    exact .of_register r (v := fun s => ((s.getD r).setWidth 16).signExtend 32)
      (f := fun s => logicFlags (((s.getD r).setWidth 16).signExtend 32 : Long) s.sr.ccr) (fun _ => rfl)
  | swap r =>
    exact .of_register r (v := fun s => (s.getD r).extractLsb' 0 16 ++ (s.getD r).extractLsb' 16 16)
      (f := fun s => logicFlags ((s.getD r).extractLsb' 0 16 ++ (s.getD r).extractLsb' 16 16 : Long) s.sr.ccr) (fun _ => rfl)
  | exgDxDy x y =>
    exact .of_update (f := fun s => (s.putD x (s.getD y)).putD y (s.getD x)) (fun _ => rfl)
      fun hP _ hs => hP.putD _ _ _ (hP.putD _ _ _ hs)
  | exgAxAy x y =>
    exact .of_update (f := fun s => (s.putA x (s.getA y)).putA y (s.getA x)) (fun _ => rfl)
      fun hP _ hs => hP.putA _ _ _ (hP.putA _ _ _ hs)
  | exgDxAy x y =>
    exact .of_update (f := fun s => (s.putD x (s.getA y)).putA y (s.getD x)) (fun _ => rfl)
      fun hP _ hs => hP.putA _ _ _ (hP.putD _ _ _ hs)
  | aslReg c z r | asrReg c z r | lslReg c z r | lsrReg c z r | roxlReg c z r | roxrReg c z r | rolReg c z r
  | rorReg c z r => exact .unprivileged (fun _ => rfl) (.update _) fun hP => hP.opShiftReg _ _ _ _
  | moveB s d | moveW s d | moveL s d =>
    exact .unprivileged (fun _ => rfl) (opMove_notIllFormed _ (isAlterable_of_data (Bool.and_eq_true_iff.1 h).2))
      fun hP => hP.opMove _ _ _
  | moveaL n e | moveaW n e | addaW n e | addaL n e | subaW n e | subaL n e =>
    exact .unprivileged (fun _ => rfl) (opEaAn_notIllFormed _ _) fun hP => hP.opEaAn _ _ _ _
  | ori z v e | andi z v e | subi z v e | addi z v e | eori z v e =>
    exact .unprivileged (fun _ => rfl) (opImmEa_notIllFormed _ _ (isAlterable_of_data (Bool.and_eq_true_iff.1 h).2))
      fun hP => hP.opImmEa _ _ _ _
  | negx z e | neg z e | notEa z e | tas e =>
    exact .unprivileged (fun _ => rfl) (opEa_notIllFormed _ (isAlterable_of_data h)) fun hP => hP.opEa _ _ _
  | tst z e | cmpBEaDn n e | cmpWEaDn n e | cmpLEaDn n e | cmpaW n e | cmpaL n e =>
    exact .unprivileged (fun _ => rfl) (opFlags_notIllFormed _) fun hP => hP.opFlags _ _ _
  | moveFromSr e | scc c e =>
    exact .unprivileged (fun _ => rfl) (opWrite_notIllFormed _ (isAlterable_of_data h)) fun hP => hP.opWrite _ _ _
  | addq q z e | subq q z e =>
    exact .unprivileged (fun _ => rfl) (opQuick_notIllFormed _ _ _ (Bool.and_eq_true_iff.1 h).1)
      fun hP => hP.opQuick _ _ _ _ _
  | btstImm n e =>
    exact .unprivileged (fun _ => rfl) (opBitImm_notIllFormed _ fun _ _ _ => opBitTestAt_notIllFormed _ _)
      fun hP => hP.opBitImm hP.opBitTestAt _ _
  | btstDn n e =>
    exact .unprivileged (fun _ => rfl) (opBitDn_notIllFormed _ fun _ _ _ => opBitTestAt_notIllFormed _ _)
      fun hP => hP.opBitDn hP.opBitTestAt _ _
  | bchgImm n e | bclrImm n e | bsetImm n e =>
    exact .unprivileged (fun _ => rfl)
      (opBitImm_notIllFormed _ fun _ s base => opBitAt_notIllFormed _ _ (eaLoc_ne_imm (isAlterable_of_data h) s base .b))
      fun hP => hP.opBitImm (hP.opBitAt _) _ _
  | bchgDn n e | bclrDn n e | bsetDn n e =>
    exact .unprivileged (fun _ => rfl)
      (opBitDn_notIllFormed _ fun _ s base => opBitAt_notIllFormed _ _ (eaLoc_ne_imm (isAlterable_of_data h) s base .b))
      fun hP => hP.opBitDn (hP.opBitAt _) _ _
  | nbcd e =>
    exact .unprivileged (fun _ => rfl)
      (decodeEa_bind_notIllFormed fun s base => (readLoc_notIllFormed _ _).bind fun _ => (RaisesOnly.look _).bind fun _ =>
        (decimal_notIllFormed _ _ _ _).bind fun _ =>
        .thenFlags (writeLoc_notIllFormed _ (eaLoc_ne_imm (isAlterable_of_data h) s base .b)))
      fun hP => (hP.decodeEa _ _).bind fun _ => (hP.readLoc _ _).bind fun _ => (Keeps.look _).bind fun _ =>
        (hP.decimal _ _ _ _).bind fun _ => hP.thenFlags _ (hP.writeLoc _ _ _)
  | abcd x f y | sbcd x f y =>
    exact .unprivileged (fun _ => rfl) (opPair_notIllFormed (sz := .b) (decimal_notIllFormed _) _ _ _)
      fun hP => hP.opPair .b (hP.decimal _) _ _ _
  | addx x z f y | subx x z f y =>
    exact .unprivileged (fun _ => rfl) (opPair_notIllFormed (fun _ _ _ => .pure _) _ _ _)
      fun hP => hP.opPair _ (Keeps.drawsNothing _) _ _ _
  | mulu n e | muls n e => exact .unprivileged (fun _ => rfl) (opMul_notIllFormed _ _) fun hP => hP.opMul _ _ _
  | divu n e | divs n e => exact .unprivileged (fun _ => rfl) (opDiv_notIllFormed _ _) fun hP => hP.opDiv _ _ _
  | aslEa e | asrEa e | lslEa e | lsrEa e | roxlEa e | roxrEa e | rolEa e | rorEa e =>
    exact .unprivileged (fun _ => rfl) (opEa_notIllFormed _ (isAlterable_of_memory h)) fun hP => hP.opEa _ _ _
  | eorBDnEa n e | eorWDnEa n e | eorLDnEa n e =>
    exact .unprivileged (fun _ => rfl) (opDnEa_notIllFormed _ _ (isAlterable_of_data h)) fun hP => hP.opDnEa _ _ _ _
  | addBDnEa n e | addWDnEa n e | addLDnEa n e | subBDnEa n e | subWDnEa n e | subLDnEa n e | andBDnEa n e | andWDnEa n e
  | andLDnEa n e | orBDnEa n e | orWDnEa n e | orLDnEa n e =>
    exact .unprivileged (fun _ => rfl) (opDnEa_notIllFormed _ _ (isAlterable_of_memory h)) fun hP => hP.opDnEa _ _ _ _
  | addBEaDn n e | addWEaDn n e | addLEaDn n e | subBEaDn n e | subWEaDn n e | subLEaDn n e | andBEaDn n e | andWEaDn n e
  | andLEaDn n e | orBEaDn n e | orWEaDn n e | orLEaDn n e =>
    exact .unprivileged (fun _ => rfl) (opEaDn_notIllFormed _ _) fun hP => hP.opEaDn _ _ _ _

end Sys2Proof.Machine
end

section
/-! The properties of every step (O57 to O60), from the closure lemmas of Sys2Proof/Laws and `hasMeaning_of_wf`. -/

namespace Sys2Proof.Machine

/-! ### No state is stuck (O60) -/

theorem runInstr_answers {body : Exec Unit} (h : NotIllFormed body) (s : State) : ∃ t, runInstr body s = .next t := by
  cases hr : body s.startInstr with
  | ok _ t => exact ⟨_, runInstr_ok hr⟩
  | error r t =>
    cases r with
    | mem f => exact ⟨_, runInstr_mem hr⟩
    | exc e => exact ⟨_, runInstr_exc hr⟩
    | illFormed => exact absurd rfl (h hr)

theorem exec_answers {i : Instr} (h : i.wf = true) (s : State) :
    (∃ t, exec i s = .next t) ∨ exec i s = .refused .unlkStackPointer := by
  by_cases hu : i = .unlk 7
  · exact .inr (hu ▸ rfl)
  · obtain ⟨body, hbody⟩ := hasMeaning_of_wf h hu
    exact .inl (hbody.exec_eq s ▸ runInstr_answers hbody.notIllFormed s)

theorem execWords_answers (ws : List Word) (s : State) :
    (∃ t, execWords ws s = .next t) ∨ execWords ws s = .refused .unlkStackPointer := by
  unfold execWords
  split
  · rename_i p hp
    exact exec_answers (wf_of_decode (rest := p.2) hp) s
  · exact .inl (runInstr_answers (.fail Raise.noConfusion) s)

/-- Settles O60: only the instruction a step runs could stop it, and every decoded instruction is well formed. -/
theorem stepAlwaysAnswers : Obligations.StepAlwaysAnswers := by
  intro s
  unfold step
  split
  · exact .inl ⟨_, rfl⟩
  · split
    · exact .inl ⟨_, rfl⟩
    · exact .inl ⟨_, rfl⟩
    · split
      · exact .inl ⟨_, rfl⟩
      · rename_i ws t _
        rcases execWords_answers ws t with ⟨u, hu⟩ | hu
        · exact .inl ⟨_, by rw [hu]⟩
        · exact .inr (by rw [hu])

/-! ### The platform's inputs (O59) -/

/-- The platform's inputs of `u` are those of `s` (R46). -/
def SameInputs (s u : State) : Prop :=
  u.memMap = s.memMap ∧ u.ipl = s.ipl ∧ u.intAck = s.intAck ∧ u.resetLine = s.resetLine

theorem sameInputs_closed (s : State) : StepClosed (SameInputs s) where
  nextDraw _ h := h
  write _ _ _ _ h := h
  putSp u v h := by simpa only [SameInputs, State.putSp_memMap, State.putSp_ipl, State.putSp_intAck, State.putSp_resetLine] using h
  jumpTo _ _ h := h
  setPc _ _ h := h
  setCcr _ _ h := h
  putD _ _ _ h := h
  putA u n v h := by simpa only [SameInputs, State.putA_memMap, State.putA_ipl, State.putA_intAck, State.putA_resetLine] using h
  setSr _ _ h := h
  setSsp _ _ h := h
  setUsp _ _ h := h
  setRun _ _ h := h
  pulse _ h := h
  startInstr _ h := h
  setTraceDue _ _ h := h
  setIr _ _ h := h
  setStale _ _ h := h
  setPrevIpl _ _ h := h

/-- Settles O59: no elementary change of the machine touches an input. -/
theorem platformInputsUnchanged : Obligations.PlatformInputsUnchanged := fun s _ ht =>
  (sameInputs_closed s).step ⟨rfl, rfl, rfl, rfl⟩ ht

/-! ### The invariant (O57) -/

theorem memWf_closed : StepClosed fun s => s.mem.wf where
  nextDraw _ h := h
  write _ _ v hp h := Memory.write_wf h hp v
  putSp u v h := by simpa only [State.putSp_mem] using h
  jumpTo _ _ h := h
  setPc _ _ h := h
  setCcr _ _ h := h
  putD _ _ _ h := h
  putA u n v h := by simpa only [State.putA_mem] using h
  setSr _ _ h := h
  setSsp _ _ h := h
  setUsp _ _ h := h
  setRun _ _ h := h
  pulse _ h := h
  startInstr _ h := h
  setTraceDue _ _ h := h
  setIr _ _ h := h
  setStale _ _ h := h
  setPrevIpl _ _ h := h

/-- The part of the invariant that an instruction breaks and the end of its step restores. -/
def Settled (s : State) : Prop := s.traceDue = false ∧ ∀ e ∈ s.stale, e.1 ∈ prefetchWindow s.pc

theorem settled_entryClosed : EntryClosed Settled where
  nextDraw _ h := h
  write _ _ _ _ h := h
  putSp u v h := by simpa only [Settled, State.putSp_traceDue, State.putSp_stale, State.putSp_pc] using h
  jumpTo _ _ h := ⟨h.1, fun _ he => nomatch he⟩
  setSr _ _ _ _ h := h

theorem interruptStage_settled {s : State} (h : Settled s) : Settled (interruptStage s) := by
  unfold interruptStage
  show Settled (if s.interruptAcceptable then _ else s)
  split
  · exact settled_entryClosed.takeEntry (fun _ h => h) _ _ (settled_entryClosed.processInterrupt _) (s := s.setRun .running) h
  · exact h

theorem inWindow_entryClosed : EntryClosed fun s => ∀ e ∈ s.stale, e.1 ∈ prefetchWindow s.pc where
  nextDraw _ h := h
  write _ _ _ _ h := h
  putSp u v h := by simpa only [State.putSp_stale, State.putSp_pc] using h
  jumpTo _ _ _ := fun _ he => nomatch he
  setSr _ _ _ _ h := h

/-- The trace stage ends the trace, whatever was due. -/
theorem traceStage_settled {s : State} (h : ∀ e ∈ s.stale, e.1 ∈ prefetchWindow s.pc) : Settled (traceStage s) := by
  unfold traceStage
  split
  · exact ⟨rfl, inWindow_entryClosed.takeEntry (fun _ h => h) _ _ (inWindow_entryClosed.processException _ _)
      (s := s.setRun .running) h⟩
  · exact ⟨rfl, h⟩

/-- Only words of the two words ahead are kept as stale. -/
theorem noteStale_inWindow (before : Memory) (s : State) :
    ∀ e ∈ (noteStale before s).stale, e.1 ∈ prefetchWindow (noteStale before s).pc := by
  intro e he
  show e.1 ∈ prefetchWindow s.pc
  simp only [noteStale, State.setStale_stale] at he
  split at he
  · exact nomatch he
  · rcases List.mem_append.1 he with hnew | hold
    · obtain ⟨p, hp, rfl⟩ := List.mem_map.1 hnew
      exact List.mem_of_mem_filter hp
    · exact List.contains_iff_mem.1 (List.mem_filter.1 hold).2

theorem afterInstr_settled (before : Memory) (s : State) : Settled (afterInstr before s) :=
  interruptStage_settled (traceStage_settled (noteStale_inWindow before s))

theorem takeFetchFault_settled {r : Raise} {s : State} (h : Settled s) : Settled (takeFetchFault r s) := by
  unfold takeFetchFault
  split
  · exact ⟨rfl, inWindow_entryClosed.takeMemFault (fun _ h => h) _ _ _ h.2⟩
  · exact h

/-- The two vectors of the external reset. -/
theorem loadResetVectors_keeps {P : State → Prop} (hP : StackClosed P) (hssp : ∀ s v, P s → P (s.setSsp v)) :
    Keeps P (memRead .l .program 0 >>= fun v => update (·.setSsp v) >>= fun _ =>
      memRead .l .program 4 >>= fun target => update (·.jumpTo target)) :=
  (hP.memRead _ _ _).bind fun _ => (Keeps.update fun _ => hssp _ _).bind fun _ => (hP.memRead _ _ _).bind fun _ =>
    .update fun _ => hP.jumpTo _ _

/-- What the external reset establishes at once and its reads and `setRun` keep, holds where it ends. -/
theorem externalReset_keeps {P : State → Prop} (hP : StackClosed P) (hssp : ∀ s v, P s → P (s.setSsp v))
    (hrun : ∀ s, P s → P (s.setRun .halted)) {s : State}
    (h : P ((s.setSr { s.sr.forHandler with i := 7 }).setRun .running)) : P (externalReset s) := by
  unfold externalReset
  split <;> rename_i e <;> simp only [processReset, update_bind] at e
  · exact (loadResetVectors_keeps hP hssp).ok h e
  · exact hrun _ ((loadResetVectors_keeps hP hssp).error h e)

theorem step_settled {s t : State} (h : Settled s) (ht : step s = .next t) : Settled t := by
  unfold step at ht
  split at ht
  · injection ht with ht
    exact ht ▸ externalReset_keeps settled_entryClosed.toStackClosed (fun _ _ h => h) (fun _ h => h) h
  · split at ht
    · injection ht with ht
      exact ht ▸ h
    · injection ht with ht
      exact ht ▸ interruptStage_settled h
    · split at ht
      · rename_i e
        injection ht with ht
        exact ht ▸ interruptStage_settled (takeFetchFault_settled (fetchWords_error_state e ▸ h))
      · split at ht
        · injection ht with ht
          exact ht ▸ afterInstr_settled _ _
        · exact nomatch ht
        · exact nomatch ht

/-- Settles O57: the canonical form by every elementary change, the rest because the end of a step restores it. -/
theorem stepKeepsInvariant : Obligations.StepKeepsInvariant := by
  intro s t h ht
  obtain ⟨htrace, hstale⟩ := step_settled ⟨h.trace, h.stale⟩ ht
  exact ⟨memWf_closed.step h.mem ht, htrace, hstale⟩

/-- Settles O2: nothing is listed in memory, due or stale. -/
theorem resetInvariant : Obligations.ResetInvariant where
  mem := ⟨.nil, fun _ hc => nomatch hc⟩
  trace := rfl
  stale _ he := nomatch he

/-- Settles O1. -/
theorem resetState : Obligations.ResetState := ⟨rfl, rfl, rfl, rfl, rfl, rfl, rfl⟩

/-! ### User mode is contained (O58) -/

/-- Where `u` is in user mode, what needs privilege to change is as in `s`. -/
def Contained (s u : State) : Prop :=
  u.sr.s = false → u.ssp = s.ssp ∧ u.sr.t = s.sr.t ∧ u.sr.i = s.sr.i ∧ u.run = s.run ∧ u.resetPulses = s.resetPulses

/-- A state in supervisor mode is outside the question. -/
theorem contained_of_supervisor {s u : State} (h : u.sr.s = true) : Contained s u := fun hu =>
  absurd (hu.symm.trans h) Bool.false_ne_true

theorem contained_putSp {s u : State} (v : Long) (h : Contained s u) : Contained s (u.putSp v) := by
  intro hu
  rw [State.putSp_sr] at hu
  rw [u.putSp_user v hu]
  exact h hu

theorem contained_closed (s : State) : Closed (Contained s) where
  nextDraw _ h := h
  write _ _ _ _ h := h
  putSp _ v h := contained_putSp v h
  jumpTo _ _ h := h
  setPc _ _ h := h
  setCcr _ _ h := h
  putD _ _ _ h := h
  putA u n v h := by
    unfold State.putA
    split
    · exact h
    · exact contained_putSp v h

/-- An instruction run in user mode: what it does without privilege is contained, and every exception ends in supervisor mode. -/
theorem runInstr_contained {i : Instr} {body : Exec Unit} (hm : Meaning i body) {s u t : State} (hu : u.sr.s = false)
    (h : Contained s u) (ht : runInstr body u = .next t) : Contained s t := by
  have hstart : Contained s u.startInstr := h
  cases hr : body u.startInstr with
  | ok _ v =>
    rw [runInstr_ok hr] at ht
    injection ht with ht
    subst ht
    rcases hm.changes with ⟨rest, rfl⟩ | hkeep
    · rw [Exec.bind_error (requireSupervisor_error (s := u.startInstr) hu)] at hr
      exact nomatch hr
    · exact (hkeep (contained_closed s)).ok hstart hr
  | error r v =>
    cases r with
    | exc e =>
      rw [runInstr_exc hr] at ht
      injection ht with ht
      exact ht ▸ contained_of_supervisor (takeException_supervisor _ _ _)
    | mem f =>
      rw [runInstr_mem hr] at ht
      injection ht with ht
      exact ht ▸ contained_of_supervisor (takeMemFault_supervisor _ _ _ _)
    | illFormed => exact absurd rfl (hm.notIllFormed hr)

theorem execWords_contained {ws : List Word} {s u t : State} (hu : u.sr.s = false) (h : Contained s u)
    (ht : execWords ws u = .next t) : Contained s t := by
  unfold execWords at ht
  split at ht
  · rename_i p hp
    by_cases hunlk : p.1 = .unlk 7
    · rw [hunlk] at ht
      exact nomatch ht
    · obtain ⟨body, hm⟩ := hasMeaning_of_wf (wf_of_decode (rest := p.2) hp) hunlk
      exact runInstr_contained hm hu h (hm.exec_eq u ▸ ht)
  · rw [execIllegalWord, runInstr_exc (fail_apply _ _)] at ht
    injection ht with ht
    exact ht ▸ contained_of_supervisor (takeException_supervisor _ _ _)

theorem traceStage_contained {s u : State} (h : Contained s u) : Contained s (traceStage u) := by
  unfold traceStage
  split
  · exact contained_of_supervisor (processException_supervisor _ _ _ _ _)
  · exact h

theorem interruptStage_contained {s u : State} (h : Contained s u) : Contained s (interruptStage u) := by
  unfold interruptStage
  show Contained s (if u.interruptAcceptable then _ else u)
  split
  · exact contained_of_supervisor (processInterrupt_supervisor _ _ _ _)
  · exact h

theorem externalReset_supervisor (s : State) : (externalReset s).sr.s = true :=
  externalReset_keeps supervisor_closed.toStackClosed (fun _ _ h => h) (fun _ h => h) rfl

theorem takeFetchFault_contained {r : Raise} {s u : State} (h : Contained s u) : Contained s (takeFetchFault r u) := by
  unfold takeFetchFault
  split
  · exact contained_of_supervisor (takeMemFault_supervisor _ _ _ _)
  · exact h

/-- Fetching stays in the mode it began in. -/
theorem user_closed : Closed fun s => s.sr.s = false where
  nextDraw _ h := h
  write _ _ _ _ h := h
  putSp u v h := by simpa only [State.putSp_sr] using h
  jumpTo _ _ h := h
  setPc _ _ h := h
  setCcr _ _ h := h
  putD _ _ _ h := h
  putA u n v h := by simpa only [State.putA_sr] using h

theorem step_contained {s t : State} (hs : s.sr.s = false) (ht : step s = .next t) : Contained s t := by
  have hself : Contained s s := fun _ => ⟨rfl, rfl, rfl, rfl, rfl⟩
  have hfetch : Keeps (Contained s) fetchWords := (contained_closed s).fetchWords fun _ _ h => h
  have huser : Keeps (fun s => s.sr.s = false) fetchWords := user_closed.fetchWords fun _ _ h => h
  unfold step at ht
  split at ht
  · injection ht with ht
    exact ht ▸ contained_of_supervisor (externalReset_supervisor s)
  · split at ht
    · injection ht with ht
      exact ht ▸ hself
    · injection ht with ht
      exact ht ▸ interruptStage_contained hself
    · split at ht
      · rename_i e
        injection ht with ht
        exact ht ▸ interruptStage_contained (takeFetchFault_contained (hfetch.error hself e))
      · rename_i e
        split at ht
        · rename_i e'
          injection ht with ht
          have hu := execWords_contained (huser.ok hs e) (hfetch.ok hself e) e'
          exact ht ▸ interruptStage_contained (traceStage_contained hu)
        · exact nomatch ht
        · exact nomatch ht

/-- Settles O58: a step that is still in user mode took no exception and ran nothing that needs privilege. -/
theorem userModeIsContained : Obligations.UserModeIsContained := fun _ _ hs ht => step_contained hs ht

end Sys2Proof.Machine
end

section
/-! The instruction forms that read, modify or write one operand, each once as a `Reads`, a `Modifies` or a `Writes`; the
obligations about such instructions take their forms from here. -/

namespace Sys2Proof.Machine

section
variable {i : Instr} {s : State} {sz : Size} {ea : Ea}

/-! ### The first words of an instruction -/

theorem fetchExts_start {n : Nat} (h : s.extReady n) : fetchExts n (s.completed 0) = .ok () (s.completed n) := by
  simpa only [Nat.zero_add] using fetchExts_completed (k := 0) (n := n) ((Nat.zero_add n).symm ▸ h)

theorem fetchExt_start (h : s.extReady 1) : fetchExt (s.completed 0) = .ok () (s.completed 1) := fetchExt_completed (k := 0) h

theorem decodeEa_start (h : s.extReady (eaWords sz ea)) :
    decodeEa sz ea (s.completed 0) = .ok (s.operand 0 sz ea) (eaTouch sz ea (s.completed (eaWords sz ea))) := by
  simpa only [Nat.zero_add] using decodeEa_completed (k := 0) (sz := sz) (ea := ea) ((Nat.zero_add _).symm ▸ h)

theorem readEa_start (h : s.extReady (eaWords sz ea)) (hr : LocReadable s sz (s.operand 0 sz ea)) :
    readEa sz ea (s.completed 0) = .ok (locValue s sz (s.operand 0 sz ea)) (eaTouch sz ea (s.completed (eaWords sz ea))) := by
  simpa only [Nat.zero_add] using readEa_completed (k := 0) ((Nat.zero_add _).symm ▸ h) hr

/-! ### An operand read -/

/-- An operand read and one change of the state made with it. The change may be written with what the operand's side effect does
not touch. -/
theorem reads_update {k : Nat} {f g : BitVec sz.bits → State → State} {body : Exec Unit}
    (hi : exec i s = runInstr body s)
    (hb : s.extReady k → body (s.completed 0) = (readEa sz ea >>= fun v => update (f v)) (s.completed k))
    (hg : ∀ v t, t.sr = s.sr → (∀ n, t.getD n = s.getD n) → f v t = g v t) : Reads i s k sz ea g :=
  reads_of hi fun v t he ht hread => by
    rw [hb (extReady_mono he (Nat.le_add_right _ _)), Exec.bind_ok hread, update_apply, hg v t (by simp [ht]) (by simp [ht])]

theorem reads_opFlags {f : BitVec sz.bits → State → Ccr} {g : BitVec sz.bits → State → State}
    (hi : exec i s = runInstr (opFlags sz f ea) s)
    (hg : ∀ v t, t.sr = s.sr → (∀ n, t.getD n = s.getD n) → t.setCcr (f v t) = g v t) : Reads i s 0 sz ea g :=
  reads_update hi (fun _ => rfl) hg

theorem reads_opEaAn {f : Long → Long → Long} {an : RegNum} (hi : exec i s = runInstr (opEaAn sz f an ea) s) :
    Reads i s 0 sz ea (fun v t => t.putA an (f (t.getA an) (v.signExtend 32))) :=
  reads_update hi (fun _ => rfl) fun _ _ _ _ => rfl

theorem reads_opEaDn {f : Alu sz.bits} {dn : RegNum} (hi : exec i s = runInstr (opEaDn sz f dn ea) s) :
    Reads i s 0 sz ea (fun v t =>
      (t.putLow sz dn (f v (low sz (s.getD dn)) s.sr.ccr).1).setCcr (f v (low sz (s.getD dn)) s.sr.ccr).2) :=
  reads_update (f := fun v t =>
      (t.putLow sz dn (f v (low sz (t.getD dn)) t.sr.ccr).1).setCcr (f v (low sz (t.getD dn)) t.sr.ccr).2)
    hi (fun _ => rfl) fun v t hsr hd => by rw [hd, hsr]

theorem reads_opMul {f : Word → Word → Long} {dn : RegNum} (hi : exec i s = runInstr (opMul f dn ea) s) :
    Reads i s 0 .w ea (fun v t =>
      (t.putD dn (f v ((s.getD dn).setWidth 16))).setCcr (logicFlags (f v ((s.getD dn).setWidth 16)) s.sr.ccr)) :=
  reads_update hi (fun _ => rfl) fun v t hsr hd => by rw [hd, hsr]

/-! ### An operand read and written back -/

theorem modifies_opEa {f : Unary sz.bits} (hi : exec i s = runInstr (opEa sz f ea) s) : Modifies i s 0 sz ea f :=
  modifies_of hi fun _ he hb => hb ▸ Exec.bind_ok (decodeEa_completed (k := 0) he)

theorem modifies_opDnEa {f : Alu sz.bits} {dn : RegNum} (hi : exec i s = runInstr (opDnEa sz f dn ea) s) :
    Modifies i s 0 sz ea (f (low sz (s.getD dn))) :=
  modifies_of hi fun _ he hb => by
    rw [← hb, opDnEa, Exec.bind_ok (decodeEa_completed (k := 0) he), look_bind, eaTouch_getD, State.completed_getD]

theorem modifies_opImmEa {f : Alu sz.bits} {imm : Long} (hi : exec i s = runInstr (opImmEa sz f imm ea) s) :
    Modifies i s (immWords sz) sz ea (f (low sz imm)) :=
  modifies_of hi fun _ he hb => by
    rw [← hb, opImmEa, Exec.bind_ok (fetchExts_start (extReady_mono he (Nat.le_add_right _ _))),
      Exec.bind_ok (decodeEa_completed he)]

theorem modifies_opQuick {f : Alu sz.bits} {g : Long → Long → Long} {q : BitVec 3} (hea : ∀ n, ea ≠ .an n)
    (hi : exec i s = runInstr (opQuick sz f g q ea) s) :
    Modifies i s 0 sz ea (f (BitVec.ofNat sz.bits (quickData q))) :=
  modifies_of hi fun _ he hb => by
    cases ea with
    | an n => exact absurd rfl (hea n)
    | _ => exact hb ▸ Exec.bind_ok (decodeEa_completed (k := 0) he)

/-! ### An operand only written -/

theorem LocAnswered_congr {s t : State} (h : t.memMap = s.memMap) (sz : Size) (loc : Loc) :
    LocAnswered t sz loc ↔ LocAnswered s sz loc := by
  cases loc with
  | mem a => simp only [LocAnswered, State.readAnswer, h]
  | _ => rfl

theorem unlistedReadLoc_ok {loc : Loc} (h : LocAnswered s sz loc) :
    unlistedReadLoc sz loc s = .ok () (s.afterUnlistedRead sz loc) := by
  cases loc with
  | mem a space lf => exact unlistedRead_ok (.inr h)
  | _ => rfl

/-- The draws are all that the read of R92 changes. -/
theorem afterUnlistedRead_eq (s : State) (sz : Size) (loc : Loc) : ∃ n, s.afterUnlistedRead sz loc = s.drawn n := by
  unfold State.afterUnlistedRead
  split
  · split
    · exact ⟨_, rfl⟩
    · exact ⟨0, rfl⟩
  · exact ⟨0, rfl⟩

@[simp] theorem afterUnlistedRead_sr (s : State) (sz : Size) (loc : Loc) : (s.afterUnlistedRead sz loc).sr = s.sr := by
  obtain ⟨n, h⟩ := afterUnlistedRead_eq s sz loc
  rw [h]; rfl

@[simp] theorem afterUnlistedRead_memMap (s : State) (sz : Size) (loc : Loc) : (s.afterUnlistedRead sz loc).memMap = s.memMap := by
  obtain ⟨n, h⟩ := afterUnlistedRead_eq s sz loc
  rw [h]; rfl

/-- The two accesses of a write, from the state in which the operand has been decoded. -/
theorem unlistedRead_write_ok {loc : Loc} (v : BitVec sz.bits) (ha : LocAnswered s sz loc) (hw : LocWritable s sz loc) :
    ∃ t, writeLoc sz loc v ((eaTouch sz ea (s.completed (eaWords sz ea))).afterUnlistedRead sz loc) = .ok () t ∧
      unlistedReadLoc sz loc (eaTouch sz ea (s.completed (eaWords sz ea))) =
        .ok () ((eaTouch sz ea (s.completed (eaWords sz ea))).afterUnlistedRead sz loc) ∧
      LocWritten ((eaTouch sz ea (s.completed (eaWords sz ea))).afterUnlistedRead sz loc) sz loc v t := by
  obtain ⟨t, ht, hwr⟩ := writeLoc_ok (s := (eaTouch sz ea (s.completed (eaWords sz ea))).afterUnlistedRead sz loc) v
    ((LocWritable_congr (by simp) _ _).2 hw)
  exact ⟨t, ht, unlistedReadLoc_ok ((LocAnswered_congr (by simp) _ _).2 ha), hwr⟩

/-- What is written leaves the flags alone. -/
theorem LocWritten.sr {loc : Loc} {v : BitVec sz.bits} {t : State} (h : LocWritten s sz loc v t) : t.sr = s.sr := by
  cases loc with
  | dreg n => rw [show t = _ from h]; rfl
  | areg n => rw [show t = _ from h, State.putA_sr]
  | mem a space lf => obtain ⟨m, rfl, -⟩ := h; rfl
  | imm v => exact h.elim

theorem State.setCcr_self (s : State) : s.setCcr s.sr.ccr = s := rfl

theorem writes_opWrite {f : State → BitVec sz.bits} {v : BitVec sz.bits} (hi : exec i s = runInstr (opWrite sz f ea) s)
    (hf : ∀ t, t.sr = s.sr → f t = v) : Writes i s sz ea v s.sr.ccr := by
  intro he ha hw
  obtain ⟨t, ht, hread, hwr⟩ := unlistedRead_write_ok (ea := ea) v ha hw
  refine ⟨t, exec_next hi ?_, hwr⟩
  have hsr : s.sr = t.sr := by simpa using hwr.sr.symm
  rw [opWrite, Exec.bind_ok (decodeEa_start he), Exec.bind_ok hread, look_bind, hf _ (by simp), ht, hsr, State.setCcr_self]

end

end Sys2Proof.Machine
end

section
/-! The instructions of one operand form (O25, O32 to O36, O39, O41 to O43, O46 and O47). -/

namespace Sys2Proof.Machine

/-! ### Address registers (O25) -/

/-- A long word is its own sign extension. -/
theorem Reads.long {i : Instr} {s : State} {k : Nat} {ea : Ea} {g : Long → State → State}
    (h : Reads i s k .l ea (fun v => g (v.signExtend 32))) : Reads i s k .l ea g :=
  (funext fun v => congrArg g (BitVec.signExtend_eq v) : (fun v : Long => g (v.signExtend 32)) = g) ▸ h

/-- Settles O25. -/
theorem addressArithmetic : Obligations.AddressArithmetic := fun _ _ _ =>
  ⟨reads_opEaAn (f := fun _ v => v) rfl, .long (reads_opEaAn (f := fun _ v => v) rfl),
    reads_opEaAn (f := fun d v => d + v) rfl, .long (reads_opEaAn (f := fun d v => d + v) rfl),
    reads_opEaAn (f := fun d v => d - v) rfl, .long (reads_opEaAn (f := fun d v => d - v) rfl)⟩

/-! ### Two operands (O32 to O34) -/

/-- Settles O32. -/
theorem operandToDataRegister : Obligations.OperandToDataRegister := fun _ _ _ =>
  ⟨⟨reads_opEaDn (f := aluAdd) rfl, reads_opEaDn (f := aluAdd) rfl, reads_opEaDn (f := aluAdd) rfl⟩,
    ⟨reads_opEaDn (f := aluSub) rfl, reads_opEaDn (f := aluSub) rfl, reads_opEaDn (f := aluSub) rfl⟩,
    ⟨reads_opEaDn (f := aluAnd) rfl, reads_opEaDn (f := aluAnd) rfl, reads_opEaDn (f := aluAnd) rfl⟩,
    ⟨reads_opEaDn (f := aluOr) rfl, reads_opEaDn (f := aluOr) rfl, reads_opEaDn (f := aluOr) rfl⟩⟩

/-- Settles O33. -/
theorem dataRegisterToOperand : Obligations.DataRegisterToOperand := fun _ _ _ =>
  ⟨⟨modifies_opDnEa (f := aluAdd) rfl, modifies_opDnEa (f := aluAdd) rfl, modifies_opDnEa (f := aluAdd) rfl⟩,
    ⟨modifies_opDnEa (f := aluSub) rfl, modifies_opDnEa (f := aluSub) rfl, modifies_opDnEa (f := aluSub) rfl⟩,
    ⟨modifies_opDnEa (f := aluAnd) rfl, modifies_opDnEa (f := aluAnd) rfl, modifies_opDnEa (f := aluAnd) rfl⟩,
    ⟨modifies_opDnEa (f := aluOr) rfl, modifies_opDnEa (f := aluOr) rfl, modifies_opDnEa (f := aluOr) rfl⟩,
    ⟨modifies_opDnEa (f := aluEor) rfl, modifies_opDnEa (f := aluEor) rfl, modifies_opDnEa (f := aluEor) rfl⟩⟩

/-- Settles O34. -/
theorem constantsToOperand : Obligations.ConstantsToOperand := fun _ sz _ q n _ =>
  ⟨modifies_opImmEa (f := aluAdd) rfl, modifies_opImmEa (f := aluSub) rfl, modifies_opImmEa (f := aluAnd) rfl,
    modifies_opImmEa (f := aluOr) rfl, modifies_opImmEa (f := aluEor) rfl,
    exec_next (body := opQuick sz aluAdd (· + ·) q (.an n)) rfl rfl,
    exec_next (body := opQuick sz aluSub (· - ·) q (.an n)) rfl rfl,
    fun hea => ⟨modifies_opQuick (f := aluAdd) hea rfl, modifies_opQuick (f := aluSub) hea rfl⟩⟩

/-! ### One operand (O35) -/

/-- `CLR`: its flags are written with its operand. -/
theorem writes_clr (s : State) (sz : Size) (ea : Ea) : Writes (.clr sz ea) s sz ea 0 ⟨s.sr.ccr.x, false, true, false, false⟩ := by
  intro he ha hw
  obtain ⟨t, ht, hread, hwr⟩ := unlistedRead_write_ok (ea := ea) 0 ha hw
  refine ⟨t, exec_next rfl ?_, hwr⟩
  rw [Exec.bind_ok (decodeEa_start he), look_bind]
  have hboth : (unlistedReadLoc sz (s.operand 0 sz ea) >>= fun _ => writeLoc sz (s.operand 0 sz ea) 0)
      (eaTouch sz ea (s.completed (eaWords sz ea))) = .ok () t := (Exec.bind_ok hread).trans ht
  rw [thenFlags_ok hboth, eaTouch_sr]
  rfl

/-- Settles O35. -/
theorem oneOperandInstructions : Obligations.OneOperandInstructions := fun s sz cond ea =>
  ⟨modifies_opEa (f := unaryNeg) rfl, modifies_opEa (f := unaryNegx) rfl, modifies_opEa (f := unaryNot) rfl,
    modifies_opEa (f := fun v f => (v ||| 0x80, logicFlags v f)) rfl, writes_clr s sz ea,
    writes_opWrite (f := fun s => if condHolds cond s.sr.ccr then 0xFF else 0) rfl fun _ h => by rw [h],
    writes_opWrite (sz := .w) (f := fun s => s.sr.toWord) rfl fun _ h => by rw [h]⟩

/-! ### Comparisons (O36) -/

/-- `CMPM` reads its source, then its destination from the state the first step left. -/
theorem exec_cmpm {s : State} {rx ry : RegNum} {sz : Size} (ha : s.canRead sz (s.getA ry))
    (hb : s.canRead sz ((eaTouch sz (.postinc ry) (s.completed 0)).getA rx)) :
    let t := eaTouch sz (.postinc ry) (s.completed 0)
    exec (.cmpm rx sz ry) s = .next ((eaTouch sz (.postinc rx) t).setCcr
      (cmpFlags (s.mem.valueAt sz (s.getA ry)) (s.mem.valueAt sz (t.getA rx)) s.sr.ccr)) := by
  intro t
  have hmem : t.mem = s.mem := by simp [t]
  have hfirst : readEa sz (.postinc ry) (s.completed 0) = .ok (s.mem.valueAt sz (s.getA ry)) t :=
    readEa_start (fun _ hk => nomatch hk) ha
  have hsecond : readEa sz (.postinc rx) t = .ok (s.mem.valueAt sz (t.getA rx)) (eaTouch sz (.postinc rx) t) := by
    rw [readEa_ok (s := t) (sz := sz) (ea := .postinc rx) (fun _ hk => nomatch hk)
      ((State.canRead_congr (by simp [t]) _ _).2 hb), hmem.symm]
    simp [eaWords, State.setPc, eaLoc, locValue]
  refine exec_next rfl ?_
  rw [Exec.bind_ok hfirst, Exec.bind_ok hsecond, update_apply]
  simp only [eaTouch_sr, t, State.completed_sr]

/-- Settles O36. -/
theorem comparesSetFlagsOnly : Obligations.ComparesSetFlagsOnly := fun s r ry sz imm ea =>
  ⟨reads_opFlags (f := fun v s => cmpFlags v (low .b (s.getD r)) s.sr.ccr) rfl fun v t hsr hd => by simp only [hd, hsr]; rfl,
    reads_opFlags (f := fun v s => cmpFlags v (low .w (s.getD r)) s.sr.ccr) rfl fun v t hsr hd => by simp only [hd, hsr]; rfl,
    reads_opFlags (f := fun v s => cmpFlags v (low .l (s.getD r)) s.sr.ccr) rfl fun v t hsr hd => by
      simp only [hd, hsr, low, BitVec.setWidth_eq, Size.bits]; rfl,
    reads_opFlags (f := fun v s => cmpFlags (v.signExtend 32) (s.getA r) s.sr.ccr) rfl fun v t hsr _ => by
      simp only [hsr]; rfl,
    .long (reads_opFlags (f := fun v s => cmpFlags (v.signExtend 32) (s.getA r) s.sr.ccr) rfl fun v t hsr _ => by
      simp only [hsr]; rfl),
    reads_update (f := fun v t => t.setCcr (cmpFlags (low sz imm) v t.sr.ccr)) rfl
      (fun he => Exec.bind_ok (fetchExts_start he))
      fun v t hsr _ => by simp only [hsr]; rfl,
    reads_opFlags (f := fun v s => logicFlags v s.sr.ccr) rfl fun v t hsr _ => by simp only [hsr]; rfl,
    exec_cmpm⟩

/-! ### Products (O39) -/

/-- Settles O39. -/
theorem multiplyInstructions : Obligations.MultiplyInstructions := fun _ _ _ =>
  ⟨reads_opMul (f := mulUnsigned) rfl, reads_opMul (f := mulSigned) rfl⟩

/-! ### Shifts (O41) -/

/-- Settles O41. -/
theorem shiftInstructions : Obligations.ShiftInstructions := fun s c sz dn ea => by
  have hcount : shiftCount s c = match c with
      | .quick q => if q = 0 then 8 else q.toNat
      | .reg m => (s.getD m).toNat % 64 := by cases c <;> rfl
  intro n shifted
  have hreg : ∀ {i : Instr} (k : ShiftKind), exec i s = runInstr (opShiftReg k c sz dn) s → exec i s = .next (shifted k) :=
    fun {i} k hi => by
      have hn : shiftCount (s.completed 0) c = n := hcount
      refine exec_next hi ?_
      simp only [opShiftReg, update_apply, hn]
      rfl
  exact ⟨hreg .asl rfl, hreg .asr rfl, hreg .lsl rfl, hreg .lsr rfl, hreg .rol rfl, hreg .ror rfl, hreg .roxl rfl, hreg .roxr rfl,
    modifies_opEa (f := shiftResult .asl 1) rfl, modifies_opEa (f := shiftResult .asr 1) rfl,
    modifies_opEa (f := shiftResult .lsl 1) rfl, modifies_opEa (f := shiftResult .lsr 1) rfl,
    modifies_opEa (f := shiftResult .rol 1) rfl, modifies_opEa (f := shiftResult .ror 1) rfl,
    modifies_opEa (f := shiftResult .roxl 1) rfl, modifies_opEa (f := shiftResult .roxr 1) rfl⟩

/-! ### Bits (O42, O43) -/

theorem opBitDn_eq {f : Nat → Loc → Exec Unit} {s : State} {dn : RegNum} {ea : Ea} (h : s.extReady (0 + eaWords .b ea)) :
    opBitDn f dn ea (s.completed 0) =
      f (s.getD dn).toNat (s.operand 0 .b ea) (eaTouch .b ea (s.completed (0 + eaWords .b ea))) := by
  rw [opBitDn, look_bind, Exec.bind_ok (decodeEa_completed h), State.completed_getD]

theorem opBitImm_eq {f : Nat → Loc → Exec Unit} {s : State} {b : Byte} {ea : Ea} (h : s.extReady (1 + eaWords .b ea)) :
    opBitImm f b ea (s.completed 0) = f b.toNat (s.operand 1 .b ea) (eaTouch .b ea (s.completed (1 + eaWords .b ea))) := by
  rw [opBitImm, Exec.bind_ok (fetchExt_start (extReady_mono h (by omega))), Exec.bind_ok (decodeEa_completed h)]

/-- Settles O42. -/
theorem bitInstructionsOnRegister : Obligations.BitInstructionsOnRegister := by
  intro s dn n b z set
  refine ⟨⟨exec_next (body := opBitDn opBitTestAt dn (.dn n)) rfl rfl,
    exec_next (body := opBitDn (opBitAt .chg) dn (.dn n)) rfl rfl,
    exec_next (body := opBitDn (opBitAt .clr) dn (.dn n)) rfl rfl,
    exec_next (body := opBitDn (opBitAt .set) dn (.dn n)) rfl rfl⟩, fun he => ?_⟩
  have hbody : ∀ f, opBitImm f b (.dn n) (s.completed 0) = f b.toNat (.dreg n) (s.completed 1) := fun f => opBitImm_eq he
  exact ⟨exec_next rfl (hbody opBitTestAt), exec_next rfl (hbody (opBitAt .chg)),
    exec_next rfl (hbody (opBitAt .clr)), exec_next rfl (hbody (opBitAt .set))⟩

/-- A place that is no data register: the bit is one of a byte. -/
theorem opBitAt_byte {loc : Loc} (h : ∀ n, loc ≠ .dreg n) (op : BitOp) (b : Nat) :
    opBitAt op b loc = modifyLoc .b (fun v f => (bitWrite op (b % 8) v, bitFlags (b % 8) v f)) loc := by
  cases loc with
  | dreg n => exact absurd rfl (h n)
  | _ => rfl

theorem opBitTestAt_byte {loc : Loc} (h : ∀ n, loc ≠ .dreg n) (b : Nat) :
    opBitTestAt b loc = (readLoc .b loc >>= fun v => update fun s => s.setCcr (bitFlags (b % 8) v s.sr.ccr)) := by
  cases loc with
  | dreg n => exact absurd rfl (h n)
  | _ => rfl

theorem operand_ne_dreg {ea : Ea} (h : ea.isMemory = true) (s : State) (k : Nat) (n : RegNum) : s.operand k .b ea ≠ .dreg n := by
  cases ea with
  | dn m | an m => exact nomatch h
  | _ => exact Loc.noConfusion

/-- `BTST` on a byte, the bit number found with `k` extension words. -/
theorem reads_bitTest {i : Instr} {s : State} {k b : Nat} {ea : Ea} {body : Exec Unit} (hea : ea.isMemory = true)
    (hi : exec i s = runInstr body s)
    (hb : s.extReady (k + eaWords .b ea) → body (s.completed 0) =
      opBitTestAt b (s.operand k .b ea) (eaTouch .b ea (s.completed (k + eaWords .b ea)))) :
    Reads i s k .b ea (fun v t => t.setCcr { s.sr.ccr with z := !v.getLsbD (b % 8) }) := by
  intro he hr
  refine exec_next hi ?_
  rw [hb he, opBitTestAt_byte (operand_ne_dreg hea s k), Exec.bind_ok (readLoc_ok (operand_touch_readable hr)),
    locValue_touch_completed, update_apply, eaTouch_sr]
  rfl

/-- The other bit instructions on a byte. -/
theorem modifies_bit {i : Instr} {s : State} {k b : Nat} {ea : Ea} {op : BitOp} {body : Exec Unit} (hea : ea.isMemory = true)
    (hi : exec i s = runInstr body s)
    (hb : s.extReady (k + eaWords .b ea) → body (s.completed 0) =
      opBitAt op b (s.operand k .b ea) (eaTouch .b ea (s.completed (k + eaWords .b ea)))) :
    Modifies i s k .b ea (fun v f => (bitWrite op (b % 8) v, { f with z := !v.getLsbD (b % 8) })) :=
  modifies_of hi fun t he ht => by
    rw [← ht, hb he, opBitAt_byte (operand_ne_dreg hea s k)]
    rfl

/-- Settles O43. -/
theorem bitInstructionsOnMemory : Obligations.BitInstructionsOnMemory := fun _ _ _ _ hea =>
  ⟨⟨reads_bitTest hea rfl opBitDn_eq, modifies_bit (op := .chg) hea rfl opBitDn_eq, modifies_bit (op := .clr) hea rfl opBitDn_eq,
      modifies_bit (op := .set) hea rfl opBitDn_eq⟩,
    ⟨reads_bitTest hea rfl opBitImm_eq, modifies_bit (op := .chg) hea rfl opBitImm_eq,
      modifies_bit (op := .clr) hea rfl opBitImm_eq, modifies_bit (op := .set) hea rfl opBitImm_eq⟩⟩

/-! ### System control (O46, O47) -/

/-- In supervisor mode the check of the privileged instructions passes. -/
theorem exec_privileged {i : Instr} {s : State} {rest : Exec Unit} (hs : s.sr.s = true)
    (hi : exec i s = runInstr (requireSupervisor >>= fun _ => rest) s) : exec i s = runInstr rest s := by
  have h : (requireSupervisor >>= fun _ => rest) s.startInstr = rest s.startInstr := Exec.bind_ok (requireSupervisor_ok hs)
  rw [hi]
  simp only [runInstr, h]

/-- One extension word and a change of the state. -/
theorem exec_fetch_update {i : Instr} {s : State} {f : State → State} (he : s.extReady 1)
    (hi : exec i s = runInstr (fetchExt >>= fun _ => update f) s) : exec i s = .next (f (s.completed 1)) :=
  exec_next hi (Exec.bind_ok (fetchExt_start he))

/-- `A7` is the active stack pointer. -/
theorem getA_supervisor {s : State} (hs : s.sr.s = true) (n : RegNum) : s.getA n = if n = 7 then s.ssp else s.getA n := by
  split
  · next h => rw [h, State.getA_seven, State.sp, hs, if_pos rfl]
  · rfl

/-- Settles O46. -/
theorem supervisorInstructions : Obligations.SupervisorInstructions := fun _ v _ an hs =>
  ⟨reads_update (sz := .w) (k := 0) (f := fun w t => t.setSr (StatusReg.ofWord w)) (exec_privileged hs rfl) (fun _ => rfl)
      fun _ _ _ _ => rfl,
    fun he =>
      ⟨exec_fetch_update (f := fun t => t.setSr (StatusReg.ofWord (t.sr.toWord &&& v))) he (exec_privileged hs rfl),
        exec_fetch_update (f := fun t => t.setSr (StatusReg.ofWord (t.sr.toWord ||| v))) he (exec_privileged hs rfl),
        exec_fetch_update (f := fun t => t.setSr (StatusReg.ofWord (t.sr.toWord ^^^ v))) he (exec_privileged hs rfl),
        exec_fetch_update (f := fun t => (t.setSr (StatusReg.ofWord v)).setRun .stopped) he (exec_privileged hs rfl)⟩,
    exec_next (body := update fun t => t.putA an t.usp) (exec_privileged hs rfl) rfl,
    getA_supervisor hs an ▸ exec_next (body := update fun t => t.setUsp (t.getA an)) (exec_privileged hs rfl) rfl,
    exec_next (body := update State.pulse) (exec_privileged hs rfl) rfl⟩

/-- The flags a word loads are its five low bits. -/
theorem ofByte_low (w : Word) :
    Ccr.ofByte (w.setWidth 8) = ⟨w.getLsbD 4, w.getLsbD 3, w.getLsbD 2, w.getLsbD 1, w.getLsbD 0⟩ := by
  simp [Ccr.ofByte]

/-- Settles O47. -/
theorem conditionCodeWrites : Obligations.ConditionCodeWrites := fun _ v _ =>
  ⟨reads_update (sz := .w) (k := 0) (f := fun w t => t.setCcr (Ccr.ofByte (w.setWidth 8))) rfl (fun _ => rfl) fun w t _ _ =>
      congrArg t.setCcr (ofByte_low w),
    fun he => ⟨exec_fetch_update (f := fun t => t.setCcr (Ccr.ofByte (t.sr.ccr.toByte &&& v))) he rfl,
      exec_fetch_update (f := fun t => t.setCcr (Ccr.ofByte (t.sr.ccr.toByte ||| v))) he rfl,
      exec_fetch_update (f := fun t => t.setCcr (Ccr.ofByte (t.sr.ccr.toByte ^^^ v))) he rfl⟩⟩

end Sys2Proof.Machine
end

section
/-! Program control, the stack and the instructions that enter a handler (O24, O27, O31, O44, O45, O48, O49, O51, O53). -/

namespace Sys2Proof.Machine

/-! ### Branches (O44) -/

theorem branchTarget_eq (base : Long) (d : BranchDisp) :
    branchTarget base d = base + match d with
      | .short d => d.signExtend 32
      | .word d => d.signExtend 32 := by
  cases d <;> rfl

theorem exec_bra {s : State} {d : BranchDisp} (he : s.extReady (branchWords d)) :
    exec (.bra d) s = .next ((s.completed (branchWords d)).jumpTo (branchTarget (s.pc + 2) d)) := by
  refine exec_next rfl ?_
  rw [look_bind, Exec.bind_ok (fetchExts_start he)]
  rfl

theorem exec_bcc {s : State} {cond : Cond} {d : BranchDisp} (he : s.extReady (branchWords d)) :
    exec (.bcc cond d) s = .next (if condHolds cond s.sr.ccr then
      (s.completed (branchWords d)).jumpTo (branchTarget (s.pc + 2) d) else s.completed (branchWords d)) := by
  refine exec_next rfl ?_
  rw [look_bind, Exec.bind_ok (fetchExts_start he), look_bind, State.completed_sr]
  by_cases hc : condHolds cond s.sr.ccr = true
  · rw [if_pos hc, if_pos hc]; rfl
  · rw [if_neg hc, if_neg hc]; rfl

theorem exec_dbcc {s : State} {cond : Cond} {dn : RegNum} {d16 : Word} (he : s.extReady 1) :
    let count := (s.getD dn).setWidth 16 - 1
    let counted := (s.completed 1).putD dn ((s.getD dn).extractLsb' 16 16 ++ count)
    exec (.dbcc cond dn d16) s = .next (if condHolds cond s.sr.ccr then s.completed 1
      else if count = 0xFFFF then counted else counted.jumpTo (s.pc + 2 + d16.signExtend 32)) := by
  intro count counted
  refine exec_next rfl ?_
  rw [look_bind, Exec.bind_ok (fetchExt_start he), look_bind, State.completed_sr]
  by_cases hc : condHolds cond s.sr.ccr = true
  · rw [if_pos hc, if_pos hc]; rfl
  · rw [if_neg hc, if_neg hc, look_bind, update_bind, State.completed_getD]
    by_cases hz : count = 0xFFFF
    · rw [if_pos hz, if_pos hz]; rfl
    · rw [if_neg hz, if_neg hz]; rfl

/-- Settles O44. -/
theorem branches : Obligations.Branches := by
  intro s cond d dn d16 target
  have ht : branchTarget (s.pc + 2) d = target := branchTarget_eq _ _
  exact ⟨fun he => ⟨ht ▸ exec_bra he, ht ▸ exec_bcc he⟩, exec_dbcc⟩

/-! ### Calls, jumps and returns (O45) -/

/-- A control mode steps no register. -/
theorem eaTouch_control {ea : Ea} (h : ea.isControl = true) (sz : Size) (s : State) : eaTouch sz ea s = s := by
  cases ea with
  | postinc n | predec n => exact nomatch h
  | _ => rfl

theorem addrOfEa_start {s : State} {ea : Ea} {a : Long} (hc : ea.isControl = true) (ha : s.target ea a)
    (he : s.extReady (eaWords .l ea)) : addrOfEa ea (s.completed 0) = .ok a (s.completed (eaWords .l ea)) := by
  obtain ⟨space, lf, ha⟩ := ha
  rw [addrOfEa, Exec.bind_ok (decodeEa_start he), ha, eaTouch_control hc]
  rfl

/-- A push from inside an instruction. -/
theorem push32_completed {s : State} {n : Nat} (v : Long) (h : s.canWrite .l (s.sp - 4)) :
    ∃ m, push32 v (s.completed n) = .ok () (((s.completed n).putSp (s.sp - 4)).setMem m) ∧ Stored s.mem m .l (s.sp - 4) v :=
  ⟨_, push32_ok (s := s.completed n) v h, s.mem.putValue_stored .l true _ v⟩

theorem exec_bsr {s : State} {d : BranchDisp} (he : s.extReady (branchWords d)) (hw : s.canWrite .l (s.sp - 4)) :
    ∃ m, exec (.bsr d) s =
        .next ((((s.completed (branchWords d)).putSp (s.sp - 4)).setMem m).jumpTo (branchTarget (s.pc + 2) d)) ∧
      Stored s.mem m .l (s.sp - 4) (s.afterWords (branchWords d)) := by
  obtain ⟨m, hpush, hm⟩ := push32_completed (n := branchWords d) (s.afterWords (branchWords d)) hw
  refine ⟨m, exec_next rfl ?_, hm⟩
  rw [look_bind, Exec.bind_ok (fetchExts_start he), look_bind, State.completed_pc, State.completed_pc, Exec.bind_ok hpush]
  rfl

theorem exec_jmp {s : State} {ea : Ea} {a : Long} (hc : ea.isControl = true) (ha : s.target ea a)
    (he : s.extReady (eaWords .l ea)) : exec (.jmp ea) s = .next ((s.completed (eaWords .l ea)).jumpTo a) := by
  refine exec_next rfl ?_
  rw [Exec.bind_ok (addrOfEa_start hc ha he)]
  rfl

theorem exec_jsr {s : State} {ea : Ea} {a : Long} (hc : ea.isControl = true) (ha : s.target ea a)
    (he : s.extReady (eaWords .l ea)) (hw : s.canWrite .l (s.sp - 4)) :
    ∃ m, exec (.jsr ea) s = .next ((((s.completed (eaWords .l ea)).putSp (s.sp - 4)).setMem m).jumpTo a) ∧
      Stored s.mem m .l (s.sp - 4) (s.afterWords (eaWords .l ea)) := by
  obtain ⟨m, hpush, hm⟩ := push32_completed (n := eaWords .l ea) (s.afterWords (eaWords .l ea)) hw
  refine ⟨m, exec_next rfl ?_, hm⟩
  rw [Exec.bind_ok (addrOfEa_start hc ha he), look_bind, State.completed_pc, Exec.bind_ok hpush]
  rfl

theorem exec_rts {s : State} (hr : s.canRead .l s.sp) :
    exec .rts s = .next (((s.completed 0).putSp (s.sp + 4)).jumpTo (s.mem.longAt s.sp)) := by
  refine exec_next rfl ?_
  rw [Exec.bind_ok (pop32_ok (s := s.completed 0) hr)]
  rfl

/-- The two pops of a return, of a word and of a long word above it. -/
theorem pop16_pop32 {s : State} (hw : s.canRead .w s.sp) (hl : s.canRead .l (s.sp + 2)) :
    pop16 s = .ok (s.mem.wordAt s.sp) (s.putSp (s.sp + 2)) ∧
    pop32 (s.putSp (s.sp + 2)) = .ok (s.mem.longAt (s.sp + 2)) (s.putSp (s.sp + 6)) := by
  refine ⟨pop16_ok hw, ?_⟩
  rw [pop32_ok (by rw [State.sp_putSp]; exact (State.canRead_congr (by simp) _ _).2 hl), State.sp_putSp, State.putSp_mem,
    State.putSp_putSp, BitVec.add_assoc]
  rfl

theorem exec_rtr {s : State} (hw : s.canRead .w s.sp) (hl : s.canRead .l (s.sp + 2)) :
    exec .rtr s = .next ((((s.completed 0).putSp (s.sp + 6)).jumpTo (s.mem.longAt (s.sp + 2))).setCcr
      (Ccr.ofByte ((s.mem.wordAt s.sp).setWidth 8))) := by
  obtain ⟨h16, h32⟩ := pop16_pop32 (s := s.completed 0) hw hl
  refine exec_next rfl ?_
  rw [Exec.bind_ok h16]
  exact thenFlags_ok (Exec.bind_ok h32)

/-- Settles O45. -/
theorem callsJumpsReturns : Obligations.CallsJumpsReturns := fun _ _ _ _ =>
  ⟨exec_bsr, fun hc ha he => ⟨exec_jmp hc ha he, exec_jsr hc ha he⟩, exec_rts, exec_rtr⟩

/-! ### The status word (O23) -/

/-- The bits of the status word (R37). -/
theorem StatusReg.toWord_getLsbD (r : StatusReg) (k : Nat) : r.toWord.getLsbD k =
    if k < 8 then r.ccr.toByte.getLsbD k else if k < 11 then r.i.getLsbD (k - 8) else if k = 13 then r.s
      else if k = 15 then r.t else false := by
  show (BitVec.ofBool r.t ++ 0#1 ++ BitVec.ofBool r.s ++ 0#2 ++ r.i ++ r.ccr.toByte : BitVec (1 + 1 + 1 + 2 + 3 + 8)).getLsbD k = _
  simp only [BitVec.getLsbD_append, BitVec.getLsbD_ofBool, BitVec.getLsbD_zero]
  rcases Nat.lt_or_ge k 16 with hk | hk
  · interval_cases k <;> simp
  · have hlast : k - 8 - 3 - 2 - 1 - 1 ≠ 0 := by omega
    simp only [hlast, decide_false, Bool.false_and]
    grind

theorem Ccr.ofByte_toByte (f : Ccr) : Ccr.ofByte f.toByte = f := by
  obtain ⟨x, n, z, v, c⟩ := f
  revert x n z v c
  decide

theorem Ccr.toByte_ofByte (b : Byte) : (Ccr.ofByte b).toByte = b &&& 0x1F := by
  revert b
  decide

theorem StatusReg.toWord_low (r : StatusReg) : r.toWord.setWidth 8 = r.ccr.toByte := by
  refine BitVec.eq_of_getLsbD_eq fun k hk => ?_
  rw [BitVec.getLsbD_setWidth, r.toWord_getLsbD, if_pos hk, decide_eq_true hk, Bool.true_and]

theorem StatusReg.toWord_mask (r : StatusReg) : r.toWord.extractLsb' 8 3 = r.i := by
  refine BitVec.eq_of_getLsbD_eq fun k hk => ?_
  rw [BitVec.getLsbD_extractLsb', r.toWord_getLsbD, if_neg (by omega), if_pos (by omega), decide_eq_true hk, Bool.true_and,
    Nat.add_sub_cancel_left]

/-- A status register is read back from its own word. -/
theorem StatusReg.ofWord_toWord (r : StatusReg) : StatusReg.ofWord r.toWord = r := by
  rw [StatusReg.ofWord, r.toWord_low, r.toWord_mask, Ccr.ofByte_toByte, r.toWord_getLsbD, r.toWord_getLsbD]
  rfl

/-- A word loaded into the status register keeps the bits that have a field. -/
theorem StatusReg.toWord_ofWord (w : Word) : (StatusReg.ofWord w).toWord = w &&& 0xA71F := by
  refine BitVec.eq_of_getLsbD_eq fun k hk => ?_
  rw [StatusReg.toWord_getLsbD, StatusReg.ofWord, Ccr.toByte_ofByte]
  interval_cases k <;> simp
/-- Settles O23. -/
theorem statusWordRoundTrip : Obligations.StatusWordRoundTrip :=
  ⟨StatusReg.toWord_ofWord, StatusReg.ofWord_toWord, Ccr.toByte_ofByte⟩

/-! ### Returning from an exception (O48, O49) -/

theorem exec_rte {s : State} (hs : s.sr.s = true) (hw : s.canRead .w s.ssp) (hl : s.canRead .l (s.ssp + 2)) :
    exec .rte s = .next ((((s.completed 0).setSsp (s.ssp + 6)).setSr (StatusReg.ofWord (s.mem.wordAt s.ssp))).jumpTo
      (s.mem.longAt (s.ssp + 2))) := by
  have hsp : s.sp = s.ssp := by rw [State.sp, hs, if_pos rfl]
  obtain ⟨h16, h32⟩ := pop16_pop32 (s := s.completed 0) (hsp ▸ hw) (hsp ▸ hl)
  refine exec_next (exec_privileged hs rfl) ?_
  rw [Exec.bind_ok h16, Exec.bind_ok h32, State.putSp_supervisor (s.completed 0) _ hs]
  simp only [State.completed_sp, hsp]
  rfl

/-- Settles O48. -/
theorem rteRestoresFrame : Obligations.RteRestoresFrame := fun _ => exec_rte

/-- Settles O49: the frame that the entry pushed is the one that the return pops. -/
theorem rteUndoesTrap : Obligations.RteUndoesTrap := by
  intro s t u v hready hw hl ht hu
  obtain ⟨t', ht', m, he, hpc, hsr, -⟩ := exec_trap_enters hready
  obtain rfl : t = t' := Host.Outcome.next.inj (ht.symm.trans ht')
  have hs : t.sr.s = true := by rw [he]; rfl
  have hssp : t.ssp = s.ssp - 6 := by rw [he]; rfl
  have hmap : t.memMap = s.memMap := by rw [he]; rfl
  have hmem : t.mem = m := by rw [he]; rfl
  have hnext : t.ssp + 2 = s.ssp - 4 := by rw [hssp]; bv_omega
  have hrte := exec_rte hs ((State.canRead_congr hmap _ _).2 (hssp ▸ hw)) ((State.canRead_congr hmap _ _).2 (hnext ▸ hl))
  obtain rfl := Host.Outcome.next.inj (hu.symm.trans hrte)
  refine ⟨hs, ?_, ?_, ?_, ?_, ?_, ?_⟩
  · show StatusReg.ofWord (t.mem.wordAt t.ssp) = s.sr
    rw [hmem, hssp]
    exact (congrArg StatusReg.ofWord hsr).trans s.sr.ofWord_toWord
  · show t.ssp + 6 = s.ssp
    rw [hssp]; bv_omega
  · show t.usp = s.usp
    rw [he]; rfl
  · show t.d = s.d
    rw [he]; rfl
  · show t.a = s.a
    rw [he]; rfl
  · show t.mem.longAt (t.ssp + 2) = s.pc + 2
    rw [hmem, hnext]
    exact hpc

/-! ### The privilege violation (O53) -/

/-- Settles O53: each begins with the check that fails. -/
theorem privilegedInstructionsTrap : Obligations.PrivilegedInstructionsTrap := by
  intro s v ea an i hs hi hready
  have hbody : ∀ rest : Exec Unit, (requireSupervisor >>= fun _ => rest) (s.completed 0) =
      .error (.exc .privilegeViolation) (s.completed 0) := fun _ => Exec.bind_error (requireSupervisor_error hs)
  simp only [List.mem_cons, List.not_mem_nil, or_false] at hi
  rcases hi with rfl | rfl | rfl | rfl | rfl | rfl | rfl | rfl | rfl <;>
    exact exec_enters_group1 (e := .privilegeViolation) rfl (hbody _) rfl hready

/-! ### Addresses (O27) -/

theorem exec_lea {s : State} {an : RegNum} {ea : Ea} {a : Long} (hc : ea.isControl = true) (ha : s.target ea a)
    (he : s.extReady (eaWords .l ea)) : exec (.lea an ea) s = .next ((s.completed (eaWords .l ea)).putA an a) := by
  refine exec_next rfl ?_
  rw [Exec.bind_ok (addrOfEa_start hc ha he)]
  rfl

theorem exec_pea {s : State} {ea : Ea} {a : Long} (hc : ea.isControl = true) (ha : s.target ea a)
    (he : s.extReady (eaWords .l ea)) (hw : s.canWrite .l (s.sp - 4)) :
    ∃ m, exec (.pea ea) s = .next (((s.completed (eaWords .l ea)).putSp (s.sp - 4)).setMem m) ∧
      Stored s.mem m .l (s.sp - 4) a := by
  obtain ⟨m, hpush, hm⟩ := push32_completed (n := eaWords .l ea) a hw
  refine ⟨m, exec_next rfl ?_, hm⟩
  rw [Exec.bind_ok (addrOfEa_start hc ha he), hpush]

/-- The step of the register modes, by size. -/
theorem stepSize_eq (n : RegNum) (sz : Size) :
    stepSize n sz = match sz with
      | .b => if n = 7 then 2 else 1
      | .w => 2
      | .l => 4 := by
  cases sz with
  | b => simp [stepSize, Size.bytes]
  | w => simp [stepSize, Size.bytes]
  | l => simp [stepSize, Size.bytes]

/-- The index of R157 with the word index written as the low half. -/
theorem indexValue_eq (s : State) (x : IndexWord) :
    s.indexValue x = if x.isLong then if x.isAddr then s.getA x.reg else s.getD x.reg
      else ((if x.isAddr then s.getA x.reg else s.getD x.reg).extractLsb' 0 16).signExtend 32 := by
  rfl

/-- The address of the `k`-th extension word. -/
theorem afterWords_eq (s : State) (k : Nat) : s.afterWords k = s.pc + 2 + BitVec.ofNat 32 (2 * k) := by
  rw [State.afterWords, BitVec.ofNat_add, ← BitVec.add_assoc]
  rfl

/-- Settles O27. -/
theorem effectiveAddressLoads : Obligations.EffectiveAddressLoads := by
  refine ⟨fun s k sz n d x v ea => ?_, fun s an ea a hc ha he => ⟨exec_lea hc ha he, exec_pea hc ha he⟩⟩
  intro place base reg index step
  have hstep : stepSize n sz = step := stepSize_eq n sz
  have hindex : s.indexValue x = index := indexValue_eq s x
  have hbase : s.afterWords k = base := afterWords_eq s k
  refine ⟨rfl, rfl, rfl, rfl, ⟨rfl, ?_⟩, ⟨?_, ?_⟩, rfl, ?_, rfl, rfl, ?_, ?_, ?_, rfl⟩
  · rw [← hstep]; rfl
  · rw [← hstep]; rfl
  · rw [← hstep]; rfl
  · rw [← hindex]; rfl
  · rw [← hbase]; rfl
  · rw [← hbase, ← hindex]; rfl
  · intro hea
    cases ea with
    | postinc m => exact absurd rfl (hea m).1
    | predec m => exact absurd rfl (hea m).2
    | _ => rfl

/-! ### Frames (O31) -/

/-- `LINK` writes the register with the stack pointer it then moves. -/
theorem putSp_putA_putSp (s : State) (n : RegNum) (v w : Long) :
    ((s.putSp v).putA n v).sp = v ∧ ((s.putSp v).putA n v).putSp w = (s.putA n v).putSp w := by
  by_cases h7 : n = 7
  · subst h7
    simp only [State.putA_seven, State.sp_putSp, State.putSp_putSp, and_self]
  · rw [State.sp_putA _ h7, State.sp_putSp, State.putSp_putA _ h7, State.putSp_putSp]
    exact ⟨rfl, rfl⟩

/-- What `LINK` pushes: `A7` already decremented. -/
theorem getA_putSp_eq (s : State) (n : RegNum) (v : Long) : (s.putSp v).getA n = if n = 7 then v else s.getA n := by
  split
  · next h => rw [h, State.getA_seven, State.sp_putSp]
  · next h => rw [State.getA_putSp _ h]

theorem exec_link {s : State} {an : RegNum} {d16 : Word} (he : s.extReady 1) (hw : s.canWrite .l (s.sp - 4)) :
    ∃ m, exec (.link an d16) s =
        .next ((((s.completed 1).setMem m).putA an (s.sp - 4)).putSp (s.sp - 4 + d16.signExtend 32)) ∧
      Stored s.mem m .l (s.sp - 4) (if an = 7 then s.sp - 4 else s.getA an) := by
  have hpush := memWrite_eq (s := (s.completed 1).putSp (s.sp - 4)) true (if an = 7 then s.sp - 4 else s.getA an)
    ((State.canWrite_congr (by simp) _ _).2 hw)
  rw [State.putSp_mem, State.putSp_setMem] at hpush
  refine ⟨_, exec_next rfl ?_, s.mem.putValue_stored .l true _ _⟩
  rw [Exec.bind_ok (fetchExt_start he), update_bind, look_bind, look_bind, getA_putSp_eq, State.sp_putSp, State.completed_sp,
    State.completed_getA, Exec.bind_ok hpush, update_bind, update_apply, State.sp_putSp, (putSp_putA_putSp _ _ _ 0).1,
    (putSp_putA_putSp _ _ _ _).2]
  rfl

theorem exec_unlk {s : State} {an : RegNum} (h7 : an ≠ 7) (hr : s.canRead .l (s.getA an)) :
    exec (.unlk an) s = .next (((s.completed 0).putA an (s.mem.longAt (s.getA an))).putSp (s.getA an + 4)) := by
  have hread := memRead_ok (s := (s.completed 0).putSp (s.getA an)) .data ((State.canRead_congr (by simp) _ _).2 hr)
  refine exec_next (if_neg h7) ?_
  rw [update_bind, look_bind, State.sp_putSp, State.completed_getA, Exec.bind_ok hread, update_bind, update_apply,
    State.putSp_putA _ h7, State.sp_putSp, State.putSp_putSp, State.putSp_mem]
  rfl

/-- Settles O31. -/
theorem linkAndUnlk : Obligations.LinkAndUnlk := fun _ _ _ => ⟨exec_link, exec_unlk, rfl⟩

/-! ### `MOVE` (O24) -/

/-- The side effect of a mode does not look at `pc`. -/
theorem eaTouch_setPc (s : State) (sz : Size) (ea : Ea) (v : Long) : (eaTouch sz ea s).setPc v = eaTouch sz ea (s.setPc v) := by
  have hput : ∀ n w, (s.putA n w).setPc v = (s.setPc v).putA n w := fun n w => by
    unfold State.putA State.putSp
    split
    · rfl
    · exact apply_ite (State.setPc · v) _ _ _
  cases ea with
  | postinc n | predec n => exact hput _ _
  | _ => rfl

/-- Nor at what marks the beginning of an instruction. -/
theorem eaTouch_completed_getA (s : State) (k : Nat) (sz : Size) (ea : Ea) (n : RegNum) :
    (eaTouch sz ea (s.completed k)).getA n = (eaTouch sz ea s).getA n := by
  cases ea with
  | postinc m | predec m => simp only [eaTouch, State.getA_putA, State.completed_getA]
  | _ => rfl

theorem exec_move {i : Instr} {s : State} {sz : Size} {src dst : Ea} (hi : exec i s = runInstr (opMove sz src dst) s)
    (he : s.extReady (eaWords sz src + eaWords sz dst)) (hr : LocReadable s sz (s.operand 0 sz src))
    (hw : LocWritable s sz (eaLoc (eaTouch sz src s) (s.afterWords (eaWords sz src)) sz dst)) :
    ∃ t, exec i s = .next (t.setCcr (logicFlags (locValue s sz (s.operand 0 sz src)) s.sr.ccr)) ∧
      LocWritten (eaTouch sz dst (eaTouch sz src (s.completed (eaWords sz src + eaWords sz dst)))) sz
        (eaLoc (eaTouch sz src s) (s.afterWords (eaWords sz src)) sz dst) (locValue s sz (s.operand 0 sz src)) t := by
  have hread := readEa_start (extReady_mono he (Nat.le_add_right _ _)) hr
  have hfetch : (eaTouch sz src (s.completed (eaWords sz src))).canFetch (eaTouch sz src (s.completed (eaWords sz src))).pc
      (eaWords sz dst) := fun j hj => by
    rw [eaTouch_pc]
    exact (State.canRead_congr (by simp) _ _).2 (extReady_completed he j hj)
  have hdecode := decodeEa_ok hfetch
  rw [eaTouch_setPc, eaTouch_pc, State.completed_setPc, State.completed_pc,
    eaLoc_congr (s := eaTouch sz src s) (fun n => by simp) (fun n => eaTouch_completed_getA s _ sz src n)] at hdecode
  obtain ⟨t, ht, hwr⟩ := writeLoc_ok
    (s := eaTouch sz dst (eaTouch sz src (s.completed (eaWords sz src + eaWords sz dst))))
    (locValue s sz (s.operand 0 sz src)) ((LocWritable_congr (by simp) _ _).2 hw)
  refine ⟨t, exec_next hi ?_, hwr⟩
  rw [opMove, Exec.bind_ok hread, look_bind, eaTouch_sr, State.completed_sr]
  exact thenFlags_ok ((Exec.bind_ok hdecode).trans ht)

/-- Settles O24. -/
theorem moveCopiesOperand : Obligations.MoveCopiesOperand := by
  rintro i sz (⟨rfl, rfl⟩ | ⟨rfl, rfl⟩ | ⟨rfl, rfl⟩) s src dst <;> intro n loc v he hr hw <;> exact exec_move rfl he hr hw

/-! ### `CHK` (O51) -/

/-- Settles O51. -/
theorem chkChecksBounds : Obligations.ChkChecksBounds := by
  intro s dn ea bound v u he hr
  let b := eaTouch .w ea (s.completed (eaWords .w ea))
  have hread : readEa .w ea (s.completed 0) = .ok bound b := readEa_start he hr
  have hv : (b.getD dn).setWidth 16 = v := by rw [eaTouch_getD]; rfl
  have hx : b.sr.ccr.x = s.sr.ccr.x := by rw [eaTouch_sr]; rfl
  have hpc : u.pc = s.afterWords (eaWords .w ea) := by simp [u]
  let z := Config.freeBit b.draws
  let o := Config.freeBit b.nextDraw.draws
  let c := Config.freeBit b.nextDraw.nextDraw.draws
  refine ⟨fun hlow hhigh => ?_, fun hout hready => ?_⟩
  · refine ⟨⟨s.sr.ccr.x, Config.freeBit u.draws, z, o, c⟩, rfl, exec_next rfl ?_⟩
    rw [Exec.bind_ok hread, look_bind, look_bind, draw_bind, draw_bind, draw_bind, hv, hx, if_neg (by omega), if_neg (by omega)]
    rfl
  · let f : Ccr := ⟨s.sr.ccr.x, decide (v.toInt < 0), z, o, c⟩
    obtain ⟨t, ht, hentered⟩ := takeException_group2 (ipc := s.pc) (s := u.setCcr f) (e := .chkInstruction) rfl
      ((State.entryReady_congr rfl rfl _).2 hready)
    refine ⟨f, t, rfl, rfl, ?_, hpc ▸ hentered⟩
    rw [← ht]
    refine exec_exc rfl ?_
    rw [Exec.bind_ok hread, look_bind, look_bind, draw_bind, draw_bind, draw_bind, hv, hx]
    by_cases hneg : v.toInt < 0
    · rw [if_pos hneg]
      simp only [f, hneg, decide_true]
      rfl
    · rw [if_neg hneg, if_pos (hout.resolve_left hneg)]
      simp only [f, hneg, decide_false]
      rfl

end Sys2Proof.Machine
end

section
/-! Memory, the conditions and the exact results of the arithmetic (O13 to O15, O18, O21, O22). -/

namespace Sys2Proof.Machine

/-! ### What a write leaves to be read (O13) -/

/-- Settles O13. -/
theorem writeThenReadBack : Obligations.WriteThenReadBack := by
  intro s sz lowFirst space a v hw hr
  refine ⟨_, memWrite_eq lowFirst v hw, ?_, fun p hp => Memory.putValue_frame _ _ _ _ _ fun ⟨k, hk, e⟩ => hp k hk e⟩
  have hread := memRead_ok (s := s.setMem (s.mem.putValue sz lowFirst a v)) space ((State.canRead_congr rfl _ _).2 hr)
  rwa [State.setMem_mem, Memory.putValue_valueAt] at hread

/-! ### The upper address bits (O14) -/

/-- Wherever `m` succeeds, `n` does the same. -/
def Refines {α : Type} (m n : Exec α) : Prop := ∀ s v t, m s = .ok v t → n s = .ok v t

section
variable {α β : Type}

theorem Refines.refl (m : Exec α) : Refines m m := fun _ _ _ h => h

theorem Refines.fail (r : Raise) (n : Exec α) : Refines (fail r) n := fun _ _ _ h => nomatch h

theorem Refines.bind {m n : Exec α} {f g : α → Exec β} (h : Refines m n) (hf : ∀ a, Refines (f a) (g a)) :
    Refines (m >>= f) (n >>= g) := by
  intro s v t hm
  cases hr : m s with
  | ok a u =>
    rw [Exec.bind_ok hr] at hm
    rw [Exec.bind_ok (h s a u hr)]
    exact hf a u v t hm
  | error r u =>
    rw [Exec.bind_error hr] at hm
    exact nomatch hm

theorem Refines.ite {b c : Bool} {m n p q : Exec α} (hbc : b = c) (h : Refines m n) (h' : Refines p q) :
    Refines (if b then m else p) (if c then n else q) := by
  subst hbc
  split
  · exact h
  · exact h'

/-- A test of the state that both make. -/
theorem Refines.look {f g : State → β} {m n : β → Exec α} (hfg : f = g) (h : ∀ b, Refines (m b) (n b)) :
    Refines (Machine.look f >>= m) (Machine.look g >>= n) := hfg ▸ .bind (.refl _) h

end

/-- The addresses agree in the bits that reach memory. -/
def SamePhys (a b : Long) : Prop := physAddr a = physAddr b

theorem SamePhys.symm {a b : Long} (h : SamePhys a b) : SamePhys b a := Eq.symm h

theorem SamePhys.add {a b : Long} (h : SamePhys a b) (c : Long) : SamePhys (a + c) (b + c) := by
  simp only [SamePhys, physAddr, BitVec.toNat_add] at h ⊢
  omega

theorem samePhys_of_extract {a b : Long} (h : a.extractLsb' 0 24 = b.extractLsb' 0 24) : SamePhys a b := by
  have := congrArg BitVec.toNat h
  simpa [SamePhys, physAddr, BitVec.extractLsb'_toNat] using this

theorem SamePhys.aligned {a b : Long} (h : SamePhys a b) (sz : Size) : aligned sz a = aligned sz b := by
  have hbit : a.getLsbD 0 = b.getLsbD 0 := by
    simp only [SamePhys, physAddr] at h
    simp only [BitVec.getLsbD, Nat.testBit_zero]
    grind
  simp only [Machine.aligned, hbit]

section
variable {a b : Long} (h : SamePhys a b)
include h

theorem SamePhys.checkAligned (sz : Size) (w : Bool) (space : Space) :
    Refines (checkAligned sz ⟨a, w, space⟩) (checkAligned sz ⟨b, w, space⟩) :=
  .ite (h.aligned sz) (.refl _) (.fail _ _)

theorem SamePhys.busByte : busByte a = busByte b := by
  unfold Machine.busByte
  rw [show physAddr a = physAddr b from h]

theorem SamePhys.storeByte (v : Byte) : storeByte a v = storeByte b v := by
  unfold Machine.storeByte
  rw [show physAddr a = physAddr b from h]

theorem SamePhys.cycleReadByte (acc acc' : Access) : Refines (cycleReadByte acc a) (cycleReadByte acc' b) :=
  .look (by funext s; simp only [State.answersRead, List.all_cons, show physAddr a = physAddr b from h]) fun _ =>
    .ite rfl (h.busByte ▸ .refl _) (.fail _ _)

theorem SamePhys.cycleReadWord (acc acc' : Access) : Refines (cycleReadWord acc a) (cycleReadWord acc' b) :=
  .look (by funext s; simp only [State.answersRead, List.all_cons, show physAddr a = physAddr b from h,
      show physAddr (a + 1) = physAddr (b + 1) from h.add 1]) fun _ =>
    .ite rfl (h.busByte ▸ (h.add 1).busByte ▸ .refl _) (.fail _ _)

theorem SamePhys.cycleWriteByte (acc acc' : Access) (v : Byte) : Refines (cycleWriteByte acc a v) (cycleWriteByte acc' b v) :=
  .look (by funext s; simp only [State.answersWrite, List.all_cons, show physAddr a = physAddr b from h]) fun _ =>
    .ite rfl (h.storeByte v ▸ .refl _) (.fail _ _)

theorem SamePhys.cycleWriteWord (acc acc' : Access) (v : Word) : Refines (cycleWriteWord acc a v) (cycleWriteWord acc' b v) :=
  .look (by funext s; simp only [State.answersWrite, List.all_cons, show physAddr a = physAddr b from h,
      show physAddr (a + 1) = physAddr (b + 1) from h.add 1]) fun _ =>
    .ite rfl (h.storeByte _ ▸ (h.add 1).storeByte _ ▸ .refl _) (.fail _ _)

theorem SamePhys.memRead (sz : Size) (space : Space) : Refines (memRead sz space a) (memRead sz space b) := by
  refine (h.checkAligned sz false space).bind fun _ => ?_
  cases sz with
  | b => exact h.cycleReadByte _ _
  | w => exact h.cycleReadWord _ _
  | l => exact (h.cycleReadWord _ _).bind fun _ => ((h.add 2).cycleReadWord _ _).bind fun _ => .refl _

theorem SamePhys.memWrite (sz : Size) (lowFirst : Bool) (v : BitVec sz.bits) :
    Refines (memWrite sz lowFirst a v) (memWrite sz lowFirst b v) := by
  refine (h.checkAligned sz true .data).bind fun _ => ?_
  cases sz with
  | b => exact h.cycleWriteByte _ _ v
  | w => exact h.cycleWriteWord _ _ v
  | l =>
    cases lowFirst with
    | true => exact ((h.add 2).cycleWriteWord _ _ _).bind fun _ => h.cycleWriteWord _ _ _
    | false => exact (h.cycleWriteWord _ _ _).bind fun _ => (h.add 2).cycleWriteWord _ _ _

end

/-- Settles O14. -/
theorem upperAddressBitsIgnored : Obligations.UpperAddressBitsIgnored := by
  intro s t sz lowFirst space a b v h
  have hp := samePhys_of_extract h
  exact ⟨⟨hp.memRead sz space s v t, hp.symm.memRead sz space s v t⟩,
    ⟨hp.memWrite sz lowFirst v s () t, hp.symm.memWrite sz lowFirst v s () t⟩⟩

/-! ### The canonical form (O15) -/

theorem lookupCell_cons (c : Host.Cell) (cs : List Host.Cell) (p : Nat) :
    lookupCell (c :: cs) p = if c.1 = p then c.2 else lookupCell cs p := rfl

/-- Rising lists of cells inside the address space, none of them an unlisted byte, that look up alike are equal. -/
theorem cells_eq_of_lookup : ∀ {cs ds : List Host.Cell},
    cs.Pairwise (fun c c' => c.1 < c'.1) → (∀ c ∈ cs, c.2 ≠ unlistedByte ∧ c.1 < 2 ^ 24) →
    ds.Pairwise (fun c c' => c.1 < c'.1) → (∀ c ∈ ds, c.2 ≠ unlistedByte ∧ c.1 < 2 ^ 24) →
    (∀ p < 2 ^ 24, lookupCell cs p = lookupCell ds p) → cs = ds
  | [], [], _, _, _, _, _ => rfl
  | [], d :: ds, _, _, _, hd, h => by
    have hmem := hd d List.mem_cons_self
    have e := h d.1 hmem.2
    rw [lookupCell_cons, if_pos rfl] at e
    exact absurd e.symm hmem.1
  | c :: cs, [], _, hc, _, _, h => by
    have hmem := hc c List.mem_cons_self
    have e := h c.1 hmem.2
    rw [lookupCell_cons, if_pos rfl] at e
    exact absurd e hmem.1
  | c :: cs, d :: ds, hcs, hc, hds, hd, h => by
    obtain ⟨hclt, hcs'⟩ := List.pairwise_cons.1 hcs
    obtain ⟨hdlt, hds'⟩ := List.pairwise_cons.1 hds
    have hcmem := hc c List.mem_cons_self
    have hdmem := hd d List.mem_cons_self
    have haddr : c.1 = d.1 := by
      rcases Nat.lt_trichotomy c.1 d.1 with hlt | heq | hgt
      · have e := h c.1 hcmem.2
        rw [lookupCell_cons, if_pos rfl, lookupCell_cons, if_neg (by omega),
          lookupCell_of_lt fun x hx => hlt.trans (hdlt x hx)] at e
        exact absurd e hcmem.1
      · exact heq
      · have e := h d.1 hdmem.2
        rw [lookupCell_cons, if_neg (by omega), lookupCell_cons, if_pos rfl,
          lookupCell_of_lt fun x hx => hgt.trans (hclt x hx)] at e
        exact absurd e.symm hdmem.1
    have hvalue : c.2 = d.2 := by
      have e := h c.1 hcmem.2
      rwa [lookupCell_cons, if_pos rfl, lookupCell_cons, if_pos haddr.symm] at e
    have htail : cs = ds := by
      refine cells_eq_of_lookup hcs' (fun x hx => hc x (List.mem_cons_of_mem _ hx)) hds'
        (fun x hx => hd x (List.mem_cons_of_mem _ hx)) fun p hp => ?_
      by_cases hpc : c.1 = p
      · rw [lookupCell_of_lt fun x hx => hpc ▸ hclt x hx, lookupCell_of_lt fun x hx => hpc ▸ haddr ▸ hdlt x hx]
      · have e := h p hp
        rwa [lookupCell_cons, if_neg hpc, lookupCell_cons, if_neg (haddr ▸ hpc)] at e
    rw [Prod.ext haddr hvalue, htail]

/-- Settles O15. -/
theorem memoryFormCanonical : Obligations.MemoryFormCanonical := by
  intro m m' hm hm' h
  have : m.cells = m'.cells := cells_eq_of_lookup hm.1 hm.2 hm'.1 hm'.2 h
  cases m
  cases m'
  exact congrArg Memory.mk this

/-! ### The conditions (O18) -/

theorem sub_carryIn_false {w : Nat} (s d : BitVec w) : d - s - carryIn w false = d - s := BitVec.sub_zero _

section
variable {w : Nat} (hw : 0 < w) (s d : BitVec w) (f : Ccr)
include hw

theorem cmpFlags_c : (cmpFlags s d f).c = decide (d.toNat < s.toNat) := by
  have h := subBorrow_eq_decide hw s d false
  rwa [sub_carryIn_false] at h

theorem cmpFlags_v : (cmpFlags s d f).v =
    decide (¬ (-2 ^ (w - 1) ≤ d.toInt - s.toInt ∧ d.toInt - s.toInt < 2 ^ (w - 1))) := by
  have h := subOverflow_eq_decide hw s d false
  rw [sub_carryIn_false] at h
  refine h.trans (decide_eq_decide.2 ?_)
  simp only [Bool.toNat_false, Nat.cast_zero, sub_zero]
  omega

omit hw in
theorem cmpFlags_z : (cmpFlags s d f).z = decide (d = s) := by
  show (d - s == 0) = _
  rw [Bool.eq_iff_iff, beq_iff_eq, decide_eq_true_iff, sub_eq_zero]

/-- The sign corrected by the overflow is the signed comparison. -/
theorem cmpFlags_n_ne_v : ((cmpFlags s d f).n != (cmpFlags s d f).v) = decide (d.toInt < s.toInt) := by
  have hr := toNat_sub_carryIn hw s d false
  rw [cmpFlags_v hw]
  show ((d - s).msb != _) = _
  rw [sub_carryIn_false, Bool.toNat_false] at hr
  generalize d - s = r at hr ⊢
  have hhalf := Nat.two_pow_pred_add_two_pow_pred hw
  have hs := toInt_cases s
  have hd := toInt_cases d
  have hslt := s.isLt
  have hdlt := d.isLt
  have hrlt := r.isLt
  have hcast : ((2 ^ (w - 1) : Nat) : Int) = 2 ^ (w - 1) := Nat.cast_pow 2 (w - 1)
  rw [BitVec.msb_eq_decide, Bool.eq_iff_iff, bne_iff_ne, Ne, decide_eq_decide, decide_eq_true_iff]
  omega

end

/-- The flags after a compare, by the condition. -/
theorem conditions_after_compare (sz : Size) (s d : BitVec sz.bits) (before : Ccr) :
    let f := cmpFlags s d before
    let exact := d.toInt - s.toInt
    let fits := -2 ^ (sz.bits - 1) ≤ exact ∧ exact < 2 ^ (sz.bits - 1)
    (condHolds .eq f = decide (d = s)) ∧ (condHolds .ne f = decide (d ≠ s)) ∧
    (condHolds .hi f = decide (s.toNat < d.toNat)) ∧ (condHolds .ls f = decide (d.toNat ≤ s.toNat)) ∧
    (condHolds .cc f = decide (s.toNat ≤ d.toNat)) ∧ (condHolds .cs f = decide (d.toNat < s.toNat)) ∧
    (condHolds .ge f = decide (s.toInt ≤ d.toInt)) ∧ (condHolds .lt f = decide (d.toInt < s.toInt)) ∧
    (condHolds .gt f = decide (s.toInt < d.toInt)) ∧ (condHolds .le f = decide (d.toInt ≤ s.toInt)) ∧
    (condHolds .vc f = decide fits) ∧ (condHolds .vs f = decide (¬ fits)) ∧
    (condHolds .pl f = !(d - s).msb) ∧ (condHolds .mi f = (d - s).msb) := by
  intro f exact fits
  have hw := bits_pos sz
  have hc : f.c = decide (d.toNat < s.toNat) := cmpFlags_c hw s d before
  have hz : f.z = decide (d = s) := cmpFlags_z s d before
  have hv : f.v = decide (¬ fits) := cmpFlags_v hw s d before
  have hn : (f.n != f.v) = decide (d.toInt < s.toInt) := cmpFlags_n_ne_v hw s d before
  have hge : (f.n == f.v) = !decide (d.toInt < s.toInt) := by rw [← hn, bne, Bool.not_not]
  have heqNat : d = s ↔ d.toNat = s.toNat := BitVec.toNat_inj.symm
  have heqInt : d = s ↔ d.toInt = s.toInt := BitVec.toInt_inj.symm
  refine ⟨hz, ?ne, ?hi, ?ls, ?cc, hc, ?ge, hn, ?gt, ?le, ?vc, hv, rfl, rfl⟩
  case ne => simp only [condHolds, hz, decide_not]
  case hi =>
    simp only [condHolds, hc, hz, heqNat, ← decide_not, ← Bool.decide_and, decide_eq_decide]
    omega
  case ls =>
    simp only [condHolds, hc, hz, heqNat, ← Bool.decide_or, decide_eq_decide]
    omega
  case cc =>
    simp only [condHolds, hc, ← decide_not, decide_eq_decide]
    omega
  case ge =>
    simp only [condHolds, hge, ← decide_not, decide_eq_decide]
    omega
  case gt =>
    simp only [condHolds, hge, hz, heqInt, ← decide_not, ← Bool.decide_and, decide_eq_decide]
    omega
  case le =>
    simp only [condHolds, hn, hz, heqInt, ← Bool.decide_or, decide_eq_decide]
    omega
  case vc => simp only [condHolds, hv, ← decide_not, not_not]

/-- The tests of R291. -/
theorem conditions_tests (f : Ccr) :
    (condHolds .t f ∧ ¬ condHolds .f f) ∧ (condHolds .ne f ↔ f.z = false) ∧ (condHolds .eq f ↔ f.z = true) ∧
    (condHolds .cc f ↔ f.c = false) ∧ (condHolds .cs f ↔ f.c = true) ∧
    (condHolds .hi f ↔ f.c = false ∧ f.z = false) ∧ (condHolds .ls f ↔ f.c = true ∨ f.z = true) ∧
    (condHolds .vc f ↔ f.v = false) ∧ (condHolds .vs f ↔ f.v = true) ∧
    (condHolds .pl f ↔ f.n = false) ∧ (condHolds .mi f ↔ f.n = true) ∧
    (condHolds .ge f ↔ f.n = f.v) ∧ (condHolds .lt f ↔ f.n ≠ f.v) ∧
    (condHolds .gt f ↔ f.z = false ∧ f.n = f.v) ∧ (condHolds .le f ↔ f.z = true ∨ f.n ≠ f.v) := by
  simp only [condHolds, Bool.not_eq_true', Bool.and_eq_true, Bool.or_eq_true, beq_iff_eq, bne_iff_ne, and_comm, or_comm]
  decide

/-- Settles O18. -/
theorem conditionsCompare : Obligations.ConditionsCompare := ⟨by decide, conditions_tests, conditions_after_compare⟩

/-! ### Products and quotients (O21) -/

theorem mulUnsigned_toNat (a b : Word) : (mulUnsigned a b).toNat = a.toNat * b.toNat := by
  have hlt : a.toNat * b.toNat < 2 ^ 16 * 2 ^ 16 := Nat.mul_lt_mul'' a.isLt b.isLt
  rw [mulUnsigned, BitVec.toNat_ofNat, Nat.mod_eq_of_lt (by omega)]

/-- The signed values of a word. -/
theorem word_toInt_bounds (a : Word) : -32768 ≤ a.toInt ∧ a.toInt ≤ 32767 := by
  have hlow := BitVec.le_toInt a
  have hhigh := BitVec.toInt_lt (x := a)
  norm_num at hlow hhigh
  omega

theorem toInt_ofInt_word {i : Int} (hlow : -32768 ≤ i) (hhigh : i ≤ 32767) : (BitVec.ofInt 16 i).toInt = i := by
  rw [BitVec.toInt_ofInt]
  exact Int.bmod_eq_of_le (by omega) (by omega)

theorem mulSigned_toInt (a b : Word) : (mulSigned a b).toInt = a.toInt * b.toInt := by
  obtain ⟨ha, ha'⟩ := word_toInt_bounds a
  obtain ⟨hb, hb'⟩ := word_toInt_bounds b
  have hlow : -(32768 * 32768) ≤ a.toInt * b.toInt := by nlinarith
  have hhigh : a.toInt * b.toInt ≤ 32768 * 32768 := by nlinarith
  rw [mulSigned, BitVec.toInt_ofInt]
  exact Int.bmod_eq_of_le (by omega) (by omega)

theorem divUnsigned_fits {s q r : Word} {d : Long} (hs : s ≠ 0) (h : divUnsigned s d = .fits q r) :
    d.toNat = q.toNat * s.toNat + r.toNat ∧ r.toNat < s.toNat := by
  have hpos : 0 < s.toNat := Nat.pos_of_ne_zero fun e => hs (BitVec.eq_of_toNat_eq e)
  have hslt := s.isLt
  have hmod := Nat.mod_lt d.toNat hpos
  rw [divUnsigned, if_neg hs] at h
  split at h
  · exact nomatch h
  · next hfits =>
    injection h with hq hr
    subst hq hr
    rw [BitVec.toNat_ofNat, BitVec.toNat_ofNat, Nat.mod_eq_of_lt (by omega), Nat.mod_eq_of_lt (by omega)]
    exact ⟨(Nat.div_add_mod' _ _).symm, hmod⟩

theorem divUnsigned_overflow {s : Word} {d : Long} (hs : s ≠ 0) :
    divUnsigned s d = .overflow ↔ 0xFFFF < d.toNat / s.toNat := by
  rw [divUnsigned, if_neg hs]
  split
  · next h => exact ⟨fun _ => h, fun _ => rfl⟩
  · next h => exact ⟨fun e => (nomatch e), fun h' => absurd h' h⟩

theorem divSigned_fits {s q r : Word} {d : Long} (hs : s ≠ 0) (h : divSigned s d = .fits q r) :
    d.toInt = q.toInt * s.toInt + r.toInt ∧ r.toInt.natAbs < s.toInt.natAbs ∧ (r = 0 ∨ r.msb = d.msb) := by
  have hs0 : s.toInt ≠ 0 := fun e => hs (BitVec.toInt_inj.1 e)
  obtain ⟨hslow, hshigh⟩ := word_toInt_bounds s
  have hrem : d.toInt - d.toInt.tdiv s.toInt * s.toInt = d.toInt.tmod s.toInt := by
    have := Int.mul_tdiv_add_tmod d.toInt s.toInt
    rw [mul_comm] at this
    omega
  have habs : (d.toInt.tmod s.toInt).natAbs < s.toInt.natAbs := by
    rw [Int.natAbs_tmod]
    exact Nat.mod_lt _ (Int.natAbs_pos.2 hs0)
  simp only [divSigned, if_neg hs, hrem] at h
  split at h
  · exact nomatch h
  · next hfits =>
    injection h with hq hr
    have hqint : q.toInt = d.toInt.tdiv s.toInt := by rw [← hq]; exact toInt_ofInt_word (by omega) (by omega)
    have hrint : r.toInt = d.toInt.tmod s.toInt := by rw [← hr]; exact toInt_ofInt_word (by omega) (by omega)
    refine ⟨by rw [hqint, hrint]; omega, by rwa [hrint], ?_⟩
    rw [BitVec.msb_eq_toInt, BitVec.msb_eq_toInt, hrint, ← BitVec.toInt_inj, hrint, decide_eq_decide]
    show _ = 0 ∨ _
    rcases le_or_gt 0 d.toInt with hpos | hneg
    · have := Int.tmod_nonneg s.toInt hpos
      omega
    · have := Int.tmod_nonneg s.toInt (neg_nonneg.2 hneg.le)
      rw [Int.neg_tmod] at this
      omega

theorem divSigned_overflow {s : Word} {d : Long} (hs : s ≠ 0) :
    divSigned s d = .overflow ↔ (d.toInt.tdiv s.toInt < -32768 ∨ 32767 < d.toInt.tdiv s.toInt) := by
  simp only [divSigned, if_neg hs]
  split
  · next h => exact ⟨fun _ => h, fun _ => rfl⟩
  · next h => exact ⟨fun e => (nomatch e), fun h' => absurd h' h⟩

theorem divUnsigned_ne_byZero {s : Word} {d : Long} (hs : s ≠ 0) : divUnsigned s d ≠ .byZero := by
  rw [divUnsigned, if_neg hs]
  split <;> exact DivOut.noConfusion

theorem divSigned_ne_byZero {s : Word} {d : Long} (hs : s ≠ 0) : divSigned s d ≠ .byZero := by
  simp only [divSigned, if_neg hs]
  split <;> exact DivOut.noConfusion

/-- Settles O21. -/
theorem productsAndQuotientsAreExact : Obligations.ProductsAndQuotientsAreExact :=
  ⟨fun a b => ⟨mulUnsigned_toNat a b, mulSigned_toInt a b⟩, fun _ _ hs =>
    ⟨fun _ _ => divUnsigned_fits hs, divUnsigned_overflow hs, fun _ _ => divSigned_fits hs, divSigned_overflow hs,
      divUnsigned_ne_byZero hs, divSigned_ne_byZero hs⟩⟩

/-! ### Decimal arithmetic (O22) -/

/-- Two decimal digits stand for their number. -/
theorem bcd_decimal : ∀ n < 100, isBcd (bcd n) = true ∧ dec (bcd n) = n := by decide

theorem dec_lt_of_isBcd {b : Byte} (h : isBcd b = true) : dec b < 100 := by
  simp only [isBcd, decide_eq_true_eq] at h
  simp only [dec]
  omega

/-- The result of a decimal operation on decimal operands. -/
theorem bcdResult_valid {op : BcdOp} {s d : Byte} (f : Ccr) (n v : Bool) (h : bcdValid op s d = true) :
    bcdResult op s d f n v = ((bcdExact op s d f.x).1,
      ⟨(bcdExact op s d f.x).2, n, stickyZ (bcdExact op s d f.x).1 f.z, v, (bcdExact op s d f.x).2⟩) := by
  rw [bcdResult, if_pos h]

/-- Settles O22. -/
theorem decimalArithmetic : Obligations.DecimalArithmetic := by
  intro s d f n v hs hd a b c x
  have hslt := dec_lt_of_isBcd hs
  have hdlt := dec_lt_of_isBcd hd
  have hx : x ≤ 1 := f.x.toNat_le
  have ha : a = _ := bcdResult_valid (op := .abcd) (s := s) (d := d) f n v (by simp [bcdValid, hs, hd])
  have hb : b = _ := bcdResult_valid (op := .sbcd) (s := s) (d := d) f n v (by simp [bcdValid, hs, hd])
  have hc : c = _ := bcdResult_valid (op := .nbcd) (s := 0) (d := d) f n v hd
  have hdec := fun k => bcd_decimal (k % 100) (Nat.mod_lt _ (by decide))
  refine ⟨?_, ?_, ?_, ?_⟩
  · rw [ha]
    exact ⟨(hdec _).1, (hdec _).2, rfl⟩
  · rw [hb]
    have hval : dec (bcdExact .sbcd s d f.x).1 = (dec d + 200 - dec s - x) % 100 := (hdec _).2
    refine ⟨(hdec _).1, ?_, rfl⟩
    rw [hval]
    omega
  · rw [hc]
    have hval : dec (bcdExact .nbcd 0 d f.x).1 = (200 - dec d - x) % 100 := (hdec _).2
    refine ⟨(hdec _).1, ?_, rfl⟩
    rw [hval]
    omega
  · intro o ho
    simp only [List.mem_cons, List.not_mem_nil, or_false] at ho
    rcases ho with rfl | rfl | rfl
    · rw [ha]; exact ⟨rfl, rfl⟩
    · rw [hb]; exact ⟨rfl, rfl⟩
    · rw [hc]; exact ⟨rfl, rfl⟩

end Sys2Proof.Machine
end

section
/-! The pair forms and the divides (O37, O38, O40). -/

namespace Sys2Proof.Machine

/-! ### The pair forms (O37, O38) -/

/-- The register form: the low part of `Dx`. -/
theorem opPair_regs {s t : State} {rx ry : RegNum} {sz : Size} {r : BitVec sz.bits} {fl : Ccr}
    {f : BitVec sz.bits → BitVec sz.bits → Ccr → Exec (BitVec sz.bits × Ccr)}
    (hf : f (low sz (s.getD ry)) (low sz (s.getD rx)) s.sr.ccr (s.completed 0) = .ok (r, fl) t) :
    opPair sz f .regs ry rx (s.completed 0) = .ok () ((t.putLow sz rx r).setCcr fl) := by
  have hread : readEa sz (.dn ry) (s.completed 0) = .ok (low sz (s.getD ry)) (s.completed 0) := rfl
  have hdecode : decodeEa sz (.dn rx) (s.completed 0) = .ok (.dreg rx) (s.completed 0) := rfl
  have hloc : readLoc sz (.dreg rx) (s.completed 0) = .ok (low sz (s.getD rx)) (s.completed 0) := rfl
  simp only [opPair]
  rw [Exec.bind_ok hread, Exec.bind_ok hdecode, Exec.bind_ok hloc, look_bind, State.completed_sr, Exec.bind_ok hf]
  exact thenFlags_ok rfl

/-- Decoding a predecrement: the address is what the step leaves. -/
theorem decodeEa_predec (s : State) (sz : Size) (n : RegNum) :
    decodeEa sz (.predec n) s = .ok (.mem (s.getA n - stepSize n sz) .data true) (eaTouch sz (.predec n) s) := rfl

/-- The memory form: the source register steps and is read first. -/
theorem opPair_predec {s u : State} {rx ry : RegNum} {sz : Size} {r : BitVec sz.bits} {fl : Ccr}
    {f : BitVec sz.bits → BitVec sz.bits → Ccr → Exec (BitVec sz.bits × Ccr)}
    (ha : s.canRead sz (s.getA ry - stepSize ry sz))
    (hb : s.canRead sz ((eaTouch sz (.predec ry) (s.completed 0)).getA rx - stepSize rx sz))
    (hw : s.canWrite sz ((eaTouch sz (.predec ry) (s.completed 0)).getA rx - stepSize rx sz))
    (hf : f (s.mem.valueAt sz (s.getA ry - stepSize ry sz))
      (s.mem.valueAt sz ((eaTouch sz (.predec ry) (s.completed 0)).getA rx - stepSize rx sz)) s.sr.ccr
      (eaTouch sz (.predec rx) (eaTouch sz (.predec ry) (s.completed 0))) = .ok (r, fl) u)
    (hmap : u.memMap = s.memMap) (hmem : u.mem = s.mem) :
    ∃ m, opPair sz f .predec ry rx (s.completed 0) = .ok () ((u.setMem m).setCcr fl) ∧
      Stored s.mem m sz ((eaTouch sz (.predec ry) (s.completed 0)).getA rx - stepSize rx sz) r := by
  have hsrc := readLoc_ok (s := eaTouch sz (.predec ry) (s.completed 0))
    (loc := .mem ((s.completed 0).getA ry - stepSize ry sz) .data true) ((State.canRead_congr (by simp) _ _).2 ha)
  have hdst := readLoc_ok (s := eaTouch sz (.predec rx) (eaTouch sz (.predec ry) (s.completed 0)))
    (loc := .mem ((eaTouch sz (.predec ry) (s.completed 0)).getA rx - stepSize rx sz) .data true)
    ((State.canRead_congr (by simp) _ _).2 hb)
  simp only [locValue, eaTouch_mem, State.completed_mem, State.completed_getA] at hsrc hdst
  have hread : readEa sz (.predec ry) (s.completed 0) = _ := (Exec.bind_ok (decodeEa_predec _ _ _)).trans hsrc
  have hwrite := memWrite_eq (s := u) true r ((State.canWrite_congr hmap _ _).2 hw)
  rw [hmem] at hwrite
  refine ⟨_, ?_, s.mem.putValue_stored sz true _ r⟩
  simp only [opPair]
  rw [Exec.bind_ok hread, Exec.bind_ok (decodeEa_predec _ _ _), Exec.bind_ok hdst, look_bind, eaTouch_sr, eaTouch_sr,
    State.completed_sr, Exec.bind_ok hf]
  exact thenFlags_ok hwrite

/-- Settles O37. -/
theorem extendedArithmetic : Obligations.ExtendedArithmetic := by
  rintro s rx ry sz i op fl x (⟨rfl, rfl, rfl⟩ | ⟨rfl, rfl, rfl⟩) out
  · refine ⟨exec_next (body := opPair sz (drawsNothing aluAddx) .regs ry rx) rfl (opPair_regs rfl), fun ha hb hw => ?_⟩
    obtain ⟨m, hm, hs⟩ := opPair_predec (f := drawsNothing aluAddx) ha hb hw rfl (by simp) (by simp)
    exact ⟨m, exec_next rfl hm, hs⟩
  · refine ⟨exec_next (body := opPair sz (drawsNothing aluSubx) .regs ry rx) rfl (opPair_regs rfl), fun ha hb hw => ?_⟩
    obtain ⟨m, hm, hs⟩ := opPair_predec (f := drawsNothing aluSubx) ha hb hw rfl (by simp) (by simp)
    exact ⟨m, exec_next rfl hm, hs⟩

theorem decimal_ok (op : BcdOp) (a b : Byte) (c : Ccr) (s : State) :
    decimal op a b c s = .ok (bcdResult op a b c (Config.freeBit s.draws) (Config.freeBit s.nextDraw.draws))
      s.nextDraw.nextDraw := rfl

/-- `ABCD` and `SBCD`. -/
theorem exec_decimal_pair {s : State} {rx ry : RegNum} {i : RegNum → PairForm → RegNum → Instr} {op : BcdOp}
    (hi : ∀ form, exec (i rx form ry) s = runInstr (opPair .b (decimal op) form ry rx) s) :
    (∃ n v, let o := bcdResult op ((s.getD ry).setWidth 8) ((s.getD rx).setWidth 8) s.sr.ccr n v
      exec (i rx .regs ry) s = .next (((s.completed 0).nextDraw.nextDraw.putLow .b rx o.1).setCcr o.2)) ∧
    (let t := eaTouch .b (.predec ry) (s.completed 0)
     let a := s.getA ry - stepSize ry .b
     let b := t.getA rx - stepSize rx .b
     s.canRead .b a → s.canRead .b b → s.canWrite .b b →
     ∃ n v m, let o := bcdResult op (s.mem.byteAt a) (s.mem.byteAt b) s.sr.ccr n v
       exec (i rx .predec ry) s = .next (((eaTouch .b (.predec rx) t).nextDraw.nextDraw.setMem m).setCcr o.2) ∧
         Stored s.mem m .b b o.1) := by
  refine ⟨⟨_, _, exec_next (hi .regs) (opPair_regs (decimal_ok op _ _ _ _))⟩, fun ha hb hw => ?_⟩
  obtain ⟨m, hm, hs⟩ := opPair_predec ha hb hw (decimal_ok op _ _ _ _) (by simp) (by simp)
  exact ⟨_, _, m, exec_next (hi .predec) hm, hs⟩

/-- `NBCD`. -/
theorem exec_nbcd {s : State} {ea : Ea} (he : s.extReady (eaWords .b ea)) (hr : LocReadable s .b (s.operand 0 .b ea))
    (hw : LocWritable s .b (s.operand 0 .b ea)) :
    ∃ n v t, let o := bcdResult .nbcd 0 (locValue s .b (s.operand 0 .b ea)) s.sr.ccr n v
      exec (.nbcd ea) s = .next (t.setCcr o.2) ∧
        LocWritten (eaTouch .b ea (s.completed (eaWords .b ea))).nextDraw.nextDraw .b (s.operand 0 .b ea) o.1 t := by
  have hread := readLoc_ok (operand_touch_readable (n := eaWords .b ea) hr)
  rw [locValue_touch_completed] at hread
  let u := eaTouch .b ea (s.completed (eaWords .b ea))
  obtain ⟨t, ht, hwr⟩ := writeLoc_ok (s := u.nextDraw.nextDraw)
    (bcdResult .nbcd 0 (locValue s .b (s.operand 0 .b ea)) s.sr.ccr (Config.freeBit u.draws) (Config.freeBit u.nextDraw.draws)).1
    ((LocWritable_congr (by simp [u]) _ _).2 hw)
  refine ⟨_, _, t, exec_next rfl ?_, hwr⟩
  rw [Exec.bind_ok (decodeEa_start he), Exec.bind_ok hread, look_bind, eaTouch_sr, State.completed_sr,
    Exec.bind_ok (decimal_ok _ _ _ _ _)]
  exact thenFlags_ok ht

/-- Settles O38. -/
theorem decimalInstructions : Obligations.DecimalInstructions := by
  rintro s rx ry ea i op (⟨rfl, rfl⟩ | ⟨rfl, rfl⟩)
  · obtain ⟨hregs, hmem⟩ := exec_decimal_pair (s := s) (rx := rx) (ry := ry) (i := .abcd) (op := .abcd) fun _ => rfl
    exact ⟨hregs, hmem, exec_nbcd⟩
  · obtain ⟨hregs, hmem⟩ := exec_decimal_pair (s := s) (rx := rx) (ry := ry) (i := .sbcd) (op := .sbcd) fun _ => rfl
    exact ⟨hregs, hmem, exec_nbcd⟩

/-! ### The divides (O40) -/

/-- An exception of group 2 that an instruction raises in the state `t`. -/
theorem exec_enters_from {i : Instr} {s t : State} {e : Exc} {body : Exec Unit} (hi : exec i s = runInstr body s)
    (hbody : body (s.completed 0) = .error (.exc e) t) (he : e.isGroup2 = true) (hready : t.entryReady e.vector) :
    ∃ u, exec i s = .next u ∧ Entered t e.vector t.pc u := by
  obtain ⟨u, hu, hentered⟩ := takeException_group2 (ipc := s.pc) he hready
  exact ⟨u, (exec_exc hi hbody).trans (congrArg Host.Outcome.next hu), hentered⟩

section
variable {i : Instr} {s : State} {dn : RegNum} {ea : Ea} {f : Word → Long → DivOut}
  (he : s.extReady (eaWords .w ea)) (hr : LocReadable s .w (s.operand 0 .w ea))
include he hr

theorem opDiv_fits {q r : Word} (hf : f (locValue s .w (s.operand 0 .w ea)) (s.getD dn) = .fits q r) :
    opDiv f dn ea (s.completed 0) = .ok () (((eaTouch .w ea (s.completed (eaWords .w ea))).putD dn (r ++ q)).setCcr
      ⟨s.sr.ccr.x, q.msb, q == 0, false, false⟩) := by
  rw [opDiv, Exec.bind_ok (readEa_start he hr), look_bind, look_bind, eaTouch_getD, eaTouch_sr, State.completed_getD,
    State.completed_sr, hf]
  rfl

theorem opDiv_overflow (hf : f (locValue s .w (s.operand 0 .w ea)) (s.getD dn) = .overflow) :
    let t := eaTouch .w ea (s.completed (eaWords .w ea))
    opDiv f dn ea (s.completed 0) = .ok () (t.nextDraw.nextDraw.setCcr
      ⟨s.sr.ccr.x, Config.freeBit t.draws, Config.freeBit t.nextDraw.draws, true, false⟩) := by
  intro t
  rw [opDiv, Exec.bind_ok (readEa_start he hr), look_bind, look_bind, eaTouch_getD, eaTouch_sr, State.completed_getD,
    State.completed_sr, hf]
  rfl

theorem opDiv_byZero (hf : f (locValue s .w (s.operand 0 .w ea)) (s.getD dn) = .byZero) :
    let t := eaTouch .w ea (s.completed (eaWords .w ea))
    opDiv f dn ea (s.completed 0) = .error (.exc .zeroDivide) (t.nextDraw.nextDraw.nextDraw.setCcr
      ⟨s.sr.ccr.x, Config.freeBit t.draws, Config.freeBit t.nextDraw.draws, Config.freeBit t.nextDraw.nextDraw.draws, false⟩) := by
  intro t
  rw [opDiv, Exec.bind_ok (readEa_start he hr), look_bind, look_bind, eaTouch_getD, eaTouch_sr, State.completed_getD,
    State.completed_sr, hf]
  rfl

variable (hi : exec i s = runInstr (opDiv f dn ea) s)
include hi

theorem exec_div_byZero (hf : f (locValue s .w (s.operand 0 .w ea)) (s.getD dn) = .byZero)
    (hready : (eaTouch .w ea (s.completed (eaWords .w ea))).entryReady 5) :
    ∃ n z o u, exec i s = .next u ∧
      Entered ((eaTouch .w ea (s.completed (eaWords .w ea))).nextDraw.nextDraw.nextDraw.setCcr ⟨s.sr.ccr.x, n, z, o, false⟩) 5
        (s.afterWords (eaWords .w ea)) u := by
  generalize ht : eaTouch .w ea (s.completed (eaWords .w ea)) = t at hready ⊢
  have hpc : t.pc = s.afterWords (eaWords .w ea) := by simp [← ht]
  have hbody := opDiv_byZero he hr hf
  rw [ht] at hbody
  have hready' : ∀ c, (t.nextDraw.nextDraw.nextDraw.setCcr c).entryReady 5 := fun c =>
    (State.entryReady_congr (s := t) (t := t.nextDraw.nextDraw.nextDraw.setCcr c) rfl rfl 5).2 hready
  obtain ⟨u, hu, hentered⟩ := exec_enters_from hi hbody rfl (hready' _)
  exact ⟨_, _, _, u, hu, hpc ▸ hentered⟩

end

/-- Settles O40. -/
theorem divideInstructions : Obligations.DivideInstructions := by
  intro s dn ea v t d he hr
  refine ⟨fun hv => ?_, fun hv => ?_, fun hv hready i hi => ?_⟩
  · intro q r
    have hdiv : divUnsigned v d = if 0xFFFF < d.toNat / v.toNat then .overflow else .fits q r := if_neg hv
    split
    · next hfits => exact exec_next rfl (opDiv_fits he hr (hdiv.trans (if_neg (by omega))))
    · next hover => exact ⟨_, _, exec_next rfl (opDiv_overflow he hr (hdiv.trans (if_pos (by omega))))⟩
  · intro e q r
    have hdiv : divSigned v d = if e < -32768 ∨ 32767 < e then .overflow else .fits q r := if_neg hv
    split
    · next hfits => exact exec_next rfl (opDiv_fits he hr (hdiv.trans (if_neg (by omega))))
    · next hover => exact ⟨_, _, exec_next rfl (opDiv_overflow he hr (hdiv.trans (if_pos (by omega))))⟩
  · simp only [List.mem_cons, List.not_mem_nil, or_false] at hi
    rcases hi with rfl | rfl
    · exact exec_div_byZero (f := divUnsigned) he hr rfl (if_pos hv) hready
    · exact exec_div_byZero (f := divSigned) he hr rfl (if_pos hv) hready

end Sys2Proof.Machine
end

section
/-! The step: reset, the fetch and decoding, the trace and interrupt stages, and waiting (O3 to O9). -/

namespace Sys2Proof.Machine

/-! ### Reset (O3) -/

theorem processReset_ok {s : State} (h0 : s.canRead .l 0) (h4 : s.canRead .l 4) :
    processReset s = .ok ()
      ((((s.setSr { s.sr with t := false, s := true, i := 7 }).setRun .running).setSsp (s.mem.longAt 0)).jumpTo
        (s.mem.longAt 4)) := by
  let u := (s.setSr { s.sr.forHandler with i := 7 }).setRun .running
  have hssp : memRead .l .program 0 u = .ok (s.mem.longAt 0) u :=
    memRead_ok (s := u) .program ((State.canRead_congr rfl _ _).2 h0)
  have hpc : memRead .l .program 4 (u.setSsp (s.mem.longAt 0)) = .ok (s.mem.longAt 4) (u.setSsp (s.mem.longAt 0)) :=
    memRead_ok (s := u.setSsp (s.mem.longAt 0)) .program ((State.canRead_congr rfl _ _).2 h4)
  rw [processReset, update_bind, Exec.bind_ok hssp, update_bind, Exec.bind_ok hpc]
  rfl

/-- A word cycle of which the platform leaves a byte unanswered. -/
theorem cycleReadWord_unanswered {s : State} {acc : Access} {a : Long} (h : s.answersRead [a, a + 1] = false) :
    cycleReadWord acc a s = .error (.mem ⟨.bus, acc⟩) s := by
  rw [cycleReadWord, look_bind, h]
  rfl

theorem processReset_unanswered {s : State} (h : s.readAnswer 0 = .busError) : ∃ r t, processReset s = .error r t := by
  let u := (s.setSr { s.sr.forHandler with i := 7 }).setRun .running
  have hans : u.answersRead [0, 0 + 1] = false := by
    have h0 : u.readAnswer (physAddr 0) = .busError := h
    simp only [State.answersRead, List.all_cons, h0]
    rfl
  have hread : memRead .l .program 0 u = .error (.mem ⟨.bus, ⟨0, false, .program⟩⟩) u := by
    rw [memRead, Exec.bind_ok (checkAligned_ok (by rfl))]
    exact Exec.bind_error (cycleReadWord_unanswered hans)
  exact ⟨_, u, Exec.bind_error (f := fun v => update (·.setSsp v) >>= fun _ =>
    memRead .l .program 4 >>= fun target => update (·.jumpTo target)) hread⟩

/-- Settles O3. -/
theorem externalResetLoadsVectors : Obligations.ExternalResetLoadsVectors := by
  intro s hline
  have hstep : step s = .next (externalReset s) := by rw [step, if_pos hline]
  refine ⟨fun h0 h4 => ?_, fun h => ?_⟩
  · rw [hstep, externalReset, processReset_ok h0 h4]
  · obtain ⟨r, t, e⟩ := processReset_unanswered h
    refine ⟨_, hstep, ?_⟩
    rw [externalReset, e]
    rfl

/-! ### The step of a running processor (O4, O5, O9) -/

section
variable {s : State} (hline : s.resetLine = false)
include hline

theorem step_halted (hrun : s.run = .halted) : step s = .next s := by
  rw [step, hline, hrun]
  rfl

theorem step_stopped (hrun : s.run = .stopped) : step s = .next (interruptStage s) := by
  rw [step, hline, hrun]
  rfl

theorem step_running (hrun : s.run = .running) (hstale : s.stale = []) (hfetch : s.canFetch s.pc 5) :
    step s = afterExec s.mem (execWords s.codeWords (s.setIr (s.mem.wordAt s.pc))) := by
  simp only [step, hline, hrun, fetchWords_ok hstale hfetch, Bool.false_eq_true, if_false]
  cases execWords s.codeWords (s.setIr (s.mem.wordAt s.pc)) <;> rfl

theorem step_decoded (hrun : s.run = .running) (hstale : s.stale = []) (hfetch : s.canFetch s.pc 5) {i : Instr}
    {rest : List Word} (hdecode : decode s.codeWords = .ok (i, rest)) :
    step s = afterExec s.mem (exec i (s.setIr (s.mem.wordAt s.pc))) := by
  rw [step_running hline hrun hstale hfetch, execWords, hdecode]

end

/-- Settles O4. -/
theorem stepRunsDecodedInstruction : Obligations.StepRunsDecodedInstruction :=
  fun _ _ _ hline hrun hstale hfetch hdecode => step_decoded hline hrun hstale hfetch hdecode

/-- Settles O5. -/
theorem undecodedWordIsIllegal : Obligations.UndecodedWordIsIllegal := by
  intro s hline hrun hstale hfetch hready hdecode
  obtain ⟨t, ht, hentered⟩ := takeException_group1 (ipc := s.pc) (e := .illegalInstruction)
    (s := (s.setIr (s.mem.wordAt s.pc)).completed 0) rfl ((State.entryReady_congr rfl rfl _).2 hready)
  refine ⟨t, ?_, hentered⟩
  have hexec : execIllegalWord (s.setIr (s.mem.wordAt s.pc)) = .next (t.setTraceDue false) := by
    rw [execIllegalWord, runInstr_exc (fail_apply _ _), ← ht]
    rfl
  rw [step_running hline hrun hstale hfetch, execWords, hdecode, hexec]
  rfl

/-- Settles O9. -/
theorem wordsDecode : Obligations.WordsDecode := by
  refine ⟨?_, ?_, ?_, ?_, ?_, ?_⟩ <;> decide

/-! ### Trace and interrupt (O7, O8) -/

theorem setTraceDue_of_not_due {s : State} (h : s.traceDue = false) : s.setTraceDue false = s := by
  rw [← h]
  rfl

theorem traceStage_not_due {s : State} (h : s.traceDue = false) : traceStage s = s := by
  rw [traceStage, h]
  exact setTraceDue_of_not_due h

theorem traceStage_due {s : State} (hdue : s.traceDue = true) (hrun : s.run ≠ .halted) (hready : s.entryReady 9) :
    ∃ t, traceStage s = t.setTraceDue false ∧ Entered (s.setRun .running) 9 s.pc t := by
  obtain ⟨t, ht, hentered⟩ := processException_ok (s := s.setRun .running) (v := 9) s.pc
    ((State.entryReady_congr rfl rfl _).2 hready)
  refine ⟨t, ?_, hentered⟩
  rw [traceStage, if_pos (by simp [hdue, hrun]), takeEntry_ok ht]

theorem interruptStage_not_acceptable {s : State} (h : s.interruptAcceptable = false) :
    interruptStage s = s.setPrevIpl s.ipl := by
  rw [interruptStage, h]
  rfl

theorem interruptStage_acceptable {s : State} (h : s.interruptAcceptable = true)
    (hready : s.entryReady (ackVector s.ipl s.intAck[s.ipl.toFin])) :
    ∃ t, interruptStage s = t.setPrevIpl s.ipl ∧
      EnteredAs (s.setRun .running) { s.sr with t := false, s := true, i := s.ipl }
        (ackVector s.ipl s.intAck[s.ipl.toFin]) s.pc t := by
  obtain ⟨t, ht, hentered⟩ := processInterrupt_ok (s := s.setRun .running) s.ipl
    ((State.entryReady_congr rfl rfl _).2 hready)
  refine ⟨t, ?_, hentered⟩
  rw [interruptStage, h, if_pos rfl, takeEntry_ok ht]

/-- What a request has to be, where the processor is not halted (R362, R363). -/
theorem interruptAcceptable_iff {s : State} (hrun : s.run ≠ .halted) :
    s.interruptAcceptable = true ↔ s.sr.i.ult s.ipl = true ∨ (s.ipl = 7 ∧ s.prevIpl ≠ 7) := by
  simp [State.interruptAcceptable, intAcceptable, hrun]

theorem interruptAcceptable_eq_false {s : State} (h : ¬ (s.sr.i.ult s.ipl = true ∨ (s.ipl = 7 ∧ s.prevIpl ≠ 7))) :
    s.interruptAcceptable = false := by
  by_cases hrun : s.run = .halted
  · simp [State.interruptAcceptable, hrun]
  · exact Bool.eq_false_iff.2 fun e => h ((interruptAcceptable_iff hrun).1 e)

/-- Settles O7. -/
theorem interruptEntersHandler : Obligations.InterruptEntersHandler := by
  unfold Obligations.InterruptEntersHandler
  intro requested vector entered
  have hvector : ∀ s, vector s = ackVector s.ipl s.intAck[s.ipl.toFin] := fun s => by
    simp only [vector]
    cases s.intAck[s.ipl.toFin] <;> rfl
  have hentered : ∀ s : State, s.run ≠ .halted → requested s → s.entryReady (vector s) →
      entered s (interruptStage s) := by
    intro s hrun hreq hready
    obtain ⟨t, ht, h⟩ := interruptStage_acceptable ((interruptAcceptable_iff hrun).2 hreq) (hvector s ▸ hready)
    exact ⟨t, ht, (hvector s).symm ▸ h⟩
  have hpending : ∀ s : State, ¬ requested s → interruptStage s = s.setPrevIpl s.ipl := fun s hreq =>
    interruptStage_not_acceptable (interruptAcceptable_eq_false hreq)
  refine ⟨fun s hrun => ⟨hentered s hrun, hpending s⟩, ?_, ?_⟩
  · intro s u i rest hline hrun hstale hfetch hdecode hexec hdue hhalt hreq hready
    refine ⟨_, ?_, hentered (noteStale s.mem u) hhalt hreq hready⟩
    rw [step_decoded hline hrun hstale hfetch hdecode, hexec, afterExec, afterInstr,
      traceStage_not_due (s := noteStale s.mem u) hdue]
  · intro s hline hrun hreq hready
    exact ⟨_, step_stopped hline hrun, hentered s (by rw [hrun]; exact RunState.noConfusion) hreq hready⟩

/-- Settles O8. -/
theorem traceFollowsInstruction : Obligations.TraceFollowsInstruction := by
  intro s u i rest hline hrun hstale hfetch hdecode hexec hdue hhalt hready
  obtain ⟨t, ht, hentered⟩ := traceStage_due (s := noteStale s.mem u) hdue hhalt
    ((State.entryReady_congr rfl rfl _).2 hready)
  refine ⟨t, ?_, hentered⟩
  rw [step_decoded hline hrun hstale hfetch hdecode, hexec, afterExec, afterInstr, ht]

/-! ### Waiting (O6) -/

/-- A halted machine stays as it is under whatever levels come. -/
theorem stepsUnder_halted (ls : List (BitVec 3)) {s : State} (hline : s.resetLine = false) (hrun : s.run = .halted) :
    ∃ l, stepsUnder ls s = .next (s.setIpl l) := by
  induction ls generalizing s with
  | nil => exact ⟨s.ipl, rfl⟩
  | cons l ls ih =>
    obtain ⟨l', h⟩ := ih (s := s.setIpl l) hline hrun
    refine ⟨l', ?_⟩
    rw [stepsUnder, step_halted (s := s.setIpl l) hline hrun]
    exact h

/-- A stopped one only notes levels none of which is acceptable. -/
theorem stepsUnder_stopped (ls : List (BitVec 3)) {s : State} (hline : s.resetLine = false) (hrun : s.run = .stopped)
    (hnone : noneAcceptable s.sr.i s.prevIpl ls = true) :
    ∃ l p, stepsUnder ls s = .next ((s.setIpl l).setPrevIpl p) := by
  induction ls generalizing s with
  | nil => exact ⟨s.ipl, s.prevIpl, rfl⟩
  | cons l ls ih =>
    simp only [noneAcceptable, Bool.and_eq_true, Bool.not_eq_true'] at hnone
    obtain ⟨hl, hls⟩ := hnone
    have hacc : (s.setIpl l).interruptAcceptable = false := by
      rw [State.interruptAcceptable]
      exact Bool.and_eq_false_imp.2 fun _ => hl
    obtain ⟨l', p, h⟩ := ih (s := (s.setIpl l).setPrevIpl l) hline hrun hls
    refine ⟨l', p, ?_⟩
    rw [stepsUnder, step_stopped (s := s.setIpl l) hline hrun, interruptStage_not_acceptable hacc]
    exact h

/-- What the end of a run comes down to where the stop address is not reached. -/
theorem runEnded_cases {s : State} {stop : Option Long} {coming : List (BitVec 3)} (h : s.runEnded stop coming = true)
    (hstop : stop ≠ some s.pc) :
    s.atBranchToSelf = true ∨ s.run = .halted ∨
      s.run = .stopped ∧ noneAcceptable s.sr.i s.prevIpl (s.ipl :: coming) = true := by
  simpa [State.runEnded, hstop, or_assoc] using h

/-- A branch to itself in plain memory is the word 0x60FE there. -/
theorem wordAt_of_atBranchToSelf {s : State} (h : s.atBranchToSelf = true) (hstale : s.stale = []) (hfetch : s.canFetch s.pc 5) :
    s.mem.wordAt s.pc = 0x60FE := by
  simp only [State.atBranchToSelf, fetchOpWord_ok hstale (by simpa using hfetch 0 (by decide)), Bool.and_eq_true, beq_iff_eq] at h
  exact h.2

/-- A transfer of control leaves nothing stale. -/
theorem noteStale_refilled {m : Memory} {s : State} (h : s.refilled = true) : noteStale m s = s.setStale [] := by
  rw [noteStale, h, if_pos rfl]

theorem step_branchToSelf {s : State} (hline : s.resetLine = false) (hrun : s.run = .running) (hstale : s.stale = [])
    (hfetch : s.canFetch s.pc 5) (hword : s.mem.wordAt s.pc = 0x60FE) (htrace : s.sr.t = false)
    (hint : s.interruptAcceptable = false) :
    step s = .next ((((s.setIr 0x60FE).jumpTo s.pc).setTraceDue false).setPrevIpl s.ipl) := by
  have hdecode : decode s.codeWords = .ok (.bra (.short 0xFE), s.codeWords.tail) := by
    rw [State.codeWords, hword]
    exact decodeEncodeRoundTrip (.bra (.short 0xFE)) _ rfl
  have htarget : branchTarget ((s.setIr 0x60FE).pc + 2) (.short 0xFE) = s.pc := by
    show s.pc + 2 + (0xFE#8).signExtend 32 = s.pc
    rw [BitVec.add_assoc]
    exact BitVec.add_zero _
  have hexec : exec (.bra (.short 0xFE)) (s.setIr 0x60FE) = .next (((s.setIr 0x60FE).completed 0).jumpTo s.pc) := by
    rw [exec_bra (fun _ hk => absurd hk (Nat.not_lt_zero _)), htarget]
    rfl
  have hrefilled : noteStale s.mem (((s.setIr 0x60FE).completed 0).jumpTo s.pc) =
      ((s.setIr 0x60FE).jumpTo s.pc).setTraceDue false := by
    rw [noteStale_refilled rfl, ← htrace]
    rfl
  rw [step_decoded hline hrun hstale hfetch hdecode, hword, hexec, afterExec, afterInstr, hrefilled, traceStage_not_due rfl,
    interruptStage_not_acceptable (s := ((s.setIr 0x60FE).jumpTo s.pc).setTraceDue false) hint]
  rfl

/-- Settles O6. -/
theorem haltedAndStoppedWait : Obligations.HaltedAndStoppedWait := by
  intro s hline
  refine ⟨step_halted hline, fun hrun hlow h7 => ?_, fun stop coming hend hstop => ⟨fun hrun => ?_, ?_⟩⟩
  · rw [step_stopped hline hrun, interruptStage_not_acceptable (interruptAcceptable_eq_false (not_or.2 ⟨hlow, h7⟩))]
  · rcases runEnded_cases hend hstop with hbranch | hhalt | ⟨hstopped, hnone⟩
    · simp [State.atBranchToSelf, hrun] at hbranch
    · obtain ⟨l, h⟩ := stepsUnder_halted (s.ipl :: coming) hline hhalt
      exact ⟨l, s.prevIpl, h⟩
    · exact stepsUnder_stopped _ hline hstopped hnone
  · intro hrun hstale hfetch htrace hint
    have hbranch : s.atBranchToSelf = true := by
      rcases runEnded_cases hend hstop with h | h | ⟨h, -⟩
      · exact h
      · exact absurd (h.symm.trans hrun) RunState.noConfusion
      · exact absurd (h.symm.trans hrun) RunState.noConfusion
    exact step_branchToSelf hline hrun hstale hfetch (wordAt_of_atBranchToSelf hbranch hstale hfetch) htrace hint

end Sys2Proof.Machine
end

section
/-! Blocks of memory: `MOVEM` and `MOVEP` (O28 to O30). -/

namespace Sys2Proof.Machine

/-! ### Offsets in a block -/

/-- A store at one offset of a block leaves the values at the others. -/
theorem Memory.putValue_valueAt_other (m : Memory) {sz sz' : Size} (lf : Bool) (a : Long) {j k : Nat} (v : BitVec sz.bits)
    (hd : j + sz.bytes ≤ k ∨ k + sz'.bytes ≤ j) (hj : j + sz.bytes < 2 ^ 24) (hk : k + sz'.bytes < 2 ^ 24) :
    (m.putValue sz lf (a + BitVec.ofNat 32 j) v).valueAt sz' (a + BitVec.ofNat 32 k) = m.valueAt sz' (a + BitVec.ofNat 32 k) :=
  Memory.valueAt_frame (fun _ hp => Memory.putValue_frame m sz lf _ v hp) fun i hi => by
    rw [add_ofNat_ofNat]
    exact not_spans_add a (by omega) hj (by omega)

theorem size_bytes_pos (sz : Size) : 0 < sz.bytes := by cases sz <;> decide

theorem size_bytes_le (sz : Size) : sz.bytes ≤ 4 := by cases sz <;> decide

theorem not_spans_of_sub {a : Long} {j n N p : Nat} (h : ¬ spans a N p) (hN : j + n ≤ N) :
    ¬ spans (a + BitVec.ofNat 32 j) n p := fun e => h (spans_mono e hN)

/-! ### Storing registers (O28) -/

/-- One more register below a stored list. -/
theorem StoredRegs.cons {s : State} {sz : Size} {i : Nat} {is : List Nat} {a : Long} {lf : Bool} {m : Memory}
    (hlen : sz.bytes * (is.length + 1) < 2 ^ 24)
    (h : StoredRegs (s.setMem (s.mem.putValue sz lf a (low sz (s.getReg i)))) sz is (a + BitVec.ofNat 32 sz.bytes) m) :
    StoredRegs s sz (i :: is) a m := by
  have hmul : sz.bytes * (is.length + 1) = sz.bytes + sz.bytes * is.length := by ring
  refine ⟨fun j hj => ?_, fun p hp => ?_⟩
  · match j with
    | 0 =>
      rw [Nat.mul_zero, BitVec.add_zero]
      refine (Memory.valueAt_frame h.frame fun k hk => ?_).trans (Memory.putValue_valueAt _ _ _ _ _)
      exact not_spans_add a (by omega) (by omega) (.inl hk)
    | j + 1 =>
      have hv := h.value j (by simpa using hj)
      rw [add_ofNat_ofNat] at hv
      rw [Nat.mul_succ, Nat.add_comm]
      exact hv
  · rw [List.length_cons, hmul] at hp
    rw [h.frame p (not_spans_of_sub hp (Nat.le_refl _))]
    refine Memory.putValue_frame _ _ _ _ _ fun e => hp ?_
    exact spans_mono (j := 0) (by simpa using e) (by omega)

/-- One more register above a stored list, stored first. -/
theorem StoredRegs.snoc {s : State} {sz : Size} {i : Nat} {is : List Nat} {a : Long} {lf : Bool} {m : Memory}
    (hlen : sz.bytes * (is.length + 1) < 2 ^ 24)
    (h : StoredRegs (s.setMem (s.mem.putValue sz lf (a + BitVec.ofNat 32 (sz.bytes * is.length)) (low sz (s.getReg i))))
      sz is a m) :
    StoredRegs s sz (is ++ [i]) a m := by
  have hmul : sz.bytes * (is.length + 1) = sz.bytes * is.length + sz.bytes := Nat.mul_succ _ _
  refine ⟨fun j hj => ?_, fun p hp => ?_⟩
  · rw [List.length_append, List.length_singleton] at hj
    rcases Nat.lt_or_ge j is.length with hlt | hge
    · rw [List.getElem_append_left hlt]
      exact h.value j hlt
    · obtain rfl : j = is.length := by omega
      rw [List.getElem_append_right (Nat.le_refl _)]
      simp only [Nat.sub_self, List.getElem_singleton]
      refine (Memory.valueAt_frame h.frame fun k hk => ?_).trans (Memory.putValue_valueAt _ _ _ _ _)
      have := not_spans_add a (j := 0) (k := sz.bytes * is.length + k) (n := sz.bytes * is.length) (by omega) (by omega)
        (by omega)
      rwa [BitVec.add_zero, ← add_ofNat_ofNat] at this
  · rw [List.length_append, List.length_singleton, hmul] at hp
    rw [h.frame p fun e => hp (spans_mono (j := 0) (by simpa using e) (by omega))]
    exact Memory.putValue_frame _ _ _ _ _ (not_spans_of_sub hp (Nat.le_refl _))

theorem StoredRegs.nil (s : State) (sz : Size) (a : Long) : StoredRegs s sz [] a s.mem :=
  ⟨fun _ hj => absurd hj (Nat.not_lt_zero _), fun _ _ => rfl⟩

theorem storeUp_ok {sz : Size} (regs : List Nat) {s : State} {a : Long} (hlen : sz.bytes * regs.length < 2 ^ 24)
    (hw : ∀ j < regs.length, s.canWrite sz (a + BitVec.ofNat 32 (sz.bytes * j))) :
    ∃ m, storeUp sz regs a s = .ok () (s.setMem m) ∧ StoredRegs s sz regs a m := by
  induction regs generalizing s a with
  | nil => exact ⟨s.mem, rfl, .nil s sz a⟩
  | cons i is ih =>
    rw [List.length_cons] at hlen hw
    have hfirst := memWrite_eq (s := s) false (low sz (s.getReg i)) (by simpa using hw 0 (by omega))
    obtain ⟨m, hm, hstored⟩ := ih (s := s.setMem (s.mem.putValue sz false a (low sz (s.getReg i))))
      (a := a + BitVec.ofNat 32 sz.bytes) (by rw [Nat.mul_succ] at hlen; omega) fun j hj => by
        rw [add_ofNat_ofNat, Nat.add_comm, ← Nat.mul_succ]
        exact (State.canWrite_congr rfl _ _).2 (hw (j + 1) (by omega))
    refine ⟨m, ?_, hstored.cons hlen⟩
    rw [storeUp, look_bind, Exec.bind_ok hfirst]
    exact hm

theorem storeDown_ok {sz : Size} (regs : List Nat) {s : State} {a : Long} (hlen : sz.bytes * regs.length < 2 ^ 24)
    (hw : ∀ j < regs.length, s.canWrite sz (a - BitVec.ofNat 32 (sz.bytes * regs.length) + BitVec.ofNat 32 (sz.bytes * j))) :
    ∃ m, storeDown sz regs a s = .ok (a - BitVec.ofNat 32 (sz.bytes * regs.length)) (s.setMem m) ∧
      StoredRegs s sz regs.reverse (a - BitVec.ofNat 32 (sz.bytes * regs.length)) m := by
  induction regs generalizing s a with
  | nil =>
    rw [List.length_nil, Nat.mul_zero, BitVec.sub_zero]
    exact ⟨s.mem, rfl, .nil s sz a⟩
  | cons i is ih =>
    rw [List.length_cons] at hlen hw ⊢
    have hbase : a - BitVec.ofNat 32 (sz.bytes * (is.length + 1)) =
        a - BitVec.ofNat 32 sz.bytes - BitVec.ofNat 32 (sz.bytes * is.length) := by
      rw [Nat.mul_succ, Nat.add_comm, BitVec.ofNat_add, sub_add_eq_sub_sub]
    have htop : a - BitVec.ofNat 32 sz.bytes =
        a - BitVec.ofNat 32 sz.bytes - BitVec.ofNat 32 (sz.bytes * is.length) + BitVec.ofNat 32 (sz.bytes * is.length) :=
      (BitVec.sub_add_cancel _ _).symm
    rw [hbase] at hw ⊢
    have hfirst := memWrite_eq (s := s) (a := a - BitVec.ofNat 32 sz.bytes) true (low sz (s.getReg i))
      (by rw [htop]; exact hw is.length (by omega))
    obtain ⟨m, hm, hstored⟩ := ih
      (s := s.setMem (s.mem.putValue sz true (a - BitVec.ofNat 32 sz.bytes) (low sz (s.getReg i))))
      (a := a - BitVec.ofNat 32 sz.bytes) (by rw [Nat.mul_succ] at hlen; omega)
      fun j hj => (State.canWrite_congr rfl _ _).2 (hw j (by omega))
    refine ⟨m, ?_, ?_⟩
    · rw [storeDown, look_bind, Exec.bind_ok hfirst]
      exact hm
    · rw [List.reverse_cons]
      refine StoredRegs.snoc (lf := true) (by rwa [List.length_reverse]) ?_
      rwa [List.length_reverse, ← htop]

/-- The reversed mask lists its registers from the top down. -/
theorem maskRegsDown_eq (mask : Word) :
    maskRegsDown mask = ((List.range 16).filter fun i => mask.getLsbD (15 - i)).reverse := by
  have hrange : (List.range 16).reverse = (List.range 16).map fun i => 15 - i := by decide
  rw [← List.filter_reverse, hrange, List.filter_map, maskRegsDown]
  refine congrArg _ (List.filter_congr fun i hi => ?_)
  have : i < 16 := List.mem_range.1 hi
  rw [Function.comp_apply, show 15 - (15 - i) = i by omega]

/-- A list of some of sixteen registers is a short block. -/
theorem regs_block (sz : Size) (p : Nat → Bool) : sz.bytes * ((List.range 16).filter p).length < 2 ^ 24 := by
  have hle : ((List.range 16).filter p).length ≤ 16 := (List.length_filter_le _ _).trans (by simp)
  have := Nat.mul_le_mul (size_bytes_le sz) hle
  omega

theorem exec_movemStore_predec {s : State} {sz : Size} {mask : Word} {n : RegNum} (he : s.extReady 1)
    (hw : ∀ j < (maskRegsDown mask).length, s.canWrite sz
      (s.getA n - BitVec.ofNat 32 (sz.bytes * (maskRegsDown mask).length) + BitVec.ofNat 32 (sz.bytes * j)))
    (hlen : sz.bytes * (maskRegsDown mask).length < 2 ^ 24) :
    ∃ m, exec (.movemStore sz mask (.predec n)) s = .next (((s.completed 1).setMem m).putA n
        (s.getA n - BitVec.ofNat 32 (sz.bytes * (maskRegsDown mask).length))) ∧
      StoredRegs s sz (maskRegsDown mask).reverse (s.getA n - BitVec.ofNat 32 (sz.bytes * (maskRegsDown mask).length)) m := by
  obtain ⟨m, hm, hstored⟩ := storeDown_ok (maskRegsDown mask) (s := s.completed 1) hlen hw
  refine ⟨m, exec_next rfl ?_, hstored.value, hstored.frame⟩
  rw [Exec.bind_ok (fetchExt_start he)]
  exact Exec.bind_ok hm

theorem exec_movemStore_control {s : State} {sz : Size} {mask : Word} {ea : Ea} {a : Long} {space : Space} {lf : Bool}
    (hc : ea.isControl = true) (ha : s.operand 1 sz ea = .mem a space lf) (he : s.extReady (1 + eaWords sz ea))
    (hw : ∀ j < (maskRegs mask).length, s.canWrite sz (a + BitVec.ofNat 32 (sz.bytes * j))) :
    ∃ m, exec (.movemStore sz mask ea) s = .next ((s.completed (1 + eaWords sz ea)).setMem m) ∧
      StoredRegs s sz (maskRegs mask) a m := by
  obtain ⟨m, hm, hstored⟩ := storeUp_ok (maskRegs mask) (s := s.completed (1 + eaWords sz ea)) (regs_block sz _) hw
  refine ⟨m, ?_, hstored.value, hstored.frame⟩
  have hbody : (decodeEa sz ea >>= fun loc => addrOf loc >>= fun a => storeUp sz (maskRegs mask) a) (s.completed 1) =
      .ok () ((s.completed (1 + eaWords sz ea)).setMem m) := by
    rw [Exec.bind_ok (decodeEa_completed he), ha, eaTouch_control hc]
    exact hm
  cases ea with
  | dn n | an n | postinc n | predec n | imm v => exact nomatch hc
  | _ => exact exec_next rfl ((Exec.bind_ok (fetchExt_start (extReady_mono he (by omega)))).trans hbody)

/-- Settles O28. -/
theorem movemStoresRegisters : Obligations.MovemStoresRegisters := by
  refine fun s sz mask _ => ⟨fun n => ?_, fun ea a space lf hc ha => ?_⟩
  · intro regs a he hw
    have hregs : (maskRegsDown mask).reverse = regs := by rw [maskRegsDown_eq, List.reverse_reverse]
    have hlen : (maskRegsDown mask).length = regs.length := by rw [← hregs, List.length_reverse]
    have h := exec_movemStore_predec (s := s) (sz := sz) (mask := mask) (n := n) he
    rw [hlen, hregs] at h
    exact h hw (regs_block sz _)
  · intro regs he hw
    exact exec_movemStore_control hc ha he hw

/-! ### Loading registers (O29) -/

@[simp] theorem putReg_mem (s : State) (i : Nat) (v : Long) : (s.putReg i v).mem = s.mem := by
  unfold State.putReg
  split
  · rfl
  · simp

@[simp] theorem putReg_memMap (s : State) (i : Nat) (v : Long) : (s.putReg i v).memMap = s.memMap := by
  unfold State.putReg
  split
  · rfl
  · simp

theorem loadUp_ok {sz : Size} {space : Space} (m : Memory) (regs : List Nat) {s : State} {a : Long} (hm : s.mem = m)
    (hr : ∀ j < regs.length, s.canRead sz (a + BitVec.ofNat 32 (sz.bytes * j))) :
    loadUp sz space regs a s = .ok (a + BitVec.ofNat 32 (sz.bytes * regs.length)) (loadedRegs m sz regs a s) := by
  induction regs generalizing s a with
  | nil =>
    rw [List.length_nil, Nat.mul_zero, BitVec.add_zero]
    rfl
  | cons i is ih =>
    rw [List.length_cons] at hr
    have hfirst := memRead_ok (s := s) space (by simpa using hr 0 (by omega))
    rw [loadUp, Exec.bind_ok hfirst, update_bind, hm, ih (s := s.putReg i _) (by rw [putReg_mem, hm]) fun j hj => ?_]
    · rw [add_ofNat_ofNat, List.length_cons, Nat.mul_succ, Nat.add_comm sz.bytes]
      rfl
    · rw [add_ofNat_ofNat, Nat.add_comm, ← Nat.mul_succ]
      exact (State.canRead_congr (putReg_memMap _ _ _) _ _).2 (hr (j + 1) (by omega))

theorem loadedRegs_memMap (m : Memory) (sz : Size) (regs : List Nat) (a : Long) (s : State) :
    (loadedRegs m sz regs a s).memMap = s.memMap := by
  induction regs generalizing a s with
  | nil => rfl
  | cons i is ih => rw [loadedRegs, ih, putReg_memMap]

/-- The transfers and the read past the last one. -/
theorem loadUp_unlistedRead {s : State} {sz : Size} {space : Space} {regs : List Nat} {a : Long} {k : Nat}
    (hr : ∀ j < regs.length, s.canRead sz (a + BitVec.ofNat 32 (sz.bytes * j)))
    (hpast : s.reachesDevice .w (a + BitVec.ofNat 32 (sz.bytes * regs.length)) = false ∨
      LocAnswered s .w (.mem (a + BitVec.ofNat 32 (sz.bytes * regs.length)) space false)) :
    loadUp sz space regs a (s.completed k) =
      .ok (a + BitVec.ofNat 32 (sz.bytes * regs.length)) (loadedRegs s.mem sz regs a (s.completed k)) ∧
    unlistedRead .w space (a + BitVec.ofNat 32 (sz.bytes * regs.length)) (loadedRegs s.mem sz regs a (s.completed k)) =
      .ok () ((loadedRegs s.mem sz regs a (s.completed k)).afterUnlistedRead .w
        (.mem (a + BitVec.ofNat 32 (sz.bytes * regs.length)) space false)) := by
  have hmap : (loadedRegs s.mem sz regs a (s.completed k)).memMap = s.memMap := loadedRegs_memMap _ _ _ _ _
  refine ⟨loadUp_ok s.mem regs rfl hr, unlistedRead_ok (hpast.imp (fun h => ?_) fun h => (LocAnswered_congr hmap _ _).2 h)⟩
  simpa only [State.reachesDevice, State.isDevice, State.readAnswer, State.writeAnswer, hmap] using h

/-- Settles O29. -/
theorem movemLoadsRegisters : Obligations.MovemLoadsRegisters := by
  intro s sz mask _ regs past answered loaded
  refine ⟨fun n he hr hpast => ?_, fun ea a space lf hc ha he hr hpast => ?_⟩
  · obtain ⟨hload, hread⟩ := loadUp_unlistedRead (k := 1) hr hpast
    refine exec_next rfl ?_
    rw [Exec.bind_ok (fetchExt_start he)]
    exact (Exec.bind_ok hload).trans (Exec.bind_ok hread)
  · obtain ⟨hload, hread⟩ := loadUp_unlistedRead (k := 1 + eaWords sz ea) hr hpast
    have hdecode := decodeEa_completed he
    rw [ha, eaTouch_control hc] at hdecode
    cases ea with
    | dn n | an n | postinc n | predec n | imm v => exact nomatch hc
    | _ =>
      refine exec_next rfl ?_
      rw [Exec.bind_ok (fetchExt_start (extReady_mono he (by omega)))]
      exact (Exec.bind_ok hdecode).trans ((Exec.bind_ok hload).trans hread)

/-! ### Alternate bytes (O30) -/

/-- One more byte shifted in at the low end. -/
theorem shiftIn_byte {k : Nat} (acc : BitVec k) (b : Byte) :
    acc.setWidth 32 <<< 8 ||| b.setWidth 32 = (acc ++ b).setWidth 32 := by
  refine BitVec.eq_of_getLsbD_eq fun i hi => ?_
  simp only [BitVec.getLsbD_or, BitVec.getLsbD_shiftLeft, BitVec.getLsbD_setWidth, BitVec.getLsbD_append]
  rcases Nat.lt_or_ge i 8 with hlt | hge
  · simp [hlt, hi]
  · have hlow : i - 8 < 32 := by omega
    simp [hge, hi, Nat.not_lt.2 hge, hlow]

theorem storeAlternate_ok (vs : List Byte) {s : State} {a : Long} (hlen : 2 * vs.length < 2 ^ 24)
    (hw : ∀ j < vs.length, s.canWrite .b (a + BitVec.ofNat 32 (2 * j))) :
    ∃ m, storeAlternate vs a s = .ok () (s.setMem m) ∧ StoredApart s vs a m := by
  induction vs generalizing s a with
  | nil => exact ⟨s.mem, rfl, fun _ hj => absurd hj (Nat.not_lt_zero _), fun _ _ => rfl⟩
  | cons v vs ih =>
    rw [List.length_cons] at hlen hw
    have hnext : ∀ j, a + 2 + BitVec.ofNat 32 (2 * j) = a + BitVec.ofNat 32 (2 * (j + 1)) := fun j => by
      rw [show a + 2 = a + BitVec.ofNat 32 2 from rfl, add_ofNat_ofNat, Nat.add_comm, ← Nat.mul_succ]
    have hfirst := memWrite_eq (s := s) (sz := .b) (a := a) false v (by simpa using hw 0 (by omega))
    obtain ⟨m, hm, hstored⟩ := ih (s := s.setMem (s.mem.putValue .b false a v)) (a := a + 2) (by omega) fun j hj => by
      rw [hnext]
      exact (State.canWrite_congr rfl _ _).2 (hw (j + 1) (by omega))
    refine ⟨m, (Exec.bind_ok hfirst).trans hm, fun j hj => ?_, fun p hp => ?_⟩
    · match j with
      | 0 =>
        rw [Nat.mul_zero, BitVec.add_zero]
        refine (hstored.frame _ fun j hj => ?_).trans (s.mem.putValue_valueAt .b false a v)
        rw [hnext]
        have := physAddr_ne a (j := 0) (k := 2 * (j + 1)) (by omega) (by omega) (by omega)
        rwa [BitVec.add_zero] at this
      | j + 1 =>
        rw [← hnext]
        exact hstored.value j (by simpa using hj)
    · rw [hstored.frame p fun j hj => hnext j ▸ hp (j + 1) (by simpa using hj)]
      refine Memory.putValue_frame _ _ _ _ _ fun ⟨k, hk, e⟩ => hp 0 (by simp) ?_
      obtain rfl : k = 0 := Nat.lt_one_iff.1 hk
      simpa using e

theorem loadAlternate_succ {s : State} {n k : Nat} {a : Long} {acc : BitVec k} (hr : s.canRead .b a) :
    loadAlternate (n + 1) a (acc.setWidth 32) s = loadAlternate n (a + 2) ((acc ++ s.mem.byteAt a).setWidth 32) s := by
  rw [loadAlternate, Exec.bind_ok (memRead_ok .data hr)]
  exact congrArg (fun v => loadAlternate n (a + 2) v s) (shiftIn_byte acc _)

theorem loadAlternate_first {s : State} {n : Nat} {a : Long} (hr : s.canRead .b a) :
    loadAlternate (n + 1) a 0 s = loadAlternate n (a + 2) ((s.mem.byteAt a).setWidth 32) s := by
  rw [loadAlternate, Exec.bind_ok (memRead_ok .data hr)]
  exact congrArg (fun v => loadAlternate n (a + 2) v s) (BitVec.zero_or)

/-- Two bytes as a word, four as a long word. -/
theorem loadAlternate_ok {s : State} {a : Long} :
    ((∀ j < 2, s.canRead .b (a + BitVec.ofNat 32 (2 * j))) →
      loadAlternate 2 a 0 s = .ok ((s.mem.byteAt a ++ s.mem.byteAt (a + 2)).setWidth 32) s) ∧
    ((∀ j < 4, s.canRead .b (a + BitVec.ofNat 32 (2 * j))) →
      loadAlternate 4 a 0 s =
        .ok (s.mem.byteAt a ++ s.mem.byteAt (a + 2) ++ s.mem.byteAt (a + 4) ++ s.mem.byteAt (a + 6)) s) := by
  have e4 : a + 2 + 2 = a + 4 := BitVec.add_assoc _ _ _
  have e6 : a + 4 + 2 = a + 6 := BitVec.add_assoc _ _ _
  refine ⟨fun hr => ?_, fun hr => ?_⟩
  · have h0 : s.canRead .b a := by simpa using hr 0 (by decide)
    have h2 : s.canRead .b (a + 2) := hr 1 (by decide)
    rw [loadAlternate_first h0, loadAlternate_succ h2]
    rfl
  · have h0 : s.canRead .b a := by simpa using hr 0 (by decide)
    have h2 : s.canRead .b (a + 2) := hr 1 (by decide)
    have h4 : s.canRead .b (a + 4) := hr 2 (by decide)
    have h6 : s.canRead .b (a + 6) := hr 3 (by decide)
    rw [loadAlternate_first h0, loadAlternate_succ h2, e4, loadAlternate_succ h4, e6,
      loadAlternate_succ h6, BitVec.setWidth_eq]
    rfl

/-- Settles O30. -/
theorem movepMovesAlternateBytes : Obligations.MovepMovesAlternateBytes := by
  intro s dn an d16 a v he
  have hstore : ∀ vs : List Byte, 2 * vs.length < 2 ^ 24 →
      (∀ j < vs.length, s.canWrite .b (a + BitVec.ofNat 32 (2 * j))) →
      ∃ m, storeAlternate vs a (s.completed 1) = .ok () ((s.completed 1).setMem m) ∧ StoredApart s vs a m := by
    intro vs hlen hw
    obtain ⟨m, hm, hstored⟩ := storeAlternate_ok vs (s := s.completed 1) hlen hw
    exact ⟨m, hm, hstored.value, hstored.frame⟩
  refine ⟨fun hr => ?_, fun hr => ?_, fun hw => ?_, fun hw => ?_⟩
  · refine exec_next rfl ?_
    rw [Exec.bind_ok (fetchExt_start he), look_bind, look_bind]
    refine (Exec.bind_ok ((loadAlternate_ok (s := s.completed 1) (a := a)).1 hr)).trans ?_
    rw [update_apply, BitVec.setWidth_setWidth_of_le _ (by decide), BitVec.setWidth_eq]
    rfl
  · refine exec_next rfl ?_
    rw [Exec.bind_ok (fetchExt_start he), look_bind, look_bind]
    exact Exec.bind_ok ((loadAlternate_ok (s := s.completed 1) (a := a)).2 hr)
  · obtain ⟨m, hm, hstored⟩ := hstore [v.extractLsb' 8 8, v.extractLsb' 0 8] (by simp) hw
    refine ⟨m, exec_next rfl ?_, hstored⟩
    rw [Exec.bind_ok (fetchExt_start he), look_bind, look_bind]
    exact hm
  · obtain ⟨m, hm, hstored⟩ :=
      hstore [v.extractLsb' 24 8, v.extractLsb' 16 8, v.extractLsb' 8 8, v.extractLsb' 0 8] (by simp) hw
    refine ⟨m, exec_next rfl ?_, hstored⟩
    rw [Exec.bind_ok (fetchExt_start he), look_bind, look_bind]
    exact hm

end Sys2Proof.Machine
end

section
/-! Bus and address errors: the frame, the double fault, and where they are raised (O54 to O56). -/

namespace Sys2Proof.Machine

/-! ### What the processing of an error pushes -/

theorem savedIr_ok (ipc : Option Long) (inEntry : Bool) (s : State) :
    ∃ w n, savedIr ipc inEntry s = .ok w (s.drawn n) ∧ (inEntry = false → w = s.ir) := by
  cases ipc with
  | some a => exact ⟨_, 0, rfl, fun _ => rfl⟩
  | none =>
    cases inEntry with
    | true => exact ⟨_, 1, rfl, fun h => nomatch h⟩
    | false => exact ⟨_, 0, rfl, fun _ => rfl⟩

theorem drawPcx_ok (ipc : Option Long) (s : State) :
    ∃ v n, drawPcx ipc s = .ok v (s.drawn n) ∧ ∀ a, ipc = some a → ∃ k ≤ 8, v = a + 2 + BitVec.ofNat 32 k := by
  cases ipc with
  | none => exact ⟨_, 1, rfl, fun _ h => nomatch h⟩
  | some a =>
    refine ⟨_, 1, rfl, fun b hb => ?_⟩
    obtain rfl := Option.some.inj hb
    exact ⟨_, Nat.le_of_lt_succ (Nat.mod_lt _ (by decide)), rfl⟩

theorem inProgramSpace_ok (space : Space) (s : State) : ∃ p n, inProgramSpace space s = .ok p (s.drawn n) := by
  cases space with
  | data => exact ⟨_, 0, rfl⟩
  | program => exact ⟨_, 0, rfl⟩
  | pcRelative => exact ⟨_, 1, rfl⟩

theorem drawn_drawn (s : State) (m n : Nat) : (s.drawn m).drawn n = s.drawn (m + n) := by
  simp only [State.drawn, Nat.add_assoc]

/-- The status word of the frame, from its undefined bits, the access and the mode (R355). -/
def statusWord (undefined : Word) (f : MemFault) (inEntry supervisor program : Bool) : Word :=
  undefined.extractLsb' 5 11 ++ BitVec.ofBool (!f.access.write) ++ BitVec.ofBool inEntry ++ functionCode supervisor program

theorem statusWord_bits (u : Word) (f : MemFault) (inEntry supervisor program : Bool) :
    (statusWord u f inEntry supervisor program).getLsbD 4 = !f.access.write ∧
    (statusWord u f inEntry supervisor program).getLsbD 3 = inEntry ∧
    (statusWord u f inEntry supervisor program).getLsbD 2 = supervisor := by
  have hcode : (functionCode supervisor program).getLsbD 2 = supervisor := by cases supervisor <;> cases program <;> rfl
  have hword : ∀ k, (statusWord u f inEntry supervisor program).getLsbD k =
      (u.extractLsb' 5 11 ++ BitVec.ofBool (!f.access.write) ++ BitVec.ofBool inEntry ++ functionCode supervisor program :
        BitVec (11 + 1 + 1 + 3)).getLsbD k := fun _ => rfl
  simp only [hword, BitVec.getLsbD_append, hcode]
  simp

/-- The pushes of a group 0 error and its vector (R355). -/
def pushFault (pcx : Long) (sr ir : Word) (addr : Long) (ssw : Word) (v : Nat) : Exec Unit :=
  push32 pcx >>= fun _ => push16 sr >>= fun _ => push16 ir >>= fun _ => push32 addr >>= fun _ => push16 ssw >>= fun _ =>
    loadVector v

/-- The processing of an error up to its pushes: some draws, and supervisor mode. -/
theorem processMemFault_eq (ipc : Option Long) (inEntry : Bool) (f : MemFault) (s : State) :
    ∃ pcx ir ssw n,
      processMemFault ipc inEntry f s =
        pushFault pcx s.sr.toWord ir f.access.addr ssw f.error.vector ((s.drawn n).setSr s.sr.forHandler) ∧
      (∀ a, ipc = some a → ∃ k ≤ 8, pcx = a + 2 + BitVec.ofNat 32 k) ∧ (inEntry = false → ir = s.ir) ∧
      ssw.getLsbD 4 = !f.access.write ∧ ssw.getLsbD 3 = inEntry ∧ ssw.getLsbD 2 = s.sr.s := by
  obtain ⟨ir, n₁, hir, hir'⟩ := savedIr_ok ipc inEntry s
  obtain ⟨pcx, n₂, hpcx, hpcx'⟩ := drawPcx_ok ipc (s.drawn n₁)
  obtain ⟨program, n₃, hprogram⟩ := inProgramSpace_ok f.access.space ((s.drawn n₁).drawn n₂)
  rw [drawn_drawn] at hpcx hprogram
  rw [drawn_drawn] at hprogram
  refine ⟨pcx, ir, statusWord (Config.freeWord (s.drawn (n₁ + n₂ + n₃)).draws) f inEntry s.sr.s program, n₁ + n₂ + n₃ + 1,
    ?_, hpcx', hir', statusWord_bits _ _ _ _ _⟩
  rw [processMemFault, look_bind, Exec.bind_ok hir, Exec.bind_ok hpcx, Exec.bind_ok hprogram]
  rfl

/-! ### The frame (O54) -/

section
variable {s : State} (hs : s.sr.s = true) {x y : Long} {m : Memory}
include hs

theorem push32_at {v : Long} (hy : x - 4 = y) (hw : s.canWrite .l y) :
    push32 v ((s.setSsp x).setMem m) = .ok () ((s.setSsp y).setMem (m.putValue .l true y v)) := by
  have hsp : ((s.setSsp x).setMem m).sp = x := by simp [State.sp, hs]
  rw [push32_ok v (by rw [hsp, hy]; exact (State.canWrite_congr rfl _ _).2 hw), hsp, hy,
    State.putSp_supervisor _ _ (by simpa using hs)]
  rfl

theorem push16_at {v : Word} (hy : x - 2 = y) (hw : s.canWrite .w y) :
    push16 v ((s.setSsp x).setMem m) = .ok () ((s.setSsp y).setMem (m.putValue .w true y v)) := by
  have hsp : ((s.setSsp x).setMem m).sp = x := by simp [State.sp, hs]
  rw [push16_ok v (by rw [hsp, hy]; exact (State.canWrite_congr rfl _ _).2 hw), hsp, hy,
    State.putSp_supervisor _ _ (by simpa using hs)]
  rfl

end

/-- The places of the seven words, from the lowest. -/
theorem faultFrame_offsets (a : Long) :
    a - 4 = a - 14 + BitVec.ofNat 32 10 ∧ a - 6 = a - 14 + BitVec.ofNat 32 8 ∧ a - 8 = a - 14 + BitVec.ofNat 32 6 ∧
    a - 12 = a - 14 + BitVec.ofNat 32 2 ∧ a - 14 + BitVec.ofNat 32 0 = a - 14 :=
  ⟨sub_eq_add_ofNat _ 14 4 (by decide) (by decide), sub_eq_add_ofNat _ 14 6 (by decide) (by decide),
    sub_eq_add_ofNat _ 14 8 (by decide) (by decide), sub_eq_add_ofNat _ 14 12 (by decide) (by decide), BitVec.add_zero _⟩

/-- Memory with the seven words of the frame, the lowest at `b`. -/
def faultFrame (m : Memory) (b pcx : Long) (sr ir : Word) (addr : Long) (ssw : Word) : Memory :=
  ((((m.putValue .l true (b + BitVec.ofNat 32 10) pcx).putValue .w true (b + BitVec.ofNat 32 8) sr).putValue .w true
    (b + BitVec.ofNat 32 6) ir).putValue .l true (b + BitVec.ofNat 32 2) addr).putValue .w true (b + BitVec.ofNat 32 0) ssw

theorem faultFrame_values (m : Memory) (b pcx : Long) (sr ir : Word) (addr : Long) (ssw : Word) :
    (faultFrame m b pcx sr ir addr ssw).longAt (b + BitVec.ofNat 32 10) = pcx ∧
    (faultFrame m b pcx sr ir addr ssw).wordAt (b + BitVec.ofNat 32 8) = sr ∧
    (faultFrame m b pcx sr ir addr ssw).wordAt (b + BitVec.ofNat 32 6) = ir ∧
    (faultFrame m b pcx sr ir addr ssw).longAt (b + BitVec.ofNat 32 2) = addr ∧
    (faultFrame m b pcx sr ir addr ssw).wordAt (b + BitVec.ofNat 32 0) = ssw := by
  have hother := @Memory.putValue_valueAt_other
  have hsame := @Memory.putValue_valueAt
  refine ⟨?_, ?_, ?_, ?_, ?_⟩
  · show (faultFrame m b pcx sr ir addr ssw).valueAt .l _ = pcx
    rw [faultFrame, hother, hother, hother, hother, hsame] <;> decide
  · show (faultFrame m b pcx sr ir addr ssw).valueAt .w _ = sr
    rw [faultFrame, hother, hother, hother, hsame] <;> decide
  · show (faultFrame m b pcx sr ir addr ssw).valueAt .w _ = ir
    rw [faultFrame, hother, hother, hsame] <;> decide
  · show (faultFrame m b pcx sr ir addr ssw).valueAt .l _ = addr
    rw [faultFrame, hother, hsame] <;> decide
  · show (faultFrame m b pcx sr ir addr ssw).valueAt .w _ = ssw
    rw [faultFrame, hsame]

theorem faultFrame_read (m : Memory) (b pcx : Long) (sr ir : Word) (addr : Long) (ssw : Word) {p : Nat} (hp : ¬ spans b 14 p) :
    (faultFrame m b pcx sr ir addr ssw).read p = m.read p := by
  rw [faultFrame, Memory.putValue_frame _ _ _ _ _ (not_spans_of_sub hp (by decide)),
    Memory.putValue_frame _ _ _ _ _ (not_spans_of_sub hp (by decide)),
    Memory.putValue_frame _ _ _ _ _ (not_spans_of_sub hp (by decide)),
    Memory.putValue_frame _ _ _ _ _ (not_spans_of_sub hp (by decide)),
    Memory.putValue_frame _ _ _ _ _ (not_spans_of_sub hp (by decide))]

theorem pushFault_ok {s : State} {e : MemError} (hs : s.sr.s = true) (h : s.faultEntryReady e) (pcx : Long) (sr ir : Word)
    (addr : Long) (ssw : Word) :
    let m := faultFrame s.mem (s.ssp - 14) pcx sr ir addr ssw
    pushFault pcx sr ir addr ssw e.vector s =
      .ok () (((s.setSsp (s.ssp - 14)).setMem m).jumpTo (m.longAt (vectorAddr e.vector))) := by
  intro m
  obtain ⟨h4, h6, h8, h12, h14, hv⟩ := h
  obtain ⟨e4, e6, e8, e12, e14⟩ := faultFrame_offsets s.ssp
  have hdown : ∀ j k, s.ssp - 14 + BitVec.ofNat 32 (j + k) - BitVec.ofNat 32 k = s.ssp - 14 + BitVec.ofNat 32 j := by
    intro j k
    rw [← add_ofNat_ofNat, BitVec.add_sub_cancel]
  have hpcx := push32_at hs (x := s.ssp) (m := s.mem) (v := pcx) e4 (e4 ▸ h4)
  have hsr := fun m => push16_at hs (m := m) (v := sr) (hdown 8 2) (e6 ▸ h6)
  have hir := fun m => push16_at hs (m := m) (v := ir) (hdown 6 2) (e8 ▸ h8)
  have haddr := fun m => push32_at hs (m := m) (v := addr) (hdown 2 4) (e12 ▸ h12)
  have hssw := fun m => push16_at hs (m := m) (v := ssw) (hdown 0 2) (e14.symm ▸ h14)
  have hvector := loadVector_ok (s := (s.setSsp (s.ssp - 14 + BitVec.ofNat 32 0)).setMem m) ((State.canRead_congr rfl _ _).2 hv)
  refine (Exec.bind_ok hpcx).trans ?_
  refine (Exec.bind_ok (hsr _)).trans ?_
  refine (Exec.bind_ok (hir _)).trans ?_
  refine (Exec.bind_ok (haddr _)).trans ?_
  refine (Exec.bind_ok (hssw _)).trans ?_
  refine hvector.trans ?_
  rw [e14]
  rfl

/-- Settles O54. -/
theorem errorFrame : Obligations.ErrorFrame := by
  intro s ipc f hready t
  obtain ⟨pcx, ir, ssw, n, heq, hpcx, hir, h4, h3, h2⟩ := processMemFault_eq (some ipc) false f s
  have hpush := pushFault_ok (s := (s.drawn n).setSr s.sr.forHandler) (e := f.error) rfl hready pcx s.sr.toWord ir
    f.access.addr ssw
  obtain ⟨vpcx, vsr, vir, vaddr, vssw⟩ := faultFrame_values s.mem (s.ssp - 14) pcx s.sr.toWord ir f.access.addr ssw
  obtain ⟨e4, e6, e8, e12, e14⟩ := faultFrame_offsets s.ssp
  let m := faultFrame s.mem (s.ssp - 14) pcx s.sr.toWord ir f.access.addr ssw
  have ht : t = ((((s.drawn n).setSr s.sr.forHandler).setSsp (s.ssp - 14)).setMem m).jumpTo
      (m.longAt (vectorAddr f.error.vector)) := by
    simp only [t, takeMemFault, heq, hpush]
    rfl
  have hmem : t.mem = m := by rw [ht]; rfl
  obtain ⟨k, hk, hpcx⟩ := hpcx ipc rfl
  rw [e14] at vssw
  have hregs : t.ssp = s.ssp - 14 ∧ t.sr = { s.sr with s := true, t := false } ∧ t.run = s.run ∧ t.usp = s.usp ∧
      t.d = s.d ∧ t.a = s.a ∧ t.pc = t.mem.longAt (vectorAddr f.error.vector) := by
    rw [ht]
    exact ⟨rfl, rfl, rfl, rfl, rfl, rfl, rfl⟩
  obtain ⟨hssp, hsr, hrun, husp, hd, ha, hpc⟩ := hregs
  refine ⟨hssp, hsr, hrun, husp, hd, ha, hpc, ⟨k, hk, ?_⟩, ?_, ?_, ?_, ?_, ?_, ?_, fun p hp => ?_⟩
  · rw [hmem, e4, vpcx, hpcx]
  · rw [hmem, e6, vsr]
  · rw [hmem, e8, vir, hir rfl]
  · rw [hmem, e12, vaddr]
  · rw [hmem, vssw, h4]
  · rw [hmem, vssw, h3]
  · rw [hmem, vssw, h2]
  · rw [hmem, faultFrame_read _ _ _ _ _ _ _ hp]

/-! ### The double fault (O56) -/

theorem aligned_sub_four {a : Long} (h : a.getLsbD 0 = true) : aligned .l (a - 4) = false := by
  have hodd : (a - 4).getLsbD 0 = true := by
    simp only [BitVec.getLsbD, Nat.testBit_zero, decide_eq_true_eq, BitVec.toNat_sub] at h ⊢
    simp at h ⊢
    omega
  rw [aligned, hodd]
  rfl

/-- Settles O56. -/
theorem doubleFaultHalts : Obligations.DoubleFaultHalts := by
  intro s ipc inEntry f hodd
  obtain ⟨pcx, ir, ssw, n, heq, -⟩ := processMemFault_eq ipc inEntry f s
  have hpush : push32 pcx ((s.drawn n).setSr s.sr.forHandler) =
      .error (.mem ⟨.address, ⟨s.ssp - 4, true, .data⟩⟩) (((s.drawn n).setSr s.sr.forHandler).putSp (s.ssp - 4)) := by
    rw [push32, update_bind, look_bind, State.sp_putSp]
    exact memWrite_misaligned _ _ (aligned_sub_four hodd)
  rw [pushFault, Exec.bind_error hpush] at heq
  rw [takeMemFault, heq]
  exact ⟨rfl, State.putSp_mem _ _⟩

end Sys2Proof.Machine
end

section
/-! Accesses that fail, and what an instruction or a step makes of them (O55). -/

namespace Sys2Proof.Machine

/-! ### Reads -/

/-- Why a read of a size at an address fails: it is misaligned, or, with no device to answer a part of it, the platform leaves a
byte of it unanswered. -/
def ReadFails (s : State) (sz : Size) (a : Long) : MemError → Prop
  | .address => aligned sz a = false
  | .bus => aligned sz a = true ∧ s.readsDevice sz a = false ∧
      ∃ k < sz.bytes, s.readAnswer (physAddr (a + BitVec.ofNat 32 k)) = .busError

theorem ReadFails.congr {s t : State} {sz : Size} {a : Long} {e : MemError} (hm : t.memMap = s.memMap)
    (h : ReadFails s sz a e) : ReadFails t sz a e := by
  cases e with
  | address => exact h
  | bus => simpa only [ReadFails, State.readsDevice, State.readAnswer, hm] using h

theorem readFails_odd {s : State} {sz : Size} {a : Long} (hsz : sz ≠ .b) (h : a.getLsbD 0 = true) :
    ReadFails s sz a .address := by
  cases sz with
  | b => exact absurd rfl hsz
  | w | l => simp [ReadFails, aligned, h]

theorem answersRead_iff {s : State} {a b : Long} :
    s.answersRead [a, b] = true ↔ s.readAnswer (physAddr a) ≠ .busError ∧ s.readAnswer (physAddr b) ≠ .busError := by
  simp only [State.answersRead, List.all_cons, List.all_nil, Bool.and_true, Bool.and_eq_true, bne_iff_ne]

theorem answersRead_eq_false {s : State} {a b : Long} :
    s.answersRead [a, b] = false ↔ s.readAnswer (physAddr a) = .busError ∨ s.readAnswer (physAddr b) = .busError := by
  simp only [State.answersRead, List.all_cons, List.all_nil, Bool.and_true, Bool.and_eq_false_iff, bne_eq_false_iff_eq]

/-- A word cycle that reaches no device and that the platform answers, reads memory. -/
theorem cycleReadWord_memory {s : State} {acc : Access} {a : Long} (h : s.answersRead [a, a + 1] = true)
    (h0 : s.readAnswer (physAddr a) ≠ .device) (h1 : s.readAnswer (physAddr (a + 1)) ≠ .device) :
    ∃ v, cycleReadWord acc a s = .ok v s := by
  have hstored : ∀ x : ReadAnswer, x ≠ .busError → x ≠ .device → x = .stored := fun x => by cases x <;> simp
  obtain ⟨hbus0, hbus1⟩ := answersRead_iff.1 h
  refine ⟨s.mem.byteAt a ++ s.mem.byteAt (a + 1), ?_⟩
  rw [cycleReadWord, look_bind, h, if_pos rfl, Exec.bind_ok (busByte_ok (hstored _ hbus0 h0)),
    Exec.bind_ok (busByte_ok (hstored _ hbus1 h1))]
  rfl

theorem memRead_fails {s : State} {sz : Size} {a : Long} {e : MemError} (space : Space) (h : ReadFails s sz a e) :
    memRead sz space a s = .error (.mem ⟨e, ⟨a, false, space⟩⟩) s := by
  cases e with
  | address => exact memRead_misaligned space h
  | bus =>
    obtain ⟨ha, hdev, k, hk, hbus⟩ := h
    have hnodev : ∀ j < sz.bytes, s.readAnswer (physAddr (a + BitVec.ofNat 32 j)) ≠ .device := fun j hj e => by
      simp only [State.readsDevice, List.any_eq_false, List.mem_range] at hdev
      exact hdev j hj (by simp [e])
    rw [memRead, Exec.bind_ok (checkAligned_ok ha)]
    cases sz with
    | b =>
      obtain rfl : k = 0 := Nat.lt_one_iff.1 hk
      have hbyte : s.answersRead [a] = false := by simpa [State.answersRead] using hbus
      show cycleReadByte _ _ s = _
      rw [cycleReadByte, look_bind, hbyte]
      rfl
    | w =>
      refine cycleReadWord_unanswered (answersRead_eq_false.2 ?_)
      match k, hk with
      | 0, _ => exact .inl (by simpa using hbus)
      | 1, _ => exact .inr hbus
    | l =>
      have e3 : a + 2 + 1 = a + 3 := BitVec.add_assoc _ _ _
      cases hfirst : s.answersRead [a, a + 1] with
      | false => exact Exec.bind_error (cycleReadWord_unanswered hfirst)
      | true =>
        have hsecond : s.answersRead [a + 2, a + 2 + 1] = false := by
          obtain ⟨hbus0, hbus1⟩ := answersRead_iff.1 hfirst
          rw [answersRead_eq_false, e3]
          match k, hk with
          | 0, _ => exact absurd (by simpa using hbus) hbus0
          | 1, _ => exact absurd hbus hbus1
          | 2, _ => exact .inl hbus
          | 3, _ => exact .inr hbus
        obtain ⟨v, hv⟩ := cycleReadWord_memory (acc := ⟨a, false, space⟩) hfirst
          (by simpa using hnodev 0 (by decide)) (hnodev 1 (by decide))
        exact (Exec.bind_ok hv).trans (Exec.bind_error (cycleReadWord_unanswered hsecond))

/-! ### Writes -/

theorem answersWrite_eq_false {s : State} {a b : Long} :
    s.answersWrite [a, b] = false ↔ s.writeAnswer (physAddr a) = .busError ∨ s.writeAnswer (physAddr b) = .busError := by
  simp only [State.answersWrite, List.all_cons, List.all_nil, Bool.and_true, Bool.and_eq_false_iff, bne_eq_false_iff_eq]

theorem cycleWriteWord_unanswered {s : State} {acc : Access} {a : Long} (v : Word) (h : s.answersWrite [a, a + 1] = false) :
    cycleWriteWord acc a v s = .error (.mem ⟨.bus, acc⟩) s := by
  rw [cycleWriteWord, look_bind, h]
  rfl

theorem storeByte_frame (s : State) (a : Long) (v : Byte) :
    ∃ m, storeByte a v s = .ok () (s.setMem m) ∧ ∀ p, p ≠ physAddr a → m.read p = s.mem.read p := by
  rw [storeByte, update_apply]
  split
  · exact ⟨_, rfl, fun p hp => Memory.read_write_other _ _ hp.symm⟩
  · exact ⟨s.mem, rfl, fun _ _ => rfl⟩

/-- A word cycle that is answered changes its two bytes at most. -/
theorem cycleWriteWord_answered {s : State} {acc : Access} {a : Long} (v : Word) (h : s.answersWrite [a, a + 1] = true) :
    ∃ m, cycleWriteWord acc a v s = .ok () (s.setMem m) ∧ ∀ p, ¬ spans a 2 p → m.read p = s.mem.read p := by
  obtain ⟨m, hm, hframe⟩ := storeByte_frame s a (v.extractLsb' 8 8)
  obtain ⟨m', hm', hframe'⟩ := storeByte_frame (s.setMem m) (a + 1) (v.setWidth 8)
  refine ⟨m', ?_, fun p hp => ?_⟩
  · rw [cycleWriteWord, look_bind, h, if_pos rfl, Exec.bind_ok hm]
    exact hm'
  · rw [hframe' p fun e => hp ⟨1, by decide, e⟩]
    exact hframe p fun e => hp ⟨0, by decide, by simpa using e⟩

/-- Two word cycles of which the second fails, or already the first. -/
theorem cycleWriteWord_twice {s : State} {acc : Access} {a b : Long} (v w : Word)
    (h : s.answersWrite [a, a + 1] = false ∨ s.answersWrite [b, b + 1] = false) :
    ∃ m, (cycleWriteWord acc a v >>= fun _ => cycleWriteWord acc b w) s = .error (.mem ⟨.bus, acc⟩) (s.setMem m) ∧
      (s.answersWrite [a, a + 1] = false → m = s.mem) ∧ ∀ p, ¬ spans a 2 p → m.read p = s.mem.read p := by
  cases hfirst : s.answersWrite [a, a + 1] with
  | false => exact ⟨s.mem, Exec.bind_error (cycleWriteWord_unanswered v hfirst), fun _ => rfl, fun _ _ => rfl⟩
  | true =>
    obtain ⟨m, hm, hframe⟩ := cycleWriteWord_answered (acc := acc) v hfirst
    have hsecond : s.answersWrite [b, b + 1] = false := h.resolve_left fun e => Bool.noConfusion (e.symm.trans hfirst)
    exact ⟨m, (Exec.bind_ok hm).trans (cycleWriteWord_unanswered (s := s.setMem m) w hsecond), fun e => (nomatch e), hframe⟩

theorem memWrite_unanswered {s : State} {sz : Size} {lowFirst : Bool} {a : Long} (v : BitVec sz.bits) (ha : aligned sz a = true)
    (h : ∃ k < sz.bytes, s.writeAnswer (physAddr (a + BitVec.ofNat 32 k)) = .busError) :
    ∃ m, memWrite sz lowFirst a v s = .error (.mem ⟨.bus, ⟨a, true, .data⟩⟩) (s.setMem m) ∧
      (sz ≠ .l ∨ (∀ k < sz.bytes, s.writeAnswer (physAddr (a + BitVec.ofNat 32 k)) = .busError) → m = s.mem) ∧
      ∀ p, ¬ spans a sz.bytes p → m.read p = s.mem.read p := by
  obtain ⟨k, hk, hbus⟩ := h
  rw [memWrite, Exec.bind_ok (checkAligned_ok ha)]
  cases sz with
  | b =>
    obtain rfl : k = 0 := Nat.lt_one_iff.1 hk
    have hbyte : s.answersWrite [a] = false := by simpa [State.answersWrite] using hbus
    refine ⟨s.mem, ?_, fun _ => rfl, fun _ _ => rfl⟩
    show cycleWriteByte _ _ v s = _
    rw [cycleWriteByte, look_bind, hbyte]
    rfl
  | w =>
    refine ⟨s.mem, cycleWriteWord_unanswered v (answersWrite_eq_false.2 ?_), fun _ => rfl, fun _ _ => rfl⟩
    match k, hk with
    | 0, _ => exact .inl (by simpa using hbus)
    | 1, _ => exact .inr hbus
  | l =>
    have e3 : a + 2 + 1 = a + 3 := BitVec.add_assoc _ _ _
    have hsome : s.answersWrite [a, a + 1] = false ∨ s.answersWrite [a + 2, a + 2 + 1] = false := by
      rw [answersWrite_eq_false, answersWrite_eq_false, e3]
      match k, hk with
      | 0, _ => exact .inl (.inl (by simpa using hbus))
      | 1, _ => exact .inl (.inr hbus)
      | 2, _ => exact .inr (.inl hbus)
      | 3, _ => exact .inr (.inr hbus)
    cases lowFirst with
    | false =>
      obtain ⟨m, hm, hsame, hframe⟩ := cycleWriteWord_twice (acc := ⟨a, true, .data⟩) (v.extractLsb' 16 16) (v.setWidth 16) hsome
      refine ⟨m, hm, fun hall => hsame ?_, fun p hp => hframe p fun e => hp ?_⟩
      · exact answersWrite_eq_false.2 (.inl (by simpa using hall.resolve_left (fun h => h rfl) 0 (by decide)))
      · exact spans_mono (j := 0) (by simpa using e) (by decide)
    | true =>
      obtain ⟨m, hm, hsame, hframe⟩ := cycleWriteWord_twice (acc := ⟨a, true, .data⟩) (v.setWidth 16) (v.extractLsb' 16 16)
        hsome.symm
      refine ⟨m, hm, fun hall => hsame ?_, fun p hp => hframe p fun e => hp ?_⟩
      · exact answersWrite_eq_false.2 (.inl (hall.resolve_left (fun h => h rfl) 2 (by decide)))
      · exact spans_mono (j := 2) e (by decide)

/-! ### The fetch of an operation word -/

theorem step_fetchFault {s : State} {f : MemFault} (hline : s.resetLine = false) (hrun : s.run = .running)
    (h : fetchOpWord s = .error (.mem f) s) :
    step s = .next (interruptStage ((takeMemFault none false f s).setTraceDue false)) := by
  simp only [step, hline, hrun, fetchWords_error h, Bool.false_eq_true, if_false]
  rfl

theorem step_faulted {s : State} (hline : s.resetLine = false) (hrun : s.run = .running) :
    let faulted := fun (e : MemError) =>
      interruptStage ((takeMemFault none false ⟨e, ⟨s.pc, false, .program⟩⟩ s).setTraceDue false)
    if s.pc.getLsbD 0 then step s = .next (faulted .address)
    else s.readAnswer (physAddr s.pc) = .busError ∨ s.readAnswer (physAddr (s.pc + 1)) = .busError →
      step s = .next (faulted .bus) := by
  intro faulted
  split
  · next hodd => exact step_fetchFault hline hrun (fetchOpWord_misaligned (by simp [aligned, hodd]))
  · next heven =>
    intro h
    exact step_fetchFault hline hrun (fetchOpWord_unanswered (by simpa [aligned] using heven) (answersRead_eq_false.2 h))

/-! ### Inside an instruction -/

/-- What an instruction that raises an error answers. -/
theorem exec_mem {i : Instr} {s t : State} {f : MemFault} {body : Exec Unit} (hi : exec i s = runInstr body s)
    (h : body (s.completed 0) = .error (.mem f) t) :
    exec i s = .next ((takeMemFault (some s.pc) false f t).setTraceDue false) := hi ▸ runInstr_mem h

section
variable {s : State} {sz : Size} {ea : Ea} {a : Long} {space : Space} {lf : Bool} {e : MemError}
  (he : s.extReady (eaWords sz ea)) (ha : s.operand 0 sz ea = .mem a space lf)
include he ha

theorem readEa_fails (h : ReadFails s sz a e) :
    readEa sz ea (s.completed 0) =
      .error (.mem ⟨e, ⟨a, false, space⟩⟩) (eaTouch sz ea (s.completed (eaWords sz ea))) := by
  rw [readEa, Exec.bind_ok (decodeEa_start he), ha]
  exact memRead_fails space (h.congr (by simp))

theorem exec_tst_fails (h : ReadFails s sz a e) :
    exec (.tst sz ea) s = .next ((takeMemFault (some s.pc) false ⟨e, ⟨a, false, space⟩⟩
      (eaTouch sz ea (s.completed (eaWords sz ea)))).setTraceDue false) :=
  exec_mem rfl (Exec.bind_error (readEa_fails he ha h))

omit he in
/-- The read of R92 on a device that takes writes and answers no read. -/
theorem unlistedReadLoc_fails (h : ReadFails s sz a .bus) (hdev : s.reachesDevice sz a = true) :
    unlistedReadLoc sz (s.operand 0 sz ea) (eaTouch sz ea (s.completed (eaWords sz ea))) =
      .error (.mem ⟨.bus, ⟨a, false, space⟩⟩) (eaTouch sz ea (s.completed (eaWords sz ea))) := by
  have hdev' : (eaTouch sz ea (s.completed (eaWords sz ea))).reachesDevice sz a = true := by
    simpa [State.reachesDevice, State.isDevice] using hdev
  rw [ha]
  show unlistedRead sz space a _ = _
  rw [unlistedRead, look_bind, h.1, hdev', Bool.and_self, if_pos rfl]
  exact Exec.bind_error (memRead_fails space (h.congr (by simp)))

theorem exec_opWrite_fails {i : Instr} {f : State → BitVec sz.bits} (hi : exec i s = runInstr (opWrite sz f ea) s)
    (h : ReadFails s sz a .bus) (hdev : s.reachesDevice sz a = true) :
    exec i s = .next ((takeMemFault (some s.pc) false ⟨.bus, ⟨a, false, space⟩⟩
      (eaTouch sz ea (s.completed (eaWords sz ea)))).setTraceDue false) := by
  refine exec_mem hi ?_
  rw [opWrite, Exec.bind_ok (decodeEa_start he)]
  exact Exec.bind_error (unlistedReadLoc_fails ha h hdev)

theorem exec_clr_fails (h : ReadFails s sz a .bus) (hdev : s.reachesDevice sz a = true) :
    let t := eaTouch sz ea (s.completed (eaWords sz ea))
    ∃ u ∈ [t.nextDraw, t.nextDraw.setCcr ⟨s.sr.ccr.x, false, true, false, false⟩],
      exec (.clr sz ea) s = .next ((takeMemFault (some s.pc) false ⟨.bus, ⟨a, false, space⟩⟩ u).setTraceDue false) := by
  intro t
  have hread : (unlistedReadLoc sz (s.operand 0 sz ea) >>= fun _ => writeLoc sz (s.operand 0 sz ea) 0) t = _ :=
    Exec.bind_error (unlistedReadLoc_fails ha h hdev)
  have hbody : ∀ u, thenFlags (clrFlags s.sr.ccr)
      (unlistedReadLoc sz (s.operand 0 sz ea) >>= fun _ => writeLoc sz (s.operand 0 sz ea) 0) t =
        .error (.mem ⟨.bus, ⟨a, false, space⟩⟩) u →
      exec (.clr sz ea) s = .next ((takeMemFault (some s.pc) false ⟨.bus, ⟨a, false, space⟩⟩ u).setTraceDue false) := by
    intro u hu
    refine exec_mem rfl ?_
    rw [Exec.bind_ok (decodeEa_start he), look_bind, eaTouch_sr, State.completed_sr]
    exact hu
  rcases thenFlags_error (f := clrFlags s.sr.ccr) hread with hu | hu
  · exact ⟨_, List.mem_cons_self, hbody _ hu⟩
  · exact ⟨_, List.mem_cons_of_mem _ List.mem_cons_self, hbody _ hu⟩

end

/-- `Scc` to a byte that takes no write. -/
theorem exec_scc_unanswered {s : State} {cond : Cond} {ea : Ea} {a : Long} {space : Space} {lf : Bool}
    (he : s.extReady (eaWords .b ea)) (ha : s.operand 0 .b ea = .mem a space lf)
    (h : s.writeAnswer (physAddr a) = .busError) :
    exec (.scc cond ea) s = .next ((takeMemFault (some s.pc) false ⟨.bus, ⟨a, true, .data⟩⟩
      ((eaTouch .b ea (s.completed (eaWords .b ea))).afterUnlistedRead .b (s.operand 0 .b ea))).setTraceDue false) := by
  generalize ht : eaTouch .b ea (s.completed (eaWords .b ea)) = t
  have hmap : t.memMap = s.memMap := by simp [← ht]
  have hdev : t.reachesDevice .b a = false ∨ LocAnswered t .b (.mem a space lf) := by
    have hw : t.writeAnswer (physAddr a) = .busError := by simpa only [State.writeAnswer, hmap] using h
    by_cases hr : t.readAnswer (physAddr a) = .busError
    · refine .inl ?_
      simp [State.reachesDevice, State.isDevice, Size.bytes, hr, hw]
    · refine .inr fun k hk => ?_
      obtain rfl : k = 0 := Nat.lt_one_iff.1 hk
      simpa using hr
  have hread : unlistedReadLoc .b (.mem a space lf) t = .ok () (t.afterUnlistedRead .b (.mem a space lf)) := unlistedRead_ok hdev
  obtain ⟨m, hm, hsame, -⟩ := memWrite_unanswered (s := t.afterUnlistedRead .b (.mem a space lf)) (sz := .b) (lowFirst := lf)
    (if condHolds cond s.sr.ccr then 0xFF else 0) rfl
    ⟨0, by decide, by simpa only [State.writeAnswer, afterUnlistedRead_memMap, hmap, physAddr_add_zero] using h⟩
  obtain rfl := hsame (.inl Size.noConfusion)
  refine exec_mem (body := opWrite .b (fun s => if condHolds cond s.sr.ccr then 0xFF else 0) ea) rfl ?_
  have hsr : (t.afterUnlistedRead .b (.mem a space lf)).sr = s.sr := by simp [← ht]
  rw [opWrite, Exec.bind_ok (decodeEa_start he), ha, ht, Exec.bind_ok hread, look_bind, id, hsr]
  exact hm

/-! ### `CMPM` -/

section
variable {s : State} {rx ry : RegNum} {sz : Size} {e : MemError}

theorem exec_cmpm_source_fails (h : ReadFails s sz (s.getA ry) e) :
    exec (.cmpm rx sz ry) s = .next ((takeMemFault (some s.pc) false ⟨e, ⟨s.getA ry, false, .data⟩⟩
      (eaTouch sz (.postinc ry) (s.completed 0))).setTraceDue false) :=
  exec_mem rfl (Exec.bind_error (readEa_fails (ea := .postinc ry) (fun _ hk => nomatch hk) rfl h))

theorem exec_cmpm_destination_fails (ha : s.canRead sz (s.getA ry))
    (h : ReadFails s sz ((eaTouch sz (.postinc ry) (s.completed 0)).getA rx) e) :
    let t := eaTouch sz (.postinc ry) (s.completed 0)
    exec (.cmpm rx sz ry) s = .next ((takeMemFault (some s.pc) false ⟨e, ⟨t.getA rx, false, .data⟩⟩
      (eaTouch sz (.postinc rx) t)).setTraceDue false) := by
  intro t
  have hfirst : readEa sz (.postinc ry) (s.completed 0) = .ok (s.mem.valueAt sz (s.getA ry)) t :=
    readEa_start (fun _ hk => nomatch hk) ha
  have hdecode : decodeEa sz (.postinc rx) t = .ok (.mem (t.getA rx) .data false) (eaTouch sz (.postinc rx) t) := rfl
  have hsecond : readEa sz (.postinc rx) t = .error (.mem ⟨e, ⟨t.getA rx, false, .data⟩⟩) (eaTouch sz (.postinc rx) t) :=
    (Exec.bind_ok hdecode).trans (memRead_fails .data (h.congr (by simp [t])))
  exact exec_mem rfl ((Exec.bind_ok hfirst).trans (Exec.bind_error hsecond))

end

/-- Settles O55. -/
theorem misalignedAccessTakesError : Obligations.MisalignedAccessTakesError := by
  unfold Obligations.MisalignedAccessTakesError
  intro failed unread
  refine ⟨?access, fun s => step_faulted, ?tst, fun s cond ea a space lf => exec_scc_unanswered, ?device, ?cmpm⟩
  case access =>
    intro s sz lowFirst space a v
    exact ⟨fun hsz hodd => ⟨memRead_fails space (readFails_odd hsz hodd),
      memWrite_misaligned _ _ (readFails_odd (s := s) hsz hodd)⟩,
      fun h => memRead_fails (e := .bus) space h, memWrite_unanswered v⟩
  case tst =>
    intro s sz ea a space lf he ha
    exact ⟨fun hsz hodd => exec_tst_fails he ha (readFails_odd hsz hodd), fun h => exec_tst_fails (e := .bus) he ha h⟩
  case device =>
    intro s cond sz ea i a space lf he ha h hdev t
    refine ⟨?_, exec_clr_fails he ha h hdev⟩
    rintro (⟨rfl, rfl⟩ | ⟨rfl, rfl⟩)
    · exact exec_opWrite_fails (f := fun s => if condHolds cond s.sr.ccr then 0xFF else 0) he ha rfl h hdev
    · exact exec_opWrite_fails (sz := .w) (f := fun s => s.sr.toWord) he ha rfl h hdev
  case cmpm =>
    intro s rx ry sz a t b u
    refine ⟨fun hsz hodd => exec_cmpm_source_fails (readFails_odd hsz hodd), fun h => exec_cmpm_source_fails (e := .bus) h,
      fun ha => ⟨fun hsz hodd => ?_, fun h => ?_⟩⟩
    · exact exec_cmpm_destination_fails ha (readFails_odd hsz hodd)
    · exact exec_cmpm_destination_fails (e := .bus) ha h

end Sys2Proof.Machine
end

section
/-! The eight shifts and rotates, step by step and in closed form (O19). -/

namespace Sys2Proof.Machine

variable {w : Nat}

/-! ### Runs of steps -/

theorem shiftSteps_succ (k : ShiftKind) (n : Nat) (s : ShiftRun w) :
    shiftSteps k (n + 1) s = shiftStep k (shiftSteps k n s) := by
  induction n generalizing s with
  | zero => rfl
  | succ n ih => exact ih (shiftStep k s)

/-- What holds before the first step and is carried through every step holds after any number of steps. -/
theorem shiftSteps_induct {k : ShiftKind} {s : ShiftRun w} (P : Nat → ShiftRun w → Prop) (zero : P 0 s)
    (next : ∀ n r, P n r → P (n + 1) (shiftStep k r)) (n : Nat) : P n (shiftSteps k n s) := by
  induction n with
  | zero => exact zero
  | succ n ih =>
    rw [shiftSteps_succ]
    exact next n _ ih

/-- The kinds that leave `X` to itself. -/
theorem shiftSteps_x {k : ShiftKind} (keeps : ∀ r : ShiftRun w, (shiftStep k r).x = r.x) (n : Nat) (s : ShiftRun w) :
    (shiftSteps k n s).x = s.x :=
  shiftSteps_induct (fun _ r => r.x = s.x) rfl (fun _ r h => (keeps r).trans h) n

/-! ### The operand after `n` steps of a shift -/

theorem shiftSteps_lsl_v (n : Nat) (s : ShiftRun w) : (shiftSteps .lsl n s).v = s.v <<< n := by
  refine shiftSteps_induct (fun n r => r.v = s.v <<< n) (BitVec.shiftLeft_zero _).symm (fun n r h => ?_) n
  show r.v <<< 1 = s.v <<< (n + 1)
  rw [h, BitVec.shiftLeft_add]

theorem shiftSteps_lsr_v (n : Nat) (s : ShiftRun w) : (shiftSteps .lsr n s).v = s.v >>> n := by
  refine shiftSteps_induct (fun n r => r.v = s.v >>> n) (BitVec.ushiftRight_zero _).symm (fun n r h => ?_) n
  show r.v >>> 1 = s.v >>> (n + 1)
  rw [h, BitVec.shiftRight_add]

theorem shiftSteps_asr_v (n : Nat) (s : ShiftRun w) : (shiftSteps .asr n s).v = s.v.sshiftRight n := by
  refine shiftSteps_induct (fun n r => r.v = s.v.sshiftRight n) BitVec.sshiftRight_zero.symm (fun n r h => ?_) n
  show r.v.sshiftRight 1 = s.v.sshiftRight (n + 1)
  rw [h, BitVec.sshiftRight_add]

/-- An arithmetic shift left tells whether any of its values had another top bit than the operand. -/
theorem shiftSteps_asl (n : Nat) (v : BitVec w) (x c : Bool) :
    (shiftSteps .asl n ⟨v, x, c, false⟩).v = v <<< n ∧
    ((shiftSteps .asl n ⟨v, x, c, false⟩).moved = false ↔ ∀ j ≤ n, (v <<< j).msb = v.msb) := by
  refine shiftSteps_induct (fun n r => r.v = v <<< n ∧ (r.moved = false ↔ ∀ j ≤ n, (v <<< j).msb = v.msb)) ?_ ?_ n
  · simp [BitVec.msb]
  · rintro n r ⟨value, moved⟩
    have value' : (shiftStep .asl r).v = v <<< (n + 1) := by
      show r.v <<< 1 = _
      rw [value, BitVec.shiftLeft_add]
    have moved' : (shiftStep .asl r).moved = (r.moved || (v <<< (n + 1)).msb != (v <<< n).msb) := by
      rw [← value', ← value]
      rfl
    refine ⟨value', ?_⟩
    rw [moved', Bool.or_eq_false_iff, moved, bne_eq_false_iff_eq]
    constructor
    · rintro ⟨before, last⟩ j hj
      rcases Nat.lt_or_eq_of_le hj with hj | rfl
      · exact before j (by omega)
      · exact last.trans (before n le_rfl)
    · intro all
      exact ⟨fun j hj => all j (by omega), (all _ le_rfl).trans (all n (by omega)).symm⟩

/-! ### One more place of a rotate -/

theorem getLsbD_carryIn (x : Bool) (i : Nat) : (carryIn w x).getLsbD i = (x && decide (i = 0) && decide (0 < w)) := by
  cases x
  · simp [carryIn]
  · simp only [carryIn, if_true, BitVec.ofNat_eq_ofNat, BitVec.getLsbD_one, Bool.true_and]
    exact Bool.and_comm _ _

theorem rotateLeft_zero_places (v : BitVec w) : v.rotateLeft 0 = v := by
  refine BitVec.eq_of_getLsbD_eq fun i hi => ?_
  simp [hi]

theorem rotateRight_zero_places (v : BitVec w) : v.rotateRight 0 = v := by
  refine BitVec.eq_of_getLsbD_eq fun i hi => ?_
  simp [hi]

/-- A place further is the same from the count modulo the width. -/
theorem succ_mod_width (hw : 0 < w) (n : Nat) :
    (n % w + 1 < w ∧ (n + 1) % w = n % w + 1) ∨ (n % w + 1 = w ∧ (n + 1) % w = 0) := by
  have lt := Nat.mod_lt n hw
  have step : (n + 1) % w = (n % w + 1) % w := (Nat.mod_add_mod n w 1).symm
  rcases Nat.lt_or_eq_of_le (Nat.succ_le_of_lt lt) with h | h
  · exact .inl ⟨h, step.trans (Nat.mod_eq_of_lt h)⟩
  · refine .inr ⟨h, step.trans ?_⟩
    rw [show n % w + 1 = w from h, Nat.mod_self]

/-- The bits of a rotate to the left, by the count modulo the width. -/
theorem bit_rotateLeft (v : BitVec w) (n i : Nat) (hi : i < w) :
    (v.rotateLeft n).getLsbD i = if i < n % w then v.getLsbD (w - n % w + i) else v.getLsbD (i - n % w) := by
  rw [BitVec.getLsbD_rotateLeft]
  by_cases h : i < n % w <;> simp [h, hi]

/-- The bits of a rotate to the right, by the count modulo the width. -/
theorem bit_rotateRight (v : BitVec w) (n i : Nat) (hi : i < w) :
    (v.rotateRight n).getLsbD i = if i < w - n % w then v.getLsbD (n % w + i) else v.getLsbD (i - (w - n % w)) := by
  rw [BitVec.getLsbD_rotateRight]
  by_cases h : i < w - n % w <;> simp [h, hi]

theorem bit_rotateLeft_succ_zero (hw : 0 < w) (v : BitVec w) (n : Nat) :
    (v.rotateLeft (n + 1)).getLsbD 0 = (v.rotateLeft n).msb := by
  have lt := Nat.mod_lt n hw
  rw [BitVec.msb_eq_getLsbD_last, bit_rotateLeft v _ _ hw, bit_rotateLeft v n _ (by omega)]
  rcases succ_mod_width hw n with ⟨h, e⟩ | ⟨h, e⟩ <;> rw [e]
  · rw [if_pos (by omega), if_neg (by omega)]
    congr 1
    omega
  · rw [if_neg (by omega), if_neg (by omega)]
    congr 1
    omega

theorem bit_rotateLeft_succ_succ (v : BitVec w) (n i : Nat) (hi : i + 1 < w) :
    (v.rotateLeft (n + 1)).getLsbD (i + 1) = (v.rotateLeft n).getLsbD i := by
  rw [bit_rotateLeft v _ _ hi, bit_rotateLeft v n _ (by omega)]
  rcases succ_mod_width (w := w) (by omega) n with ⟨h, e⟩ | ⟨h, e⟩ <;> rw [e]
  · rw [Nat.add_sub_add_right]
    simp only [Nat.add_lt_add_iff_right]
    congr 2
    omega
  · rw [if_neg (by omega), if_pos (by omega)]
    congr 1
    omega

theorem bit_rotateRight_succ_last (hw : 0 < w) (v : BitVec w) (n : Nat) :
    (v.rotateRight (n + 1)).msb = (v.rotateRight n).getLsbD 0 := by
  have lt := Nat.mod_lt n hw
  rw [BitVec.msb_eq_getLsbD_last, bit_rotateRight v _ _ (by omega), bit_rotateRight v n _ hw]
  rcases succ_mod_width hw n with ⟨h, e⟩ | ⟨h, e⟩ <;> rw [e]
  · rw [if_neg (by omega), if_pos (by omega)]
    congr 1
    omega
  · rw [if_pos (by omega), if_pos (by omega)]
    congr 1
    omega

theorem bit_rotateRight_succ (v : BitVec w) (n i : Nat) (hi : i + 1 < w) :
    (v.rotateRight (n + 1)).getLsbD i = (v.rotateRight n).getLsbD (i + 1) := by
  have lt := Nat.mod_lt n (show 0 < w by omega)
  rw [bit_rotateRight v _ _ (by omega), bit_rotateRight v n _ hi]
  rcases succ_mod_width (w := w) (by omega) n with ⟨h, e⟩ | ⟨h, e⟩ <;> rw [e]
  · by_cases inside : i < w - (n % w + 1)
    · rw [if_pos inside, if_pos (by omega)]
      congr 1
      omega
    · rw [if_neg inside, if_neg (by omega)]
      congr 1
      omega
  · rw [if_pos (by omega), if_neg (by omega)]
    congr 1
    omega

/-- A rotate by one more place to the left is a step: the top bit comes in below. -/
theorem rotateLeft_succ (hw : 0 < w) (v : BitVec w) (n : Nat) :
    v.rotateLeft (n + 1) = (v.rotateLeft n <<< 1) ||| carryIn w (v.rotateLeft n).msb := by
  refine BitVec.eq_of_getLsbD_eq fun i hi => ?_
  rw [BitVec.getLsbD_or, BitVec.getLsbD_shiftLeft, getLsbD_carryIn]
  cases i with
  | zero =>
    rw [bit_rotateLeft_succ_zero hw]
    simp [hw]
  | succ i =>
    rw [bit_rotateLeft_succ_succ v n i hi]
    simp [hi]

/-- A rotate by one more place to the right is a step: the low bit comes in on top. -/
theorem rotateRight_succ (hw : 0 < w) (v : BitVec w) (n : Nat) :
    v.rotateRight (n + 1) = (v.rotateRight n >>> 1) ||| (carryIn w ((v.rotateRight n).getLsbD 0) <<< (w - 1)) := by
  refine BitVec.eq_of_getLsbD_eq fun i hi => ?_
  rw [BitVec.getLsbD_or, BitVec.getLsbD_ushiftRight, BitVec.getLsbD_shiftLeft, getLsbD_carryIn, Nat.add_comm 1 i]
  rcases Nat.lt_or_eq_of_le (Nat.succ_le_of_lt hi) with below | last
  · rw [bit_rotateRight_succ v n i below]
    simp [show i < w - 1 by omega]
  · obtain rfl : i = w - 1 := by omega
    rw [← BitVec.msb_eq_getLsbD_last, bit_rotateRight_succ_last hw, BitVec.getLsbD_of_ge _ (w - 1 + 1) (by omega)]
    simp [hw]

/-! ### The operand after `n` steps of a rotate -/

theorem shiftSteps_rol_v (hw : 0 < w) (n : Nat) (s : ShiftRun w) : (shiftSteps .rol n s).v = s.v.rotateLeft n := by
  refine shiftSteps_induct (fun n r => r.v = s.v.rotateLeft n) (rotateLeft_zero_places _).symm (fun n r h => ?_) n
  show (r.v <<< 1) ||| carryIn w r.v.msb = _
  rw [h, rotateLeft_succ hw]

theorem shiftSteps_ror_v (hw : 0 < w) (n : Nat) (s : ShiftRun w) : (shiftSteps .ror n s).v = s.v.rotateRight n := by
  refine shiftSteps_induct (fun n r => r.v = s.v.rotateRight n) (rotateRight_zero_places _).symm (fun n r h => ?_) n
  show (r.v >>> 1) ||| (carryIn w (r.v.getLsbD 0) <<< (w - 1)) = _
  rw [h, rotateRight_succ hw]

/-- The ring of one bit more that `X`, on top, and the operand make. -/
def ShiftRun.ring (r : ShiftRun w) : BitVec (w + 1) := BitVec.cons r.x r.v

theorem ring_setWidth (r : ShiftRun w) : r.ring.setWidth w = r.v := BitVec.setWidth_cons

theorem ring_msb (r : ShiftRun w) : r.ring.msb = r.x := BitVec.msb_cons

theorem ring_bit_zero (hw : 0 < w) (r : ShiftRun w) : r.ring.getLsbD 0 = r.v.getLsbD 0 := by
  rw [ShiftRun.ring, BitVec.getLsbD_cons, if_neg (by omega)]

/-- A step to the left through `X` turns the ring by one place. -/
theorem ring_roxl (hw : 0 < w) (r : ShiftRun w) :
    (shiftStep .roxl r).ring = (r.ring <<< 1) ||| carryIn (w + 1) r.ring.msb := by
  refine BitVec.eq_of_getLsbD_eq fun i hi => ?_
  rw [ring_msb, BitVec.getLsbD_or, BitVec.getLsbD_shiftLeft, getLsbD_carryIn]
  show (BitVec.cons r.v.msb ((r.v <<< 1) ||| carryIn w r.x)).getLsbD i = _
  rw [BitVec.getLsbD_cons, BitVec.getLsbD_or, BitVec.getLsbD_shiftLeft, getLsbD_carryIn, ShiftRun.ring,
    BitVec.getLsbD_cons, BitVec.msb_eq_getLsbD_last]
  cases i with
  | zero => simp [show ¬ 0 = w by omega, hw]
  | succ i =>
    by_cases top : i + 1 = w
    · simp [show w = i + 1 by omega]
    · simp [top, show ¬ i = w by omega, show i + 1 < w by omega, show i < w by omega]

/-- A step to the right through `X` turns the ring by one place. -/
theorem ring_roxr (hw : 0 < w) (r : ShiftRun w) :
    (shiftStep .roxr r).ring = (r.ring >>> 1) ||| (carryIn (w + 1) (r.ring.getLsbD 0) <<< w) := by
  refine BitVec.eq_of_getLsbD_eq fun i hi => ?_
  rw [ring_bit_zero hw, BitVec.getLsbD_or, BitVec.getLsbD_ushiftRight, BitVec.getLsbD_shiftLeft, getLsbD_carryIn]
  show (BitVec.cons (r.v.getLsbD 0) ((r.v >>> 1) ||| (carryIn w r.x <<< (w - 1)))).getLsbD i = _
  rw [BitVec.getLsbD_cons, BitVec.getLsbD_or, BitVec.getLsbD_ushiftRight, BitVec.getLsbD_shiftLeft, getLsbD_carryIn,
    ShiftRun.ring, BitVec.getLsbD_cons, Nat.add_comm 1 i]
  by_cases top : i = w
  · rw [BitVec.getLsbD_of_ge _ (i + 1) (by omega)]
    simp [top]
  · by_cases last : i + 1 = w
    · rw [BitVec.getLsbD_of_ge _ (i + 1) (by omega)]
      simp [show i = w - 1 by omega, hw, show ¬ w - 1 = w by omega, show w - 1 + 1 = w by omega,
        show w - 1 < w by omega]
    · simp [top, last, show i < w - 1 by omega, show i < w by omega]

theorem shiftSteps_roxl_ring (hw : 0 < w) (n : Nat) (s : ShiftRun w) :
    (shiftSteps .roxl n s).ring = s.ring.rotateLeft n := by
  refine shiftSteps_induct (fun n r => r.ring = s.ring.rotateLeft n) (rotateLeft_zero_places _).symm
    (fun n r h => ?_) n
  rw [ring_roxl hw, h, rotateLeft_succ (by omega)]

theorem shiftSteps_roxr_ring (hw : 0 < w) (n : Nat) (s : ShiftRun w) :
    (shiftSteps .roxr n s).ring = s.ring.rotateRight n := by
  refine shiftSteps_induct (fun n r => r.ring = s.ring.rotateRight n) (rotateRight_zero_places _).symm
    (fun n r h => ?_) n
  rw [ring_roxr hw, h, rotateRight_succ (by omega), Nat.add_sub_cancel]

/-! ### The carry of the last step -/

/-- The bit a shift to the left by one more place drops. -/
theorem msb_shiftLeft_of_lt (v : BitVec w) (n : Nat) :
    (v <<< n).msb = (decide (n + 1 ≤ w) && v.getLsbD (w - (n + 1))) := by
  rw [BitVec.msb_shiftLeft, BitVec.getMsbD_eq_getLsbD]
  congr 2
  omega

theorem bit_zero_sshiftRight (v : BitVec w) (n : Nat) (hw : 0 < w) :
    (v.sshiftRight n).getLsbD 0 = if n + 1 ≤ w then v.getLsbD n else v.msb := by
  rw [BitVec.getLsbD_sshiftRight]
  rw [decide_eq_false (by omega), Bool.not_false, Bool.true_and, Nat.add_zero]
  rfl

/-- The values of a shift to the left keep the top bit: in the operand, its top bits are all alike, or, where they are all shifted
out, it is zero. -/
theorem msb_shiftLeft_const_iff (v : BitVec w) (n : Nat) :
    (∀ j ≤ n, (v <<< j).msb = v.msb) ↔ if n < w then ∀ k ≤ n, v.getLsbD (w - 1 - k) = v.msb else v = 0 := by
  have bit : ∀ j, j < w → (v <<< j).msb = v.getLsbD (w - 1 - j) := fun j hj => by
    rw [msb_shiftLeft_of_lt, decide_eq_true (by omega), Bool.true_and, show w - (j + 1) = w - 1 - j by omega]
  split
  · exact forall₂_congr fun j hj => by rw [bit j (by omega)]
  next past =>
    constructor
    · intro all
      have top : v.msb = false := by
        rw [← all w (by omega), msb_shiftLeft_of_lt, decide_eq_false (by omega), Bool.false_and]
      refine BitVec.eq_of_getLsbD_eq fun i hi => ?_
      have e := bit (w - 1 - i) (by omega)
      rw [all _ (by omega), top, show w - 1 - (w - 1 - i) = i by omega] at e
      rw [← e]
      exact BitVec.getLsbD_zero.symm
    · rintro rfl j -
      simp

/-! ### Results and flags -/

/-- Where the run of a shift begins. -/
def shiftStart (k : ShiftKind) (v : BitVec w) (f : Ccr) : ShiftRun w := ⟨v, f.x, shiftZeroCarry k f.x, false⟩

theorem shiftResult_fst (k : ShiftKind) (n : Nat) (v : BitVec w) (f : Ccr) :
    (shiftResult k n v f).1 = (shiftSteps k n (shiftStart k v f)).v := rfl

theorem shiftResult_x (k : ShiftKind) (n : Nat) (v : BitVec w) (f : Ccr) :
    (shiftResult k n v f).2.x = (shiftSteps k n (shiftStart k v f)).x := rfl

/-- The carry is what the last step moves out. -/
theorem shiftResult_c_succ (k : ShiftKind) (n : Nat) (v : BitVec w) (f : Ccr) :
    (shiftResult k (n + 1) v f).2.c = (shiftStep k (shiftSteps k n (shiftStart k v f))).c :=
  congrArg ShiftRun.c (shiftSteps_succ k n _)

/-- The kinds whose steps move one bit into both carries leave `X` as the carry. -/
theorem shiftResult_x_succ {k : ShiftKind} (same : ∀ r : ShiftRun w, (shiftStep k r).x = (shiftStep k r).c) (n : Nat)
    (v : BitVec w) (f : Ccr) : (shiftResult k (n + 1) v f).2.x = (shiftResult k (n + 1) v f).2.c := by
  rw [shiftResult_c_succ, shiftResult_x, shiftSteps_succ, same]

theorem shiftResult_asl_c (n : Nat) (v : BitVec w) (f : Ccr) :
    (shiftResult .asl (n + 1) v f).2.c = (decide (n + 1 ≤ w) && v.getLsbD (w - (n + 1))) := by
  rw [shiftResult_c_succ, ← msb_shiftLeft_of_lt, ← (shiftSteps_asl n v f.x false).1]
  rfl

theorem shiftResult_lsl_c (n : Nat) (v : BitVec w) (f : Ccr) :
    (shiftResult .lsl (n + 1) v f).2.c = (decide (n + 1 ≤ w) && v.getLsbD (w - (n + 1))) := by
  rw [shiftResult_c_succ, ← msb_shiftLeft_of_lt]
  exact congrArg BitVec.msb (shiftSteps_lsl_v n (shiftStart .lsl v f))

theorem shiftResult_asr_c (hw : 0 < w) (n : Nat) (v : BitVec w) (f : Ccr) :
    (shiftResult .asr (n + 1) v f).2.c = if n + 1 ≤ w then v.getLsbD n else v.msb := by
  rw [shiftResult_c_succ, ← bit_zero_sshiftRight v n hw]
  exact congrArg (·.getLsbD 0) (shiftSteps_asr_v n (shiftStart .asr v f))

theorem shiftResult_lsr_c (n : Nat) (v : BitVec w) (f : Ccr) : (shiftResult .lsr (n + 1) v f).2.c = v.getLsbD n := by
  rw [shiftResult_c_succ, show v.getLsbD n = (v >>> n).getLsbD 0 by rw [BitVec.getLsbD_ushiftRight, Nat.add_zero]]
  exact congrArg (·.getLsbD 0) (shiftSteps_lsr_v n (shiftStart .lsr v f))

theorem shiftResult_rol_c (hw : 0 < w) (n : Nat) (v : BitVec w) (f : Ccr) :
    (shiftResult .rol (n + 1) v f).2.c = (v.rotateLeft (n + 1)).getLsbD 0 := by
  rw [shiftResult_c_succ, bit_rotateLeft_succ_zero hw]
  exact congrArg BitVec.msb (shiftSteps_rol_v hw n (shiftStart .rol v f))

theorem shiftResult_ror_c (hw : 0 < w) (n : Nat) (v : BitVec w) (f : Ccr) :
    (shiftResult .ror (n + 1) v f).2.c = (v.rotateRight (n + 1)).msb := by
  rw [shiftResult_c_succ, bit_rotateRight_succ_last hw]
  exact congrArg (·.getLsbD 0) (shiftSteps_ror_v hw n (shiftStart .ror v f))

theorem shiftResult_roxl (hw : 0 < w) (n : Nat) (v : BitVec w) (f : Ccr) :
    (shiftResult .roxl n v f).1 = ((BitVec.cons f.x v).rotateLeft n).setWidth w ∧
    (shiftResult .roxl n v f).2.x = ((BitVec.cons f.x v).rotateLeft n).msb := by
  have turned : (shiftSteps .roxl n (shiftStart .roxl v f)).ring = (BitVec.cons f.x v).rotateLeft n :=
    shiftSteps_roxl_ring hw n _
  rw [← turned, ring_setWidth, ring_msb]
  exact ⟨rfl, rfl⟩

theorem shiftResult_roxr (hw : 0 < w) (n : Nat) (v : BitVec w) (f : Ccr) :
    (shiftResult .roxr n v f).1 = ((BitVec.cons f.x v).rotateRight n).setWidth w ∧
    (shiftResult .roxr n v f).2.x = ((BitVec.cons f.x v).rotateRight n).msb := by
  have turned : (shiftSteps .roxr n (shiftStart .roxr v f)).ring = (BitVec.cons f.x v).rotateRight n :=
    shiftSteps_roxr_ring hw n _
  rw [← turned, ring_setWidth, ring_msb]
  exact ⟨rfl, rfl⟩

theorem shiftResult_asl_v (n : Nat) (v : BitVec w) (f : Ccr) :
    (shiftResult .asl n v f).2.v = false ↔ if n < w then ∀ k ≤ n, v.getLsbD (w - 1 - k) = v.msb else v = 0 :=
  (shiftSteps_asl n v f.x false).2.trans (msb_shiftLeft_const_iff v n)

theorem shiftResult_v_of_ne {k : ShiftKind} (hk : k ≠ .asl) (n : Nat) (v : BitVec w) (f : Ccr) :
    (shiftResult k n v f).2.v = false := by
  cases k
  case asl => exact absurd rfl hk
  all_goals rfl

/-- Settles O19: the value of each kind by induction on its steps, and the carry as what the last step moves out. -/
theorem shiftClosedForms : Obligations.ShiftClosedForms := by
  intro sz n v f hn
  have hw := bits_pos sz
  obtain ⟨n, rfl⟩ : ∃ m, n = m + 1 := ⟨n - 1, by omega⟩
  have xAsl := shiftResult_x_succ (k := .asl) (fun _ => rfl) n v f
  have xAsr := shiftResult_x_succ (k := .asr) (fun _ => rfl) n v f
  have xRoxl := shiftResult_x_succ (k := .roxl) (fun _ => rfl) n v f
  have xRoxr := shiftResult_x_succ (k := .roxr) (fun _ => rfl) n v f
  obtain ⟨roxlValue, roxlX⟩ := shiftResult_roxl hw (n + 1) v f
  obtain ⟨roxrValue, roxrX⟩ := shiftResult_roxr hw (n + 1) v f
  have cAsl := shiftResult_asl_c n v f
  have cAsr := shiftResult_asr_c hw n v f
  exact ⟨⟨(shiftSteps_asl (n + 1) v f.x false).1, cAsl, xAsl.trans cAsl⟩,
    ⟨shiftSteps_asr_v (n + 1) (shiftStart .asr v f), cAsr, xAsr.trans cAsr⟩,
    ⟨shiftSteps_lsl_v (n + 1) (shiftStart .lsl v f), shiftResult_lsl_c n v f, shiftSteps_x (fun _ => rfl) _ _⟩,
    ⟨shiftSteps_lsr_v (n + 1) (shiftStart .lsr v f), shiftResult_lsr_c n v f, shiftSteps_x (fun _ => rfl) _ _⟩,
    ⟨shiftSteps_rol_v hw (n + 1) (shiftStart .rol v f), shiftResult_rol_c hw n v f, shiftSteps_x (fun _ => rfl) _ _⟩,
    ⟨shiftSteps_ror_v hw (n + 1) (shiftStart .ror v f), shiftResult_ror_c hw n v f, shiftSteps_x (fun _ => rfl) _ _⟩,
    ⟨roxlValue, xRoxl.symm.trans roxlX, roxlX⟩,
    ⟨roxrValue, xRoxr.symm.trans roxrX, roxrX⟩,
    shiftResult_asl_v (n + 1) v f,
    fun k => ⟨rfl, rfl, fun hk => shiftResult_v_of_ne hk _ _ _⟩⟩

end Sys2Proof.Machine
end
